-- ==== Sys2Proof/Word.lean ====
section
/-! DEFINITION. The words of the W48: bytes, stamps, addresses, packet identifiers, and the index types of its tables.
Everything that computes on them stands in Machine/Operands.lean. -/

namespace Sys2Proof

/-- One byte of packet memory. -/
abbrev Byte := BitVec 8

/-- A stamp: a 32-bit count of 90 kHz ticks (R2). -/
abbrev Stamp := BitVec 32

/-- A 36-bit byte address of packet memory (spec/00, section 1.5). -/
abbrev Addr := BitVec 36

/-- A 13-bit packet identifier. -/
abbrev Pid := BitVec 13

/-- A 33-bit programme clock reference base (spec/00, section 1.5). -/
abbrev PcrBase := BitVec 33

/-- The network's name for a break: 32 bits, any value (R64). -/
abbrev EventId := BitVec 32

/-- A service, 0 to 47. -/
abbrev ServiceIx := Fin 48

/-- An insertion source, 0 to 31. -/
abbrev SourceIx := Fin 32

/-- A requester ID, 0 to 63. -/
abbrev RequesterId := Fin 64

/-- An entry of the Read Tracking Table, 0 to 31. -/
abbrev EntryIx := Fin 32

/-- A command cell, 0 to 15. -/
abbrev CellIx := Fin 16

/-- An alert group, 0 to 7. -/
abbrev GroupIx := Fin 8

/-- An alert slot, 0 to 3. -/
abbrev AlertIx := Fin 4

/-- An avail of a service, 0 to 15. -/
abbrev AvailIx := Fin 16

/-- A component index of a service, 0 to 7. -/
abbrev ComponentIx := Fin 8

end Sys2Proof
end

