-- ==== Sys2Proof/Config.lean ====
section
/-! DEFINITION. What is fixed for the part: the sizes its tables have, its fixed durations, and the one value the spec
leaves open (a constant with no body: nothing can tell what it is). -/

namespace Sys2Proof.Config

/-- The Outstanding Read List holds at most 48 reads (R23). -/
def outstandingMax : Nat := 48

/-- The Deadline Bank has 64 channels (R89). -/
def channelMax : Nat := 64

/-- A Splice Schedule holds at most 4 entries (R78). -/
def scheduleMax : Nat := 4

/-- The Intake Queue holds at most 8 entries (R158). -/
def intakeMax : Nat := 8

/-- The read deadline of 500 µs (R38), which is 45 ticks of 90 kHz. DEDUCED (log 11). -/
def readDeadlineTicks : Stamp := 45

/-- FREE VALUE (log 12). How many of a snapshot record's 16 beats are handed to the memory port by the event that
begins STATUS SNAPSHOT: R163 says when the last one is handed over, not when each of the others is. -/
opaque snapshotBeatsFirst : Nat → Fin 16

end Sys2Proof.Config
end

