-- ==== Sys2Proof/Syntax.lean ====
section
/-! DEFINITION. The commands of the W48: one constructor of Instr for each row of spec/opcode_table.json, with its
operands. Every row carries `now`, what the stamp input reads when the step is taken (R2; log 1). -/

namespace Sys2Proof

/-- One byte of a write with its byte enable (spec/02, section 2.1). -/
structure LaneByte where
  data : Byte
  enable : Bool
  deriving DecidableEq, Repr

/-- A card-port write: requester, address of its first byte, data and byte enables (spec/02, section 2.1). -/
structure PortWrite where
  requester : RequesterId
  addr : Addr
  bytes : List LaneByte
  deriving DecidableEq, Repr

/-- A card-port read: requester, address of its first byte, length in beats of 16 bytes (spec/02, section 2.1). -/
structure PortRead where
  requester : RequesterId
  addr : Addr
  beats : Nat
  deriving DecidableEq, Repr

/-- The status of a read's answer (spec/02, section 2.1). -/
inductive ReadStatus where
  | ok
  | error
  deriving DecidableEq, Repr

/-- One of the two local slots of a service (R116). -/
inductive SlotLetter where
  | a
  | b
  deriving DecidableEq, Repr

/-- What may own a source's attachment or a deadline channel: a break entry or a local slot (R55, R89). -/
inductive InsOwner where
  | brk (service : ServiceIx) (event : EventId)
  | loc (service : ServiceIx) (letter : SlotLetter)
  deriving DecidableEq, Repr

/-- The 12 beats memory answers for a slot (R1). -/
abbrev SlotData := Vector Byte 192

/-- The 48 parameter bytes p0 to p47 of a command cell (R177). -/
abbrev Params := Vector Byte 48

/-- A command as the Command Unit receives it from a cell: who submitted it, the cell, the sequence tag and the
parameter bytes of beats 1 to 3 (R156, R157, R177). The command code is the row's own. -/
structure CellCommand where
  requester : RequesterId
  cell : CellIx
  tag : Byte
  params : Params
  deriving DecidableEq, Repr

/-- The rows of spec/opcode_table.json, in the table's order. -/
inductive Instr where
  | powerOnReset (now : Stamp) (straps : BitVec 16)
  | writeTaken (now : Stamp) (w : PortWrite)
  | consumerIndexWrite (now : Stamp) (value : BitVec 32)
  | readTaken (now : Stamp) (r : PortRead)
  | readIssue (now : Stamp)
  | plainReadAnswer (now : Stamp) (status : ReadStatus) (data : List Byte)
  | classification (now : Stamp) (data : SlotData)
  | networkReadError (now : Stamp)
  | sourceFetchAnswer (now : Stamp) (data : SlotData)
  | sourceFetchError (now : Stamp)
  | rewrite (now : Stamp) (entry : EntryIx)
  | completion (now : Stamp) (requester : RequesterId)
  | readDeadlineExpiry (now : Stamp) (entry : EntryIx)
  | orphanAnswer (now : Stamp)
  | startCheckAnswer (now : Stamp) (status : ReadStatus) (data : SlotData)
  | overlayLoadAnswer (now : Stamp) (status : ReadStatus) (data : SlotData)
  | internalReadExpiry (now : Stamp)
  | snapshotWriteComplete (now : Stamp)
  | channelExpiry (now : Stamp)
  | staleStampDeparture (now : Stamp) (owner : InsOwner)
  | maximumDurationExpiry (now : Stamp) (slot : AlertIx)
  | recoveryTimerExpiry (now : Stamp)
  | periodTimerExpiry (now : Stamp)
  | armFrame (now : Stamp)
  | goFrame (now : Stamp)
  | endFrame (now : Stamp)
  | keepaliveFrame (now : Stamp)
  | clearFrame (now : Stamp)
  | statusRead (now : Stamp)
  | frameDiscard (now : Stamp)
  | enable (now : Stamp) (c : CellCommand)
  | disable (now : Stamp) (c : CellCommand)
  | restart (now : Stamp) (c : CellCommand)
  | statusSnapshot (now : Stamp) (c : CellCommand)
  | requesterRoleSet (now : Stamp) (c : CellCommand)
  | serviceDefine (now : Stamp) (c : CellCommand)
  | serviceRemove (now : Stamp) (c : CellCommand)
  | componentSet (now : Stamp) (c : CellCommand)
  | serviceOptions (now : Stamp) (c : CellCommand)
  | forceNetwork (now : Stamp) (c : CellCommand)
  | releaseService (now : Stamp) (c : CellCommand)
  | sourceDefine (now : Stamp) (c : CellCommand)
  | sourceRemove (now : Stamp) (c : CellCommand)
  | sourceFlush (now : Stamp) (c : CellCommand)
  | availBind (now : Stamp) (c : CellCommand)
  | availUnbind (now : Stamp) (c : CellCommand)
  | breakInsert (now : Stamp) (c : CellCommand)
  | breakReturn (now : Stamp) (c : CellCommand)
  | breakCancel (now : Stamp) (c : CellCommand)
  | breakEndNow (now : Stamp) (c : CellCommand)
  | localLoad (now : Stamp) (c : CellCommand)
  | localCancel (now : Stamp) (c : CellCommand)
  | alertGroupSet (now : Stamp) (c : CellCommand)
  | alertStart (now : Stamp) (c : CellCommand)
  | alertEnd (now : Stamp) (c : CellCommand)
  | alertOverlayLoad (now : Stamp) (c : CellCommand)
  | linkSet (now : Stamp) (c : CellCommand)
  | errorPolicy (now : Stamp) (c : CellCommand)
  | errorClear (now : Stamp) (c : CellCommand)
  | resume (now : Stamp) (c : CellCommand)
  | reportRingSet (now : Stamp) (c : CellCommand)
  | unknownCommand (now : Stamp) (code : Byte) (c : CellCommand)
  | linkByteReceived (now : Stamp) (start : Bool) (byte : Byte)
  deriving DecidableEq, Repr

/-- What the stamp input reads when the row is taken. -/
def Instr.now : Instr → Stamp
  | .powerOnReset n _ | .writeTaken n _ | .consumerIndexWrite n _ | .readTaken n _ | .readIssue n
  | .plainReadAnswer n _ _ | .classification n _ | .networkReadError n | .sourceFetchAnswer n _ | .sourceFetchError n
  | .rewrite n _ | .completion n _ | .readDeadlineExpiry n _ | .orphanAnswer n | .startCheckAnswer n _ _
  | .overlayLoadAnswer n _ _ | .internalReadExpiry n | .snapshotWriteComplete n | .channelExpiry n
  | .staleStampDeparture n _ | .maximumDurationExpiry n _ | .recoveryTimerExpiry n | .periodTimerExpiry n
  | .armFrame n | .goFrame n | .endFrame n | .keepaliveFrame n | .clearFrame n | .statusRead n | .frameDiscard n
  | .enable n _ | .disable n _ | .restart n _ | .statusSnapshot n _ | .requesterRoleSet n _ | .serviceDefine n _
  | .serviceRemove n _ | .componentSet n _ | .serviceOptions n _ | .forceNetwork n _ | .releaseService n _
  | .sourceDefine n _ | .sourceRemove n _ | .sourceFlush n _ | .availBind n _ | .availUnbind n _ | .breakInsert n _
  | .breakReturn n _ | .breakCancel n _ | .breakEndNow n _ | .localLoad n _ | .localCancel n _ | .alertGroupSet n _
  | .alertStart n _ | .alertEnd n _ | .alertOverlayLoad n _ | .linkSet n _ | .errorPolicy n _ | .errorClear n _
  | .resume n _ | .reportRingSet n _ | .unknownCommand n _ _ | .linkByteReceived n _ _ => n

end Sys2Proof
end

