-- ==== Sys2Proof/WellFormed.lean ====
section
/-! DEFINITION. Which operands a transaction can have. Most shapes are fixed by their types; what is left are the
lengths of card-port transactions and answers, and the codes UNKNOWN_COMMAND stands for. -/

namespace Sys2Proof

/-- A transaction carries 1 to 16 beats (spec/00, section 1.5). -/
def beatsInRange (n : Nat) : Bool := 1 ≤ n && n ≤ 16

/-- A write's bytes are a whole number of beats, 1 to 16 of them (spec/02, section 2.1). -/
def PortWrite.wf (w : PortWrite) : Bool := w.bytes.length % 16 == 0 && beatsInRange (w.bytes.length / 16)

/-- A read is 1 to 16 beats long (spec/02, section 2.1). -/
def PortRead.wf (r : PortRead) : Bool := beatsInRange r.beats

/-- An answer's data is a whole number of beats, 1 to 16 of them (spec/02, section 2.1). -/
def answerWf (data : List Byte) : Bool := data.length % 16 == 0 && beatsInRange (data.length / 16)

/-- The command codes of the table of section 10.4. -/
def knownCodes : List Nat :=
  [0x01, 0x02, 0x03, 0x04, 0x05, 0x10, 0x11, 0x12, 0x13, 0x14, 0x15, 0x18, 0x19, 0x1A] ++
  [0x20, 0x21, 0x24, 0x25, 0x26, 0x27, 0x2C, 0x2D, 0x30, 0x31, 0x32, 0x33, 0x38, 0x40, 0x41, 0x42, 0x43]

/-- The code is not in the table of section 10.4 (R158). -/
def unknownCode (code : Byte) : Bool := !(knownCodes.contains code.toNat)

/-- The operands are ones a transaction can have. -/
def Instr.wellFormed : Instr → Bool
  | .writeTaken _ w => w.wf
  | .readTaken _ r => r.wf
  | .plainReadAnswer _ _ data => answerWf data
  | .unknownCommand _ code _ => unknownCode code
  | .powerOnReset _ _ | .consumerIndexWrite _ _ | .readIssue _ | .classification _ _ | .networkReadError _
  | .sourceFetchAnswer _ _ | .sourceFetchError _ | .rewrite _ _ | .completion _ _ | .readDeadlineExpiry _ _
  | .orphanAnswer _ | .startCheckAnswer _ _ _ | .overlayLoadAnswer _ _ _ | .internalReadExpiry _
  | .snapshotWriteComplete _ | .channelExpiry _ | .staleStampDeparture _ _ | .maximumDurationExpiry _ _
  | .recoveryTimerExpiry _ | .periodTimerExpiry _ | .armFrame _ | .goFrame _ | .endFrame _ | .keepaliveFrame _
  | .clearFrame _ | .statusRead _ | .frameDiscard _ | .enable _ _ | .disable _ _ | .restart _ _
  | .statusSnapshot _ _ | .requesterRoleSet _ _ | .serviceDefine _ _ | .serviceRemove _ _ | .componentSet _ _
  | .serviceOptions _ _ | .forceNetwork _ _ | .releaseService _ _ | .sourceDefine _ _ | .sourceRemove _ _
  | .sourceFlush _ _ | .availBind _ _ | .availUnbind _ _ | .breakInsert _ _ | .breakReturn _ _ | .breakCancel _ _
  | .breakEndNow _ _ | .localLoad _ _ | .localCancel _ _ | .alertGroupSet _ _ | .alertStart _ _ | .alertEnd _ _
  | .alertOverlayLoad _ _ | .linkSet _ _ | .errorPolicy _ _ | .errorClear _ _ | .resume _ _ | .reportRingSet _ _
  | .linkByteReceived _ _ _ => true

end Sys2Proof
end

