-- ==== Sys2Proof/Decode.lean ====
section
/-! DEFINITION. What a word spells by the bits of spec/opcode_table.json. No row of the table gives bits (every row's
"fields" is empty and none has "fixed"), so no word spells a command (log 29). How the bytes of a command cell are read
as a command is in Machine/CommandUnit.lean, from R177 and R178. -/

namespace Sys2Proof

/-- The command a word of `nbits` bits spells by the table's bits: none, since no row gives bits. -/
def decodeTableWord (_nbits _w : Nat) : Option Instr := none

end Sys2Proof
end

