-- ==== Sys2Proof/Machine/State.lean ====
section
/-! DEFINITION. The state of the W48 as plain data: every record the spec gives the part, each with its reset values. -/

namespace Sys2Proof.Machine

/-! ### Tables of fixed size -/

/-- The record at an index of a table of fixed size. -/
def vget {α : Type} {n : Nat} (v : Vector α n) (i : Fin n) : α := v[i.val]

/-- A table with one record replaced. -/
def vset {α : Type} {n : Nat} (v : Vector α n) (i : Fin n) (x : α) : Vector α n := v.set i.val x

/-! ### Names -/

/-- The part mode (R168). -/
inductive Mode where
  | passive
  | active
  | bypass
  deriving DecidableEq, Repr

/-- The class of a requester ID (R24). -/
inductive Role where
  | control
  | ingest
  | output
  | player
  | other
  deriving DecidableEq, Repr

/-- The kind of a component (spec/01, section 1.2). -/
inductive CompKind where
  | video
  | audio
  | data
  deriving DecidableEq, Repr

/-- The source of the last packet emitted on a component's PID (R11). -/
inductive CurSource where
  | network
  | brk
  | loc
  | alert
  deriving DecidableEq, Repr

/-- A component's alert state (R137). -/
inductive AlertState where
  | none
  | pending
  | taken
  deriving DecidableEq, Repr

/-- A service's mode: the scheduled replacement in force (spec/01, section 1.6). -/
inductive ServiceMode where
  | network
  | brk
  | loc
  deriving DecidableEq, Repr

/-- Why a service is held (R19). -/
inductive HeldCause where
  | error
  | control
  deriving DecidableEq, Repr

/-- STREAM rings are consumed, LOOP rings replayed (spec/03). -/
inductive SourceMode where
  | stream
  | loop
  deriving DecidableEq, Repr

/-- Why an owner is NOT-READY (R87, R119). -/
inductive NotReadyCause where
  | noSource
  | sourceBusy
  | bypass
  deriving DecidableEq, Repr

/-- The state of a break entry; the not-ready cause stands with NOT-READY (spec/05, section 5.1). -/
inductive EntryState where
  | scheduled
  | ready
  | notReady (cause : NotReadyCause)
  | active
  deriving DecidableEq, Repr

/-- The state of a local slot that is not EMPTY (spec/07, section 7.1). -/
inductive SlotState where
  | loaded
  | ready
  | notReady (cause : NotReadyCause)
  | running
  deriving DecidableEq, Repr

/-- Where a return stamp comes from (R98). -/
inductive ReturnOrigin where
  | cueIn
  | duration
  deriving DecidableEq, Repr

/-- Where an alert comes from (R132). -/
inductive AlertOrigin where
  | link
  | control
  deriving DecidableEq, Repr

/-- A severity of an error kind (R164). -/
inductive Severity where
  | notice
  | service
  | fatal
  deriving DecidableEq, Repr

/-- The 22 error kinds in code order (spec/11, section 11.1). -/
inductive ErrorKind where
  | cueCheck
  | cueFormat
  | cueUnmatched
  | scheduleFull
  | duplicateEvent
  | partialWrite
  | unalignedRead
  | networkFormat
  | sourceOrder
  | sourceOverrun
  | sourceFormat
  | sourceUnderrun
  | noClock
  | noTimer
  | controlIntrusion
  | cellBusy
  | downstreamError
  | readTimeout
  | linkFormat
  | linkLost
  | reportOverflow
  | unmappedPid
  deriving DecidableEq, Repr

/-- The decision of a SLOT read (R33). -/
inductive Decision where
  | pass
  | substituteBreak
  | substituteLocal
  | substituteAlert
  | stuffNull
  | overlay
  deriving DecidableEq, Repr

/-- The state of a taken RTT entry (spec/02, section 2.4). -/
inductive EntryPhase where
  | awaitNetwork
  | awaitSource
  | awaitTurn
  | ready
  deriving DecidableEq, Repr

/-! ### Records -/

/-- A range of packet memory: base and number of slots (R3, R44). -/
structure Window where
  base : Addr
  slots : Nat
  deriving DecidableEq, Repr

/-- A pair of a remap list: source PID to component index (spec/04, section 4.4). -/
structure RemapPair where
  pid : Pid
  comp : ComponentIx
  deriving DecidableEq, Repr

/-- A binding: source, replace set (bit n names component n) and remap list (spec/04, section 4.4). -/
structure Binding where
  source : SourceIx
  replaceSet : BitVec 8
  remap : List RemapPair
  deriving DecidableEq, Repr

/-- A component record (spec/01, section 1.2). -/
structure Component where
  pid : Pid
  kind : CompKind
  lead : Bool
  pcr : Bool
  cur : CurSource
  rejoin : Bool
  outCc : Option (BitVec 4)
  ccOffset : BitVec 4
  alert : AlertState
  cursor : Nat
  deriving DecidableEq, Repr

/-- Which insertion a substitution belongs to (R95). -/
inductive InsRef where
  | brk (event : EventId) (intake : BitVec 32)
  | loc (letter : SlotLetter) (start : Stamp)
  deriving DecidableEq, Repr

/-- The trailing record's content: the insertion that last ended and its PCR offset (R114). -/
structure Trailing where
  ref : InsRef
  pcrOffset : Option PcrBase
  deriving DecidableEq, Repr

/-- A return stamp with its origin (R98). -/
structure ReturnStamp where
  stamp : Stamp
  origin : ReturnOrigin
  deriving DecidableEq, Repr

/-- A break entry (spec/05, section 5.1). Its deadline channel is the one of the Deadline Bank it owns. -/
structure BreakEntry where
  event : EventId
  intake : BitVec 32
  avail : AvailIx
  splice : Stamp
  duration : Option (BitVec 32)
  ret : Option ReturnStamp
  state : EntryState
  binding : Option Binding
  actualOut : Option Stamp
  actualIn : Option Stamp
  pcrOffset : Option PcrBase
  underruns : Nat
  deriving DecidableEq, Repr

/-- A programme in a local slot; an EMPTY slot holds none (R116). Its deadline channel is the one of the Deadline Bank it
owns, and it is attached when its source's attachment names it. -/
structure LocalProg where
  state : SlotState
  source : SourceIx
  start : Stamp
  stop : Stamp
  remap : List RemapPair
  actualStart : Option Stamp
  actualEnd : Option Stamp
  pcrOffset : Option PcrBase
  underruns : Nat
  deriving DecidableEq, Repr

/-- The last network PCR base seen, with the stamp of the slot that carried it (R16). -/
structure ClockTrack where
  base : PcrBase
  stamp : Stamp
  deriving DecidableEq, Repr

/-- A service record (R3), with the schedule, local slots, avails and trailing record the Schedule Unit and the Splice
Engine keep for the service. The record is DEFINED exactly when it has a window. -/
structure Service where
  window : Option Window
  cuePid : Option Pid
  comps : List Component
  preRoll : Nat
  lateWindow : Nat
  underrunLimit : Nat
  exempt : Bool
  mode : ServiceMode
  held : Option HeldCause
  owner : Option AlertIx
  track : Option ClockTrack
  overlayCc : BitVec 4
  overlayNulls : BitVec 8
  classified : BitVec 32
  substituted : BitVec 32
  stuffed : BitVec 32
  overlaid : BitVec 32
  trailing : Option Trailing
  schedule : List BreakEntry
  intakeCounter : BitVec 32
  slotA : Option LocalProg
  slotB : Option LocalProg
  current : SlotLetter
  avails : Vector (Option Binding) 16
  deriving DecidableEq, Repr

/-- The mode and window of a DEFINED source (R44). -/
structure SourceConfig where
  mode : SourceMode
  window : Window
  deriving DecidableEq, Repr

/-- A source record (R44). The record is DEFINED exactly when it has a mode and a window. -/
structure Source where
  config : Option SourceConfig
  writeIx : Nat
  readIx : Nat
  fill : Nat
  overrunRun : Bool
  minFill : Nat
  attachment : Option InsOwner
  cursor : Nat
  alertUsers : Nat
  overruns : BitVec 32
  underruns : BitVec 32
  discarded : BitVec 32
  deriving DecidableEq, Repr

/-- An armed deadline channel (R89). -/
structure Channel where
  deadline : Stamp
  owner : InsOwner
  deriving DecidableEq, Repr

/-- An alert group (R129). -/
structure AlertGroup where
  defined : Bool
  mask : BitVec 48
  audio : Option SourceIx
  slate : Option SourceIx
  overlayPid : Option Pid
  cadence : Nat
  preempt : Bool
  maxDuration : Nat
  store : Option (List Byte)
  deriving DecidableEq, Repr

/-- An ACTIVE alert slot; a FREE slot holds none (R132). -/
structure Alert where
  group : GroupIx
  level : Nat
  origin : AlertOrigin
  number : BitVec 32
  start : Stamp
  deadline : Stamp
  deriving DecidableEq, Repr

/-- An armed group and level (spec/09, section 9.1). -/
structure PendingArm where
  group : GroupIx
  level : Nat
  deriving DecidableEq, Repr

/-- The running keepalive period: when it expires and its length (R154). -/
structure Period where
  expiry : Stamp
  seconds : Nat
  deriving DecidableEq, Repr

/-- The frame in hand: the bytes received since its start condition, whether one was NAKed, and whether one was NAKed
because the link was disabled (R147, R148); for a status read, the sample taken and how many bytes the part has sent
(R152). -/
structure Frame where
  bytes : List Byte
  naked : Bool
  nakedDisabled : Bool
  sample : Option Byte
  sent : Nat
  deriving DecidableEq, Repr

/-- The Alert Link Interface (R146). -/
structure Link where
  enabled : Bool
  interval : Nat
  arm : Option PendingArm
  lost : Bool
  mark : Bool
  period : Option Period
  lastKeepalive : Option Stamp
  lostStamp : Option Stamp
  frame : Option Frame
  deriving DecidableEq, Repr

/-- A command cell's parameter shadow and busy mark (R156). -/
structure Cell where
  shadow : Params
  busy : Bool
  deriving DecidableEq, Repr

/-- An entry of the Intake Queue (R157). -/
structure QueueEntry where
  cell : CellIx
  code : Byte
  tag : Byte
  requester : RequesterId
  params : Params
  deriving DecidableEq, Repr

/-- The work in progress of an executing command that takes time (R159). -/
inductive Work where
  | startCheck (source : SourceIx) (window : Window)
  | overlayLoad (group : GroupIx)
  | snapshot (dest : Addr) (record : List Byte) (handed : Nat)
  deriving DecidableEq, Repr

/-- What the Error Log keeps for one kind (R164). -/
structure KindLog where
  masked : Bool
  severity : Severity
  status : Bool
  counter : BitVec 16
  deriving DecidableEq, Repr

/-- The first-error record's content (R164). -/
structure FirstError where
  kind : ErrorKind
  stamp : Stamp
  service : Option ServiceIx
  requester : Option RequesterId
  addr : Option Addr
  packet : Option (List Byte)
  deriving DecidableEq, Repr

/-- A severity action put off to the end of the event's rules (R165). -/
inductive Deferred where
  | hold (service : Option ServiceIx)
  | fatal (kind : ErrorKind)
  deriving DecidableEq, Repr

/-- The ring definition: base and record count (R172). -/
structure RingDef where
  base : Addr
  count : Nat
  deriving DecidableEq, Repr

/-- The Report Writer (R172). -/
structure Ring where
  defn : Option RingDef
  producer : Nat
  consumer : Nat
  dropped : BitVec 32
  overflow : Bool
  deriving DecidableEq, Repr

/-- Mode Control (R168). -/
structure ModeControl where
  mode : Mode
  holdOnFault : Bool
  interval : Nat
  timer : Option Stamp
  bypassStamp : Option Stamp
  deriving DecidableEq, Repr

/-- What a read is: PLAIN, or SLOT with its service; a SLOT read's slot address is the entry's address (R29). -/
inductive ReadKind where
  | plain
  | slot (service : ServiceIx)
  deriving DecidableEq, Repr

/-- The insertion binding of a substitution: the remap list, and for a break the replace set (R95). -/
structure InsBinding where
  remap : List RemapPair
  replaceSet : Option (BitVec 8)
  deriving DecidableEq, Repr

/-- The source and the address of the source slot a substitution reserved (R33). -/
structure Reserved where
  source : SourceIx
  addr : Addr
  deriving DecidableEq, Repr

/-- A taken entry of the Read Tracking Table (spec/02, section 2.4; R95). `result` is what the requester receives (R37);
`stale` says that its service has become UNUSED since the read was taken (R6, R8; log 13). -/
structure RttEntry where
  requester : RequesterId
  role : Role
  kind : ReadKind
  addr : Addr
  beats : Nat
  phase : EntryPhase
  decision : Option Decision
  reserved : Option Reserved
  snapshot : BitVec 8
  sequence : Option (BitVec 8)
  network : List Byte
  fetched : List Byte
  overlay : List Byte
  sourceFailed : Bool
  boundary : Bool
  insRef : Option InsRef
  binding : Option InsBinding
  status : ReadStatus
  result : List Byte
  stale : Bool
  deriving DecidableEq, Repr

/-- Whose read a memory-port read is (R23, R40, R43). -/
inductive ReadOwner where
  | network (entry : EntryIx)
  | fetch (entry : EntryIx)
  | command
  | orphan
  deriving DecidableEq, Repr

/-- A read handed to the memory port (R23). -/
structure MemRead where
  owner : ReadOwner
  addr : Addr
  beats : Nat
  deriving DecidableEq, Repr

/-- A transaction handed to the memory port and not yet issued there: a read that waits for room on the Outstanding Read
List, or a write handed over behind one (R23). -/
inductive MemTransaction where
  | read (r : MemRead)
  | write (isInternal : Bool) (addr : Addr) (bytes : List LaneByte)
  deriving DecidableEq, Repr

/-- A read on the Outstanding Read List, with its running read deadline; an orphan has none (R38, R40). -/
structure IssuedRead where
  read : MemRead
  deadline : Option Stamp
  deriving DecidableEq, Repr

/-- What the part drives at its ports: a write handed to the memory port and a read issued there (internal when the part
originates it, spec/02, section 2.7), a completion at the card port, and the link's answers. -/
inductive PortEvent where
  | memWrite (isInternal : Bool) (addr : Addr) (bytes : List LaneByte)
  | memRead (isInternal : Bool) (addr : Addr) (beats : Nat)
  | cardComplete (requester : RequesterId) (status : ReadStatus) (data : List Byte)
  | linkAck
  | linkNak
  | linkSend (byte : Byte)
  deriving DecidableEq, Repr

/-! ### The machine -/

/-- The state of the part. `pending`, `emitted`, `deferred` and `freeIndex` are the model's own (log 2, 6, 38, 12). -/
structure State where
  pending : List Instr
  emitted : List PortEvent
  deferred : List Deferred
  freeIndex : Nat
  now : Stamp
  straps : BitVec 16
  modeControl : ModeControl
  roles : Vector Role 64
  rtt : Vector (Option RttEntry) 32
  completionOrder : Vector (List EntryIx) 64
  rewriteOrder : Vector (List EntryIx) 48
  sequence : Vector (BitVec 8) 48
  waitingReads : List PortRead
  issueQueue : List MemTransaction
  outstanding : List IssuedRead
  services : Vector Service 48
  sources : Vector Source 32
  bank : List Channel
  groups : Vector AlertGroup 8
  alerts : Vector (Option Alert) 4
  activations : BitVec 32
  link : Link
  cells : Vector Cell 16
  intake : List QueueEntry
  work : Option Work
  kinds : Vector KindLog 22
  firstError : Option FirstError
  multiple : Bool
  ring : Ring
  deriving DecidableEq, Repr

/-- The reasons the machine stops. The spec names none: error events and refusals go on (R158, R165). -/
inductive Fault where
  /-- Raised by WRITE_TAKEN, READ_TAKEN, PLAIN_READ_ANSWER and UNKNOWN_COMMAND on operands Instr.wellFormed refuses:
  a transaction no port can carry, or a code the table has (log 28). Safe: the part never sees such operands. -/
  | illFormed
  deriving DecidableEq, Repr

/-- The reasons a command has no meaning. -/
inductive Refusal where
  /-- Raised by exec for a row that has no meaning yet. Safe: the machine stops. No row is left so. -/
  | notModelled (mnemonic : String)
  deriving DecidableEq, Repr

/-! ### Reset values -/

/-- An UNUSED service record with its definition values (R3, R72, R78, R114, R116). -/
def Service.unused : Service where
  window := none
  cuePid := none
  comps := []
  preRoll := 2000
  lateWindow := 200
  underrunLimit := 16
  exempt := false
  mode := .network
  held := none
  owner := none
  track := none
  overlayCc := 0
  overlayNulls := 0
  classified := 0
  substituted := 0
  stuffed := 0
  overlaid := 0
  trailing := none
  schedule := []
  intakeCounter := 0
  slotA := none
  slotB := none
  current := .a
  avails := Vector.replicate 16 none

/-- A FREE source record with its definition values (R44). -/
def Source.free : Source where
  config := none
  writeIx := 0
  readIx := 0
  fill := 0
  overrunRun := false
  minFill := 0
  attachment := none
  cursor := 0
  alertUsers := 0
  overruns := 0
  underruns := 0
  discarded := 0

/-- An undefined alert group (R129). -/
def AlertGroup.undefined : AlertGroup where
  defined := false
  mask := 0
  audio := none
  slate := none
  overlayPid := none
  cadence := 1
  preempt := false
  maxDuration := 1
  store := none

/-- The Alert Link Interface after a reset (R146). -/
def Link.initial : Link where
  enabled := false
  interval := 0
  arm := none
  lost := false
  mark := false
  period := none
  lastKeepalive := none
  lostStamp := none
  frame := none

/-- A kind's log after a reset: reported, its default severity, status clear, counter 0 (R164). -/
def KindLog.initial (severity : Severity) : KindLog where
  masked := false
  severity := severity
  status := false
  counter := 0

/-- The default severities of the table of section 11.1: SERVICE for NETWORK-FORMAT (8), SOURCE-FORMAT (11) and
DOWNSTREAM-ERROR (17), FATAL for READ-TIMEOUT (18), NOTICE for the rest. -/
def initialKinds : Vector KindLog 22 :=
  vset (vset (vset (vset (Vector.replicate 22 (KindLog.initial .notice))
    7 (KindLog.initial .service)) 10 (KindLog.initial .service)) 16 (KindLog.initial .service))
    17 (KindLog.initial .fatal)

/-- Mode Control after a reset (R168). -/
def ModeControl.initial : ModeControl where
  mode := .passive
  holdOnFault := false
  interval := 10
  timer := none
  bypassStamp := none

/-- The Report Writer after a reset (R172). -/
def Ring.initial : Ring where
  defn := none
  producer := 0
  consumer := 0
  dropped := 0
  overflow := false

/-- The Requester Role Map after a reset: entry 0 CONTROL, the others OTHER (R24). -/
def initialRoles : Vector Role 64 := vset (Vector.replicate 64 Role.other) 0 Role.control

/-- The machine right after power-on reset. DESIGN CHOICE: the stamp input reads 0 (log 1) and the straps are low
(log 7). -/
def State.reset : State where
  pending := []
  emitted := []
  deferred := []
  freeIndex := 0
  now := 0
  straps := 0
  modeControl := ModeControl.initial
  roles := initialRoles
  rtt := Vector.replicate 32 none
  completionOrder := Vector.replicate 64 []
  rewriteOrder := Vector.replicate 48 []
  sequence := Vector.replicate 48 0
  waitingReads := []
  issueQueue := []
  outstanding := []
  services := Vector.replicate 48 Service.unused
  sources := Vector.replicate 32 Source.free
  bank := []
  groups := Vector.replicate 8 AlertGroup.undefined
  alerts := Vector.replicate 4 none
  activations := 0
  link := Link.initial
  cells := Vector.replicate 16 (Cell.mk (Vector.replicate 48 0) false)
  intake := []
  work := none
  kinds := initialKinds
  firstError := none
  multiple := false
  ring := Ring.initial

end Sys2Proof.Machine
end

