-- ==== Sys2Proof/Machine/Operands.lean ====
section
/-! DEFINITION. Operand forms: stamps and their comparisons, big-endian fields, packet fields of a slot, the cue message,
the parameter fields of a command, and ranges of packet memory. -/

namespace Sys2Proof.Machine

/-! ### Stamps (R2) -/

/-- Stamp a is at or after stamp b: (a − b) mod 2^32 is less than 2^31 (R2). -/
def atOrAfter (a b : Stamp) : Bool := (a - b).toNat < 2 ^ 31

/-- Stamp a is before stamp b: it is not at or after b (R2). -/
def before (a b : Stamp) : Bool := !atOrAfter a b

/-- Stamp a is later than stamp b: at or after it and not equal to it (R2). -/
def later (a b : Stamp) : Bool := atOrAfter a b && a != b

/-- Stamp a is at or before stamp b: before it or equal to it, that is, not later (R90, R99, R122). R2 does not define the
words, and for stamps exactly 2^31 apart it does not settle them (DEDUCED, log 52). -/
def atOrBefore (a b : Stamp) : Bool := !later a b

/-- Stamp a lies 2^30 ticks or more after stamp b (R80, R81); a stamp exactly 2^31 ticks away lies before and not after
(DEDUCED, log 52). -/
def farAfter (a b : Stamp) : Bool := atOrAfter a b && decide (2 ^ 30 ≤ (a - b).toNat)

/-- Milliseconds in ticks: 90 a millisecond (R2). -/
def msTicks (ms : Nat) : Stamp := BitVec.ofNat 32 (ms * 90)

/-- Seconds in ticks: 90,000 a second (R2). -/
def secTicks (s : Nat) : Stamp := BitVec.ofNat 32 (s * 90000)

/-! ### Bytes, big-endian (spec/00, section 1.5) -/

/-- The byte at an offset; 0 past the end. -/
def byteAt (p : List Byte) (i : Nat) : Byte := p.getD i 0

/-- The number a big-endian run of bytes holds. -/
def beNat (bs : List Byte) : Nat := bs.foldl (fun acc b => acc * 256 + b.toNat) 0

/-- The number in `n` bytes from an offset. -/
def fieldAt (p : List Byte) (i n : Nat) : Nat := beNat ((p.drop i).take n)

/-- A 32-bit field at an offset. -/
def wordAt (p : List Byte) (i : Nat) : BitVec 32 := BitVec.ofNat 32 (fieldAt p i 4)

/-- A number as `n` big-endian bytes. -/
def beBytes : Nat → Nat → List Byte
  | 0, _ => []
  | n + 1, v => BitVec.ofNat 8 (v >>> (8 * n)) :: beBytes n v

/-- A flag as a byte. -/
def flagByte (b : Bool) : Byte := if b then 1 else 0

/-- `n` bytes of 0. -/
def zeros (n : Nat) : List Byte := List.replicate n 0

/-- A list of bytes brought to exactly `n` bytes, absent bytes given as 0. -/
def padTo (n : Nat) (bs : List Byte) : List Byte := (bs ++ zeros n).take n

/-! ### Packets (spec/12, section 12.1) -/

/-- The sync byte is 0x47. -/
def goodSync (p : List Byte) : Bool := byteAt p 0 == 0x47

/-- The start flag: byte 1, bit 6. -/
def startFlag (p : List Byte) : Bool := (byteAt p 1).getLsbD 6

/-- The PID: byte 1, bits 4 to 0, and byte 2. -/
def packetPid (p : List Byte) : Pid := (byteAt p 1 ++ byteAt p 2).setWidth 13

/-- The adaptation control says an adaptation field is present: byte 3, bit 5. -/
def hasAdaptation (p : List Byte) : Bool := (byteAt p 3).getLsbD 5

/-- The adaptation control says a payload is present: byte 3, bit 4 (R13). -/
def hasPayload (p : List Byte) : Bool := (byteAt p 3).getLsbD 4

/-- The continuity count: byte 3, bits 3 to 0. -/
def packetCc (p : List Byte) : BitVec 4 := (byteAt p 3).setWidth 4

/-- The packet carries a PCR: an adaptation field of at least 7 bytes whose flags show one (R16, section 6.7). -/
def carriesPcr (p : List Byte) : Bool :=
  hasAdaptation p && decide (7 ≤ (byteAt p 4).toNat) && (byteAt p 5).getLsbD 4

/-- The 33-bit PCR base: bytes 6 to 9 and byte 10, bit 7. -/
def pcrBase (p : List Byte) : PcrBase := BitVec.ofNat 33 (fieldAt p 6 5 >>> 7)

/-- The arrival stamp of a slot: bytes 188 to 191 (R1). -/
def slotStamp (p : List Byte) : Stamp := wordAt p 188

/-- The packet with its PID replaced; only the PID's bits change (R176). -/
def setPid (p : List Byte) (pid : Pid) : List Byte :=
  (p.set 1 ((byteAt p 1 &&& 0xE0) ||| (pid >>> 8).setWidth 8)).set 2 (pid.setWidth 8)

/-- The packet with its continuity count replaced; only those bits change (R176). -/
def setCc (p : List Byte) (cc : BitVec 4) : List Byte := p.set 3 ((byteAt p 3 &&& 0xF0) ||| cc.setWidth 8)

/-- The packet with its PCR base replaced; only those bits change (R176). -/
def setPcrBase (p : List Byte) (base : PcrBase) : List Byte :=
  ((((p.set 6 ((base >>> 25).setWidth 8)).set 7 ((base >>> 17).setWidth 8)).set 8 ((base >>> 9).setWidth 8)).set 9
    ((base >>> 1).setWidth 8)).set 10 ((byteAt p 10 &&& 0x7F) ||| ((base.setWidth 8) <<< 7))

/-- The 188 bytes of the packet in a slot (R1). -/
def packetOf (slot : List Byte) : List Byte := slot.take 188

/-- The null packet of R109: 0x47, 0x1F, 0xFF, 0x10, then 184 bytes of 0xFF (R176). -/
def nullPacket : List Byte := [0x47, 0x1F, 0xFF, 0x10] ++ List.replicate 184 0xFF

/-- PID 0x1FFF, that of null packets. -/
def nullPid : Pid := 0x1FFF

/-- The first 16 bytes of a packet, as an error event carries them. -/
def packetHead (p : List Byte) : List Byte := padTo 16 p

/-! ### The cue message (R62, R64) -/

/-- Where a packet's payload starts and its length, by its adaptation control (R62). An adaptation field length above
183 leaves no payload. -/
def payloadAt (p : List Byte) : Option (Nat × Nat) :=
  if hasPayload p then
    if hasAdaptation p then some (5 + (byteAt p 4).toNat, 183 - (byteAt p 4).toNat) else some (4, 184)
  else none

/-- The 18 bytes of a cue message at the start of the payload, when there is room for them (R62). -/
def cueBytes (p : List Byte) : Option (List Byte) :=
  match payloadAt p with
  | some (at_, len) => if 18 ≤ len then some ((p.drop at_).take 18) else none
  | none => none

/-- The sum of bytes 0 to 15 modulo 65,536 (R64). -/
def cueSum (m : List Byte) : Nat := ((m.take 16).foldl (fun acc b => acc + b.toNat) 0) % 65536

/-! ### Ranges of packet memory -/

/-- The bytes [a, a + n) and [b, b + m) share at least one byte. -/
def rangesMeet (a n b m : Nat) : Bool := decide (a < b + m) && decide (b < a + n)

/-- A window's length in bytes: 192 a slot (R5). -/
def Window.bytes (w : Window) : Nat := 192 * w.slots

/-- The window and the range [b, b + m) share at least one byte. -/
def Window.meets (w : Window) (b m : Nat) : Bool := rangesMeet w.base.toNat w.bytes b m

/-- Slot k of a window lies at its base plus 192 × k (spec/03, section 3.1). -/
def Window.slotAddr (w : Window) (k : Nat) : Addr := w.base + BitVec.ofNat 36 (192 * k)

/-- The slot whose boundary an address is, if it is one (R1). -/
def Window.slotAt (w : Window) (a : Addr) : Option Nat :=
  let d := a.toNat - w.base.toNat
  if decide (w.base.toNat ≤ a.toNat) && decide (d < w.bytes) && d % 192 == 0 then some (d / 192) else none

/-- The next slot index, wrapping from the slot count − 1 to 0. -/
def nextSlot (slots i : Nat) : Nat := if i + 1 < slots then i + 1 else 0

/-- The part of a transaction that lies in a region: how far into the transaction it begins, its own first address and
its length (R26). -/
structure Part where
  off : Nat
  addr : Addr
  len : Nat
  deriving DecidableEq, Repr

/-- The part of the `len` bytes at `a`, taken modulo 2^36, that lies in the region [base, base + size) (R22, R26). -/
def regionPart (base size : Nat) (a : Addr) (len : Nat) : Option Part :=
  if decide (base ≤ a.toNat) && decide (a.toNat < base + size) then
    some { off := 0, addr := a, len := min len (base + size - a.toNat) }
  else
    let off := (base + 2 ^ 36 - a.toNat) % 2 ^ 36
    if off < len && decide (0 < size) then
      some { off := off, addr := BitVec.ofNat 36 base, len := min (len - off) size }
    else none

/-! ### Command parameters (R177, R178) -/

/-- Parameter byte p<i>. -/
def pByte (p : Params) (i : Nat) : Byte := byteAt p.toList i

/-- The number in parameter bytes p<i> to p<i+n−1>. -/
def pField (p : Params) (i n : Nat) : Nat := fieldAt p.toList i n

/-- A 32-bit parameter field. -/
def pWord (p : Params) (i : Nat) : BitVec 32 := BitVec.ofNat 32 (pField p i 4)

/-- An address parameter: 5 bytes, none when its top 4 bits are not 0 (R178). -/
def pAddr (p : Params) (i : Nat) : Option Addr :=
  if pField p i 5 < 2 ^ 36 then some (BitVec.ofNat 36 (pField p i 5)) else none

/-- An index parameter, none when it is out of the table's range. -/
def pIndex (n : Nat) (p : Params) (i : Nat) : Option (Fin n) :=
  if h : (pByte p i).toNat < n then some ⟨(pByte p i).toNat, h⟩ else none

/-- A PID field that may be absent (R178): 0xFFFF is absent, a value above 0x1FFE otherwise is malformed. -/
inductive OptPid where
  | absent
  | present (pid : Pid)
  | malformed
  deriving DecidableEq, Repr

/-- The PID field at p<i> (R178). -/
def pOptPid (p : Params) (i : Nat) : OptPid :=
  if pField p i 2 == 0xFFFF then .absent
  else if pField p i 2 ≤ 0x1FFE then .present (BitVec.ofNat 13 (pField p i 2))
  else .malformed

/-- The PID a well-formed PID field gives. -/
def OptPid.toOption : OptPid → Option Pid
  | .present pid => some pid
  | .absent | .malformed => none

/-- A PID in a list entry: none above 0x1FFE (R178). -/
def listPid (v : Nat) : Option Pid := if v ≤ 0x1FFE then some (BitVec.ofNat 13 v) else none

/-- The kind in bits 1 to 0 of a component descriptor (R177). -/
def descriptorKind (d : Byte) : Option CompKind :=
  match (d.setWidth 2).toNat with
  | 1 => some .video
  | 2 => some .audio
  | 3 => some .data
  | _ => none

/-- A component as SERVICE DEFINE starts it (R6). -/
def Component.fresh (pid : Pid) (kind : CompKind) (lead pcr : Bool) : Component where
  pid := pid
  kind := kind
  lead := lead
  pcr := pcr
  cur := .network
  rejoin := false
  outCc := none
  ccOffset := 0
  alert := .none
  cursor := 0

/-- The component entry at p<i>: PID, then a descriptor with kind, lead flag (bit 4) and PCR flag (bit 5) (R177). -/
def pComponent (p : Params) (i : Nat) : Option Component :=
  match listPid (pField p i 2), descriptorKind (pByte p (i + 2)) with
  | some pid, some kind =>
    some (Component.fresh pid kind ((pByte p (i + 2)).getLsbD 4) ((pByte p (i + 2)).getLsbD 5))
  | _, _ => none

/-- All the options, or none when one is missing. -/
def allSome {α : Type} : List (Option α) → Option (List α)
  | [] => some []
  | none :: _ => none
  | some x :: r => (allSome r).map (x :: ·)

/-- No element stands twice. -/
def noRepeat {α : Type} [DecidableEq α] : List α → Bool
  | [] => true
  | x :: r => !(r.contains x) && noRepeat r

/-- The component list of SERVICE DEFINE and COMPONENT SET (count at p1, entries at p16 to p39), checked against a cue
PID (R4): none when it is refused BAD-PARAM. -/
def pComponents (p : Params) (cue : Option Pid) : Option (List Component) :=
  let n := (pByte p 1).toNat
  if 1 ≤ n ∧ n ≤ 8 then
    match allSome ((List.range n).map fun k => pComponent p (16 + 3 * k)) with
    | some cs =>
      if noRepeat (cs.map (·.pid)) && cs.countP (·.lead) == 1 && decide (cs.countP (·.pcr) ≤ 1)
          && !(cs.any fun c => some c.pid == cue)
      then some cs else none
    | none => none
  else none

/-- The pair at p<i>: source PID, then component index (R177); none when the PID is above 0x1FFE or the index names no
component index at all. -/
def pPair (p : Params) (i : Nat) : Option RemapPair :=
  match listPid (pField p i 2), pIndex 8 p (i + 2) with
  | some pid, some comp => some { pid := pid, comp := comp }
  | _, _ => none

/-- The remap list of AVAIL BIND and LOCAL LOAD (count at p4, pairs at p16 to p39): 1 to 8 pairs, no source PID 0x1FFF
and none twice, every index accepted by `ok` (R73, R117); none when it is refused BAD-PARAM. -/
def pPairs (p : Params) (ok : ComponentIx → Bool) : Option (List RemapPair) :=
  let n := (pByte p 4).toNat
  if 1 ≤ n ∧ n ≤ 8 then
    match allSome ((List.range n).map fun k => pPair p (16 + 3 * k)) with
    | some ps => if noRepeat (ps.map (·.pid)) && ps.all (fun q => ok q.comp) then some ps else none
    | none => none
  else none

/-- A role code: 1 CONTROL, 2 INGEST, 3 OUTPUT, 4 PLAYER, 5 OTHER (R177). -/
def roleOfCode (b : Byte) : Option Role :=
  match b.toNat with
  | 1 => some .control
  | 2 => some .ingest
  | 3 => some .output
  | 4 => some .player
  | 5 => some .other
  | _ => none

/-- A source mode code: 1 STREAM, 2 LOOP (R177). -/
def sourceModeOfCode (b : Byte) : Option SourceMode :=
  match b.toNat with
  | 1 => some .stream
  | 2 => some .loop
  | _ => none

end Sys2Proof.Machine
end

