-- ==== Sys2Proof/Machine/Flags.lean ====
section
/-! DEFINITION. Codes and flag bytes: the codes of kinds, causes, subkinds and states (R177, R179, R180), the tag byte of a
report, and the link's status byte (R181). -/

namespace Sys2Proof.Machine

/-! ### Refusal codes (R177) -/

/-- The refusal codes of R158. -/
inductive RefusalCode where
  | badCommand
  | badParam
  | notDefined
  | busy
  | overlap
  | full
  | mode
  | downstream
  | queueFull
  deriving DecidableEq, Repr

/-- The code of a refusal: 1 BAD-COMMAND to 9 QUEUE-FULL (R177). -/
def RefusalCode.code : RefusalCode → Byte
  | .badCommand => 1
  | .badParam => 2
  | .notDefined => 3
  | .busy => 4
  | .overlap => 5
  | .full => 6
  | .mode => 7
  | .downstream => 8
  | .queueFull => 9

/-- What a command's write-back says: DONE with a result word, or REFUSED with a code and result word 0 (R158). -/
inductive Reply where
  | done (word : BitVec 32)
  | refused (code : RefusalCode)
  deriving DecidableEq, Repr

/-- Status byte of a reply: 0x02 DONE, 0x03 REFUSED (R177). -/
def Reply.status : Reply → Byte
  | .done _ => 0x02
  | .refused _ => 0x03

/-- Result code of a reply: 0 for DONE (R158). -/
def Reply.result : Reply → Byte
  | .done _ => 0
  | .refused c => c.code

/-- Result word of a reply: 0 for REFUSED (R158). -/
def Reply.word : Reply → BitVec 32
  | .done w => w
  | .refused _ => 0

/-! ### Error kinds (spec/11, section 11.1) -/

/-- A kind's place in the Error Log: its code less one. -/
def ErrorKind.ix : ErrorKind → Fin 22
  | .cueCheck => 0
  | .cueFormat => 1
  | .cueUnmatched => 2
  | .scheduleFull => 3
  | .duplicateEvent => 4
  | .partialWrite => 5
  | .unalignedRead => 6
  | .networkFormat => 7
  | .sourceOrder => 8
  | .sourceOverrun => 9
  | .sourceFormat => 10
  | .sourceUnderrun => 11
  | .noClock => 12
  | .noTimer => 13
  | .controlIntrusion => 14
  | .cellBusy => 15
  | .downstreamError => 16
  | .readTimeout => 17
  | .linkFormat => 18
  | .linkLost => 19
  | .reportOverflow => 20
  | .unmappedPid => 21

/-- The kind code: 1 CUE-CHECK to 22 UNMAPPED-PID. -/
def ErrorKind.code (k : ErrorKind) : Byte := BitVec.ofNat 8 (k.ix.val + 1)

/-- The code of a severity: 1 NOTICE, 2 SERVICE, 3 FATAL (R166, R179). -/
def Severity.code : Severity → Byte
  | .notice => 1
  | .service => 2
  | .fatal => 3

/-- The severity a code gives (R166). -/
def severityOfCode (b : Byte) : Option Severity :=
  match b.toNat with
  | 1 => some .notice
  | 2 => some .service
  | 3 => some .fatal
  | _ => none

/-- The sticky count of an error kind: it stops at 65,535 (R164). -/
def stickyInc16 (c : BitVec 16) : BitVec 16 := if c == 0xFFFF then c else c + 1

/-- The dropped count: it stops at 2^32 − 1 (R172). -/
def stickyInc32 (c : BitVec 32) : BitVec 32 := if c == 0xFFFFFFFF then c else c + 1

/-- An underrun count: it stops at 255 (R108). -/
def stickyIncUnderrun (n : Nat) : Nat := if n < 255 then n + 1 else 255

/-! ### Report codes (R179) -/

/-- The report kinds (R179). -/
inductive ReportKind where
  | brk
  | loc
  | alert
  | service
  | source
  | error
  | mode
  | link
  | gap
  deriving DecidableEq, Repr

/-- Kind byte: 1 BREAK to 9 GAP (R179). -/
def ReportKind.code : ReportKind → Byte
  | .brk => 1
  | .loc => 2
  | .alert => 3
  | .service => 4
  | .source => 5
  | .error => 6
  | .mode => 7
  | .link => 8
  | .gap => 9

/-- The subkinds of R179. -/
inductive Subkind where
  | updated
  | ready
  | notReady
  | started
  | ended
  | missed
  | cancelled
  | raised
  | held
  | released
  | removed
  | detached
  | lost
  | up
  | refused
  deriving DecidableEq, Repr

/-- Subkind byte: 1 UPDATED to 15 REFUSED (R179). -/
def Subkind.code : Subkind → Byte
  | .updated => 1
  | .ready => 2
  | .notReady => 3
  | .started => 4
  | .ended => 5
  | .missed => 6
  | .cancelled => 7
  | .raised => 8
  | .held => 9
  | .released => 10
  | .removed => 11
  | .detached => 12
  | .lost => 13
  | .up => 14
  | .refused => 15

/-- The causes of R179. -/
inductive Cause where
  | none
  | returned
  | cueIn
  | controlEnd
  | cancelled
  | underrun
  | chained
  | preemptedLocal
  | preemptedAlert
  | held
  | bypass
  | disabled
  | removed
  | endStamp
  | late
  | zeroLength
  | noSource
  | sourceBusy
  | notReadyEmpty
  | superseded
  | loc
  | alert
  | lowFill
  | timeout
  | command
  | link
  | error
  | control
  | enable
  | disable
  | fatal
  | recovery
  | resume
  | noArm
  | breakOwner
  | localOwner
  | refusal (code : RefusalCode)
  | action (severity : Severity)
  deriving DecidableEq, Repr

/-- Cause byte (R179): a LINK REFUSED carries 64 + the refusal code, an ERROR the action taken. -/
def Cause.code : Cause → Byte
  | .none => 0
  | .returned => 1
  | .cueIn => 2
  | .controlEnd => 3
  | .cancelled => 4
  | .underrun => 5
  | .chained => 6
  | .preemptedLocal => 7
  | .preemptedAlert => 8
  | .held => 9
  | .bypass => 10
  | .disabled => 11
  | .removed => 12
  | .endStamp => 13
  | .late => 16
  | .zeroLength => 17
  | .noSource => 18
  | .sourceBusy => 19
  | .notReadyEmpty => 20
  | .superseded => 21
  | .loc => 22
  | .alert => 23
  | .lowFill => 24
  | .timeout => 32
  | .command => 33
  | .link => 34
  | .error => 40
  | .control => 41
  | .enable => 48
  | .disable => 49
  | .fatal => 50
  | .recovery => 51
  | .resume => 52
  | .noArm => 56
  | .breakOwner => 60
  | .localOwner => 61
  | .refusal c => 64 + c.code
  | .action s => s.code

/-- The cause that names a held cause (R21). -/
def HeldCause.cause : HeldCause → Cause
  | .error => .error
  | .control => .control

/-- The cause that names a not-ready cause (R94). -/
def NotReadyCause.cause : NotReadyCause → Cause
  | .noSource => .noSource
  | .sourceBusy => .sourceBusy
  | .bypass => .bypass

/-- The cause of a break that ends at its return stamp: CUE-IN for origin IN, RETURNED for DURATION (R98). -/
def ReturnOrigin.cause : ReturnOrigin → Cause
  | .cueIn => .cueIn
  | .duration => .returned

/-- Mode codes: 0 PASSIVE, 1 ACTIVE, 2 BYPASS (R181). -/
def Mode.code : Mode → Byte
  | .passive => 0
  | .active => 1
  | .bypass => 2

/-- Slot letters: 1 A, 2 B (R179). -/
def letterCode : SlotLetter → Byte
  | .a => 1
  | .b => 2

/-- The other slot letter. -/
def otherLetter : SlotLetter → SlotLetter
  | .a => .b
  | .b => .a

/-- Alert origins: 1 LINK, 2 CONTROL (R179). -/
def AlertOrigin.code : AlertOrigin → Byte
  | .link => 1
  | .control => 2

/-- A byte as the low byte of an ID (byte 11 of a record, R179). -/
def idByte (b : Byte) : BitVec 32 := b.setWidth 32

/-- An ID of four bytes, bytes 8 to 11 of a record (R179). -/
def idBytes (b8 b9 b10 b11 : Byte) : BitVec 32 := b8 ++ b9 ++ b10 ++ b11

/-! ### Status bytes -/

/-- Flags as a byte, bit 0 first. -/
def flagBits (b0 b1 b2 b3 : Bool) : Byte :=
  flagByte b0 ||| (flagByte b1 <<< 1) ||| (flagByte b2 <<< 2) ||| (flagByte b3 <<< 3)

/-- The link's status byte: bits 3 to 0 the ACTIVE slots, bit 4 arm pending, bits 6 to 5 the mode, bit 7 link UP
(R152, R181). -/
def linkStatusByte (s : State) : Byte :=
  flagBits (vget s.alerts 0).isSome (vget s.alerts 1).isSome (vget s.alerts 2).isSome (vget s.alerts 3).isSome
    ||| (flagByte s.link.arm.isSome <<< 4) ||| (s.modeControl.mode.code <<< 5) ||| (flagByte (!s.link.lost) <<< 7)

end Sys2Proof.Machine
end

