-- ==== Sys2Proof/Machine/Ops.lean ====
section
/-! DEFINITION. The named operations over the tables, the ports, the Report Writer and the Error Log. -/

namespace Sys2Proof.Machine

/-! ### The tables -/

/-- A service record. -/
def State.service (s : State) (i : ServiceIx) : Service := vget s.services i

/-- The state with a service record replaced by what a function makes of it. -/
def State.modService (s : State) (i : ServiceIx) (f : Service → Service) : State :=
  { s with services := vset s.services i (f (vget s.services i)) }

/-- A source record. -/
def State.source (s : State) (i : SourceIx) : Source := vget s.sources i

/-- The state with a source record replaced by what a function makes of it. -/
def State.modSource (s : State) (i : SourceIx) (f : Source → Source) : State :=
  { s with sources := vset s.sources i (f (vget s.sources i)) }

/-- An alert group. -/
def State.group (s : State) (g : GroupIx) : AlertGroup := vget s.groups g

/-- An alert slot. -/
def State.alert (s : State) (k : AlertIx) : Option Alert := vget s.alerts k

/-- The state with an alert slot replaced. -/
def State.setAlert (s : State) (k : AlertIx) (a : Option Alert) : State := { s with alerts := vset s.alerts k a }

/-- An RTT entry, none when it is free. -/
def State.entry (s : State) (e : EntryIx) : Option RttEntry := vget s.rtt e

/-- The state with an RTT entry replaced. -/
def State.setEntry (s : State) (e : EntryIx) (r : Option RttEntry) : State := { s with rtt := vset s.rtt e r }

/-- The state with Mode Control replaced by what a function makes of it. -/
def State.modMode (s : State) (f : ModeControl → ModeControl) : State := { s with modeControl := f s.modeControl }

/-- The part mode. -/
def State.mode (s : State) : Mode := s.modeControl.mode

/-- A step is taken: the stamp input reads `now` (R2; log 1). -/
def State.at (s : State) (now : Stamp) : State := { s with now := now }

/-- The record is DEFINED (R3). -/
def Service.defined (v : Service) : Bool := v.window.isSome

/-- The record is DEFINED (R44). -/
def Source.defined (r : Source) : Bool := r.config.isSome

/-- The source is DEFINED in mode STREAM (R44). -/
def Source.isStream (r : Source) : Bool :=
  match r.config with
  | some c => c.mode == .stream
  | none => false

/-- The source is DEFINED in mode LOOP (R44). -/
def Source.isLoop (r : Source) : Bool :=
  match r.config with
  | some c => c.mode == .loop
  | none => false

/-- All services in ascending index. -/
def allServices : List ServiceIx := List.finRange 48

/-- All sources in ascending index. -/
def allSources : List SourceIx := List.finRange 32

/-- All alert slots in ascending index. -/
def allAlerts : List AlertIx := List.finRange 4

/-- All error kinds in code order. -/
def allKinds : List (Fin 22) := List.finRange 22

/-- An event applied to each service in ascending index. -/
def forServices (f : ServiceIx → State → State) (s : State) : State :=
  allServices.foldl (fun t i => f i t) s

/-- The base of the control region: bits 35 to 20 are the straps, bits 19 to 0 are 0 (R155). -/
def State.strapBase (s : State) : Addr := s.straps ++ (0 : BitVec 20)

/-- A command cell's address: 0x400 + 64 × n in the control region (R155). -/
def State.cellAddr (s : State) (c : CellIx) : Addr := s.strapBase + BitVec.ofNat 36 (0x400 + 64 * c.val)

/-- The 4 KiB of the control region (R155). -/
def controlSize : Nat := 4096

/-! ### The ports -/

/-- The part drives something at a port. -/
def State.emit (s : State) (e : PortEvent) : State := { s with emitted := s.emitted ++ [e] }

/-- Bytes as a write with every byte enabled. -/
def enabledBytes (bs : List Byte) : List LaneByte := bs.map fun b => { data := b, enable := true }

/-- A write is handed to the memory port: issued at once when nothing waits there, else behind what was handed over before
it (R23). -/
def handWrite (isInternal : Bool) (addr : Addr) (bytes : List LaneByte) (s : State) : State :=
  if s.issueQueue.isEmpty then s.emit (.memWrite isInternal addr bytes)
  else { s with issueQueue := s.issueQueue ++ [.write isInternal addr bytes] }

/-- An internal write handed to the memory port (R42). -/
def writeInternal (addr : Addr) (bs : List Byte) (s : State) : State := handWrite true addr (enabledBytes bs) s

/-- The read is one the part originates: a source fetch or a command's read (spec/02, section 2.7). -/
def ReadOwner.isInternal : ReadOwner → Bool
  | .network _ => false
  | .fetch _ | .command | .orphan => true

/-- What the memory port drives when a transaction is issued there. -/
def MemTransaction.event : MemTransaction → PortEvent
  | .read r => .memRead r.owner.isInternal r.addr r.beats
  | .write isInternal addr bytes => .memWrite isInternal addr bytes

/-- The transaction is a write, which needs no room to be issued (R23). -/
def MemTransaction.isWrite : MemTransaction → Bool
  | .read _ => false
  | .write _ _ _ => true

/-- A read is issued to memory: it goes last on the Outstanding Read List and its read deadline starts (R23, R38). -/
def issueRead (r : MemRead) (s : State) : State :=
  { s with
    outstanding := s.outstanding ++ [{ read := r, deadline := some (s.now + Config.readDeadlineTicks) }]
    emitted := s.emitted ++ [.memRead r.owner.isInternal r.addr r.beats] }

/-- The writes that stand first at the memory port are issued (R23). -/
def issueWrites (s : State) : State :=
  { s with
    emitted := s.emitted ++ (s.issueQueue.takeWhile MemTransaction.isWrite).map MemTransaction.event
    issueQueue := s.issueQueue.dropWhile MemTransaction.isWrite }

/-- The Outstanding Read List has room (R23). -/
def State.roomToIssue (s : State) : Bool := decide (s.outstanding.length < Config.outstandingMax)

/-- A read is handed to the memory port: issued at once when the list has room and nothing waits, else it waits behind
what was handed over before it (R23; log 10). -/
def handRead (r : MemRead) (s : State) : State :=
  if s.issueQueue.isEmpty && s.roomToIssue then issueRead r s else { s with issueQueue := s.issueQueue ++ [.read r] }

/-- The oldest read on the Outstanding Read List, which the next answer is matched to (R23). -/
def State.oldestRead (s : State) : Option IssuedRead := s.outstanding.head?

/-- An answer is matched: the oldest read leaves the list, and its deadline with it (R23, R38). -/
def State.matched (s : State) : State := { s with outstanding := s.outstanding.tail }

/-! ### Free values -/

/-- The next free value is drawn. -/
def State.drawn (s : State) : State := { s with freeIndex := s.freeIndex + 1 }

/-! ### Reports (R175, R179) -/

/-- A report record's fields; an absent field is none (R175). -/
structure Report where
  kind : ReportKind
  subkind : Byte
  cause : Cause
  service : Option ServiceIx
  id : Option (BitVec 32)
  first : Option Stamp
  second : Option Stamp
  count : BitVec 32
  source : Option SourceIx
  deriving DecidableEq, Repr

/-- A service as a byte, 0xFF for none (R175). -/
def serviceByte : Option ServiceIx → Byte
  | some i => BitVec.ofNat 8 i.val
  | none => 0xFF

/-- The tag byte: ID, first stamp, second stamp and source index present (R179). -/
def Report.tag (r : Report) : Byte := flagBits r.id.isSome r.first.isSome r.second.isSome r.source.isSome

/-- A source index as a byte; a field marked absent is 0 (R179). -/
def sourceByte : Option SourceIx → Byte
  | some i => BitVec.ofNat 8 i.val
  | none => 0

/-- A 32-bit field; a field marked absent is 0 (R179). -/
def wordBytes (w : Option (BitVec 32)) : List Byte := beBytes 4 (w.getD 0).toNat

/-- The 32 bytes of a report record (R179). -/
def Report.bytes (r : Report) : List Byte :=
  [r.kind.code, r.subkind, r.cause.code, serviceByte r.service, r.tag, sourceByte r.source, 0, 0]
    ++ wordBytes r.id ++ wordBytes r.first ++ wordBytes r.second ++ wordBytes (some r.count) ++ zeros 8

/-- The positions in use: (producer − consumer) mod N (R174). -/
def Ring.used (g : Ring) (n : Nat) : Nat := (g.producer + n - g.consumer) % n

/-- The free positions: N − 1 − ((producer − consumer) mod N) (R174). -/
def Ring.free (g : Ring) (n : Nat) : Nat := n - 1 - g.used n

/-- The address of the producer-index word (R155). -/
def State.producerAddr (s : State) : Addr := s.strapBase + 0x020

/-- A value written to the producer-index word (R174): one internal write of the word's 4 bytes at its own address, with
no beat around them, a shape of the write that is the model's choice (section 2.7, R42; log 54). -/
def writeProducer (v : Nat) (s : State) : State := writeInternal s.producerAddr (beBytes 4 v) s

/-- A record written at the producer index, which then advances and is written to the producer-index word (R174). -/
def putRecord (d : RingDef) (r : Report) (s : State) : State :=
  let s1 := writeInternal (d.base + BitVec.ofNat 36 (32 * s.ring.producer)) r.bytes s
  let s2 := { s1 with ring := { s1.ring with producer := nextSlot d.count s1.ring.producer } }
  writeProducer s2.ring.producer s2

/-- The GAP record carrying a dropped count (R175). -/
def gapReport (s : State) : Report where
  kind := .gap
  subkind := 0
  cause := .none
  service := none
  id := none
  first := some s.now
  second := none
  count := s.ring.dropped
  source := none

/-- A GAP record is written, and the dropped count becomes 0 (R172, R174). -/
def putGap (d : RingDef) (s : State) : State :=
  let s1 := putRecord d (gapReport s) s
  { s1 with ring := { s1.ring with dropped := 0 } }

/-- A report is dropped and counted (R174). -/
def dropReport (s : State) : State := { s with ring := { s.ring with dropped := stickyInc32 s.ring.dropped } }

/-! ### Error events (R164, R165) -/

/-- An error event: its kind and what it carries, each present or absent (spec/11, section 11.1). -/
structure ErrorEvent where
  kind : ErrorKind
  service : Option ServiceIx := none
  requester : Option RequesterId := none
  addr : Option Addr := none
  source : Option SourceIx := none
  packet : Option (List Byte) := none
  deriving DecidableEq, Repr

/-- What the Error Log keeps for a kind. -/
def State.kindLog (s : State) (k : ErrorKind) : KindLog := vget s.kinds k.ix

/-- The state with a kind's log replaced by what a function makes of it. -/
def State.modKind (s : State) (k : Fin 22) (f : KindLog → KindLog) : State :=
  { s with kinds := vset s.kinds k (f (vget s.kinds k)) }

/-- Step 1 of R165: the status is set and the counter increased unless it stands at 65,535. -/
def countKind (k : ErrorKind) (s : State) : State :=
  s.modKind k.ix fun l => { l with status := true, counter := stickyInc16 l.counter }

/-- Step 2 of R165, the record: an empty first-error record captures the event, a held one sets the multiple flag. -/
def captureError (e : ErrorEvent) (s : State) : State :=
  match s.firstError with
  | none =>
    { s with
      firstError := some
        { kind := e.kind, stamp := s.now, service := e.service, requester := e.requester, addr := e.addr,
          packet := e.packet } }
  | some _ => { s with multiple := true }

/-- Step 3 of R165: the action of the kind's severity is put off until the event's rules have completed. -/
def deferAction (e : ErrorEvent) (s : State) : State :=
  match (s.kindLog e.kind).severity with
  | .notice => s
  | .service => { s with deferred := s.deferred ++ [.hold e.service] }
  | .fatal => { s with deferred := s.deferred ++ [.fatal e.kind] }

/-- The action an event is given: a SERVICE error that names no service, or an UNUSED one, is given the NOTICE action
(R165, R175). Whether the service is DEFINED is judged here as the error is raised, for its report (DESIGN CHOICE, log 53). -/
def actionTaken (e : ErrorEvent) (s : State) : Severity :=
  match (s.kindLog e.kind).severity, e.service with
  | .service, some i => if (s.service i).defined then .service else .notice
  | .service, none => .notice
  | .notice, _ => .notice
  | .fatal, _ => .fatal

/-- The ERROR report of an event (R175). -/
def errorReport (e : ErrorEvent) (s : State) : Report where
  kind := .error
  subkind := e.kind.code
  cause := .action (actionTaken e s)
  service := e.service
  id := e.requester.map fun q => idByte (BitVec.ofNat 8 q.val)
  first := some s.now
  second := none
  count := (s.kindLog e.kind).counter.setWidth 32
  source := e.source

/-- REPORT-OVERFLOW carries nothing (R174). -/
def overflowEvent : ErrorEvent := { kind := .reportOverflow }

/-- REPORT-OVERFLOW is raised: counted, its action put off, and if reported captured, its own report dropped (R174). -/
def raiseOverflow (s : State) : State :=
  let s1 := deferAction overflowEvent (countKind .reportOverflow s)
  if (s1.kindLog .reportOverflow).masked then s1 else dropReport (captureError overflowEvent s1)

/-- A report that finds no place is dropped; the first one since the overflow flag was clear raises REPORT-OVERFLOW
(R174). -/
def overflowReport (s : State) : State :=
  let s1 := dropReport s
  if s1.ring.overflow then s1 else raiseOverflow { s1 with ring := { s1.ring with overflow := true } }

/-- A report is written, and the overflow flag cleared (R174). -/
def keepReport (d : RingDef) (r : Report) (s : State) : State :=
  let s1 := putRecord d r s
  { s1 with ring := { s1.ring with overflow := false } }

/-- A report is offered to the Report Writer (R174). -/
def offer (r : Report) (s : State) : State :=
  match s.ring.defn with
  | none => dropReport s
  | some d =>
    if s.ring.dropped == 0 && decide (1 ≤ s.ring.free d.count) then keepReport d r s
    else if s.ring.dropped != 0 && decide (2 ≤ s.ring.free d.count) then keepReport d r (putGap d s)
    else overflowReport s

/-- An error event is taken by the Error Log (R165): counted, its action put off, and if the kind is reported captured
and reported. The capture stands before the report, so that a REPORT-OVERFLOW the report brings about is the later
event (log 15). -/
def raise (e : ErrorEvent) (s : State) : State :=
  let s1 := deferAction e (countKind e.kind s)
  if (s1.kindLog e.kind).masked then s1 else offer (errorReport e s1) (captureError e s1)

end Sys2Proof.Machine
end

