-- ==== Sys2Proof/Machine/Sources.lean ====
section
/-! DEFINITION. The Source Tracker (spec/03): player writes, handing out slots, attachment, detach and fill. -/

namespace Sys2Proof.Machine

/-! ### Attachment (R55, R56) -/

/-- The answer to an attach request (R55). -/
inductive AttachAnswer where
  | mode
  | noSource
  | sourceBusy
  | attached
  deriving DecidableEq, Repr

/-- The answer to an attach request as things stand (R55). -/
def attachAnswer (src : SourceIx) (o : InsOwner) (s : State) : AttachAnswer :=
  if s.mode != .active then .mode
  else if !(s.source src).defined then .noSource
  else match (s.source src).attachment with
    | some p => if p == o then .attached else .sourceBusy
    | none => .attached

/-- A source attached to an owner; a LOOP source's attachment cursor starts at 0 (R55). -/
def Source.attachTo (o : InsOwner) (r : Source) : Source :=
  { r with attachment := some o, cursor := if r.isLoop then 0 else r.cursor }

/-- The Schedule Unit asks to attach a source to an owner (R55). -/
def attach (src : SourceIx) (o : InsOwner) (s : State) : AttachAnswer × State :=
  match attachAnswer src o s with
  | .attached => (.attached, s.modSource src (Source.attachTo o))
  | a => (a, s)

/-- The service an owner belongs to. -/
def ownerService : InsOwner → ServiceIx
  | .brk i _ => i
  | .loc i _ => i

/-- The ID of an owner: event ID or slot letter (R179). -/
def ownerId : InsOwner → BitVec 32
  | .brk _ e => e
  | .loc _ l => idByte (letterCode l)

/-- The cause of a SOURCE DETACHED report: 60 break owner, 61 local owner (R179). -/
def ownerCause : InsOwner → Cause
  | .brk _ _ => .breakOwner
  | .loc _ _ => .localOwner

/-- The number of slots a flush discards: the fill of a STREAM source, 0 for a LOOP source (R56). -/
def Source.flushCount (r : Source) : Nat := if r.isStream then r.fill else 0

/-- The unread slots of a STREAM source discarded (R56, R57); a LOOP source is left as it stands. -/
def Source.flushed (r : Source) : Source :=
  if r.isStream then
    { r with
      readIx := r.writeIx
      fill := 0
      overrunRun := false
      discarded := r.discarded + BitVec.ofNat 32 r.fill }
  else r

/-- The SOURCE report DETACHED (R56): the station clock is its first stamp, and it has no second (log 48). -/
def detachedReport (src : SourceIx) (o : InsOwner) (count : Nat) (s : State) : Report where
  kind := .source
  subkind := Subkind.detached.code
  cause := ownerCause o
  service := some (ownerService o)
  id := some (ownerId o)
  first := some s.now
  second := none
  count := BitVec.ofNat 32 count
  source := some src

/-- The Schedule Unit detaches an owner's source: a STREAM ring is flushed and SOURCE DETACHED written; a source not
attached to the owner is left as it stands (R56). -/
def detach (src : SourceIx) (o : InsOwner) (s : State) : State :=
  if (s.source src).attachment == some o then
    offer (detachedReport src o (s.source src).flushCount s)
      (s.modSource src fun r => { r.flushed with attachment := none })
  else s

/-! ### Fill (R58) -/

/-- The ring is empty: a STREAM source with fill 0 (R58). -/
def Source.isEmpty (r : Source) : Bool := r.isStream && r.fill == 0

/-- The fill is low: a STREAM source with fill below the minimum fill (R58). -/
def Source.isLow (r : Source) : Bool := r.isStream && decide (r.fill < r.minFill)

/-- The fill a report gives: 0 for a LOOP source (R87, R102). -/
def Source.reportedFill (r : Source) : BitVec 32 := BitVec.ofNat 32 r.flushCount

/-! ### Handing out slots (R52, R54) -/

/-- A slot reserved from a STREAM ring with fill above 0 (R52). -/
def Source.taken (slots : Nat) (r : Source) : Source :=
  { r with
    readIx := nextSlot slots r.readIx
    fill := r.fill - 1
    overrunRun := if r.fill == slots then false else r.overrunRun }

/-- The Splice Engine asks for a slot of the source an insertion is attached to: a LOOP source's attachment cursor
(R54), a STREAM ring's oldest unread slot, or none when the ring is empty (R52). -/
def reserve (src : SourceIx) (s : State) : Option Addr × State :=
  match (s.source src).config with
  | none => (none, s)
  | some c =>
    match c.mode with
    | .loop =>
      (some (c.window.slotAddr (s.source src).cursor),
        s.modSource src fun r => { r with cursor := nextSlot c.window.slots r.cursor })
    | .stream =>
      if (s.source src).fill == 0 then (none, s.modSource src fun r => { r with underruns := r.underruns + 1 })
      else (some (c.window.slotAddr (s.source src).readIx), s.modSource src (Source.taken c.window.slots))

/-! ### Player writes (R48 to R51) -/

/-- The service of a source's attachment, which its errors carry (R48). -/
def Source.attachedService (r : Source) : Option ServiceIx := r.attachment.map ownerService

/-- An error event of the Source Tracker (R48). -/
def sourceError (k : ErrorKind) (src : SourceIx) (q : RequesterId) (addr : Addr) (packet : Option (List Byte))
    (s : State) : ErrorEvent where
  kind := k
  service := (s.source src).attachedService
  requester := some q
  addr := some addr
  source := some src
  packet := packet

/-- A whole-slot write at the write index of a ring below full is counted (R49). -/
def Source.counted (slots : Nat) (r : Source) : Source :=
  { r with writeIx := nextSlot slots r.writeIx, fill := r.fill + 1 }

/-- A whole-slot write at the write index of a full ring discards the oldest unread slot and is counted (R50). -/
def Source.overrun (slots : Nat) (r : Source) : Source :=
  { r with
    writeIx := nextSlot slots r.writeIx
    readIx := nextSlot slots r.readIx
    overrunRun := true
    overruns := r.overruns + 1
    discarded := r.discarded + 1 }

/-- A whole-slot PLAYER write into slot `w` of a STREAM source (R49 to R51). -/
def playerSlotWrite (src : SourceIx) (c : SourceConfig) (w : Nat) (q : RequesterId) (addr : Addr) (packet : List Byte)
    (s : State) : State :=
  let r := s.source src
  if w != r.writeIx then raise (sourceError .sourceOrder src q addr (some packet) s) s
  else if r.fill < c.window.slots then s.modSource src (Source.counted c.window.slots)
  else
    let s1 := s.modSource src (Source.overrun c.window.slots)
    if r.overrunRun then s1 else raise (sourceError .sourceOverrun src q addr (some packet) s1) s1

/-- The bytes of a write that lie in a part of it. -/
def Part.of (p : Part) (bytes : List LaneByte) : List LaneByte := (bytes.drop p.off).take p.len

/-- The slot a part writes whole: it starts on a slot boundary, is exactly 12 beats long and has every byte enable set
(R1, R26). -/
def wholeSlot (w : Window) (p : Part) (bytes : List LaneByte) : Option Nat :=
  if p.len == 192 && (p.of bytes).all (·.enable) then w.slotAt p.addr else none

/-- The Source Tracker inspects a PLAYER write offered to it (R48). -/
def sourceTrackerWrite (src : SourceIx) (q : RequesterId) (p : Part) (bytes : List LaneByte) (s : State) : State :=
  match (s.source src).config with
  | none => s
  | some c =>
    match wholeSlot c.window p bytes with
    | some w => playerSlotWrite src c w q p.addr (packetHead ((p.of bytes).map (·.data))) s
    | none => raise (sourceError .partialWrite src q p.addr none s) s

end Sys2Proof.Machine
end

