-- ==== Sys2Proof/Machine/Schedule.lean ====
section
/-! DEFINITION. The Deadline Bank's list and the Splice Schedule (spec/05): resolving, leaving, taking requests, the
pre-roll check of a break entry. -/

namespace Sys2Proof.Machine

/-! ### The Deadline Bank (R89 to R92) -/

/-- A channel placed before the first armed channel whose deadline is later than its own (R89). -/
def insertChannel (c : Channel) : List Channel → List Channel
  | [] => [c]
  | x :: r => if later x.deadline c.deadline then c :: x :: r else x :: insertChannel c r

/-- An owner's channel is disarmed: removed from the list and freed, no check started (R92). -/
def disarm (o : InsOwner) (s : State) : State := { s with bank := s.bank.filter fun c => c.owner != o }

/-- The pre-roll moment of a stamp: the stamp minus the service's pre-roll (R90). -/
def preRollMoment (v : Service) (stamp : Stamp) : Stamp := stamp - msTicks v.preRoll

/-- What the bank answers an arming request (R90). -/
inductive ArmAnswer where
  | checkNow
  | armed
  | noChannel
  deriving DecidableEq, Repr

/-- The bank's answer by the moment and its free channels (R90; log 52). -/
def armAnswer (moment : Stamp) (s : State) : ArmAnswer :=
  if atOrBefore moment s.now then .checkNow
  else if s.bank.length < Config.channelMax then .armed
  else .noChannel

/-- A free channel armed for an owner (R90). -/
def armChannel (moment : Stamp) (o : InsOwner) (s : State) : State :=
  { s with bank := insertChannel { deadline := moment, owner := o } s.bank }

/-- An owner's pre-roll armed: on a channel, checked at once by `check`, or left unchecked with NO-TIMER (R90). -/
def armPreRoll (moment : Stamp) (o : InsOwner) (check : State → State) (s : State) : State :=
  match armAnswer moment s with
  | .checkNow => check s
  | .armed => armChannel moment o s
  | .noChannel => raise { kind := .noTimer, service := some (ownerService o) } s

/-! ### Entries -/

/-- The entry with an event ID in a service's schedule. -/
def Service.findEntry (v : Service) (ev : EventId) : Option BreakEntry := v.schedule.find? fun e => e.event == ev

/-- The entry is ACTIVE. -/
def BreakEntry.isActive (e : BreakEntry) : Bool := e.state == .active

/-- The head of the schedule when it is ACTIVE (R78). -/
def Service.activeHead (v : Service) : Option BreakEntry :=
  match v.schedule with
  | e :: _ => if e.isActive then some e else none
  | [] => none

/-- The entries with an event ID replaced by what a function makes of them. -/
def mapEntry (ev : EventId) (f : BreakEntry → BreakEntry) (l : List BreakEntry) : List BreakEntry :=
  l.map fun e => if e.event == ev then f e else e

/-- An entry of a service's schedule replaced by what a function makes of it. -/
def State.modEntry (s : State) (i : ServiceIx) (ev : EventId) (f : BreakEntry → BreakEntry) : State :=
  s.modService i fun v => { v with schedule := mapEntry ev f v.schedule }

/-- The source attached to an entry: that of its resolved binding. -/
def BreakEntry.attachedSource (e : BreakEntry) : Option SourceIx := e.binding.map (·.source)

/-! ### Placing (R79) -/

/-- An entry placed before the first one with a later splice stamp, or an equal one and a larger intake number (R79). -/
def insertEntry (e : BreakEntry) : List BreakEntry → List BreakEntry
  | [] => [e]
  | x :: r =>
    if later x.splice e.splice || (x.splice == e.splice && decide (e.intake.toNat < x.intake.toNat)) then e :: x :: r
    else x :: insertEntry e r

/-- An entry placed in a schedule; an ACTIVE head stays the head (R79). -/
def placeEntry (e : BreakEntry) : List BreakEntry → List BreakEntry
  | [] => [e]
  | h :: r => if h.isActive then h :: insertEntry e r else insertEntry e (h :: r)

/-- The splice stamp that is stored: not before that of an ACTIVE head (R79). -/
def Service.clampSplice (v : Service) (splice : Stamp) : Stamp :=
  match v.activeHead with
  | some h => if before splice h.splice then h.splice else splice
  | none => splice

/-! ### Reports (R94) -/

/-- A BREAK report of a service and event. -/
def breakReport (i : ServiceIx) (ev : EventId) (sub : Subkind) (cause : Cause) (first second : Option Stamp)
    (count : BitVec 32) (src : Option SourceIx) : Report where
  kind := .brk
  subkind := sub.code
  cause := cause
  service := some i
  id := some ev
  first := first
  second := second
  count := count
  source := src

/-! ### Leaving the schedule (R85) -/

/-- How an entry leaves: ENDED with its cause and actual in stamp, MISSED with its cause and second report stamp, or
CANCELLED (R85, R94). -/
inductive BreakLeave where
  | ended (cause : Cause) (actualIn : Stamp)
  | missed (cause : Cause) (second : Stamp)
  | cancelled
  deriving DecidableEq, Repr

/-- The report of an entry that leaves (R94). -/
def leaveReport (i : ServiceIx) (e : BreakEntry) (how : BreakLeave) (now : Stamp) : Report :=
  match how with
  | .ended cause actualIn =>
    breakReport i e.event .ended cause e.actualOut (some actualIn) (actualIn - e.actualOut.getD actualIn)
      e.attachedSource
  | .missed cause second => breakReport i e.event .missed cause (some e.splice) (some second) 0 e.attachedSource
  | .cancelled => breakReport i e.event .cancelled .none (some e.splice) (some now) 0 e.attachedSource

/-- Step 2 of R85 for an ACTIVE entry: its actual in stamp is set, the service's mode becomes NETWORK, and the trailing
record takes its insertion reference and PCR offset (R114). -/
def endActive (i : ServiceIx) (e : BreakEntry) (how : BreakLeave) (s : State) : State :=
  if e.isActive then
    (s.modEntry i e.event fun x =>
        match how with
        | .ended _ actualIn => { x with actualIn := some actualIn }
        | .missed _ _ | .cancelled => x).modService i fun v =>
      { v with mode := .network, trailing := some { ref := .brk e.event e.intake, pcrOffset := e.pcrOffset } }
  else s

/-- The source attached to an entry, if any, detached (R85, step 4). -/
def detachEntry (i : ServiceIx) (e : BreakEntry) (s : State) : State :=
  match e.binding with
  | some b => detach b.source (.brk i e.event) s
  | none => s

/-- An entry removed from its list (R85, step 5). -/
def dropEntry (i : ServiceIx) (ev : EventId) (s : State) : State :=
  s.modService i fun v => { v with schedule := v.schedule.filter fun e => e.event != ev }

/-- An entry leaves its schedule, in the steps of R85. -/
def leaveBreak (i : ServiceIx) (ev : EventId) (how : BreakLeave) (s : State) : State :=
  match (s.service i).findEntry ev with
  | none => s
  | some e =>
    let s1 := endActive i e how (disarm (.brk i ev) s)
    let s2 := offer (leaveReport i e how s1.now) s1
    dropEntry i ev (detachEntry i e s2)

/-- The ACTIVE head, if there is one, ends with a cause and an actual in stamp (R85). -/
def endActiveBreak (i : ServiceIx) (cause : Cause) (actualIn : Stamp) (s : State) : State :=
  match (s.service i).activeHead with
  | some e => leaveBreak i e.event (.ended cause actualIn) s
  | none => s

/-! ### Resolving (R76) -/

/-- The outcome of a resolution (R76, R87). -/
inductive Resolution where
  | unbound
  | answered (b : Binding) (a : AttachAnswer)
  deriving DecidableEq, Repr

/-- A break entry resolved against its avail's binding: when attached, the binding is copied into the entry (R76). An
unbound avail gives NO-SOURCE in BYPASS too, where no attachment is asked for (log 43). -/
def resolveEntry (i : ServiceIx) (e : BreakEntry) (s : State) : Resolution × State :=
  match vget (s.service i).avails e.avail with
  | none => (.unbound, s)
  | some b =>
    match attach b.source (.brk i e.event) s with
    | (.attached, s1) => (.answered b .attached, s1.modEntry i e.event fun x => { x with binding := some b })
    | (a, s1) => (.answered b a, s1)

/-- The not-ready cause of a failed resolution (R87); none when the source was attached. -/
def Resolution.notReady : Resolution → Option NotReadyCause
  | .unbound => some .noSource
  | .answered _ .noSource => some .noSource
  | .answered _ .sourceBusy => some .sourceBusy
  | .answered _ .mode => some .bypass
  | .answered _ .attached => none

/-- The source a resolution's binding names: absent if the avail is unbound (R87). -/
def Resolution.source : Resolution → Option SourceIx
  | .unbound => none
  | .answered b _ => some b.source

/-! ### The pre-roll check (R87) -/

/-- The BREAK report READY (R87, R94). -/
def readyReport (i : ServiceIx) (e : BreakEntry) (src : SourceIx) (s : State) : Report :=
  breakReport i e.event .ready (if (s.source src).isLow then .lowFill else .none) (some e.splice) (some s.now)
    (s.source src).reportedFill (some src)

/-- The BREAK report NOT-READY (R87, R94). -/
def notReadyReport (i : ServiceIx) (e : BreakEntry) (cause : NotReadyCause) (src : Option SourceIx) (s : State) :
    Report :=
  breakReport i e.event .notReady cause.cause (some e.splice) (some s.now) 0 src

/-- The pre-roll check of a SCHEDULED entry (R87). -/
def checkEntry (i : ServiceIx) (e : BreakEntry) (s : State) : State :=
  match resolveEntry i e s with
  | (.answered b .attached, s1) =>
    offer (readyReport i e b.source s1) (s1.modEntry i e.event fun x => { x with state := .ready })
  | (r, s1) =>
    let cause := r.notReady.getD .noSource
    offer (notReadyReport i e cause r.source s1) (s1.modEntry i e.event fun x => { x with state := .notReady cause })

/-- The pre-roll check of a break entry started (R87): it runs on a SCHEDULED entry. -/
def checkBreak (i : ServiceIx) (ev : EventId) (s : State) : State :=
  match (s.service i).findEntry ev with
  | some e => if e.state == .scheduled then checkEntry i e s else s
  | none => s

/-- A break entry's pre-roll armed (R90). -/
def armBreak (i : ServiceIx) (ev : EventId) (s : State) : State :=
  match (s.service i).findEntry ev with
  | some e => armPreRoll (preRollMoment (s.service i) e.splice) (.brk i ev) (checkBreak i ev) s
  | none => s

/-! ### Taking requests (R81 to R84) -/

/-- An OUT request (R68). -/
structure OutRequest where
  event : EventId
  avail : AvailIx
  splice : Stamp
  duration : Option (BitVec 32)
  deriving DecidableEq, Repr

/-- The outcome of an OUT request (R81, R86). -/
inductive OutOutcome where
  | inserted
  | updated
  | missedLate
  | duplicate
  | full
  deriving DecidableEq, Repr

/-- Case 4 of R81: the splice stamp is before now minus the late window, or 2^30 ticks or more after now. -/
def outIsLate (v : Service) (splice now : Stamp) : Bool :=
  before splice (now - msTicks v.lateWindow) || farAfter splice now

/-- The entry an OUT inserts (R78). -/
def OutRequest.entry (o : OutRequest) (intake : BitVec 32) (splice : Stamp) : BreakEntry where
  event := o.event
  intake := intake
  avail := o.avail
  splice := splice
  duration := o.duration
  ret := none
  state := .scheduled
  binding := none
  actualOut := none
  actualIn := none
  pcrOffset := none
  underruns := 0

/-- A new entry inserted and placed, with the intake counter increased (R78, R79, R81). -/
def insertOut (i : ServiceIx) (o : OutRequest) (s : State) : State :=
  armBreak i o.event (s.modService i fun v =>
    { v with
      schedule := placeEntry (o.entry v.intakeCounter (v.clampSplice o.splice)) v.schedule
      intakeCounter := v.intakeCounter + 1 })

/-- Steps 3 and 4 of R82: the avail, splice stamp and duration replaced, and the entry placed again. -/
def replaceOut (i : ServiceIx) (o : OutRequest) (e : BreakEntry) (s : State) : State :=
  s.modService i fun v =>
    { v with
      schedule := placeEntry
        { e with avail := o.avail, splice := v.clampSplice o.splice, duration := o.duration }
        (v.schedule.filter fun x => x.event != o.event) }

/-- Steps 5 to 7 of R82: a READY entry whose avail is unchanged stays READY; any other becomes SCHEDULED, a READY one
detached first, and its pre-roll is armed afresh. -/
def rearmOut (i : ServiceIx) (o : OutRequest) (e : BreakEntry) (s : State) : State :=
  if e.state == .ready && e.avail == o.avail then s
  else
    let s1 := if e.state == .ready then detachEntry i e s else s
    armBreak i o.event (s1.modEntry i o.event fun x => { x with state := .scheduled, binding := none })

/-- The BREAK report UPDATED (R94). -/
def updatedReport (i : ServiceIx) (e : BreakEntry) : Report :=
  breakReport i e.event .updated .none (some e.splice) (e.ret.map (·.stamp)) (e.duration.getD 0) none

/-- The BREAK report UPDATED of the entry as it now stands, offered (R82, step 8). -/
def offerUpdated (i : ServiceIx) (ev : EventId) (s : State) : State :=
  match (s.service i).findEntry ev with
  | some e => offer (updatedReport i e) s
  | none => s

/-- An OUT that matches an entry that is not ACTIVE updates it (R82). Step 2 applies the whole of case 4 of R81: a stamp
2^30 ticks or more after now is late as well (log 42). -/
def updateOut (i : ServiceIx) (o : OutRequest) (e : BreakEntry) (s : State) : OutOutcome × State :=
  let s1 := disarm (.brk i o.event) s
  if outIsLate (s.service i) o.splice s.now then (.missedLate, leaveBreak i o.event (.missed .late s.now) s1)
  else (.updated, offerUpdated i o.event (rearmOut i o e (replaceOut i o e s1)))

/-- An OUT request is taken by the Schedule Unit (R81). -/
def takeOut (i : ServiceIx) (o : OutRequest) (s : State) : OutOutcome × State :=
  match (s.service i).findEntry o.event with
  | some e => if e.isActive then (.duplicate, s) else updateOut i o e s
  | none =>
    if Config.scheduleMax ≤ (s.service i).schedule.length then (.full, s)
    else if outIsLate (s.service i) o.splice s.now then
      (.missedLate, offer (breakReport i o.event .missed .late (some o.splice) (some s.now) 0 none) s)
    else (.inserted, insertOut i o s)

/-- The outcome of an IN request (R83, R86). -/
inductive InOutcome where
  | set
  | kept
  | unmatched
  deriving DecidableEq, Repr

/-- The IN's return stamp is taken: none is present, or the IN's is before it (R83). -/
def BreakEntry.takesReturn (e : BreakEntry) (stamp : Stamp) : Bool :=
  match e.ret with
  | none => true
  | some r => before stamp r.stamp

/-- An IN request is taken by the Schedule Unit (R83, R98). -/
def takeIn (i : ServiceIx) (ev : EventId) (stamp : Stamp) (s : State) : InOutcome × State :=
  match (s.service i).findEntry ev with
  | none => (.unmatched, s)
  | some e =>
    if e.takesReturn stamp then
      (.set, s.modEntry i ev fun x => { x with ret := some { stamp := stamp, origin := .cueIn } })
    else (.kept, s)

/-- The outcome of a CANCEL request (R84, R86). -/
inductive CancelOutcome where
  | cancelled
  | ended
  | unmatched
  deriving DecidableEq, Repr

/-- A CANCEL request is taken by the Schedule Unit (R84). -/
def takeCancel (i : ServiceIx) (ev : EventId) (s : State) : CancelOutcome × State :=
  match (s.service i).findEntry ev with
  | none => (.unmatched, s)
  | some e =>
    if e.isActive then (.ended, leaveBreak i ev (.ended .cancelled s.now) s)
    else (.cancelled, leaveBreak i ev .cancelled s)

/-! ### Part mode and removal (R7, R88) -/

/-- The event IDs of a service's schedule, in list order. -/
def Service.events (v : Service) : List EventId := v.schedule.map (·.event)

/-- Every entry of a service's schedule leaves in list order: an ACTIVE one ENDED with the cause given, the others
CANCELLED (R7, R88). -/
def clearSchedule (i : ServiceIx) (cause : Cause) (s : State) : State :=
  (s.service i).events.foldl (fun t ev =>
    match (t.service i).findEntry ev with
    | some e => if e.isActive then leaveBreak i ev (.ended cause t.now) t else leaveBreak i ev .cancelled t
    | none => t) s

/-- A READY entry at entry to BYPASS: detached, its binding cleared, NOT-READY with cause BYPASS, and reported with the
source it had (R88; log 21). -/
def bypassReady (i : ServiceIx) (e : BreakEntry) (s : State) : State :=
  let s1 := (detachEntry i e s).modEntry i e.event fun x => { x with state := .notReady .bypass, binding := none }
  offer (notReadyReport i e .bypass e.attachedSource s1) s1

/-- Entry to BYPASS for a service's schedule (R88), in list order (log 44). -/
def bypassSchedule (i : ServiceIx) (s : State) : State :=
  (s.service i).events.foldl (fun t ev =>
    match (t.service i).findEntry ev with
    | some e =>
      if e.isActive then leaveBreak i ev (.ended .bypass t.now) t
      else if e.state == .ready then bypassReady i e t
      else t
    | none => t) s

end Sys2Proof.Machine
end

