-- ==== Sys2Proof/Machine/Locals.lean ====
section
/-! DEFINITION. Local programmes (spec/07): the two slots of a service, the pre-roll check, leaving, and what happens to
them at a lead start packet. -/

namespace Sys2Proof.Machine

/-! ### Slots -/

/-- A local slot of a service; none when it is EMPTY (R116). -/
def Service.slot (v : Service) : SlotLetter → Option LocalProg
  | .a => v.slotA
  | .b => v.slotB

/-- A service with a local slot replaced. -/
def Service.setSlot (v : Service) (l : SlotLetter) (p : Option LocalProg) : Service :=
  match l with
  | .a => { v with slotA := p }
  | .b => { v with slotB := p }

/-- The state with a local slot's programme replaced by what a function makes of it. -/
def State.modSlot (s : State) (i : ServiceIx) (l : SlotLetter) (f : LocalProg → LocalProg) : State :=
  s.modService i fun v => v.setSlot l ((v.slot l).map f)

/-- The programme is RUNNING. -/
def LocalProg.isRunning (p : LocalProg) : Bool := p.state == .running

/-- The RUNNING slot of a service, with its letter: the current slot (R116). -/
def Service.running (v : Service) : Option (SlotLetter × LocalProg) :=
  match v.slot v.current with
  | some p => if p.isRunning then some (v.current, p) else none
  | none => none

/-! ### Reports (R128) -/

/-- A LOCAL report of a slot. -/
def localReport (i : ServiceIx) (l : SlotLetter) (sub : Subkind) (cause : Cause) (first second : Option Stamp)
    (count : BitVec 32) (src : SourceIx) : Report where
  kind := .loc
  subkind := sub.code
  cause := cause
  service := some i
  id := some (idByte (letterCode l))
  first := first
  second := second
  count := count
  source := some src

/-! ### Leaving a slot (R120) -/

/-- How a slot leaves: ENDED with its cause and actual end, MISSED with its cause and second report stamp, or CANCELLED
(R120, R128). -/
inductive SlotLeave where
  | ended (cause : Cause) (actualEnd : Stamp)
  | missed (cause : Cause) (second : Stamp)
  | cancelled
  deriving DecidableEq, Repr

/-- The ticks from actual start to actual end, 0 if the slot never ran (R128). -/
def LocalProg.ranFor (p : LocalProg) (actualEnd : Stamp) : BitVec 32 :=
  match p.actualStart with
  | some st => actualEnd - st
  | none => 0

/-- The report of a slot that leaves (R128). -/
def slotLeaveReport (i : ServiceIx) (l : SlotLetter) (p : LocalProg) (how : SlotLeave) (now : Stamp) : Report :=
  match how with
  | .ended cause actualEnd =>
    localReport i l .ended cause p.actualStart (some actualEnd) (p.ranFor actualEnd) p.source
  | .missed cause second => localReport i l .missed cause (some p.start) (some second) 0 p.source
  | .cancelled => localReport i l .cancelled .none (some p.start) (some now) 0 p.source

/-- Step 2 of R120 for a RUNNING slot: its actual end is set, the service's mode becomes NETWORK, and the trailing record
takes its insertion reference and PCR offset (R114). -/
def endRunning (i : ServiceIx) (l : SlotLetter) (p : LocalProg) (how : SlotLeave) (s : State) : State :=
  if p.isRunning then
    (s.modSlot i l fun x =>
        match how with
        | .ended _ actualEnd => { x with actualEnd := some actualEnd }
        | .missed _ _ | .cancelled => x).modService i fun v =>
      { v with
        mode := .network
        trailing := some { ref := .loc l (p.actualStart.getD 0), pcrOffset := p.pcrOffset } }
  else s

/-- Steps 5 and 6 of R120: the slot becomes EMPTY, and the current pointer moves off it. -/
def emptySlot (i : ServiceIx) (l : SlotLetter) (s : State) : State :=
  s.modService i fun v =>
    { v.setSlot l none with current := if v.current == l then otherLetter l else v.current }

/-- A slot returns to EMPTY, in the steps of R120. -/
def leaveSlot (i : ServiceIx) (l : SlotLetter) (how : SlotLeave) (s : State) : State :=
  match (s.service i).slot l with
  | none => s
  | some p =>
    let s1 := endRunning i l p how (disarm (.loc i l) s)
    let s2 := offer (slotLeaveReport i l p how s1.now) s1
    emptySlot i l (detach p.source (.loc i l) s2)

/-- The RUNNING slot, if there is one, ends with a cause and an actual end (R120). -/
def endRunningSlot (i : ServiceIx) (cause : Cause) (actualEnd : Stamp) (s : State) : State :=
  match (s.service i).running with
  | some (l, _) => leaveSlot i l (.ended cause actualEnd) s
  | none => s

/-! ### The pre-roll check (R119) -/

/-- The LOCAL report READY (R119, R128). -/
def slotReadyReport (i : ServiceIx) (l : SlotLetter) (p : LocalProg) (s : State) : Report :=
  localReport i l .ready (if (s.source p.source).isLow then .lowFill else .none) (some p.start) (some s.now)
    (s.source p.source).reportedFill p.source

/-- The LOCAL report NOT-READY (R119, R128). -/
def slotNotReadyReport (i : ServiceIx) (l : SlotLetter) (p : LocalProg) (cause : NotReadyCause) (s : State) : Report :=
  localReport i l .notReady cause.cause (some p.start) (some s.now) 0 p.source

/-- The not-ready cause of an attach answer (R119); none when attached. -/
def AttachAnswer.notReady : AttachAnswer → Option NotReadyCause
  | .attached => none
  | .noSource => some .noSource
  | .sourceBusy => some .sourceBusy
  | .mode => some .bypass

/-- The pre-roll check of a LOADED slot (R119). -/
def checkLoaded (i : ServiceIx) (l : SlotLetter) (p : LocalProg) (s : State) : State :=
  match attach p.source (.loc i l) s with
  | (a, s1) =>
    match a.notReady with
    | none => offer (slotReadyReport i l p s1) (s1.modSlot i l fun x => { x with state := .ready })
    | some cause =>
      offer (slotNotReadyReport i l p cause s1) (s1.modSlot i l fun x => { x with state := .notReady cause })

/-- The pre-roll check of a local slot started (R119): it runs on a LOADED slot. -/
def checkSlot (i : ServiceIx) (l : SlotLetter) (s : State) : State :=
  match (s.service i).slot l with
  | some p => if p.state == .loaded then checkLoaded i l p s else s
  | none => s

/-- A local slot's pre-roll armed (R90, R118). -/
def armSlot (i : ServiceIx) (l : SlotLetter) (s : State) : State :=
  match (s.service i).slot l with
  | some p => armPreRoll (preRollMoment (s.service i) p.start) (.loc i l) (checkSlot i l) s
  | none => s

/-- An owner's pre-roll check started (R91). -/
def checkOwner (o : InsOwner) (s : State) : State :=
  match o with
  | .brk i ev => checkBreak i ev s
  | .loc i l => checkSlot i l s

/-! ### At the lead start packet (R121 to R123) -/

/-- The current slot's end at a lead start packet of stamp t (R121): whether it ended. -/
def localEndAt (i : ServiceIx) (t : Stamp) (s : State) : Bool × State :=
  match (s.service i).running with
  | some (l, p) => if atOrAfter t p.stop then (true, leaveSlot i l (.ended .endStamp t) s) else (false, s)
  | none => (false, s)

/-- The slot is due: not RUNNING, and its start stamp is at or before t; a later one waits (R122; log 52). -/
def LocalProg.isDue (p : LocalProg) (t : Stamp) : Bool := !p.isRunning && atOrBefore p.start t

/-- Conditions 1 to 3 of R122, in order; none when none of them holds. -/
def slotMissedBefore (v : Service) (p : LocalProg) (t : Stamp) (s : State) : Option Cause :=
  if s.mode == .bypass then some .bypass
  else if v.held.isSome then some .held
  else if later t (p.start + msTicks v.lateWindow) || atOrAfter t p.stop then some .late
  else none

/-- The resolution of a due slot (R122): a READY slot keeps its attachment; any other has its channel disarmed and asks
for attachment. The cause of a failed resolution, or none. -/
def resolveSlot (i : ServiceIx) (l : SlotLetter) (p : LocalProg) (s : State) : Option Cause × State :=
  if p.state == .ready then (none, s)
  else
    match attach p.source (.loc i l) (disarm (.loc i l) s) with
    | (a, s1) => (a.notReady.map NotReadyCause.cause, s1)

/-- The LOCAL report STARTED (R128): the fill before the starting packet's own reservation. -/
def slotStartedReport (i : ServiceIx) (l : SlotLetter) (p : LocalProg) (t : Stamp) (s : State) : Report :=
  localReport i l .started .none (some t) (some p.stop) (s.source p.source).reportedFill p.source

/-- A due slot starts at a packet of stamp t, in the steps of R123. -/
def startSlot (i : ServiceIx) (l : SlotLetter) (p : LocalProg) (t : Stamp) (s : State) : State :=
  let s1 := disarm (.loc i l) (endActiveBreak i .preemptedLocal t s)
  let s2 := s1.modSlot i l fun x =>
    { x with state := .running, actualStart := some t, underruns := 0, pcrOffset := none }
  let s3 := s2.modService i fun v => { v with mode := .loc }
  offer (slotStartedReport i l p t s3) s3

/-- What became of the current slot examined for a start (R122). -/
inductive SlotExam where
  | waits
  | missed
  | started
  deriving DecidableEq, Repr

/-- The current slot examined for a start at a packet of stamp t (R122, R123). -/
def examineSlot (i : ServiceIx) (t : Stamp) (s : State) : SlotExam × State :=
  let v := s.service i
  match v.slot v.current with
  | none => (.waits, s)
  | some p =>
    if p.isDue t then
      match slotMissedBefore v p t s with
      | some cause => (.missed, leaveSlot i v.current (.missed cause t) s)
      | none =>
        match resolveSlot i v.current p s with
        | (some cause, s1) => (.missed, leaveSlot i v.current (.missed cause t) s1)
        | (none, s1) => (.started, startSlot i v.current p t s1)
    else (.waits, s)

/-- The start of a due local slot (R122): when a missed slot's departure moves the pointer, the new current slot is
examined at the same packet. Whether one started. -/
def localStartAt (i : ServiceIx) (t : Stamp) (s : State) : Bool × State :=
  match examineSlot i t s with
  | (.started, s1) => (true, s1)
  | (.waits, s1) => (false, s1)
  | (.missed, s1) =>
    match examineSlot i t s1 with
    | (.started, s2) => (true, s2)
    | (.waits, s2) => (false, s2)
    | (.missed, s2) => (false, s2)

/-- Step 1 of R97: the local programme steps. Whether a programme ended or started. -/
def localSteps (i : ServiceIx) (t : Stamp) (s : State) : Bool × State :=
  let r1 := localEndAt i t s
  let r2 := localStartAt i t r1.2
  (r1.1 || r2.1, r2.2)

/-! ### Part mode and removal (R126) -/

/-- The letters of a service's slots, the current one first. -/
def Service.letters (v : Service) : List SlotLetter := [v.current, otherLetter v.current]

/-- Every non-EMPTY slot leaves with outcome ENDED and the cause given, the current one first (R7, R126). -/
def clearSlots (i : ServiceIx) (cause : Cause) (s : State) : State :=
  (s.service i).letters.foldl (fun t l => leaveSlot i l (.ended cause t.now) t) s

/-- A READY slot at entry to BYPASS: detached, NOT-READY with cause BYPASS, and reported (R126; log 21). -/
def bypassReadySlot (i : ServiceIx) (l : SlotLetter) (p : LocalProg) (s : State) : State :=
  let s1 := (detach p.source (.loc i l) s).modSlot i l fun x => { x with state := .notReady .bypass }
  offer (slotNotReadyReport i l p .bypass s1) s1

/-- Entry to BYPASS for a service's local slots (R126), the current one first (log 44). -/
def bypassSlots (i : ServiceIx) (s : State) : State :=
  (s.service i).letters.foldl (fun t l =>
    match (t.service i).slot l with
    | some p =>
      if p.isRunning then leaveSlot i l (.ended .bypass t.now) t
      else if p.state == .ready then bypassReadySlot i l p t
      else t
    | none => t) s

end Sys2Proof.Machine
end

