-- ==== Sys2Proof/Machine/Alerts.lean ====
section
/-! DEFINITION. The Alert Unit (spec/08): ownership, component alert states, activation, raise, the end of an alert, and
preemption. -/

namespace Sys2Proof.Machine

/-! ### Ownership (R136) -/

/-- Activation number a is earlier than b (R132). -/
def activatedEarlier (a b : BitVec 32) : Bool := a != b && decide ((b - a).toNat < 2 ^ 31)

/-- Alert a wins over alert b: a higher level, or an equal one activated earlier (R136). With activation numbers exactly
2^31 apart neither is earlier (R132), and neither wins (log 50). -/
def Alert.beats (a b : Alert) : Bool := decide (b.level < a.level) || (a.level == b.level && activatedEarlier a.number b.number)

/-- The group's service mask has the service's bit set (R129). -/
def AlertGroup.covers (g : AlertGroup) (i : ServiceIx) : Bool := g.mask.getLsbD i.val

/-- The ACTIVE alert of a slot, when its group's mask has the service's bit set (R136). -/
def State.candidate (s : State) (i : ServiceIx) (k : AlertIx) : Option Alert :=
  match s.alert k with
  | some a => if (s.group a.group).covers i then some a else none
  | none => none

/-- The candidate that wins among the slots of a list, beginning with the one in hand (R136); of two of which neither wins,
the slot with the lower index is kept (log 50). -/
def State.winner (s : State) (i : ServiceIx) : List AlertIx → Option (AlertIx × Alert) → Option (AlertIx × Alert)
  | [], best => best
  | k :: r, best =>
    match s.candidate i k, best with
    | none, _ => s.winner i r best
    | some a, none => s.winner i r (some (k, a))
    | some a, some (j, b) => s.winner i r (if a.beats b then some (k, a) else some (j, b))

/-- The alert owner a recomputation gives a service (R136): none for an exempt one. -/
def State.ownerOf (s : State) (i : ServiceIx) : Option AlertIx :=
  if (s.service i).exempt then none else (s.winner i allAlerts none).map (·.1)

/-! ### Component alert states (R137) -/

/-- A component of a kind is covered by a group: AUDIO always, VIDEO with a slate source, DATA never (R137). -/
def AlertGroup.coversKind (g : AlertGroup) : CompKind → Bool
  | .audio => true
  | .video => g.slate.isSome
  | .data => false

/-- A component under a new owner's group, by the table of R137. -/
def Component.underGroup (g : AlertGroup) (c : Component) : Component :=
  if g.coversKind c.kind then { c with alert := if c.alert == .none then .pending else c.alert, cursor := 0 }
  else { c with alert := .none }

/-- A component without an owner (R137). -/
def Component.unowned (c : Component) : Component := { c with alert := .none }

/-- A service whose owner becomes another one (R137). -/
def Service.giveOwner (v : Service) (owner : Option AlertIx) (group : Option AlertGroup) : Service :=
  { v with
    owner := owner
    overlayNulls := 0
    comps := v.comps.map fun c =>
      match group with
      | some g => c.underGroup g
      | none => c.unowned }

/-- The group of an alert slot, none when the slot is FREE. -/
def State.groupOf (s : State) (k : AlertIx) : Option AlertGroup := (s.alert k).map fun a => s.group a.group

/-- The group of an owner. -/
def State.ownerGroup (s : State) (o : Option AlertIx) : Option AlertGroup := o.bind s.groupOf

/-- The ownership of one service recomputed (R136, R137). -/
def recompute (i : ServiceIx) (s : State) : State :=
  let o := s.ownerOf i
  if o == (s.service i).owner then s else s.modService i fun v => v.giveOwner o (s.ownerGroup o)

/-- The ownership of every DEFINED service recomputed, in ascending index (R136). -/
def recomputeAll (s : State) : State := forServices (fun i t => if (t.service i).defined then recompute i t else t) s

/-- How many services a slot owns (R145). -/
def State.ownedBy (s : State) (k : AlertIx) : Nat := allServices.countP fun i => (s.service i).owner == some k

/-! ### Preemption (R139) -/

/-- A service's break is to end: its owner differs from the one before and its group has the preempt flag set (R139). -/
def State.preempts (before now : State) (i : ServiceIx) : Bool :=
  (now.service i).owner != (before.service i).owner
    && (match now.ownerGroup (now.service i).owner with
      | some g => g.preempt
      | none => false)

/-- The breaks a recomputation preempts end, in ascending service order (R139). `before` is the state before it. -/
def preempt (before s : State) : State :=
  forServices (fun i t => if before.preempts s i then endActiveBreak i .preemptedAlert t.now t else t) s

/-- One service's ownership recomputed, and its break preempted (R136, R139). -/
def recomputeOne (i : ServiceIx) (s : State) : State := preempt s (recompute i s)

/-! ### Alert users (R59) -/

/-- The sources a group names; a source in both roles stands once (R59). -/
def AlertGroup.sources (g : AlertGroup) : List SourceIx :=
  match g.audio, g.slate with
  | some a, some b => if a == b then [a] else [a, b]
  | some a, none => [a]
  | none, some b => [b]
  | none, none => []

/-- The alert users counts of the sources a group names changed (R59). -/
def changeUsers (f : Nat → Nat) (g : AlertGroup) (s : State) : State :=
  g.sources.foldl (fun t k => t.modSource k fun r => { r with alertUsers := f r.alertUsers }) s

/-! ### Reports (R145) -/

/-- The ALERT report of an alert in a slot (R145, R179). -/
def alertReport (k : AlertIx) (a : Alert) (sub : Subkind) (cause : Cause) (second : Stamp) (count : BitVec 32)
    (s : State) : Report where
  kind := .alert
  subkind := sub.code
  cause := cause
  service := none
  id := some (idBytes (BitVec.ofNat 8 a.group.val) (BitVec.ofNat 8 k.val) (BitVec.ofNat 8 a.level) a.origin.code)
  first := some a.start
  second := some second
  count := count
  source := (s.group a.group).audio

/-! ### Activation (R133 to R135) -/

/-- An activation request (spec/08, section 8.3). Group and level are as they came: check 1 of R133 judges them. -/
structure ActivationRequest where
  group : Nat
  level : Nat
  origin : AlertOrigin
  deriving DecidableEq, Repr

/-- The outcome of an activation request (R133). -/
inductive Activation where
  | started (slot : AlertIx)
  | raised (slot : AlertIx)
  | refused (code : RefusalCode)
  deriving DecidableEq, Repr

/-- The ACTIVE slot that names a group: at most one does (R132). -/
def State.slotOfGroup (s : State) (g : GroupIx) : Option AlertIx :=
  allAlerts.find? fun k =>
    match s.alert k with
    | some a => a.group == g
    | none => false

/-- The FREE slot with the lowest index (R134). -/
def State.freeAlert (s : State) : Option AlertIx := allAlerts.find? fun k => (s.alert k).isNone

/-- Check 5 of R133 for the sources a group names: each DEFINED, else NOT-DEFINED, and then each LOOP, else BAD-PARAM. -/
def AlertGroup.sourceCheck (g : AlertGroup) (s : State) : Option RefusalCode :=
  if g.sources.any fun k => !(s.source k).defined then some .notDefined
  else if g.sources.any fun k => !(s.source k).isLoop then some .badParam
  else none

/-- A new activation in a FREE slot (R134). -/
def activate (k : AlertIx) (g : GroupIx) (level : Nat) (origin : AlertOrigin) (s : State) : State :=
  let a : Alert :=
    { group := g, level := level, origin := origin, number := s.activations, start := s.now,
      deadline := s.now + secTicks (s.group g).maxDuration }
  let s1 := changeUsers (· + 1) (s.group g) { s.setAlert k (some a) with activations := s.activations + 1 }
  let s2 := recomputeAll s1
  preempt s1 (offer (alertReport k a .started .none a.deadline (BitVec.ofNat 32 (s2.ownedBy k)) s2) s2)

/-- A raise of the alert in a slot (R135). -/
def raiseAlert (k : AlertIx) (a : Alert) (level : Nat) (s : State) : State :=
  let b : Alert := { a with level := level }
  let s1 := s.setAlert k (some b)
  let s2 := recomputeAll s1
  preempt s1 (offer (alertReport k b .raised .none s2.now (BitVec.ofNat 32 (s2.ownedBy k)) s2) s2)

/-- Checks 5 and 6 of R133, and the activation of a group that no ACTIVE slot names. -/
def activateGroup (g : GroupIx) (level : Nat) (origin : AlertOrigin) (s : State) : Activation × State :=
  match (s.group g).sourceCheck s with
  | some code => (.refused code, s)
  | none =>
    match s.freeAlert with
    | some k => (.started k, activate k g level origin s)
    | none => (.refused .full, s)

/-- Check 4 of R133: a raise or BUSY when an ACTIVE slot already names the group. -/
def activateOrRaise (g : GroupIx) (level : Nat) (origin : AlertOrigin) (s : State) : Activation × State :=
  match s.slotOfGroup g with
  | some k =>
    match s.alert k with
    | some a => if a.level < level then (.raised k, raiseAlert k a level s) else (.refused .busy, s)
    | none => (.refused .busy, s)
  | none => activateGroup g level origin s

/-- An activation request is taken by the Alert Unit, in the order of R133. -/
def requestActivation (r : ActivationRequest) (s : State) : Activation × State :=
  if h : r.group < 8 then
    if 1 ≤ r.level ∧ r.level ≤ 3 then
      if s.mode != .active then (.refused .mode, s)
      else if !(s.group ⟨r.group, h⟩).defined then (.refused .notDefined, s)
      else activateOrRaise ⟨r.group, h⟩ r.level r.origin s
    else (.refused .badParam, s)
  else (.refused .badParam, s)

/-! ### The end of an alert (R141, R144) -/

/-- The alert in a slot ends, in the steps of R141. The slot's deadline stops with the slot becoming FREE. -/
def endAlert (k : AlertIx) (cause : Cause) (s : State) : State :=
  match s.alert k with
  | none => s
  | some a =>
    let s1 := offer (alertReport k a .ended cause s.now (s.now - a.start) s) s
    let s2 := (changeUsers (· - 1) (s1.group a.group) s1).setAlert k none
    preempt s2 (recomputeAll s2)

/-- Every ACTIVE alert ends, in ascending slot index, and every overlay null counter becomes 0 (R144). -/
def endAllAlerts (cause : Cause) (s : State) : State :=
  forServices (fun i t => t.modService i fun v => { v with overlayNulls := 0 })
    (allAlerts.foldl (fun t k => endAlert k cause t) s)

end Sys2Proof.Machine
end

