-- ==== Sys2Proof/Machine/Actions.lean ====
section
/-! DEFINITION. Holding a service (R18, R19), Mode Control (R168 to R170), and carrying out the severity actions an event
has put off (R165). -/

namespace Sys2Proof.Machine

/-! ### Service reports and holds -/

/-- A SERVICE report (R21). -/
def serviceReport (i : ServiceIx) (sub : Subkind) (cause : Cause) (count : BitVec 32) (s : State) : Report where
  kind := .service
  subkind := sub.code
  cause := cause
  service := some i
  id := none
  first := some s.now
  second := none
  count := count
  source := none

/-- What the Schedule Unit does when a held flag goes from clear to set (R18): an ACTIVE break and a RUNNING slot end
with cause HELD, each detaching its source, and the mode becomes NETWORK. -/
def holdEnds (i : ServiceIx) (s : State) : State :=
  let s1 := endActiveBreak i .held s.now s
  let s2 := endRunningSlot i .held s1.now s1
  s2.modService i fun v => { v with mode := .network }

/-- The held flag of a service set with a cause (R18): on a service already held only the cause is overwritten. The
report precedes the reports of the ends (R165; log 16). -/
def setHeld (i : ServiceIx) (cause : HeldCause) (s : State) : State :=
  let s1 := s.modService i fun v => { v with held := some cause }
  if (s.service i).held.isSome then s1 else holdEnds i (offer (serviceReport i .held cause.cause 0 s1) s1)

/-! ### Component reset (R12) -/

/-- A component record reset: out CC and alert cursor are kept (R12). -/
def Component.resetState (c : Component) : Component :=
  { c with cur := .network, rejoin := false, ccOffset := 0, alert := .none }

/-- Every component record of every service reset (R12); UNUSED services have none. -/
def resetComponents (s : State) : State :=
  forServices (fun i t => t.modService i fun v => { v with comps := v.comps.map Component.resetState }) s

/-! ### Part mode -/

/-- A MODE report (R175). -/
def modeReport (mode : Mode) (cause : Cause) (id : Option (BitVec 32)) (second : Option Stamp) (count : BitVec 32)
    (s : State) : Report where
  kind := .mode
  subkind := mode.code
  cause := cause
  service := none
  id := id
  first := some s.now
  second := second
  count := count
  source := none

/-- The recovery timer started afresh: its expiry is the station clock plus the recovery interval (R169). -/
def startRecovery (s : State) : State := s.modMode fun m => { m with timer := some (s.now + secTicks m.interval) }

/-- Step 1 of entry to BYPASS (R169). -/
def bypassMode (kind : ErrorKind) (s : State) : State :=
  let s1 := s.modMode fun m => { m with mode := .bypass, bypassStamp := some s.now }
  offer (modeReport .bypass .fatal (some (idByte kind.code)) none 0 s1) s1

/-- Step 2 of entry to BYPASS: each DEFINED service's schedule and then its local slots (R88, R126, R169). -/
def bypassServices (s : State) : State :=
  forServices (fun i t => if (t.service i).defined then bypassSlots i (bypassSchedule i t) else t) s

/-- Entry to BYPASS, in the steps of R169. -/
def enterBypass (kind : ErrorKind) (s : State) : State :=
  let s1 := resetComponents (endAllAlerts .bypass (bypassServices (bypassMode kind s)))
  if s1.modeControl.holdOnFault then s1 else startRecovery s1

/-- A FATAL action carried out by the part mode it meets (R169). -/
def fatalAction (kind : ErrorKind) (s : State) : State :=
  match s.mode with
  | .passive => s
  | .bypass => if s.modeControl.timer.isSome then startRecovery s else s
  | .active => enterBypass kind s

/-- Return from BYPASS to ACTIVE (R170, R171): the timer stops, the MODE report carries the bypass stamp and the ticks
since it, and the stamp becomes absent. -/
def leaveBypass (cause : Cause) (s : State) : State :=
  let s1 := s.modMode fun m => { m with mode := .active, timer := none }
  let s2 := offer (modeReport .active cause none s1.modeControl.bypassStamp
    (s1.now - s1.modeControl.bypassStamp.getD s1.now) s1) s1
  s2.modMode fun m => { m with bypassStamp := none }

/-- The ticks since the bypass stamp (R170). -/
def State.bypassTicks (s : State) : BitVec 32 := s.now - s.modeControl.bypassStamp.getD s.now

/-! ### Severity actions (R165) -/

/-- A severity action carried out (R165): SERVICE holds the service named if it is DEFINED as the action runs (R19; DESIGN
CHOICE, log 53), FATAL goes to Mode Control. -/
def runAction (d : Deferred) (s : State) : State :=
  match d with
  | .hold (some i) => if (s.service i).defined then setHeld i .error s else s
  | .hold none => s
  | .fatal kind => fatalAction kind s

/-- The actions put off, carried out in the order their errors were raised; one raised meanwhile follows them (R165). -/
def settleIn : Nat → State → State
  | 0, s => s
  | n + 1, s =>
    match s.deferred with
    | [] => s
    | d :: r => settleIn n (runAction d { s with deferred := r })

/-- Every action put off is carried out. Within the actions only REPORT-OVERFLOW is raised, and once, since no report
position is freed within an event (R174): two rounds more than the actions in hand are enough. -/
def settle (s : State) : State := settleIn (s.deferred.length + 2) s

end Sys2Proof.Machine
end

