-- ==== Sys2Proof/Machine/CommandUnit.lean ====
section
/-! DEFINITION. The Command Unit (spec/10): taking a command, its write-back, and the region checks its commands share. -/

namespace Sys2Proof.Machine

/-! ### Outcomes -/

/-- How far a command's execution has come: answered, in progress (R159), or gone with the queue it stood in (R162). -/
inductive Progress where
  | answered (r : Reply)
  | working
  | gone
  deriving DecidableEq, Repr

/-- A command completes DONE with a result word. -/
def done (word : BitVec 32) (s : State) : Progress × State := (.answered (.done word), s)

/-- A command is refused; it changes nothing else. -/
def refuse (code : RefusalCode) (s : State) : Progress × State := (.answered (.refused code), s)

/-! ### Write-back (R157, R158, R177) -/

/-- The 16 bytes of a write-back: code, tag, status, result code, result word, and eight bytes of 0 (R177). -/
def writeBackBytes (code tag : Byte) (r : Reply) : List Byte :=
  [code, tag, r.status, r.result] ++ beBytes 4 r.word.toNat ++ zeros 8

/-- One write of a cell's beat 0 handed to the memory port (R158). -/
def writeBack (cell : CellIx) (code tag : Byte) (r : Reply) (s : State) : State :=
  writeInternal (s.cellAddr cell) (writeBackBytes code tag r) s

/-- A cell's record changed. -/
def State.modCell (s : State) (c : CellIx) (f : Cell → Cell) : State :=
  { s with cells := vset s.cells c (f (vget s.cells c)) }

/-- A command's completion (R158): write-back, busy mark cleared, entry removed. -/
def complete (q : QueueEntry) (r : Reply) (s : State) : State :=
  let s1 := (writeBack q.cell q.code q.tag r s).modCell q.cell fun c => { c with busy := false }
  { s1 with intake := s1.intake.tail, work := none }

/-! ### Taking (R156, R157) -/

/-- What a submission is: its cell, requester, command code and tag. -/
structure Submission where
  cell : CellIx
  requester : RequesterId
  code : Byte
  tag : Byte
  deriving DecidableEq, Repr

/-- CELL-BUSY carries the requester and the address of beat 0 (R157). -/
def cellBusyEvent (b : Submission) (s : State) : ErrorEvent where
  kind := .cellBusy
  requester := some b.requester
  addr := some (s.cellAddr b.cell)

/-- A submission handled by the cell's busy mark and the queue's occupancy (R157). -/
def submit (b : Submission) (s : State) : State :=
  if (vget s.cells b.cell).busy then raise (cellBusyEvent b s) s
  else if Config.intakeMax ≤ s.intake.length then writeBack b.cell b.code b.tag (.refused .queueFull) s
  else
    let entry : QueueEntry :=
      { cell := b.cell, code := b.code, tag := b.tag, requester := b.requester,
        params := (vget s.cells b.cell).shadow }
    { s.modCell b.cell fun c => { c with busy := true } with intake := s.intake ++ [entry] }

/-! ### Region checks (R5, R45, R163, R172) -/

/-- A range meets the window of a DEFINED service. -/
def State.meetsService (s : State) (b n : Nat) : Bool :=
  allServices.any fun i =>
    match (s.service i).window with
    | some w => w.meets b n
    | none => false

/-- A range meets the window of a DEFINED source. -/
def State.meetsSource (s : State) (b n : Nat) : Bool :=
  allSources.any fun k =>
    match (s.source k).config with
    | some c => c.window.meets b n
    | none => false

/-- A range meets the first `size` bytes of the control region. -/
def State.meetsControl (s : State) (size b n : Nat) : Bool := rangesMeet s.strapBase.toNat size b n

/-- A range meets the report ring: 32 bytes per record from its base (R5). -/
def State.meetsRing (s : State) (b n : Nat) : Bool :=
  match s.ring.defn with
  | some d => rangesMeet d.base.toNat (32 * d.count) b n
  | none => false

/-- A window meets another window, the control region or the report ring (R5, R45). -/
def State.windowClash (s : State) (w : Window) : Bool :=
  s.meetsService w.base.toNat w.bytes || s.meetsSource w.base.toNat w.bytes
    || s.meetsControl controlSize w.base.toNat w.bytes || s.meetsRing w.base.toNat w.bytes

/-- The address is a multiple of `n`. -/
def aligned (n : Nat) (a : Addr) : Bool := a.toNat % n == 0

/-- The `n` bytes from an address do not pass 2^36 − 1. -/
def fits (a : Addr) (n : Nat) : Bool := decide (a.toNat + n ≤ 2 ^ 36)

end Sys2Proof.Machine
end

