-- ==== Sys2Proof/Machine/Snapshot.lean ====
section
/-! DEFINITION. The snapshot records of STATUS SNAPSHOT (R180): 256 bytes each, 0 in each byte that R180 names
no field for (log 24). -/

namespace Sys2Proof.Machine

/-- A number as one byte. -/
def natByte (n : Nat) : Byte := BitVec.ofNat 8 n

/-- The 4 bytes of a 32-bit field. -/
def word4 (w : BitVec 32) : List Byte := beBytes 4 w.toNat

/-- The 5 bytes of an address. -/
def addr5 (a : Addr) : List Byte := beBytes 5 a.toNat

/-! ### Service record -/

/-- Mode coded in listed order (R180). -/
def ServiceMode.code : ServiceMode → Byte
  | .network => 0
  | .brk => 1
  | .loc => 2

/-- Held cause: 0 clear, 40 ERROR, 41 CONTROL (R180). -/
def heldByte : Option HeldCause → Byte
  | none => 0
  | some c => c.cause.code

/-- A kind's descriptor code: 1 VIDEO, 2 AUDIO, 3 DATA (R177). -/
def CompKind.code : CompKind → Byte
  | .video => 1
  | .audio => 2
  | .data => 3

/-- Current source coded in listed order (R180). -/
def CurSource.code : CurSource → Byte
  | .network => 0
  | .brk => 1
  | .loc => 2
  | .alert => 3

/-- Alert state coded in listed order (R180). -/
def AlertState.code : AlertState → Byte
  | .none => 0
  | .pending => 1
  | .taken => 2

/-- A component's descriptor: kind in bits 1 to 0, lead flag bit 4, PCR flag bit 5 (R177). -/
def Component.descriptor (c : Component) : Byte :=
  c.kind.code ||| (flagByte c.lead <<< 4) ||| (flagByte c.pcr <<< 5)

/-- The 10 bytes of a component record (R180). -/
def Component.bytes (c : Component) : List Byte :=
  beBytes 2 c.pid.toNat
    ++ [c.descriptor, c.cur.code,
      (match c.outCc with
        | some n => n.setWidth 8
        | none => 0xFF),
      c.ccOffset.setWidth 8, c.alert.code ||| (flagByte c.rejoin <<< 7)]
    ++ beBytes 2 c.cursor ++ [0]

/-- State of a break entry: 1 SCHEDULED to 4 ACTIVE (R180). -/
def EntryState.code : EntryState → Byte
  | .scheduled => 1
  | .ready => 2
  | .notReady _ => 3
  | .active => 4

/-- State of a local slot that is not EMPTY, in listed order (R180). -/
def SlotState.code : SlotState → Byte
  | .loaded => 1
  | .ready => 2
  | .notReady _ => 3
  | .running => 4

/-- The 12 bytes of a break entry (R180). -/
def BreakEntry.bytes (e : BreakEntry) : List Byte := [e.state.code, 0, 0, 0] ++ word4 e.event ++ word4 e.splice

/-- The 12 bytes of a local slot (R180). -/
def slotBytes : Option LocalProg → List Byte
  | some p => [p.state.code, 0, 0, 0] ++ word4 p.start ++ word4 p.stop
  | none => zeros 12

/-- Base and slot count of a window: 5 bytes and 3 (R180). -/
def windowBytes : Option Window → List Byte
  | some w => addr5 w.base ++ beBytes 3 w.slots
  | none => zeros 8

/-- The clock track: presence, PCR base, a byte 0, stamp (R180). -/
def trackBytes : Option ClockTrack → List Byte
  | some t => [1] ++ beBytes 5 t.base.toNat ++ [0] ++ word4 t.stamp
  | none => zeros 11

/-- An optional PID: 0xFFFF when absent (R180). -/
def pidBytes : Option Pid → List Byte
  | some p => beBytes 2 p.toNat
  | none => [0xFF, 0xFF]

/-- An alert owner: 0xFF for none (R180). -/
def ownerByte : Option AlertIx → Byte
  | some k => natByte k.val
  | none => 0xFF

/-- The current pointer: 0 A, 1 B (R180; log 24). -/
def pointerByte : SlotLetter → Byte
  | .a => 0
  | .b => 1

/-- The service record (R180). -/
def serviceSnapshot (i : ServiceIx) (v : Service) : List Byte :=
  padTo 256 <|
    [natByte i.val, flagByte v.defined, v.mode.code, heldByte v.held, ownerByte v.owner, flagByte v.exempt,
      natByte v.comps.length, pointerByte v.current]
    ++ windowBytes v.window ++ pidBytes v.cuePid ++ beBytes 2 v.preRoll ++ beBytes 2 v.lateWindow
    ++ [natByte v.underrunLimit, v.overlayCc.setWidth 8, v.overlayNulls]
    ++ trackBytes v.track
    ++ word4 v.classified ++ word4 v.substituted ++ word4 v.stuffed ++ word4 v.overlaid ++ zeros 4
    ++ padTo 80 (v.comps.flatMap Component.bytes)
    ++ padTo 48 (v.schedule.flatMap BreakEntry.bytes)
    ++ slotBytes v.slotA ++ slotBytes v.slotB

/-! ### Source record -/

/-- Source mode: 1 STREAM, 2 LOOP (R180); 0 for a FREE source (log 24). -/
def sourceModeByte : Option SourceConfig → Byte
  | some c =>
    match c.mode with
    | .stream => 1
    | .loop => 2
  | none => 0

/-- Attachment: 0 none, 1 break, 2 local (R180). -/
def attachmentByte : Option InsOwner → Byte
  | none => 0
  | some (.brk _ _) => 1
  | some (.loc _ _) => 2

/-- The source record (R180). -/
def sourceSnapshot (k : SourceIx) (r : Source) : List Byte :=
  padTo 256 <|
    [natByte k.val, flagByte r.defined, sourceModeByte r.config, natByte r.alertUsers]
    ++ windowBytes (r.config.map (·.window))
    ++ beBytes 4 r.writeIx ++ beBytes 4 r.readIx ++ beBytes 4 r.fill ++ beBytes 4 r.minFill ++ beBytes 4 r.cursor
    ++ [attachmentByte r.attachment,
      (match r.attachedService with
        | some i => natByte i.val
        | none => 0),
      flagByte r.overrunRun, 0]
    ++ wordBytes (r.attachment.map ownerId)
    ++ word4 r.overruns ++ word4 r.underruns ++ word4 r.discarded

/-! ### Part record -/

/-- The ring's N, producer, consumer and base (R180). -/
def ringBytes (g : Ring) : List Byte :=
  word4 g.dropped ++ beBytes 2 (g.defn.elim 0 (·.count)) ++ beBytes 2 g.producer ++ beBytes 2 g.consumer
    ++ beBytes 5 (g.defn.elim 0 fun d => d.base.toNat)

/-- The 29 bytes of the first-error record (R180). -/
def firstErrorBytes : Option FirstError → List Byte
  | none => zeros 29
  | some e =>
    [e.kind.code, flagBits e.service.isSome e.requester.isSome e.addr.isSome e.packet.isSome, sourceByteOr e.service,
      natByte (e.requester.elim 0 (·.val))]
      ++ beBytes 5 (e.addr.elim 0 (·.toNat)) ++ word4 e.stamp ++ padTo 16 (e.packet.getD [])
where
  /-- The service, 0 when absent. -/
  sourceByteOr : Option ServiceIx → Byte
    | some i => natByte i.val
    | none => 0

/-- The four bytes of a kind: status bit 0 and masked bit 1, severity, counter (R180). -/
def KindLog.bytes (l : KindLog) : List Byte :=
  [flagBits l.status l.masked false false, l.severity.code] ++ beBytes 2 l.counter.toNat

/-- The 16 bytes of an alert slot (R180). -/
def alertBytes : Option Alert → List Byte
  | none => zeros 16
  | some a =>
    [1, natByte a.group.val, natByte a.level, a.origin.code] ++ word4 a.number ++ word4 a.start ++ word4 a.deadline

/-- The arm's group and level: 0xFF for none (R180). -/
def armBytes : Option PendingArm → List Byte
  | some a => [natByte a.group.val, natByte a.level]
  | none => [0xFF, 0]

/-- The 17 bytes of the link items (R180). -/
def linkBytes (l : Link) : List Byte :=
  [flagByte l.enabled, natByte l.interval] ++ armBytes l.arm
    ++ [flagByte l.lost, flagByte l.mark, flagByte l.period.isSome, 0]
    ++ wordBytes l.lastKeepalive ++ wordBytes l.lostStamp
    ++ [flagBits l.lastKeepalive.isSome l.lostStamp.isSome false false]

/-- The part record (R180). -/
def partSnapshot (s : State) : List Byte :=
  padTo 256 <|
    [s.modeControl.mode.code, flagByte s.modeControl.holdOnFault, natByte s.modeControl.interval,
      natByte s.intake.length]
    ++ ringBytes s.ring ++ [flagByte s.multiple]
    ++ firstErrorBytes s.firstError ++ zeros 7
    ++ s.kinds.toList.flatMap KindLog.bytes
    ++ s.alerts.toList.flatMap alertBytes
    ++ linkBytes s.link ++ zeros 3
    ++ wordBytes s.modeControl.timer ++ wordBytes s.modeControl.bypassStamp
    ++ [flagBits s.modeControl.timer.isSome s.modeControl.bypassStamp.isSome false false]

/-! ### Handing a record to the memory port (R163) -/

/-- One beat of 16 bytes of a record, written to its place. -/
def writeBeat (dest : Addr) (record : List Byte) (k : Nat) (s : State) : State :=
  writeInternal (dest + BitVec.ofNat 36 (16 * k)) ((record.drop (16 * k)).take 16) s

/-- Beats `first` up to but not including `last` of a record, in ascending address (R163). -/
def writeBeats (dest : Addr) (record : List Byte) (first last : Nat) (s : State) : State :=
  (List.range (last - first)).foldl (fun t k => writeBeat dest record (first + k) t) s

end Sys2Proof.Machine
end

