-- ==== Sys2Proof/Machine/PartCommands.lean ====
section
/-! DEFINITION. The part-wide commands: ENABLE, DISABLE, RESTART, STATUS SNAPSHOT, REQUESTER ROLE SET, ERROR POLICY,
ERROR CLEAR, RESUME and REPORT RING SET. -/

namespace Sys2Proof.Machine

/-! ### ENABLE and DISABLE (R160, R161) -/

/-- ENABLE that passes its checks (R160). -/
def enablePart (hold : Bool) (interval : Nat) (s : State) : Progress × State :=
  let s1 := s.modMode fun m => { m with holdOnFault := hold, interval := interval }
  if s.mode == .passive then
    let s2 := s1.modMode fun m => { m with mode := .active }
    done 1 (offer (modeReport .active .enable none none 0 s2) s2)
  else done 0 s1

/-- ENABLE (R160). -/
def cmdEnable (p : Params) (s : State) : Progress × State :=
  let hold := (pByte p 0).toNat
  let interval := (pByte p 1).toNat
  if 1 < hold ∨ interval < 1 ∨ 60 < interval then refuse .badParam s
  else if s.mode == .bypass then refuse .mode s
  else enablePart (hold == 1) interval s

/-- How many break entries and local slots that are not EMPTY a service has (R7, R161). -/
def Service.insertions (v : Service) : Nat := v.schedule.length + v.slotA.isSome.toNat + v.slotB.isSome.toNat

/-- How many break entries and local slots DISABLE removes (R161). -/
def State.insertions (s : State) : Nat := (allServices.map fun i => (s.service i).insertions).sum

/-- Step 1 of R161 for every DEFINED service. -/
def disableServices (s : State) : State :=
  forServices (fun i t => if (t.service i).defined then clearSlots i .disabled (clearSchedule i .disabled t) else t) s

/-- Step 4 of R161. -/
def disableMode (s : State) : State :=
  let s1 := s.modMode fun m => { m with mode := .passive, timer := none }
  offer (modeReport .passive .disable none none 0 s1) s1

/-- DISABLE (R161). -/
def cmdDisable (s : State) : Progress × State :=
  if s.mode == .passive then refuse .mode s
  else
    done (BitVec.ofNat 32 s.insertions) (disableMode (resetComponents (endAllAlerts .disabled (disableServices s))))

/-! ### RESTART (R162, R41) -/

/-- A SLOT entry's service has become UNUSED (R6, R8; log 13). -/
def RttEntry.orphaned (r : RttEntry) : RttEntry := if r.kind == .plain then r else { r with stale := true }

/-- The state RESTART leaves (R162): that of power-on reset, but for the strap base, the RTT with its orders and
counters, and the reads on their way (R41; log 30). -/
def restarted (s : State) : State :=
  { State.reset with
    pending := s.pending
    emitted := s.emitted
    freeIndex := s.freeIndex
    now := s.now
    straps := s.straps
    rtt := s.rtt.map (Option.map RttEntry.orphaned)
    completionOrder := s.completionOrder
    rewriteOrder := s.rewriteOrder
    sequence := s.sequence
    waitingReads := s.waitingReads
    issueQueue := s.issueQueue
    outstanding := s.outstanding }

/-- RESTART: its own write-back first, then the reset of every block (R162). -/
def cmdRestart (q : QueueEntry) (s : State) : Progress × State :=
  (.gone, restarted (writeBack q.cell q.code q.tag (.done 0) s))

/-! ### STATUS SNAPSHOT (R163) -/

/-- The record a selector and an index name; none when check 1 of R163 fails. -/
def snapshotRecord (selector : Byte) (p : Params) (s : State) : Option (List Byte) :=
  match selector.toNat with
  | 1 => (pIndex 48 p 1).map fun i => serviceSnapshot i (s.service i)
  | 2 => (pIndex 32 p 1).map fun k => sourceSnapshot k (s.source k)
  | 3 => some (partSnapshot s)
  | _ => none

/-- The destination shares a byte with a region check 3 of R163 names. -/
def State.snapshotClash (s : State) (dest : Addr) : Bool :=
  s.meetsService dest.toNat 256 || s.meetsSource dest.toNat 256 || s.meetsRing dest.toNat 256
    || s.meetsControl 0x800 dest.toNat 256

/-- The record captured, and as many of its beats handed to the memory port as a free value says (R163; log 12). -/
def beginSnapshot (dest : Addr) (record : List Byte) (s : State) : State :=
  let first := (Config.snapshotBeatsFirst s.freeIndex).val
  let s1 := writeBeats dest record 0 first s.drawn
  { s1 with work := some (.snapshot dest record first) }

/-- STATUS SNAPSHOT (R163). -/
def cmdStatusSnapshot (p : Params) (s : State) : Progress × State :=
  match snapshotRecord (pByte p 0) p s, pAddr p 4 with
  | some record, some dest =>
    if !aligned 16 dest || !fits dest 256 then refuse .badParam s
    else if s.snapshotClash dest then refuse .overlap s
    else (.working, beginSnapshot dest record s)
  | _, _ => refuse .badParam s

/-! ### REQUESTER ROLE SET (R25) -/

/-- REQUESTER ROLE SET (R25). -/
def cmdRequesterRoleSet (p : Params) (s : State) : Progress × State :=
  match pIndex 64 p 0, roleOfCode (pByte p 1) with
  | some q, some role =>
    if q.val == 0 then refuse .badParam s else done 0 { s with roles := vset s.roles q role }
  | _, _ => refuse .badParam s

/-! ### ERROR POLICY and ERROR CLEAR (R166, R167) -/

/-- The kind a code names: 1 to 22 (R166). -/
def kindOfCode (b : Byte) : Option (Fin 22) :=
  if h : b.toNat - 1 < 22 then (if 1 ≤ b.toNat then some ⟨b.toNat - 1, h⟩ else none) else none

/-- ERROR POLICY (R166). -/
def cmdErrorPolicy (p : Params) (s : State) : Progress × State :=
  match kindOfCode (pByte p 0), severityOfCode (pByte p 2) with
  | some k, some severity =>
    if 1 < (pByte p 1).toNat || k == ErrorKind.readTimeout.ix then refuse .badParam s
    else done 0 (s.modKind k fun l => { l with masked := pByte p 1 == 1, severity := severity })
  | _, _ => refuse .badParam s

/-- The kind is named by a kind mask: bit n stands for kind code n (R167). -/
def namedKind (mask : BitVec 32) (k : Fin 22) : Bool := mask.getLsbD (k.val + 1)

/-- The named kinds' status and counter cleared (R167). -/
def clearKinds (mask : BitVec 32) (s : State) : State :=
  allKinds.foldl (fun t k =>
    if namedKind mask k then t.modKind k fun l => { l with status := false, counter := 0 } else t) s

/-- The number of named kinds whose status is set (R167). -/
def State.namedStatuses (s : State) (mask : BitVec 32) : Nat :=
  allKinds.countP fun k => namedKind mask k && (vget s.kinds k).status

/-- ERROR CLEAR (R167). -/
def cmdErrorClear (p : Params) (s : State) : Progress × State :=
  let mask := pWord p 0
  let flag := (pByte p 4).toNat
  if 1 < flag then refuse .badParam s
  else
    let s1 := clearKinds mask s
    done (BitVec.ofNat 32 (s.namedStatuses mask))
      (if flag == 1 then { s1 with firstError := none, multiple := false } else s1)

/-! ### RESUME (R171) -/

/-- RESUME (R171). -/
def cmdResume (s : State) : Progress × State :=
  if s.mode == .bypass then done s.bypassTicks (leaveBypass .resume s) else refuse .mode s

/-! ### REPORT RING SET (R172) -/

/-- The ring's definition replaced, both indexes 0 and the overflow flag clear (R172). -/
def setRing (d : Option RingDef) (s : State) : State :=
  { s with ring := { s.ring with defn := d, producer := 0, consumer := 0, overflow := false } }

/-- A ring that passes its checks is defined: 0 is written to the producer-index word, then a GAP record if reports have
been dropped (R172). -/
def defineRing (d : RingDef) (s : State) : Progress × State :=
  let s1 := writeProducer 0 (setRing (some d) s)
  if s.ring.dropped == 0 then done 0 s1 else done s.ring.dropped (putGap d s1)

/-- REPORT RING SET with a count other than 0 (R172). -/
def ringSet (base : Addr) (n : Nat) (s : State) : Progress × State :=
  if n < 16 ∨ 4096 < n ∨ !aligned 32 base ∨ !fits base (32 * n) then refuse .badParam s
  else if s.meetsService base.toNat (32 * n) || s.meetsSource base.toNat (32 * n)
      || s.meetsControl controlSize base.toNat (32 * n) then refuse .overlap s
  else defineRing { base := base, count := n } s

/-- REPORT RING SET (R172); a malformed base is refused whatever the count (R178; log 25). -/
def cmdReportRingSet (p : Params) (s : State) : Progress × State :=
  match pAddr p 4 with
  | none => refuse .badParam s
  | some base => if pField p 9 2 == 0 then done 0 (setRing none s) else ringSet base (pField p 9 2) s

end Sys2Proof.Machine
end

