-- ==== Sys2Proof/Machine/ServiceCommands.lean ====
section
/-! DEFINITION. The service commands: SERVICE DEFINE, SERVICE REMOVE, COMPONENT SET, SERVICE OPTIONS, FORCE NETWORK and
RELEASE SERVICE (spec/01). -/

namespace Sys2Proof.Machine

/-! ### SERVICE DEFINE (R4 to R6) -/

/-- The window at p4 to p11, with a slot count in a range: none when it is refused BAD-PARAM (R5, R45, R178). -/
def pWindow (p : Params) (least : Nat) : Option Window :=
  match pAddr p 4 with
  | some base =>
    let w : Window := { base := base, slots := pField p 9 3 }
    if aligned 16 base && decide (least ≤ w.slots) && decide (w.slots ≤ 65536) && fits base w.bytes then some w else none
  | none => none

/-- A service as SERVICE DEFINE makes it (R6). -/
def Service.fresh (w : Window) (cue : Option Pid) (comps : List Component) : Service :=
  { Service.unused with window := some w, cuePid := cue, comps := comps }

/-- SERVICE DEFINE that has passed every check: the record, then its ownership (R6). -/
def defineService (i : ServiceIx) (w : Window) (cue : Option Pid) (comps : List Component) (s : State) :
    Progress × State :=
  done 0 (recomputeOne i (s.modService i fun _ => Service.fresh w cue comps))

/-- Checks 4 and 5 of R6. -/
def defineChecked (i : ServiceIx) (p : Params) (cue : Option Pid) (s : State) : Progress × State :=
  match pComponents p cue, pWindow p 16 with
  | some comps, some w => if s.windowClash w then refuse .overlap s else defineService i w cue comps s
  | _, _ => refuse .badParam s

/-- SERVICE DEFINE, in the order of R6. -/
def cmdServiceDefine (p : Params) (s : State) : Progress × State :=
  match pIndex 48 p 0 with
  | none => refuse .badParam s
  | some i =>
    if (s.service i).defined then refuse .busy s
    else if pOptPid p 2 == .malformed then refuse .badParam s
    else defineChecked i p (pOptPid p 2).toOption s

/-! ### SERVICE REMOVE (R7) -/

/-- The SLOT reads of a service that are in the RTT are marked (R6, R8; log 13). -/
def orphanEntries (i : ServiceIx) (s : State) : State :=
  { s with rtt := s.rtt.map (Option.map fun r => if r.kind == .slot i then r.orphaned else r) }

/-- SERVICE REMOVE of a DEFINED service, in the steps of R7. Steps 4 and 5 end with the values step 6 gives the record. -/
def removeService (i : ServiceIx) (s : State) : State :=
  let s1 := clearSlots i .removed (clearSchedule i .removed s)
  let s2 := offer (serviceReport i .removed .none (BitVec.ofNat 32 (s.service i).insertions) s1) s1
  orphanEntries i (s2.modService i fun _ => Service.unused)

/-- SERVICE REMOVE (R7). -/
def cmdServiceRemove (p : Params) (s : State) : Progress × State :=
  match pIndex 48 p 0 with
  | none => refuse .badParam s
  | some i =>
    if (s.service i).defined then done (BitVec.ofNat 32 (s.service i).insertions) (removeService i s)
    else refuse .notDefined s

/-! ### COMPONENT SET (R9) -/

/-- A component of a new list keeps the continuity state its PID had (R9). -/
def Component.keeping (old : List Component) (c : Component) : Component :=
  match old.find? fun o => o.pid == c.pid with
  | some o => { c with cur := o.cur, rejoin := o.rejoin, outCc := o.outCc, ccOffset := o.ccOffset }
  | none => c

/-- The PID of the PCR component (R16). -/
def pcrPid (cs : List Component) : Option Pid := (cs.find? (·.pcr)).map (·.pid)

/-- A service with a new component list (R9). -/
def Service.withComponents (v : Service) (cs : List Component) : Service :=
  { v with
    comps := cs.map (Component.keeping v.comps)
    track := if (pcrPid cs).isSome && pcrPid cs == pcrPid v.comps then v.track else none }

/-- COMPONENT SET, in the order of R9. -/
def cmdComponentSet (p : Params) (s : State) : Progress × State :=
  match pIndex 48 p 0 with
  | none => refuse .badParam s
  | some i =>
    if !(s.service i).defined then refuse .notDefined s
    else if (s.service i).mode != .network then refuse .busy s
    else if (s.service i).owner.isSome then refuse .busy s
    else
      match pComponents p (s.service i).cuePid with
      | some cs => done 0 (s.modService i fun v => v.withComponents cs)
      | none => refuse .badParam s

/-! ### SERVICE OPTIONS (R10) -/

/-- The cue PID is carried by no component (R10). -/
def Service.cueAllowed (v : Service) (cue : Option Pid) : Bool := !(v.comps.any fun c => some c.pid == cue)

/-- The five options stored (R10). -/
def Service.withOptions (v : Service) (p : Params) (cue : Option Pid) : Service :=
  { v with
    preRoll := pField p 4 2
    lateWindow := pField p 6 2
    underrunLimit := (pByte p 8).toNat
    exempt := (pByte p 1).getLsbD 0
    cuePid := cue }

/-- SERVICE OPTIONS that has passed every check: a change of the exempt flag recomputes ownership (R10). -/
def setOptions (i : ServiceIx) (p : Params) (cue : Option Pid) (s : State) : Progress × State :=
  let s1 := s.modService i fun v => v.withOptions p cue
  done 0 (if (s1.service i).exempt == (s.service i).exempt then s1 else recomputeOne i s1)

/-- The options are in their ranges (R10, check 3). -/
def optionsInRange (p : Params) : Bool :=
  decide (pField p 4 2 ≤ 30000) && decide (pField p 6 2 ≤ 5000) && decide (1 ≤ (pByte p 8).toNat)

/-- SERVICE OPTIONS, in the order of R10. -/
def cmdServiceOptions (p : Params) (s : State) : Progress × State :=
  match pIndex 48 p 0 with
  | none => refuse .badParam s
  | some i =>
    if !(s.service i).defined then refuse .notDefined s
    else if !optionsInRange p then refuse .badParam s
    else if pOptPid p 2 == .malformed || !(s.service i).cueAllowed (pOptPid p 2).toOption then refuse .badParam s
    else setOptions i p (pOptPid p 2).toOption s

/-! ### FORCE NETWORK and RELEASE SERVICE (R19, R20) -/

/-- The 48-bit mask at p0 to p5: bit n is service n (R177). -/
def pMask (p : Params) (k : Nat) : BitVec 48 := BitVec.ofNat 48 (pField p k 6)

/-- The service is DEFINED and its bit is set (R19). -/
def State.inMask (s : State) (mask : BitVec 48) (i : ServiceIx) : Bool := (s.service i).defined && mask.getLsbD i.val

/-- The number of services of a mask whose held flag is clear (R19). -/
def State.clearInMask (s : State) (mask : BitVec 48) : Nat :=
  allServices.countP fun i => s.inMask mask i && !(s.service i).held.isSome

/-- The held flag of each service of a mask set with cause CONTROL, in ascending index (R19). -/
def holdMask (mask : BitVec 48) (s : State) : State :=
  forServices (fun i t => if t.inMask mask i then setHeld i .control t else t) s

/-- FORCE NETWORK (R19). -/
def cmdForceNetwork (p : Params) (s : State) : Progress × State :=
  done (BitVec.ofNat 32 (s.clearInMask (pMask p 0))) (holdMask (pMask p 0) s)

/-- A held flag cleared and SERVICE RELEASED written (R20). -/
def releaseHeld (i : ServiceIx) (cause : HeldCause) (s : State) : State :=
  let s1 := s.modService i fun v => { v with held := none }
  offer (serviceReport i .released cause.cause 0 s1) s1

/-- RELEASE SERVICE (R20). -/
def cmdReleaseService (p : Params) (s : State) : Progress × State :=
  match pIndex 48 p 0 with
  | none => refuse .badParam s
  | some i =>
    if !(s.service i).defined then refuse .notDefined s
    else
      match (s.service i).held with
      | some cause => done 1 (releaseHeld i cause s)
      | none => done 0 s

end Sys2Proof.Machine
end

