-- ==== Sys2Proof/Machine/SourceCommands.lean ====
section
/-! DEFINITION. The source commands: SOURCE DEFINE with its start check, SOURCE REMOVE and SOURCE FLUSH (spec/03). -/

namespace Sys2Proof.Machine

/-! ### SOURCE DEFINE (R45, R46) -/

/-- A source as SOURCE DEFINE makes it (R44, R45). -/
def Source.fresh (mode : SourceMode) (w : Window) (minFill : Nat) : Source :=
  { Source.free with config := some { mode := mode, window := w }, minFill := minFill }

/-- A command's 12-beat read handed to the memory port, and the command in progress (R43, R159). -/
def beginRead (work : Work) (addr : Addr) (s : State) : State :=
  handRead { owner := .command, addr := addr, beats := 12 } { s with work := some work }

/-- SOURCE DEFINE of a STREAM source from check 7 of R45 on. -/
def defineStream (k : SourceIx) (w : Window) (minFill : Nat) (s : State) : Progress × State :=
  if w.slots < minFill then refuse .badParam s
  else if s.windowClash w then refuse .overlap s
  else done 0 (s.modSource k fun _ => Source.fresh .stream w minFill)

/-- SOURCE DEFINE of a LOOP source from check 8 of R45 on: the start check (R46). -/
def defineLoop (k : SourceIx) (w : Window) (s : State) : Progress × State :=
  if s.windowClash w then refuse .overlap s
  else (.working, beginRead (.startCheck k w) (w.slotAddr 0) s)

/-- Checks 3 to 8 of R45. -/
def defineSource (k : SourceIx) (p : Params) (s : State) : Progress × State :=
  match sourceModeOfCode (pByte p 1) with
  | none => refuse .badParam s
  | some .stream =>
    match pWindow p 8 with
    | some w => defineStream k w (pField p 12 3) s
    | none => refuse .badParam s
  | some .loop =>
    match pWindow p 4 with
    | some w => defineLoop k w s
    | none => refuse .badParam s

/-- SOURCE DEFINE, in the order of R45. -/
def cmdSourceDefine (p : Params) (s : State) : Progress × State :=
  match pIndex 32 p 0 with
  | none => refuse .badParam s
  | some k => if (s.source k).defined then refuse .busy s else defineSource k p s

/-- The start check answered OK (R46): a good start defines the LOOP source. -/
def startChecked (k : SourceIx) (w : Window) (slot : List Byte) (s : State) : Reply × State :=
  if goodSync slot && startFlag slot then (.done 0, s.modSource k fun _ => Source.fresh .loop w 0)
  else (.refused .badParam, s)

/-! ### SOURCE REMOVE and SOURCE FLUSH (R47, R57) -/

/-- SOURCE REMOVE, in the order of R47. -/
def cmdSourceRemove (p : Params) (s : State) : Progress × State :=
  match pIndex 32 p 0 with
  | none => refuse .badParam s
  | some k =>
    if !(s.source k).defined then refuse .notDefined s
    else if (s.source k).attachment.isSome then refuse .busy s
    else if (s.source k).alertUsers != 0 then refuse .busy s
    else done (BitVec.ofNat 32 (s.source k).flushCount) (s.modSource k fun _ => Source.free)

/-- SOURCE FLUSH, in the order of R57. -/
def cmdSourceFlush (p : Params) (s : State) : Progress × State :=
  match pIndex 32 p 0 with
  | none => refuse .badParam s
  | some k =>
    if !(s.source k).defined then refuse .notDefined s
    else if !(s.source k).isStream then refuse .badParam s
    else if (s.source k).attachment.isSome then refuse .busy s
    else done (BitVec.ofNat 32 (s.source k).flushCount) (s.modSource k Source.flushed)

end Sys2Proof.Machine
end

