-- ==== Sys2Proof/Machine/BreakCommands.lean ====
section
/-! DEFINITION. The avail and break commands: AVAIL BIND, AVAIL UNBIND, BREAK INSERT, BREAK RETURN, BREAK CANCEL and
BREAK END NOW (spec/04, spec/05, spec/06). -/

namespace Sys2Proof.Machine

/-! ### AVAIL BIND and AVAIL UNBIND (R73 to R75) -/

/-- Component indexes are named by a replace set (spec/04, section 4.4). -/
def inReplaceSet (set : BitVec 8) (c : ComponentIx) : Bool := set.getLsbD c.val

/-- The replace set names a component, and every index it names is below the count (R73, check 5). -/
def replaceSetOk (set : BitVec 8) (count : Nat) : Bool :=
  set != 0 && (List.finRange 8).all fun c => !inReplaceSet set c || decide (c.val < count)

/-- A service's avail set, DONE with 1 when it was bound before and 0 when it was not (R74, R75). -/
def setAvail (i : ServiceIx) (a : AvailIx) (b : Option Binding) (s : State) : Progress × State :=
  done (if (vget (s.service i).avails a).isSome then 1 else 0)
    (s.modService i fun v => { v with avails := vset v.avails a b })

/-- Checks 4 to 8 of R73. -/
def bindChecked (i : ServiceIx) (a : AvailIx) (k : SourceIx) (p : Params) (s : State) : Progress × State :=
  if !(s.source k).defined then refuse .notDefined s
  else if !replaceSetOk (pByte p 3) (s.service i).comps.length then refuse .badParam s
  else
    match pPairs p (inReplaceSet (pByte p 3)) with
    | some pairs => setAvail i a (some { source := k, replaceSet := pByte p 3, remap := pairs }) s
    | none => refuse .badParam s

/-- AVAIL BIND, in the order of R73. -/
def cmdAvailBind (p : Params) (s : State) : Progress × State :=
  match pIndex 48 p 0 with
  | none => refuse .badParam s
  | some i =>
    if !(s.service i).defined then refuse .notDefined s
    else
      match pIndex 16 p 1, pIndex 32 p 2 with
      | some a, some k => bindChecked i a k p s
      | _, _ => refuse .badParam s

/-- AVAIL UNBIND (R75). -/
def cmdAvailUnbind (p : Params) (s : State) : Progress × State :=
  match pIndex 48 p 0, pIndex 16 p 1 with
  | some i, some a => if (s.service i).defined then setAvail i a none s else refuse .notDefined s
  | _, _ => refuse .badParam s

/-! ### BREAK INSERT, BREAK RETURN and BREAK CANCEL (R86) -/

/-- The stamp of a request: the one given, or the station clock when the immediate flag is set (R67, R86). -/
def requestStamp (given : Stamp) (flags : Byte) (now : Stamp) : Stamp := if flags.getLsbD 0 then now else given

/-- A duration field: 0 is absent (R66). -/
def durationOf (w : BitVec 32) : Option (BitVec 32) := if w == 0 then none else some w

/-- The OUT request of BREAK INSERT: the parameter bytes stand at the offsets of the cue bytes (R177, R86). -/
def pOut (p : Params) (a : AvailIx) (now : Stamp) : OutRequest where
  event := pWord p 2
  avail := a
  splice := requestStamp (pWord p 6) (pByte p 15) now
  duration := durationOf (pWord p 10)

/-- The write-back of BREAK INSERT by the outcome of its request (R86). -/
def OutOutcome.reply : OutOutcome → Reply
  | .inserted => .done 1
  | .updated => .done 2
  | .missedLate => .done 3
  | .duplicate => .refused .busy
  | .full => .refused .full

/-- The write-back of BREAK RETURN (R86). -/
def InOutcome.reply : InOutcome → Reply
  | .set => .done 1
  | .kept => .done 0
  | .unmatched => .refused .notDefined

/-- The write-back of BREAK CANCEL (R86). -/
def CancelOutcome.reply : CancelOutcome → Reply
  | .cancelled => .done 1
  | .ended => .done 2
  | .unmatched => .refused .notDefined

/-- A command's write-back is what its request came to. -/
def answer (r : Reply) (s : State) : Progress × State := (.answered r, s)

/-- BREAK INSERT, in the order of R86. -/
def cmdBreakInsert (p : Params) (s : State) : Progress × State :=
  match pIndex 48 p 0, pIndex 16 p 14 with
  | some i, some a =>
    if s.mode == .passive then refuse .mode s
    else if !(s.service i).defined then refuse .notDefined s
    else
      let r := takeOut i (pOut p a s.now) s
      answer r.1.reply r.2
  | _, _ => refuse .badParam s

/-- BREAK RETURN, in the order of R86. -/
def cmdBreakReturn (p : Params) (s : State) : Progress × State :=
  match pIndex 48 p 0, pIndex 16 p 14 with
  | some i, some _ =>
    if s.mode == .passive then refuse .mode s
    else if !(s.service i).defined then refuse .notDefined s
    else
      let r := takeIn i (pWord p 2) (requestStamp (pWord p 6) (pByte p 15) s.now) s
      answer r.1.reply r.2
  | _, _ => refuse .badParam s

/-- BREAK CANCEL, in the order of R86; it runs in every part mode. -/
def cmdBreakCancel (p : Params) (s : State) : Progress × State :=
  match pIndex 48 p 0, pIndex 16 p 14 with
  | some i, some _ =>
    if !(s.service i).defined then refuse .notDefined s
    else
      let r := takeCancel i (pWord p 2) s
      answer r.1.reply r.2
  | _, _ => refuse .badParam s

/-! ### BREAK END NOW (R104) -/

/-- The ACTIVE head ends with cause CONTROL-END; the result word is the ticks it was ACTIVE (R104). -/
def endNow (i : ServiceIx) (e : BreakEntry) (s : State) : Progress × State :=
  done (s.now - e.actualOut.getD s.now) (leaveBreak i e.event (.ended .controlEnd s.now) s)

/-- BREAK END NOW, in the order of R104. -/
def cmdBreakEndNow (p : Params) (s : State) : Progress × State :=
  match pIndex 48 p 0 with
  | none => refuse .badParam s
  | some i =>
    if s.mode == .passive then refuse .mode s
    else if !(s.service i).defined then refuse .notDefined s
    else
      match (s.service i).activeHead with
      | some e => if e.event == pWord p 2 then endNow i e s else refuse .notDefined s
      | none => refuse .notDefined s

end Sys2Proof.Machine
end

