-- ==== Sys2Proof/Machine/LocalCommands.lean ====
section
/-! DEFINITION. The local programme commands: LOCAL LOAD and LOCAL CANCEL (spec/07). -/

namespace Sys2Proof.Machine

/-! ### LOCAL LOAD (R117, R118) -/

/-- The slot selector of LOCAL LOAD: the next free slot, or a slot to reload (R117). -/
inductive Selector where
  | nextFree
  | reload (l : SlotLetter)
  deriving DecidableEq, Repr

/-- A selector code: 0 next free, 1 reload A, 2 reload B (R117). -/
def selectorOfCode (b : Byte) : Option Selector :=
  match b.toNat with
  | 0 => some .nextFree
  | 1 => some (.reload .a)
  | 2 => some (.reload .b)
  | _ => none

/-- Check 6 of R117. -/
def stampsOk (start stop now : Stamp) : Bool :=
  decide (1 ≤ (stop - start).toNat) && decide ((stop - start).toNat < 2 ^ 31)
    && decide (1 ≤ (stop - now).toNat) && decide ((stop - now).toNat < 2 ^ 30)

/-- Check 7 of R117: the slot chosen, or the refusal. -/
def chooseSlot (v : Service) : Selector → Except RefusalCode SlotLetter
  | .nextFree =>
    if (v.slot v.current).isNone then .ok v.current
    else if (v.slot (otherLetter v.current)).isNone then .ok (otherLetter v.current)
    else .error .full
  | .reload l =>
    match v.slot l with
    | none => .error .notDefined
    | some q => if q.isRunning then .error .busy else .ok l

/-- Check 8 of R117: the ordering of R116 with the new stamps in the chosen slot. -/
def slotOrderOk (v : Service) (l : SlotLetter) (start stop : Stamp) : Bool :=
  match v.slot (otherLetter l) with
  | none => true
  | some q => if l == v.current then atOrAfter q.start stop else atOrAfter start q.stop

/-- A programme as LOCAL LOAD puts it into a slot: LOADED (R118). -/
def LocalProg.fresh (k : SourceIx) (start stop : Stamp) (remap : List RemapPair) : LocalProg where
  state := .loaded
  source := k
  start := start
  stop := stop
  remap := remap
  actualStart := none
  actualEnd := none
  pcrOffset := none
  underruns := 0

/-- A slot's programme replaced, and its pre-roll armed afresh (R118). -/
def loadSlot (i : ServiceIx) (l : SlotLetter) (q : LocalProg) (s : State) : State :=
  armSlot i l (s.modService i fun v => v.setSlot l (some q))

/-- The effect of a load that passes its checks, by the slot's state before it (R118). -/
def applyLoad (i : ServiceIx) (l : SlotLetter) (q : LocalProg) (s : State) : State :=
  match (s.service i).slot l with
  | none => loadSlot i l q s
  | some old =>
    if old.state == .ready then
      if old.source == q.source then
        s.modSlot i l fun x => { x with start := q.start, stop := q.stop, remap := q.remap }
      else loadSlot i l q (detach old.source (.loc i l) s)
    else loadSlot i l q (disarm (.loc i l) s)

/-- Checks 7 and 8 of R117, and the load. -/
def loadChosen (i : ServiceIx) (sel : Selector) (q : LocalProg) (s : State) : Progress × State :=
  match chooseSlot (s.service i) sel with
  | .error code => refuse code s
  | .ok l =>
    if slotOrderOk (s.service i) l q.start q.stop then done (idByte (letterCode l)) (applyLoad i l q s)
    else refuse .overlap s

/-- Checks 5 and 6 of R117. -/
def loadChecked (i : ServiceIx) (sel : Selector) (k : SourceIx) (p : Params) (s : State) : Progress × State :=
  match pPairs p (fun c => decide (c.val < (s.service i).comps.length)) with
  | none => refuse .badParam s
  | some pairs =>
    if stampsOk (pWord p 6) (pWord p 10) s.now then loadChosen i sel (LocalProg.fresh k (pWord p 6) (pWord p 10) pairs) s
    else refuse .badParam s

/-- LOCAL LOAD, in the order of R117. -/
def cmdLocalLoad (p : Params) (s : State) : Progress × State :=
  match pIndex 48 p 0, pIndex 32 p 2, selectorOfCode (pByte p 1) with
  | some i, some k, some sel =>
    if s.mode == .passive then refuse .mode s
    else if !(s.service i).defined then refuse .notDefined s
    else if !(s.source k).defined then refuse .notDefined s
    else loadChecked i sel k p s
  | _, _, _ => refuse .badParam s

/-! ### LOCAL CANCEL (R125) -/

/-- A slot letter: 1 A, 2 B (R125). -/
def letterOfCode (b : Byte) : Option SlotLetter :=
  match b.toNat with
  | 1 => some .a
  | 2 => some .b
  | _ => none

/-- LOCAL CANCEL, in the order of R125. -/
def cmdLocalCancel (p : Params) (s : State) : Progress × State :=
  match pIndex 48 p 0, letterOfCode (pByte p 1) with
  | some i, some l =>
    if !(s.service i).defined then refuse .notDefined s
    else
      match (s.service i).slot l with
      | none => refuse .notDefined s
      | some q =>
        if q.start != pWord p 6 then refuse .notDefined s
        else if q.isRunning then done 2 (leaveSlot i l (.ended .cancelled s.now) s)
        else done 1 (leaveSlot i l .cancelled s)
  | _, _ => refuse .badParam s

end Sys2Proof.Machine
end

