-- ==== Sys2Proof/Machine/AlertCommands.lean ====
section
/-! DEFINITION. The alert and link commands: ALERT GROUP SET, ALERT START, ALERT END, ALERT OVERLAY LOAD and LINK SET
(spec/08, spec/09). -/

namespace Sys2Proof.Machine

/-! ### ALERT GROUP SET (R130) -/

/-- A slate source field: 0xFF is absent, a value above 31 otherwise is malformed (R130, R178). -/
def pSlate (p : Params) : Option (Option SourceIx) :=
  if pByte p 2 == 0xFF then some none else (pIndex 32 p 2).map some

/-- The fields of ALERT GROUP SET that pass check 1 of R130. -/
def pGroup (p : Params) : Option AlertGroup :=
  match pIndex 32 p 1, pSlate p with
  | some audio, some slate =>
    if 1 ≤ (pByte p 3).toNat ∧ 1 ≤ pField p 8 2 ∧ pField p 8 2 ≤ 7200 ∧ pOptPid p 4 ≠ .malformed then
      some
        { defined := true, mask := pMask p 16, audio := some audio, slate := slate,
          overlayPid := (pOptPid p 4).toOption, cadence := (pByte p 3).toNat, preempt := (pByte p 6).getLsbD 0,
          maxDuration := pField p 8 2, store := none }
    else none
  | _, _ => none

/-- ALERT GROUP SET, in the order of R130. -/
def cmdAlertGroupSet (p : Params) (s : State) : Progress × State :=
  match pIndex 8 p 0, pGroup p with
  | some g, some group =>
    if (s.slotOfGroup g).isSome then refuse .busy s
    else
      match group.sourceCheck s with
      | some code => refuse code s
      | none => done (if (s.group g).defined then 1 else 0) { s with groups := vset s.groups g group }
  | _, _ => refuse .badParam s

/-! ### ALERT START and ALERT END (R133, R142) -/

/-- The write-back of ALERT START: the slot, or the slot + 256 for a raise (R133). -/
def Activation.reply : Activation → Reply
  | .started k => .done (BitVec.ofNat 32 k.val)
  | .raised k => .done (BitVec.ofNat 32 (k.val + 256))
  | .refused code => .refused code

/-- ALERT START makes an activation request with origin CONTROL (R133). -/
def cmdAlertStart (p : Params) (s : State) : Progress × State :=
  let r := requestActivation { group := (pByte p 0).toNat, level := (pByte p 1).toNat, origin := .control } s
  answer r.1.reply r.2

/-- The alert in a slot ends with cause COMMAND; the result word is the ticks from its start (R142). -/
def endSlot (k : AlertIx) (s : State) : Progress × State :=
  match s.alert k with
  | some a => done (s.now - a.start) (endAlert k .command s)
  | none => refuse .notDefined s

/-- ALERT END by group (R142). -/
def endGroup (g : GroupIx) (s : State) : Progress × State :=
  match s.slotOfGroup g with
  | some k => endSlot k s
  | none => refuse .notDefined s

/-- ALERT END (R142). -/
def cmdAlertEnd (p : Params) (s : State) : Progress × State :=
  match (pByte p 0).toNat with
  | 1 =>
    match pIndex 4 p 1 with
    | some k => endSlot k s
    | none => refuse .badParam s
  | 2 =>
    match pIndex 8 p 1 with
    | some g => endGroup g s
    | none => refuse .badParam s
  | _ => refuse .badParam s

/-! ### ALERT OVERLAY LOAD (R131) -/

/-- ALERT OVERLAY LOAD (R131). -/
def cmdAlertOverlayLoad (p : Params) (s : State) : Progress × State :=
  match pIndex 8 p 0, pAddr p 4 with
  | some g, some a =>
    if !aligned 16 a || !fits a 192 then refuse .badParam s
    else if !(s.group g).defined then refuse .notDefined s
    else if (s.group g).overlayPid.isNone then refuse .badParam s
    else (.working, beginRead (.overlayLoad g) a s)
  | _, _ => refuse .badParam s

/-- The overlay read answered OK (R131): a packet with a good sync byte becomes the group's store. -/
def overlayLoaded (g : GroupIx) (slot : List Byte) (s : State) : Reply × State :=
  if goodSync slot then
    (.done 0, { s with groups := vset s.groups g { s.group g with store := some (packetOf slot) } })
  else (.refused .badParam, s)

/-! ### LINK SET (R153) -/

/-- A keepalive period of an interval that begins now (R153, R154). -/
def beginPeriod (interval : Nat) (now : Stamp) : Option Period :=
  if interval == 0 then none else some { expiry := now + secTicks interval, seconds := interval }

/-- A disabled link enabled (R153). -/
def Link.enable (l : Link) (interval : Nat) (now : Stamp) : Link :=
  { l with
    enabled := true
    interval := interval
    lost := false
    mark := false
    lastKeepalive := none
    lostStamp := none
    period := beginPeriod interval now }

/-- The interval of an enabled link changed; a period begins when none is running (R153). -/
def Link.retime (l : Link) (interval : Nat) (now : Stamp) : Link :=
  if l.period.isNone && interval != 0 then
    { l with interval := interval, mark := false, period := beginPeriod interval now }
  else { l with interval := interval }

/-- The link disabled (R153). -/
def Link.disable (l : Link) (interval : Nat) : Link :=
  { l with enabled := false, interval := interval, arm := none, period := none, lost := false, mark := false }

/-- The link after a LINK SET that passes its checks (R153). -/
def Link.set (l : Link) (enable : Bool) (interval : Nat) (now : Stamp) : Link :=
  if enable then (if l.enabled then l.retime interval now else l.enable interval now) else l.disable interval

/-- LINK SET (R153). -/
def cmdLinkSet (p : Params) (s : State) : Progress × State :=
  if 1 < (pByte p 0).toNat ∨ 60 < (pByte p 1).toNat then refuse .badParam s
  else done 0 { s with link := s.link.set (pByte p 0 == 1) (pByte p 1).toNat s.now }

end Sys2Proof.Machine
end

