-- ==== Sys2Proof/Machine/Execution.lean ====
section
/-! DEFINITION. Execution of the Intake Queue (R158): the table of command codes, running the queue, and the rows that
stand for a command being taken from a cell. -/

namespace Sys2Proof.Machine

/-- A command executes by its code (spec/10, section 10.4); a code not in the table is refused BAD-COMMAND (R158). -/
def runCommand (q : QueueEntry) (s : State) : Progress × State :=
  match q.code.toNat with
  | 0x01 => cmdEnable q.params s
  | 0x02 => cmdDisable s
  | 0x03 => cmdRestart q s
  | 0x04 => cmdStatusSnapshot q.params s
  | 0x05 => cmdRequesterRoleSet q.params s
  | 0x10 => cmdServiceDefine q.params s
  | 0x11 => cmdServiceRemove q.params s
  | 0x12 => cmdComponentSet q.params s
  | 0x13 => cmdServiceOptions q.params s
  | 0x14 => cmdForceNetwork q.params s
  | 0x15 => cmdReleaseService q.params s
  | 0x18 => cmdSourceDefine q.params s
  | 0x19 => cmdSourceRemove q.params s
  | 0x1A => cmdSourceFlush q.params s
  | 0x20 => cmdAvailBind q.params s
  | 0x21 => cmdAvailUnbind q.params s
  | 0x24 => cmdBreakInsert q.params s
  | 0x25 => cmdBreakReturn q.params s
  | 0x26 => cmdBreakCancel q.params s
  | 0x27 => cmdBreakEndNow q.params s
  | 0x2C => cmdLocalLoad q.params s
  | 0x2D => cmdLocalCancel q.params s
  | 0x30 => cmdAlertGroupSet q.params s
  | 0x31 => cmdAlertStart q.params s
  | 0x32 => cmdAlertEnd q.params s
  | 0x33 => cmdAlertOverlayLoad q.params s
  | 0x38 => cmdLinkSet q.params s
  | 0x40 => cmdErrorPolicy q.params s
  | 0x41 => cmdErrorClear q.params s
  | 0x42 => cmdResume s
  | 0x43 => cmdReportRingSet q.params s
  | _ => refuse .badCommand s

/-- The head of the queue executes: answered, it completes, and the next one begins within the same event (R158); one that
takes time holds the queue (R159). `n` bounds the commands run. -/
def runQueue : Nat → State → State
  | 0, s => s
  | n + 1, s =>
    match s.intake with
    | [] => s
    | q :: _ =>
      match runCommand q s with
      | (.answered r, s1) => runQueue n (complete q r s1)
      | (.working, s1) => s1
      | (.gone, s1) => s1

/-- The queue runs until it is empty or its head takes time: each round removes one entry. -/
def runAll (s : State) : State := runQueue s.intake.length s

/-- The queue runs if it was empty before the event, so that its head has not yet begun (R158). -/
def runIfIdle (before s : State) : State := if before.intake.isEmpty then runAll s else s

/-- The executing command completes with a reply at an event of its own and the next ones execute (R158, R159); the actions
that the event has put off come when all of it is done (R165). -/
def completeWork (r : Reply) (s : State) : State :=
  match s.intake with
  | q :: _ => settle (runAll (complete q r s))
  | [] => settle s

/-- The parameter bytes a cell's shadow holds once the command's parameters have been captured (R156). -/
def captureParams (c : CellCommand) (s : State) : State := s.modCell c.cell fun x => { x with shadow := c.params }

/-- The Command Unit takes a command with a code from a cell: its parameters stand in the cell's shadow, its header is
submitted, and the queue runs (R156 to R158; log 4); the actions put off come last (R165; behind a RESTART, log 14). -/
def takeCommand (code : Byte) (now : Stamp) (c : CellCommand) (s : State) : State :=
  let s0 := s.at now
  settle (runIfIdle s0
    (submit { cell := c.cell, requester := c.requester, code := code, tag := c.tag } (captureParams c s0)))

/-! ### The command rows -/

/-- ENABLE (R160). -/
def execEnable (now : Stamp) (c : CellCommand) (s : State) : Host.Outcome State Fault Refusal :=
  .next (takeCommand 0x01 now c s)

/-- DISABLE (R161). -/
def execDisable (now : Stamp) (c : CellCommand) (s : State) : Host.Outcome State Fault Refusal :=
  .next (takeCommand 0x02 now c s)

/-- RESTART (R162). -/
def execRestart (now : Stamp) (c : CellCommand) (s : State) : Host.Outcome State Fault Refusal :=
  .next (takeCommand 0x03 now c s)

/-- STATUS SNAPSHOT (R163). -/
def execStatusSnapshot (now : Stamp) (c : CellCommand) (s : State) : Host.Outcome State Fault Refusal :=
  .next (takeCommand 0x04 now c s)

/-- REQUESTER ROLE SET (R25). -/
def execRequesterRoleSet (now : Stamp) (c : CellCommand) (s : State) : Host.Outcome State Fault Refusal :=
  .next (takeCommand 0x05 now c s)

/-- SERVICE DEFINE (R6). -/
def execServiceDefine (now : Stamp) (c : CellCommand) (s : State) : Host.Outcome State Fault Refusal :=
  .next (takeCommand 0x10 now c s)

/-- SERVICE REMOVE (R7). -/
def execServiceRemove (now : Stamp) (c : CellCommand) (s : State) : Host.Outcome State Fault Refusal :=
  .next (takeCommand 0x11 now c s)

/-- COMPONENT SET (R9). -/
def execComponentSet (now : Stamp) (c : CellCommand) (s : State) : Host.Outcome State Fault Refusal :=
  .next (takeCommand 0x12 now c s)

/-- SERVICE OPTIONS (R10). -/
def execServiceOptions (now : Stamp) (c : CellCommand) (s : State) : Host.Outcome State Fault Refusal :=
  .next (takeCommand 0x13 now c s)

/-- FORCE NETWORK (R19). -/
def execForceNetwork (now : Stamp) (c : CellCommand) (s : State) : Host.Outcome State Fault Refusal :=
  .next (takeCommand 0x14 now c s)

/-- RELEASE SERVICE (R20). -/
def execReleaseService (now : Stamp) (c : CellCommand) (s : State) : Host.Outcome State Fault Refusal :=
  .next (takeCommand 0x15 now c s)

/-- SOURCE DEFINE (R45). -/
def execSourceDefine (now : Stamp) (c : CellCommand) (s : State) : Host.Outcome State Fault Refusal :=
  .next (takeCommand 0x18 now c s)

/-- SOURCE REMOVE (R47). -/
def execSourceRemove (now : Stamp) (c : CellCommand) (s : State) : Host.Outcome State Fault Refusal :=
  .next (takeCommand 0x19 now c s)

/-- SOURCE FLUSH (R57). -/
def execSourceFlush (now : Stamp) (c : CellCommand) (s : State) : Host.Outcome State Fault Refusal :=
  .next (takeCommand 0x1A now c s)

/-- AVAIL BIND (R73). -/
def execAvailBind (now : Stamp) (c : CellCommand) (s : State) : Host.Outcome State Fault Refusal :=
  .next (takeCommand 0x20 now c s)

/-- AVAIL UNBIND (R75). -/
def execAvailUnbind (now : Stamp) (c : CellCommand) (s : State) : Host.Outcome State Fault Refusal :=
  .next (takeCommand 0x21 now c s)

/-- BREAK INSERT (R86). -/
def execBreakInsert (now : Stamp) (c : CellCommand) (s : State) : Host.Outcome State Fault Refusal :=
  .next (takeCommand 0x24 now c s)

/-- BREAK RETURN (R86). -/
def execBreakReturn (now : Stamp) (c : CellCommand) (s : State) : Host.Outcome State Fault Refusal :=
  .next (takeCommand 0x25 now c s)

/-- BREAK CANCEL (R86). -/
def execBreakCancel (now : Stamp) (c : CellCommand) (s : State) : Host.Outcome State Fault Refusal :=
  .next (takeCommand 0x26 now c s)

/-- BREAK END NOW (R104). -/
def execBreakEndNow (now : Stamp) (c : CellCommand) (s : State) : Host.Outcome State Fault Refusal :=
  .next (takeCommand 0x27 now c s)

/-- LOCAL LOAD (R117). -/
def execLocalLoad (now : Stamp) (c : CellCommand) (s : State) : Host.Outcome State Fault Refusal :=
  .next (takeCommand 0x2C now c s)

/-- LOCAL CANCEL (R125). -/
def execLocalCancel (now : Stamp) (c : CellCommand) (s : State) : Host.Outcome State Fault Refusal :=
  .next (takeCommand 0x2D now c s)

/-- ALERT GROUP SET (R130). -/
def execAlertGroupSet (now : Stamp) (c : CellCommand) (s : State) : Host.Outcome State Fault Refusal :=
  .next (takeCommand 0x30 now c s)

/-- ALERT START (R133). -/
def execAlertStart (now : Stamp) (c : CellCommand) (s : State) : Host.Outcome State Fault Refusal :=
  .next (takeCommand 0x31 now c s)

/-- ALERT END (R142). -/
def execAlertEnd (now : Stamp) (c : CellCommand) (s : State) : Host.Outcome State Fault Refusal :=
  .next (takeCommand 0x32 now c s)

/-- ALERT OVERLAY LOAD (R131). -/
def execAlertOverlayLoad (now : Stamp) (c : CellCommand) (s : State) : Host.Outcome State Fault Refusal :=
  .next (takeCommand 0x33 now c s)

/-- LINK SET (R153). -/
def execLinkSet (now : Stamp) (c : CellCommand) (s : State) : Host.Outcome State Fault Refusal :=
  .next (takeCommand 0x38 now c s)

/-- ERROR POLICY (R166). -/
def execErrorPolicy (now : Stamp) (c : CellCommand) (s : State) : Host.Outcome State Fault Refusal :=
  .next (takeCommand 0x40 now c s)

/-- ERROR CLEAR (R167). -/
def execErrorClear (now : Stamp) (c : CellCommand) (s : State) : Host.Outcome State Fault Refusal :=
  .next (takeCommand 0x41 now c s)

/-- RESUME (R171). -/
def execResume (now : Stamp) (c : CellCommand) (s : State) : Host.Outcome State Fault Refusal :=
  .next (takeCommand 0x42 now c s)

/-- REPORT RING SET (R172). -/
def execReportRingSet (now : Stamp) (c : CellCommand) (s : State) : Host.Outcome State Fault Refusal :=
  .next (takeCommand 0x43 now c s)

/-- UNKNOWN_COMMAND: a code that is not in the table (R158); a code of the table is no such command (log 28). -/
def execUnknownCommand (now : Stamp) (code : Byte) (c : CellCommand) (s : State) : Host.Outcome State Fault Refusal :=
  if unknownCode code then .next (takeCommand code now c s) else .fault .illFormed

end Sys2Proof.Machine
end

