-- ==== Sys2Proof/Machine/Ingest.lean ====
section
/-! DEFINITION. The Ingest Watcher and the Cue Parser (R15, R16, R61 to R71). -/

namespace Sys2Proof.Machine

/-! ### The clock track (R16) -/

/-- A packet of the PCR component that carries a PCR replaces the clock track (R16). -/
def Service.tracked (v : Service) (slot : List Byte) : Service :=
  if pcrPid v.comps == some (packetPid slot) && carriesPcr slot then
    { v with track := some { base := pcrBase slot, stamp := slotStamp slot } }
  else v

/-! ### The cue (R61 to R70) -/

/-- What a good cue asks for (R68 to R70). -/
inductive CueRequest where
  | out (o : OutRequest)
  | ret (event : EventId) (stamp : Stamp)
  | cancel (event : EventId)
  deriving DecidableEq, Repr

/-- A packet is examined as a cue (R61). -/
def Service.cueExamined (v : Service) (mode : Mode) (slot : List Byte) : Bool :=
  mode != .passive && v.cuePid == some (packetPid slot) && startFlag slot

/-- The avail of a cue message: 0 to 15 (R65). -/
def cueAvail (m : List Byte) : Option AvailIx :=
  if h : (byteAt m 14).toNat < 16 then some ⟨(byteAt m 14).toNat, h⟩ else none

/-- The request of a cue message whose marker and check are good (R65 to R70). -/
def cueRequest (m : List Byte) (now : Stamp) : Option CueRequest :=
  let stamp := requestStamp (wordAt m 6) (byteAt m 15) now
  match (byteAt m 1).toNat, cueAvail m with
  | 1, some a =>
    some (.out { event := wordAt m 2, avail := a, splice := stamp, duration := durationOf (wordAt m 10) })
  | 2, some _ => some (.ret (wordAt m 2) stamp)
  | 3, some _ => some (.cancel (wordAt m 2))
  | _, _ => none

/-- A packet examined as a cue: its request, or the error of the first check that fails (R62, R65). -/
def parseCue (slot : List Byte) (now : Stamp) : Except ErrorKind CueRequest :=
  match cueBytes slot with
  | none => .error .cueFormat
  | some m =>
    if byteAt m 0 != 0xC5 then .error .cueFormat
    else if fieldAt m 16 2 != cueSum m then .error .cueCheck
    else
      match cueRequest m now with
      | some r => .ok r
      | none => .error .cueFormat

/-- CUE-FORMAT and CUE-CHECK carry the service, the requester, the slot's address and the first 16 bytes (R65). -/
def cueErrorEvent (k : ErrorKind) (i : ServiceIx) (q : RequesterId) (a : Addr) (slot : List Byte) : ErrorEvent where
  kind := k
  service := some i
  requester := some q
  addr := some a
  packet := some (packetHead slot)

/-- CUE-UNMATCHED carries the service and the event ID as the first bytes of the packet concerned (R83); the other 12 are 0
(log 49). -/
def unmatchedEvent (i : ServiceIx) (ev : EventId) : ErrorEvent where
  kind := .cueUnmatched
  service := some i
  packet := some (padTo 16 (beBytes 4 ev.toNat))

/-- An OUT of origin CUE taken, with the error its outcome raises (R81). -/
def takeCueOut (i : ServiceIx) (o : OutRequest) (s : State) : State :=
  match takeOut i o s with
  | (.duplicate, s1) => raise { kind := .duplicateEvent, service := some i } s1
  | (.full, s1) => raise { kind := .scheduleFull, service := some i } s1
  | (.inserted, s1) | (.updated, s1) | (.missedLate, s1) => s1

/-- An IN of origin CUE taken (R83). -/
def takeCueIn (i : ServiceIx) (ev : EventId) (stamp : Stamp) (s : State) : State :=
  match takeIn i ev stamp s with
  | (.unmatched, s1) => raise (unmatchedEvent i ev) s1
  | (.set, s1) | (.kept, s1) => s1

/-- A CANCEL of origin CUE taken (R84). -/
def takeCueCancel (i : ServiceIx) (ev : EventId) (s : State) : State :=
  match takeCancel i ev s with
  | (.unmatched, s1) => raise (unmatchedEvent i ev) s1
  | (.cancelled, s1) | (.ended, s1) => s1

/-- A cue's request handed to the Schedule Unit (R71). -/
def takeCue (i : ServiceIx) (r : CueRequest) (s : State) : State :=
  match r with
  | .out o => takeCueOut i o s
  | .ret ev stamp => takeCueIn i ev stamp s
  | .cancel ev => takeCueCancel i ev s

/-- A packet with a good sync byte examined for a cue (R61). -/
def captureCue (i : ServiceIx) (q : RequesterId) (a : Addr) (slot : List Byte) (s : State) : State :=
  if (s.service i).cueExamined s.mode slot then
    match parseCue slot s.now with
    | .ok r => takeCue i r s
    | .error k => raise (cueErrorEvent k i q a slot) s
  else s

/-! ### The Ingest Watcher (R15) -/

/-- A whole-slot INGEST write inspected (R15). -/
def inspectSlot (i : ServiceIx) (q : RequesterId) (a : Addr) (slot : List Byte) (s : State) : State :=
  if goodSync slot then captureCue i q a slot (s.modService i fun v => v.tracked slot) else s

/-- The Ingest Watcher acts on the part of an INGEST write that lies in a service's window (R15). -/
def ingestWrite (i : ServiceIx) (q : RequesterId) (p : Part) (bytes : List LaneByte) (s : State) : State :=
  match (s.service i).window with
  | none => s
  | some w =>
    match wholeSlot w p bytes with
    | some _ => inspectSlot i q p.addr ((p.of bytes).map (·.data)) s
    | none => raise { kind := .partialWrite, service := some i, requester := some q, addr := some p.addr } s

end Sys2Proof.Machine
end

