-- ==== Sys2Proof/Machine/CardPort.lean ====
section
/-! DEFINITION. The card port and the Window Decoder (R22 to R31, R37, R156, R157, R173): writes, reads and completions. -/

namespace Sys2Proof.Machine

/-! ### Control writes (R28, R156, R173) -/

/-- The byte a write carries at an offset of the control region, when the part of it there covers that offset. -/
def laneAt (base : Nat) (p : Part) (bytes : List LaneByte) (o : Nat) : Option LaneByte :=
  if p.addr.toNat ≤ base + o ∧ base + o < p.addr.toNat + p.len then bytes[p.off + (base + o - p.addr.toNat)]? else none

/-- The data of a byte that is there and enabled. -/
def enabledData : Option LaneByte → Option Byte
  | some b => if b.enable then some b.data else none
  | none => none

/-- The data of `n` bytes from an offset when every one is there and enabled (R28, R156). -/
def wholeField (base : Nat) (p : Part) (bytes : List LaneByte) (o n : Nat) : Option (List Byte) :=
  allSome ((List.range n).map fun k => enabledData (laneAt base p bytes (o + k)))

/-- A consumer index is taken when the ring is defined and the value is below N (R173). -/
def takeConsumer (value : BitVec 32) (s : State) : State :=
  match s.ring.defn with
  | some d => if value.toNat < d.count then { s with ring := { s.ring with consumer := value.toNat } } else s
  | none => s

/-- The consumer-index word of a control write (R28). -/
def offerConsumer (p : Part) (bytes : List LaneByte) (s : State) : State :=
  match wholeField s.strapBase.toNat p bytes 0x010 4 with
  | some data => takeConsumer (wordAt data 0) s
  | none => s

/-- The offset of cell n in the control region (R155). -/
def cellOffset (c : CellIx) : Nat := 0x400 + 64 * c.val

/-- Every enabled byte in beats 1 to 3 of a cell replaces the matching shadow byte (R156). -/
def capturedShadow (base : Nat) (p : Part) (bytes : List LaneByte) (c : CellIx) (shadow : Params) : Params :=
  Vector.ofFn fun j => (enabledData (laneAt base p bytes (cellOffset c + 16 + j.val))).getD (vget shadow j)

/-- All cells in ascending index. -/
def allCells : List CellIx := List.finRange 16

/-- The write's part meets a cell. -/
def touchesCell (base : Nat) (p : Part) (c : CellIx) : Bool := rangesMeet p.addr.toNat p.len (base + cellOffset c) 64

/-- The cells a part of a write meets. -/
def touchedCells (base : Nat) (p : Part) : List CellIx := allCells.filter (touchesCell base p)

/-- The capture pass (R156). -/
def captureCells (p : Part) (bytes : List LaneByte) (s : State) : State :=
  (touchedCells s.strapBase.toNat p).foldl (fun t c =>
    t.modCell c fun x => { x with shadow := capturedShadow t.strapBase.toNat p bytes c x.shadow }) s

/-- The submission a write makes to a cell: a beat 0 with every byte enabled and status SUBMIT (R156). -/
def submissionIn (base : Nat) (p : Part) (bytes : List LaneByte) (q : RequesterId) (c : CellIx) : Option Submission :=
  match wholeField base p bytes (cellOffset c) 16 with
  | some header =>
    if byteAt header 2 == 0x01 then
      some { cell := c, requester := q, code := byteAt header 0, tag := byteAt header 1 }
    else none
  | none => none

/-- The submission pass, in ascending cell order (R156, R157). -/
def submitCells (q : RequesterId) (p : Part) (bytes : List LaneByte) (s : State) : State :=
  (touchedCells s.strapBase.toNat p).foldl (fun t c =>
    match submissionIn t.strapBase.toNat p bytes q c with
    | some b => submit b t
    | none => t) s

/-- A CONTROL write to the control region: the consumer-index word and the command cells (R28). -/
def controlWrite (q : RequesterId) (p : Part) (bytes : List LaneByte) (s : State) : State :=
  submitCells q p bytes (captureCells p bytes (offerConsumer p bytes s))

/-- CONTROL-INTRUSION carries the requester and the address of the write's first byte in the region (R27). -/
def intrusionEvent (q : RequesterId) (p : Part) : ErrorEvent where
  kind := .controlIntrusion
  requester := some q
  addr := some p.addr

/-! ### The Window Decoder (R26, R27) -/

/-- A watched region a write touches. -/
inductive Watched where
  | svc (i : ServiceIx)
  | src (k : SourceIx)
  | control
  deriving DecidableEq, Repr

/-- An offer: the region and the part of the write that lies in it (R26). -/
structure Offer where
  region : Watched
  part : Part
  deriving DecidableEq, Repr

/-- The part of a transaction in a window. -/
def Window.part (w : Window) (a : Addr) (len : Nat) : Option Part := regionPart w.base.toNat w.bytes a len

/-- The offers to the Ingest Watcher. -/
def State.serviceOffers (s : State) (a : Addr) (len : Nat) : List Offer :=
  allServices.filterMap fun i =>
    (s.service i).window.bind fun w => (w.part a len).map fun p => { region := .svc i, part := p }

/-- The offers to the Source Tracker: STREAM windows only (R27). -/
def State.sourceOffers (s : State) (a : Addr) (len : Nat) : List Offer :=
  allSources.filterMap fun k =>
    (s.source k).config.bind fun c =>
      if c.mode == .stream then (c.window.part a len).map fun p => { region := .src k, part := p } else none

/-- The offer of the part of a write in the control region. -/
def State.controlOffer (s : State) (a : Addr) (len : Nat) : List Offer :=
  ((regionPart s.strapBase.toNat controlSize a len).map fun p => { region := .control, part := p }).toList

/-- An offer put before those whose part begins later in the transaction (log 17). -/
def insertOffer (o : Offer) : List Offer → List Offer
  | [] => [o]
  | x :: r => if o.part.off ≤ x.part.off then o :: x :: r else x :: insertOffer o r

/-- The offers of a write by its role and the regions it touches, in ascending byte order (R26, R27; log 17). -/
def State.offers (s : State) (role : Role) (a : Addr) (len : Nat) : List Offer :=
  let watched :=
    match role with
    | .ingest => s.serviceOffers a len
    | .player => s.sourceOffers a len
    | .control | .output | .other => []
  (watched ++ s.controlOffer a len).foldr insertOffer []

/-- An offer acted on by its watcher (R27). -/
def watch (role : Role) (q : RequesterId) (bytes : List LaneByte) (o : Offer) (s : State) : State :=
  match o.region with
  | .svc i => ingestWrite i q o.part bytes s
  | .src k => sourceTrackerWrite k q o.part bytes s
  | .control => if role == .control then controlWrite q o.part bytes s else raise (intrusionEvent q o.part) s

/-- A write taken (R22): handed to the memory port unchanged, then offered to the watchers of the regions it touches as
they stood when it was taken (R26). -/
def takeWrite (w : PortWrite) (s : State) : State :=
  let role := vget s.roles w.requester
  (s.offers role w.addr w.bytes.length).foldl (fun t o => watch role w.requester w.bytes o t)
    (handWrite false w.addr w.bytes s)

/-- WRITE_TAKEN (R22): the watchers act, a command that comes to the head of the queue executes (R158), and the actions put
off come last (R165). -/
def execWriteTaken (now : Stamp) (w : PortWrite) (s : State) : Host.Outcome State Fault Refusal :=
  if w.wf then
    let s0 := s.at now
    .next (settle (runIfIdle s0 (takeWrite w s0)))
  else .fault .illFormed

/-- CONSUMER_INDEX_WRITE (R173; log 5). -/
def execConsumerIndexWrite (now : Stamp) (value : BitVec 32) (s : State) : Host.Outcome State Fault Refusal :=
  .next (takeConsumer value (s.at now))

/-! ### Reads (R29 to R31) -/

/-- The service whose window a read accesses by a whole slot (R29). -/
def State.wholeSlotService (s : State) (r : PortRead) : Option ServiceIx :=
  if r.beats == 12 then
    allServices.find? fun i =>
      match (s.service i).window with
      | some w => (w.slotAt r.addr).isSome
      | none => false
  else none

/-- What a read is (R29). -/
def State.readKind (s : State) (role : Role) (r : PortRead) : ReadKind :=
  if role == .output then
    match s.wholeSlotService r with
    | some i => .slot i
    | none => .plain
  else .plain

/-- The service whose window holds the lowest byte of a read that lies in any service window (R29): the first in the order
of the transaction, also where the read passes 2^36 − 1 (log 40). -/
def State.touchedService (s : State) (r : PortRead) : Option ServiceIx :=
  match (s.serviceOffers r.addr (16 * r.beats)).foldr insertOffer [] with
  | o :: _ =>
    match o.region with
    | .svc i => some i
    | .src _ | .control => none
  | [] => none

/-- UNALIGNED-READ is raised for a PLAIN OUTPUT read that touches a service window (R29). -/
def raiseUnaligned (role : Role) (kind : ReadKind) (r : PortRead) (s : State) : State :=
  if role == .output && kind == .plain then
    match s.touchedService r with
    | some i =>
      raise { kind := .unalignedRead, service := some i, requester := some r.requester, addr := some r.addr } s
    | none => s
  else s

/-- An entry as a read is taken into it (R30). -/
def RttEntry.taken (role : Role) (kind : ReadKind) (r : PortRead) : RttEntry where
  requester := r.requester
  role := role
  kind := kind
  addr := r.addr
  beats := r.beats
  phase := .awaitNetwork
  decision := none
  reserved := none
  snapshot := 0
  sequence := none
  network := []
  fetched := []
  overlay := []
  sourceFailed := false
  boundary := false
  insRef := none
  binding := none
  status := .ok
  result := []
  stale := false

/-- All RTT entries in ascending index. -/
def allEntries : List EntryIx := List.finRange 32

/-- The free RTT entry with the lowest index (R30; log 9). -/
def State.freeEntry (s : State) : Option EntryIx := allEntries.find? fun x => (s.entry x).isNone

/-- A read taken into a free entry (R30): placed last in its requester's completion order, its read handed to the memory
port. -/
def allocate (x : EntryIx) (role : Role) (kind : ReadKind) (r : PortRead) (s : State) : State :=
  let s1 := s.setEntry x (some (RttEntry.taken role kind r))
  handRead { owner := .network x, addr := r.addr, beats := r.beats }
    { s1 with
      completionOrder := vset s1.completionOrder r.requester (vget s1.completionOrder r.requester ++ [x]) }

/-- A read taken into an entry, under the role and regions of this moment (R24, R26, R29, R30). It is handed to the memory
port before the writes of an UNALIGNED-READ report (log 47). -/
def takeRead (x : EntryIx) (r : PortRead) (s : State) : State :=
  let role := vget s.roles r.requester
  let kind := s.readKind role r
  raiseUnaligned role kind r (allocate x role kind r s)

/-- A read arrives at the card port: taken when an entry is free and no read waits, else it waits (R30, R31; log 8). -/
def arriveRead (r : PortRead) (s : State) : State :=
  match s.waitingReads, s.freeEntry with
  | [], some x => takeRead x r s
  | _, _ => { s with waitingReads := s.waitingReads ++ [r] }

/-- READ_TAKEN (R30). -/
def execReadTaken (now : Stamp) (r : PortRead) (s : State) : Host.Outcome State Fault Refusal :=
  if r.wf then .next (settle (arriveRead r (s.at now))) else .fault .illFormed

/-! ### Completion (R37) -/

/-- An entry freed goes to the read that has waited longest (R31). -/
def giveEntry (x : EntryIx) (s : State) : State :=
  match s.waitingReads with
  | r :: rest => takeRead x r { s with waitingReads := rest }
  | [] => s

/-- An entry completed to its requester and freed (R37). -/
def completeEntry (x : EntryIx) (q : RequesterId) (e : RttEntry) (s : State) : State :=
  let s1 := s.emit (.cardComplete q e.status e.result)
  let s2 := s1.setEntry x none
  giveEntry x { s2 with completionOrder := vset s2.completionOrder q (vget s2.completionOrder q).tail }

/-- The READY entry first in a requester's completion order (R37). -/
def State.completable (s : State) (q : RequesterId) : Option (EntryIx × RttEntry) :=
  match vget s.completionOrder q with
  | x :: _ =>
    match s.entry x with
    | some e => if e.phase == .ready then some (x, e) else none
    | none => none
  | [] => none

/-- COMPLETION (R37; log 3 when no entry of the requester can complete). -/
def execCompletion (now : Stamp) (q : RequesterId) (s : State) : Host.Outcome State Fault Refusal :=
  .next
    (match s.completable q with
    | some (x, e) => settle (completeEntry x q e (s.at now))
    | none => s.at now)

end Sys2Proof.Machine
end

