-- ==== Sys2Proof/Machine/Link.lean ====
section
/-! DEFINITION. The Alert Link Interface (spec/09): bytes, frames, the status read and the keepalive watchdog. -/

namespace Sys2Proof.Machine

/-! ### Bytes (R147, R148) -/

/-- A frame that has just begun: no byte received (R147). -/
def Frame.begun : Frame where
  bytes := []
  naked := false
  nakedDisabled := false
  sample := none
  sent := 0

/-- The six command bytes of R147. -/
def commandByte (b : Byte) : Bool :=
  b == 0x01 || b == 0x02 || b == 0x03 || b == 0x04 || b == 0x05 || b == 0x80

/-- The byte, received after those in hand, is in range (R148): a command byte of R147, an ARM group to 7 and level 1 to
3, an END group to 7; a byte beyond a complete frame is in range. -/
def byteInRange (bytes : List Byte) (b : Byte) : Bool :=
  match bytes with
  | [] => commandByte b
  | [c] => if c == 0x01 || c == 0x03 then decide (b.toNat ≤ 7) else true
  | [c, _] => if c == 0x01 then decide (1 ≤ b.toNat) && decide (b.toNat ≤ 3) else true
  | _ => true

/-- A byte is acknowledged (R148). -/
def acked (l : Link) (f : Frame) (b : Byte) : Bool := l.enabled && !f.naked && byteInRange f.bytes b

/-- The frame with a byte received (R147), its sample taken when the byte is an acknowledged status command (R152). -/
def Frame.receive (f : Frame) (l : Link) (b sample : Byte) : Frame :=
  { f with
    bytes := f.bytes ++ [b]
    naked := f.naked || !acked l f b
    nakedDisabled := f.nakedDisabled || !l.enabled
    sample := if acked l f b && f.bytes.isEmpty && b == 0x80 then some sample else f.sample }

/-- The link's frame replaced. -/
def State.setFrame (s : State) (f : Option Frame) : State := { s with link := { s.link with frame := f } }

/-- A byte received in a frame and answered (R147, R148). -/
def receiveIn (f : Frame) (b : Byte) (s : State) : State :=
  (s.setFrame (some (f.receive s.link b (linkStatusByte s)))).emit
    (if acked s.link f b then PortEvent.linkAck else PortEvent.linkNak)

/-- A byte received in the frame in hand (R147). A byte that no start condition came before is in no frame: it is NAKed and
kept nowhere (log 23). -/
def receiveByte (b : Byte) (s : State) : State :=
  match s.link.frame with
  | some f => receiveIn f b s
  | none => s.emit .linkNak

/-! ### The end of a frame (R148) -/

/-- The bytes a complete frame holds, by its command byte (R147). -/
def frameLength (c : Byte) : Nat :=
  match c.toNat with
  | 0x01 => 3
  | 0x03 => 2
  | _ => 1

/-- The command byte of a frame; 0 for an empty one. -/
def Frame.command (f : Frame) : Byte := byteAt f.bytes 0

/-- A write frame is complete and acknowledged (R147). -/
def Frame.complete (f : Frame) (l : Link) : Bool :=
  l.enabled && !f.naked && !f.bytes.isEmpty && f.command != 0x80 && f.bytes.length == frameLength f.command

/-- A status read has received its command byte and sent its status byte and nothing more (R147, R152). -/
def Frame.statusDone (f : Frame) (l : Link) : Bool :=
  l.enabled && !f.naked && f.bytes == [0x80] && f.sent == 1

/-- A discarded frame raises LINK-FORMAT (R148): not when a byte was NAKed because the link was disabled, nor when the
link is disabled at its end (log 39). -/
def Frame.raisesFormat (f : Frame) (l : Link) : Bool := l.enabled && !f.nakedDisabled

/-- LINK-FORMAT carries the first 16 bytes the frame carried, absent ones 0 (R148): the bytes received, not those the part
sent in a status read (log 45). -/
def linkFormatEvent (f : Frame) : ErrorEvent where
  kind := .linkFormat
  packet := some (packetHead f.bytes)

/-- A frame discarded at its end (R148). -/
def discardFrame (f : Frame) (s : State) : State :=
  let s1 := s.setFrame none
  if f.raisesFormat s.link then raise (linkFormatEvent f) s1 else s1

/-! ### The frames (R149 to R151, R154) -/

/-- A complete ARM frame (R149): its bytes were in range (R148). -/
def armEffect (f : Frame) (s : State) : State :=
  if h : (byteAt f.bytes 1).toNat < 8 then
    { s with link := { s.link with arm := some { group := ⟨(byteAt f.bytes 1).toNat, h⟩, level := (byteAt f.bytes 2).toNat } } }
  else s

/-- A complete CLEAR frame (R149). -/
def clearEffect (s : State) : State := { s with link := { s.link with arm := none } }

/-- A LINK report (R150, R154). -/
def linkReport (sub : Subkind) (cause : Cause) (id : Option (BitVec 32)) (first : Stamp) (second : Option Stamp)
    (count : BitVec 32) : Report where
  kind := .link
  subkind := sub.code
  cause := cause
  service := none
  id := id
  first := some first
  second := second
  count := count
  source := none

/-- The ID of a LINK REFUSED: command code, group and level (R179). -/
def refusedId (command group level : Byte) : BitVec 32 := idBytes command group level 0

/-- The LINK report an activation from the link leaves (R150). -/
def goReport (a : PendingArm) (r : Activation) (s : State) : State :=
  match r with
  | .started _ | .raised _ => s
  | .refused code =>
    offer (linkReport .refused (.refusal code)
      (some (refusedId 0x02 (BitVec.ofNat 8 a.group.val) (BitVec.ofNat 8 a.level))) s.now none 0) s

/-- A complete GO frame (R150). -/
def goEffect (s : State) : State :=
  match s.link.arm with
  | none => offer (linkReport .refused .noArm (some (refusedId 0x02 0 0)) s.now none 0) s
  | some a =>
    let r := requestActivation { group := a.group.val, level := a.level, origin := .link } (clearEffect s)
    goReport a r.1 r.2

/-- An END frame whose group no ACTIVE slot names (R151). -/
def endRefused (group : Byte) (s : State) : State :=
  offer (linkReport .refused (.refusal .notDefined) (some (refusedId 0x03 group 0)) s.now none 0) s

/-- A complete END frame (R151): its group was in range (R148). -/
def endEffect (f : Frame) (s : State) : State :=
  if h : (byteAt f.bytes 1).toNat < 8 then
    match s.slotOfGroup ⟨(byteAt f.bytes 1).toNat, h⟩ with
    | some k => endAlert k .link s
    | none => endRefused (byteAt f.bytes 1) s
  else s

/-- A complete KEEPALIVE frame (R154). -/
def keepaliveEffect (s : State) : State :=
  let s1 := { s with link := { s.link with mark := true, lastKeepalive := some s.now, lost := false } }
  if s.link.lost then
    offer (linkReport .up .none none s.now s.link.lostStamp (s.now - s.link.lostStamp.getD s.now)) s1
  else s1

/-- The effect of a complete write frame by its command byte (R147). -/
def frameEffect (f : Frame) (s : State) : State :=
  match f.command.toNat with
  | 0x01 => armEffect f s
  | 0x02 => goEffect s
  | 0x03 => endEffect f s
  | 0x04 => keepaliveEffect s
  | 0x05 => clearEffect s
  | _ => s

/-- A frame ends (R147, R148): it takes effect, ends a status read, or is discarded. -/
def endFrame (f : Frame) (s : State) : State :=
  if f.complete s.link then frameEffect f (s.setFrame none)
  else if f.statusDone s.link then s.setFrame none
  else discardFrame f s

/-- A start condition ends the frame in hand, if there is one, and begins the next (R147). -/
def startCondition (s : State) : State :=
  match s.link.frame with
  | some f => (settle (endFrame f s)).setFrame (some Frame.begun)
  | none => s.setFrame (some Frame.begun)

/-- The frame in hand; with none in hand, the one a start condition within the row begins (R147; log 23). -/
def State.frameInHand (s : State) : Frame := s.link.frame.getD Frame.begun

/-- The complete write frame in hand with a command byte. -/
def State.completeFrame (s : State) (c : Byte) : Option Frame :=
  match s.link.frame with
  | some f => if f.complete s.link && f.command == c then some f else none
  | none => none

/-! ### The rows -/

/-- LINK_BYTE_RECEIVED (R147), with or without a start condition before the byte (log 23). -/
def execLinkByteReceived (now : Stamp) (start : Bool) (b : Byte) (s : State) : Host.Outcome State Fault Refusal :=
  .next (receiveByte b (if start then startCondition (s.at now) else s.at now))

/-- ARM_FRAME (R149). -/
def execArmFrame (now : Stamp) (s : State) : Host.Outcome State Fault Refusal :=
  .next
    (match s.completeFrame 0x01 with
    | some f => armEffect f ((s.at now).setFrame none)
    | none => s.at now)

/-- GO_FRAME (R150). -/
def execGoFrame (now : Stamp) (s : State) : Host.Outcome State Fault Refusal :=
  .next
    (match s.completeFrame 0x02 with
    | some _ => settle (goEffect ((s.at now).setFrame none))
    | none => s.at now)

/-- END_FRAME (R151). -/
def execEndFrame (now : Stamp) (s : State) : Host.Outcome State Fault Refusal :=
  .next
    (match s.completeFrame 0x03 with
    | some f => settle (endEffect f ((s.at now).setFrame none))
    | none => s.at now)

/-- KEEPALIVE_FRAME (R154). -/
def execKeepaliveFrame (now : Stamp) (s : State) : Host.Outcome State Fault Refusal :=
  .next
    (match s.completeFrame 0x04 with
    | some _ => settle (keepaliveEffect ((s.at now).setFrame none))
    | none => s.at now)

/-- CLEAR_FRAME (R149). -/
def execClearFrame (now : Stamp) (s : State) : Host.Outcome State Fault Refusal :=
  .next
    (match s.completeFrame 0x05 with
    | some _ => clearEffect ((s.at now).setFrame none)
    | none => s.at now)

/-- The part sends a byte in a status read: the sample first, then 0xFF for each further byte (R152); it does so too when
LINK SET has disabled the link since the command byte was acknowledged (log 51). -/
def sendStatus (f : Frame) (sample : Byte) (s : State) : State :=
  (s.setFrame (some { f with sent := f.sent + 1 })).emit (.linkSend (if f.sent == 0 then sample else 0xFF))

/-- The decoder reads from the frame in hand: its status byte when a sample has been taken, else nothing (R152). -/
def readStatus (s : State) : State :=
  match s.link.frame with
  | some f =>
    match f.sample with
    | some b => sendStatus f b s
    | none => s
  | none => s

/-- STATUS_READ (R152): with no byte in hand the command byte 0x80 itself is received first (log 23). -/
def execStatusRead (now : Stamp) (s : State) : Host.Outcome State Fault Refusal :=
  let s0 := s.at now
  .next (readStatus (if s.frameInHand.bytes.isEmpty then receiveIn s.frameInHand 0x80 s0 else s0))

/-- FRAME_DISCARD (R148): the frame in hand, or an empty one, ends without effect; a status read that has sent its one
byte ends silently. A complete write frame is not discarded (log 3, 23). -/
def execFrameDiscard (now : Stamp) (s : State) : Host.Outcome State Fault Refusal :=
  .next
    (if s.frameInHand.complete s.link then s.at now else settle (endFrame s.frameInHand (s.at now)))

/-! ### The watchdog (R154) -/

/-- Step 1 of R154 on an UP link with its mark clear: LOST, LINK-LOST and the LINK report LOST. -/
def loseLink (seconds : Nat) (s : State) : State :=
  let s1 := { s with link := { s.link with lost := true, lostStamp := some s.now } }
  let s2 := raise { kind := .linkLost } s1
  offer (linkReport .lost .none none s.now s.link.lastKeepalive (BitVec.ofNat 32 seconds)) s2

/-- Steps 3 and 4 of R154. -/
def nextPeriod (s : State) : State :=
  { s with link := { s.link with mark := false, period := beginPeriod s.link.interval s.now } }

/-- The period timer expires (R154). -/
def expirePeriod (p : Period) (s : State) : State :=
  nextPeriod (if !s.link.mark && !s.link.lost then loseLink p.seconds s else s)

/-- PERIOD_TIMER_EXPIRY (R154). -/
def execPeriodTimerExpiry (now : Stamp) (s : State) : Host.Outcome State Fault Refusal :=
  .next
    (match s.link.period with
    | some p => if atOrAfter now p.expiry then settle (expirePeriod p (s.at now)) else s.at now
    | none => s.at now)

end Sys2Proof.Machine
end

