-- ==== Sys2Proof/Machine/LeadStart.lean ====
section
/-! DEFINITION. What the Schedule Unit does at a lead start packet (R97 to R103): the return of a break, the choice of a
candidate, the missed causes, and the start. -/

namespace Sys2Proof.Machine

/-! ### The return of a break (R98) -/

/-- Step 2 of R97: an ACTIVE head whose return stamp has come ends; whether it did (R98). -/
def breakReturnAt (i : ServiceIx) (t : Stamp) (s : State) : Bool × State :=
  match (s.service i).activeHead with
  | none => (false, s)
  | some e =>
    match e.ret with
    | none => (false, s)
    | some r => if atOrAfter t r.stamp then (true, leaveBreak i e.event (.ended r.origin.cause t) s) else (false, s)

/-! ### The candidate (R99) -/

/-- The entry is due: not ACTIVE, and its splice stamp is at or before t (R99; log 52). -/
def BreakEntry.isDue (t : Stamp) (e : BreakEntry) : Bool := !e.isActive && atOrBefore e.splice t

/-- The event IDs of the due entries, in list order (R99). -/
def Service.dueEvents (v : Service) (t : Stamp) : List EventId := (v.schedule.filter (BreakEntry.isDue t)).map (·.event)

/-- The due entries before the candidate leave as MISSED SUPERSEDED (R99). -/
def supersede (i : ServiceIx) (t : Stamp) (evs : List EventId) (s : State) : State :=
  evs.foldl (fun u ev => leaveBreak i ev (.missed .superseded t) u) s

/-! ### The missed causes (R100, R101) -/

/-- The service has an alert owner whose group has its preempt flag set (R100, condition 4). -/
def State.preempting (s : State) (i : ServiceIx) : Bool :=
  match s.ownerGroup (s.service i).owner with
  | some g => g.preempt
  | none => false

/-- Condition 6 of R100: the entry has a return stamp and t is at or after it. -/
def BreakEntry.returnsBy (e : BreakEntry) (t : Stamp) : Bool :=
  match e.ret with
  | some r => atOrAfter t r.stamp
  | none => false

/-- Conditions 1 to 6 of R100, in order; none when none of them holds. -/
def missedBefore (i : ServiceIx) (e : BreakEntry) (t : Stamp) (s : State) : Option Cause :=
  if s.mode == .bypass then some .bypass
  else if (s.service i).held.isSome then some .held
  else if (s.service i).mode == .loc then some .loc
  else if s.preempting i then some .alert
  else if later t (e.splice + msTicks (s.service i).lateWindow) then some .late
  else if e.returnsBy t then some .zeroLength
  else none

/-- Condition 7 of R100: the candidate's source settled (R101). The cause of a failed resolution, or none. -/
def settleSource (i : ServiceIx) (e : BreakEntry) (s : State) : Option Cause × State :=
  if e.state == .ready then (none, s)
  else
    match resolveEntry i e (disarm (.brk i e.event) s) with
    | (r, s1) => (r.notReady.map NotReadyCause.cause, s1)

/-- Condition 8 of R100: the resolved source of an entry is an empty STREAM ring. -/
def entryEmpty (i : ServiceIx) (ev : EventId) (s : State) : Bool :=
  match (s.service i).findEntry ev with
  | some e =>
    match e.attachedSource with
    | some k => (s.source k).isEmpty
    | none => false
  | none => false

/-! ### The start (R102) -/

/-- The return stamp of an entry that starts at t: a duration sets it or brings it forward (R102, step 4). -/
def BreakEntry.startReturn (e : BreakEntry) (t : Stamp) : Option ReturnStamp :=
  match e.duration with
  | none => e.ret
  | some d =>
    match e.ret with
    | none => some { stamp := t + d, origin := .duration }
    | some r => if before (t + d) r.stamp then some { stamp := t + d, origin := .duration } else some r

/-- An entry that starts at t (R102, steps 3 to 5). -/
def BreakEntry.started (t : Stamp) (e : BreakEntry) : BreakEntry :=
  { e with state := .active, actualOut := some t, ret := e.startReturn t, underruns := 0, pcrOffset := none }

/-- The BREAK report STARTED (R102, step 7). -/
def startedReport (i : ServiceIx) (e : BreakEntry) (s : State) : Report :=
  breakReport i e.event .started .none e.actualOut (e.ret.map (·.stamp))
    (e.attachedSource.elim 0 fun k => (s.source k).reportedFill) e.attachedSource

/-- The report of a started entry offered (R102). -/
def offerStarted (i : ServiceIx) (ev : EventId) (s : State) : State :=
  match (s.service i).findEntry ev with
  | some e => offer (startedReport i e s) s
  | none => s

/-- The candidate starts at a packet of stamp t, in the steps of R102. -/
def startBreak (i : ServiceIx) (ev : EventId) (t : Stamp) (s : State) : State :=
  let s1 := disarm (.brk i ev) (endActiveBreak i .chained t s)
  let s2 := (s1.modEntry i ev (BreakEntry.started t)).modService i fun v => { v with mode := .brk }
  offerStarted i ev s2

/-- The candidate examined under R100 and, if no condition holds, started; whether it started. -/
def examineCandidate (i : ServiceIx) (e : BreakEntry) (t : Stamp) (s : State) : Bool × State :=
  match missedBefore i e t s with
  | some cause => (false, leaveBreak i e.event (.missed cause t) s)
  | none =>
    match settleSource i e s with
    | (some cause, s1) => (false, leaveBreak i e.event (.missed cause t) s1)
    | (none, s1) =>
      if entryEmpty i e.event s1 then (false, leaveBreak i e.event (.missed .notReadyEmpty t) s1)
      else (true, startBreak i e.event t s1)

/-- Step 3 of R97: the candidate is the last due entry; whether a break started (R99 to R102). -/
def breakStartAt (i : ServiceIx) (t : Stamp) (s : State) : Bool × State :=
  let due := (s.service i).dueEvents t
  match due.getLast? with
  | none => (false, s)
  | some ev =>
    let s1 := supersede i t due.dropLast s
    match (s1.service i).findEntry ev with
    | some e => examineCandidate i e t s1
    | none => (false, s1)

/-- The Schedule Unit consulted at a lead start packet of stamp t, in the steps of R97: whether a break or a local
programme ended or started. -/
def consult (i : ServiceIx) (t : Stamp) (s : State) : Bool × State :=
  let r1 := localSteps i t s
  let r2 := breakReturnAt i t r1.2
  let r3 := breakStartAt i t r2.2
  (r1.1 || r2.1 || r3.1, r3.2)

end Sys2Proof.Machine
end

