-- ==== Sys2Proof/Machine/Classify.lean ====
section
/-! DEFINITION. Classification (R33, R95 to R108, R138, R140): what a SLOT read is decided, which source slot it reserves,
and what its entry records. -/

namespace Sys2Proof.Machine

/-! ### What a decision fixes -/

/-- What a classification fixes in the entry beside the snapshot and the boundary flag (R33, R95). -/
structure Verdict where
  decision : Decision
  reserved : Option Reserved
  insRef : Option InsRef
  binding : Option InsBinding
  overlay : List Byte
  deriving DecidableEq, Repr

/-- A decision that reserves nothing. -/
def plainVerdict (d : Decision) : Verdict where
  decision := d
  reserved := none
  insRef := none
  binding := none
  overlay := []

/-- What a classification knows of its read: service, requester and address of the network slot. -/
structure ReadInfo where
  service : ServiceIx
  requester : RequesterId
  addr : Addr
  deriving DecidableEq, Repr

/-! ### Components -/

/-- The index of the component with a PID (R105). -/
def compIndex (pid : Pid) (cs : List Component) : Option Nat := cs.findIdx? fun c => c.pid == pid

/-- The component of a service at an index. -/
def Service.comp (v : Service) (n : Nat) : Option Component := v.comps[n]?

/-- A component of a service replaced by what a function makes of it. -/
def Service.modComp (v : Service) (n : Nat) (f : Component → Component) : Service :=
  { v with comps := v.comps.modify n f }

/-- The component indexes whose alert state is TAKEN (R33): bit n names component n. -/
def takenSet (cs : List Component) : BitVec 8 :=
  (cs.zipIdx.foldl (fun acc q => if q.1.alert == .taken then acc ||| (1 <<< q.2) else acc) 0)

/-- A PENDING component whose packet carries the start flag becomes TAKEN with its cursor at 0 (R105, R138). -/
def Component.takenAt (start : Bool) (c : Component) : Component :=
  if c.alert == .pending && start then { c with alert := .taken, cursor := 0 } else c

/-! ### Underruns (R108) -/

/-- SOURCE-UNDERRUN carries the service, the requester and the network slot address (R108). -/
def underrunEvent (r : ReadInfo) : ErrorEvent where
  kind := .sourceUnderrun
  service := some r.service
  requester := some r.requester
  addr := some r.addr

/-- An owner's underrun count has reached the service's limit (R108). -/
def atLimit (v : Service) (count : Nat) : Bool := decide (v.underrunLimit ≤ count)

/-! ### Drawing from a break's or local programme's source (R107, R108) -/

/-- The insertion reference of a break entry (R95). -/
def BreakEntry.ref (e : BreakEntry) : InsRef := .brk e.event e.intake

/-- The insertion reference of a local slot (R95). -/
def LocalProg.ref (l : SlotLetter) (p : LocalProg) : InsRef := .loc l (p.actualStart.getD 0)

/-- A break's request for a slot answered with none (R108). -/
def stuffBreak (r : ReadInfo) (e : BreakEntry) (s : State) : Verdict × State :=
  let count := stickyIncUnderrun e.underruns
  let s1 := s.modEntry r.service e.event fun x => { x with underruns := count }
  ({ plainVerdict .stuffNull with insRef := some e.ref },
    if atLimit (s1.service r.service) count then
      raise (underrunEvent r) (leaveBreak r.service e.event (.ended .underrun s1.now) s1)
    else s1)

/-- A SUBSTITUTE-BREAK decision: a slot of the resolved binding's source reserved, or STUFF-NULL (R107, R108). -/
def drawBreak (r : ReadInfo) (e : BreakEntry) (b : Binding) (s : State) : Verdict × State :=
  match reserve b.source s with
  | (some a, s1) =>
    ({ decision := .substituteBreak, reserved := some { source := b.source, addr := a }, insRef := some e.ref,
       binding := some { remap := b.remap, replaceSet := some b.replaceSet }, overlay := [] },
      s1.modEntry r.service e.event fun x => { x with underruns := 0 })
  | (none, s1) => stuffBreak r e s1

/-- A local programme's request for a slot answered with none (R108, R124). -/
def stuffLocal (r : ReadInfo) (l : SlotLetter) (p : LocalProg) (s : State) : Verdict × State :=
  let count := stickyIncUnderrun p.underruns
  let s1 := s.modSlot r.service l fun x => { x with underruns := count }
  ({ plainVerdict .stuffNull with insRef := some (p.ref l) },
    if atLimit (s1.service r.service) count then
      raise (underrunEvent r) (leaveSlot r.service l (.ended .underrun s1.now) s1)
    else s1)

/-- A SUBSTITUTE-LOCAL decision: a slot of the RUNNING slot's source reserved, or STUFF-NULL (R107, R124). -/
def drawLocal (r : ReadInfo) (l : SlotLetter) (p : LocalProg) (s : State) : Verdict × State :=
  match reserve p.source s with
  | (some a, s1) =>
    ({ decision := .substituteLocal, reserved := some { source := p.source, addr := a }, insRef := some (p.ref l),
       binding := some { remap := p.remap, replaceSet := none }, overlay := [] },
      s1.modSlot r.service l fun x => { x with underruns := 0 })
  | (none, s1) => stuffLocal r l p s1

/-! ### Drawing for an alert (R138) -/

/-- The source a group gives a kind of component: audio for AUDIO, slate for VIDEO (R107). -/
def AlertGroup.sourceFor (g : AlertGroup) : CompKind → Option SourceIx
  | .audio => g.audio
  | .video => g.slate
  | .data => none

/-- The source and window an alert draws from for a component of a service. -/
def State.alertSource (s : State) (i : ServiceIx) (kind : CompKind) : Option (SourceIx × Window) :=
  match s.ownerGroup (s.service i).owner with
  | none => none
  | some g =>
    match g.sourceFor kind with
    | none => none
    | some k => ((s.source k).config).map fun c => (k, c.window)

/-- A SUBSTITUTE-ALERT decision: the slot at the component's cursor, and the cursor advanced (R54, R107, R138). A TAKEN
component always has such a source (R136, R59); without one the read would pass (log 22). -/
def drawAlert (r : ReadInfo) (n : Nat) (c : Component) (s : State) : Verdict × State :=
  match s.alertSource r.service c.kind with
  | some (k, w) =>
    ({ plainVerdict .substituteAlert with reserved := some { source := k, addr := w.slotAddr c.cursor } },
      s.modService r.service fun v => v.modComp n fun x => { x with cursor := nextSlot w.slots c.cursor })
  | none => (plainVerdict .pass, s)

/-! ### Choosing the source of a packet (R105, R106) -/

/-- Orders 2 to 4 of R105 for component n. -/
def decideScheduled (r : ReadInfo) (n : Nat) (s : State) : Verdict × State :=
  let v := s.service r.service
  match v.mode with
  | .network => (plainVerdict .pass, s)
  | .brk =>
    match v.activeHead with
    | some e =>
      match e.binding with
      | some b => if b.replaceSet.getLsbD n then drawBreak r e b s else (plainVerdict .pass, s)
      | none => (plainVerdict .pass, s)
    | none => (plainVerdict .pass, s)
  | .loc =>
    match v.running with
    | some (l, p) => drawLocal r l p s
    | none => (plainVerdict .pass, s)

/-- A managed packet of component n decided (R105). -/
def decideManaged (r : ReadInfo) (n : Nat) (start : Bool) (s : State) : Verdict × State :=
  let s1 := s.modService r.service fun v => v.modComp n (Component.takenAt start)
  match (s1.service r.service).comp n with
  | some c => if c.alert == .taken then drawAlert r n c s1 else decideScheduled r n s1
  | none => (plainVerdict .pass, s1)

/-- The overlay PID and stored packet a service's owner's group inserts (R140). -/
def State.overlayOf (s : State) (i : ServiceIx) : Option (Pid × List Byte × Nat) :=
  match s.ownerGroup (s.service i).owner with
  | none => none
  | some g =>
    match g.overlayPid, g.store with
    | some pid, some store => some (pid, store, g.cadence)
    | _, _ => none

/-- A network null decided (R106, R140). -/
def decideNull (r : ReadInfo) (s : State) : Verdict × State :=
  match s.overlayOf r.service with
  | none => (plainVerdict .pass, s)
  | some (pid, store, cadence) =>
    let count := (s.service r.service).overlayNulls + 1
    if count.toNat == cadence then
      ({ plainVerdict .overlay with overlay := setPid store pid },
        s.modService r.service fun v => { v with overlayNulls := 0 })
    else (plainVerdict .pass, s.modService r.service fun v => { v with overlayNulls := count })

/-- A packet with a good sync byte decided in ACTIVE (R105, R106). -/
def decidePacket (r : ReadInfo) (slot : List Byte) (s : State) : Verdict × State :=
  match compIndex (packetPid slot) (s.service r.service).comps with
  | some n => decideManaged r n (startFlag slot) s
  | none => if packetPid slot == nullPid then decideNull r s else (plainVerdict .pass, s)

/-! ### The classification (R95) -/

/-- The packet is a lead start packet of the service (R95, step 3). -/
def Service.leadStart (v : Service) (slot : List Byte) : Bool :=
  startFlag slot && v.comps.any fun c => c.lead && c.pid == packetPid slot

/-- Steps 3 to 5 of R95 for a packet with a good sync byte: the boundary flag and the verdict. -/
def classifyPacket (r : ReadInfo) (slot : List Byte) (s : State) : Bool × Verdict × State :=
  let c := if (s.service r.service).leadStart slot && s.mode != .passive then consult r.service (slotStamp slot) s
    else (false, s)
  if c.2.mode == .active then
    let d := decidePacket r slot c.2
    (c.1, d.1, d.2)
  else (c.1, plainVerdict .pass, c.2)

/-- NETWORK-FORMAT carries the service, the requester, the slot address and the first 16 bytes of the packet (R96). -/
def networkFormatEvent (r : ReadInfo) (slot : List Byte) : ErrorEvent where
  kind := .networkFormat
  service := some r.service
  requester := some r.requester
  addr := some r.addr
  packet := some (packetHead slot)

/-- Steps 2 to 5 of R95. -/
def classifySlot (r : ReadInfo) (slot : List Byte) (s : State) : Bool × Verdict × State :=
  if goodSync slot then classifyPacket r slot s
  else (false, plainVerdict .pass, raise (networkFormatEvent r slot) s)

/-- The fields of an entry that its classification sets (R33, R95). -/
def RttEntry.classified (e : RttEntry) (slot : List Byte) (boundary : Bool) (v : Verdict) (snapshot : BitVec 8)
    (sequence : Option (BitVec 8)) : RttEntry :=
  { e with
    network := slot
    phase := if v.reserved.isSome then .awaitSource else .awaitTurn
    decision := some v.decision
    reserved := v.reserved
    snapshot := snapshot
    sequence := sequence
    overlay := v.overlay
    boundary := boundary
    insRef := v.insRef
    binding := v.binding }

/-- A substitution's source fetch handed to the memory port (R33). -/
def fetchReserved (x : EntryIx) (v : Verdict) (s : State) : State :=
  match v.reserved with
  | some w => handRead { owner := .fetch x, addr := w.addr, beats := 12 } s
  | none => s

/-- What follows the decision of an entry of a DEFINED service: it is counted, numbered with the counter's value before its
increase (log 41) and placed last in its service's rewrite order, and a substitution's fetch is handed over (R17, R33). -/
def enterRewriteOrder (x : EntryIx) (i : ServiceIx) (e : RttEntry) (slot : List Byte) (boundary : Bool) (v : Verdict)
    (s : State) : State :=
  let n := vget s.sequence i
  let s1 := s.modService i fun w => { w with classified := w.classified + 1 }
  let s2 := s1.setEntry x (some (e.classified slot boundary v (takenSet (s1.service i).comps) (some n)))
  fetchReserved x v
    { s2 with
      sequence := vset s2.sequence i (n + 1)
      rewriteOrder := vset s2.rewriteOrder i (vget s2.rewriteOrder i ++ [x]) }

/-- A read whose service is UNUSED, or has been since the read was taken, is no service traffic: it is decided PASS, counts
nothing and joins no order (R6, R8, R33; log 13). -/
def classifyUnused (x : EntryIx) (e : RttEntry) (slot : List Byte) (s : State) : State :=
  s.setEntry x (some { e.classified slot false (plainVerdict .pass) 0 none with stale := true })

/-- The classification of a SLOT read, one event of the Splice Engine (R95). -/
def classify (x : EntryIx) (e : RttEntry) (i : ServiceIx) (slot : List Byte) (s : State) : State :=
  if (s.service i).defined && !e.stale then
    let c := classifySlot { service := i, requester := e.requester, addr := e.addr } slot s
    enterRewriteOrder x i e slot c.1 c.2.1 c.2.2
  else classifyUnused x e slot s

end Sys2Proof.Machine
end

