-- ==== Sys2Proof/Machine/Rewrite.lean ====
section
/-! DEFINITION. The rewrite (R109 to R114, R8, R11, R13, R14, R138, R140): the 12 beats a requester receives, and what the
rewrite changes in the service. -/

namespace Sys2Proof.Machine

/-! ### The network estimate and the PCR offset (R16, R113, R114) -/

/-- The network estimate at stamp t (R16): the track's base plus the signed difference, modulo 2^33. -/
def ClockTrack.estimate (k : ClockTrack) (t : Stamp) : PcrBase := k.base + (t - k.stamp).signExtend 33

/-- The network estimate of a service at stamp t; none while the clock track is absent (R16). -/
def Service.estimate (v : Service) (t : Stamp) : Option PcrBase := v.track.map fun k => k.estimate t

/-- Where the PCR offset of a substitution is kept (R114): the break entry, the RUNNING slot, the trailing record, or
nowhere. -/
inductive OffsetHome where
  | entry (event : EventId)
  | slot (l : SlotLetter)
  | trailing
  | nowhere
  deriving DecidableEq, Repr

/-- The trailing record is that of a reference (R114). -/
def Service.trails (v : Service) (ref : InsRef) : Bool :=
  match v.trailing with
  | some t => t.ref == ref
  | none => false

/-- The owner a reference names is still in place (R114). -/
def Service.ownerHome (v : Service) : InsRef → Option OffsetHome
  | .brk ev intake =>
    match v.findEntry ev with
    | some e => if e.intake == intake then some (.entry ev) else none
    | none => none
  | .loc l start =>
    match v.slot l with
    | some p => if p.isRunning && p.actualStart == some start then some (.slot l) else none
    | none => none

/-- Where a reference's PCR offset is kept (R114). -/
def Service.offsetHome (v : Service) (ref : InsRef) : OffsetHome :=
  match v.ownerHome ref with
  | some h => h
  | none => if v.trails ref then .trailing else .nowhere

/-- The PCR offset kept at a home. -/
def Service.offsetAt (v : Service) : OffsetHome → Option PcrBase
  | .entry ev => (v.findEntry ev).bind (·.pcrOffset)
  | .slot l => (v.slot l).bind (·.pcrOffset)
  | .trailing => v.trailing.bind (·.pcrOffset)
  | .nowhere => none

/-- A PCR offset set at its home (R113). -/
def Service.setOffset (v : Service) (h : OffsetHome) (o : PcrBase) : Service :=
  match h with
  | .entry ev =>
    { v with schedule := mapEntry ev (fun e : BreakEntry => { e with pcrOffset := some o }) v.schedule }
  | .slot l => v.setSlot l ((v.slot l).map fun p => { p with pcrOffset := some o })
  | .trailing => { v with trailing := v.trailing.map fun t => { t with pcrOffset := some o } }
  | .nowhere => v

/-! ### What a rewrite works on -/

/-- A rewrite in hand: service, requester, source slot address, the stamp t of the network slot, the alert-taken snapshot
and whether the records are still those of its classification (R8). -/
structure Job where
  service : ServiceIx
  requester : RequesterId
  source : Addr
  stamp : Stamp
  snapshot : BitVec 8
  live : Bool
  boundary : Bool
  deriving DecidableEq, Repr

/-- An error of the rewrite: service, requester, source slot address and the first 16 bytes of the fetched packet (R110,
R111, R113). -/
def rewriteEvent (k : ErrorKind) (j : Job) (packet : List Byte) : ErrorEvent where
  kind := k
  service := some j.service
  requester := some j.requester
  addr := some j.source
  packet := some (packetHead packet)

/-- A service record updated by a rewrite whose records are live; otherwise nothing changes (R8). -/
def Job.update (j : Job) (f : Service → Service) (s : State) : State :=
  if j.live then s.modService j.service f else s

/-! ### Re-label (R11) -/

/-- A component still showing BREAK or LOCAL given NETWORK with its rejoin flag set (R11). -/
def Component.relabel (c : Component) : Component :=
  if c.cur == .brk || c.cur == .loc then { c with cur := .network, rejoin := true } else c

/-- Every component but the one the packet is emitted on, if any (R11; log 33). -/
def relabelOthers (target : Option Nat) (cs : List Component) : List Component :=
  cs.zipIdx.map fun q => if some q.2 == target then q.1 else q.1.relabel

/-- The re-label before the packet is emitted: boundary flag set and the part ACTIVE (R11, R109). -/
def relabel (j : Job) (target : Option Nat) (s : State) : State :=
  if j.boundary && s.mode == .active then j.update (fun v => { v with comps := relabelOthers target v.comps }) s else s

/-! ### Continuity (R13, R14) -/

/-- The count a substituted packet is emitted with (R13). -/
def substitutedCc (outCc : Option (BitVec 4)) (fetched : BitVec 4) (payload : Bool) : BitVec 4 :=
  match outCc with
  | none => fetched
  | some c => if payload then c + 1 else c

/-- The offset a rejoining component takes (R14). -/
def rejoinOffset (outCc : Option (BitVec 4)) (network : BitVec 4) (payload : Bool) : BitVec 4 :=
  match outCc with
  | none => 0
  | some c => if payload then c + 1 - network else c - network

/-- The CC offset a PASS packet uses: recomputed in ACTIVE when the current source is not NETWORK or the rejoin flag is
set (R14). -/
def Component.passOffset (c : Component) (active : Bool) (network : BitVec 4) (payload : Bool) : BitVec 4 :=
  if active && (c.cur != .network || c.rejoin) then rejoinOffset c.outCc network payload else c.ccOffset

/-- A component after a PASS packet emitted with a count and an offset (R11, R14). -/
def Component.passed (active : Bool) (offset cc : BitVec 4) (c : Component) : Component :=
  { c with
    ccOffset := offset
    outCc := some cc
    cur := if active then .network else c.cur
    rejoin := if active then false else c.rejoin }

/-- A component after a substituted packet emitted with a count (R11, R13). -/
def Component.substituted (active : Bool) (kind : CurSource) (cc : BitVec 4) (c : Component) : Component :=
  { c with outCc := some cc, cur := if active then kind else c.cur }

/-! ### Nulls -/

/-- A null packet emitted in place of a managed one, counted in nulls stuffed (R17). -/
def emitNull (j : Job) (s : State) : List Byte × State :=
  (nullPacket, j.update (fun v => { v with stuffed := v.stuffed + 1 }) (relabel j none s))

/-- A null packet with an error raised (R110, R111). -/
def emitNullError (k : ErrorKind) (j : Job) (packet : List Byte) (s : State) : List Byte × State :=
  let r := emitNull j s
  (r.1, raise (rewriteEvent k j packet) r.2)

/-! ### PCRs (R113) -/

/-- The PCR of a break's or local programme's packet (R113, R114). -/
def adjustInsertionPcr (j : Job) (ref : InsRef) (fetched packet : List Byte) (s : State) : List Byte × State :=
  let v := s.service j.service
  let h := v.offsetHome ref
  if !carriesPcr packet || h == .nowhere then (packet, s)
  else
    match v.offsetAt h with
    | some o => (setPcrBase packet (pcrBase packet + o), s)
    | none =>
      match v.estimate j.stamp with
      | some est => (setPcrBase packet est, s.modService j.service fun w => w.setOffset h (est - pcrBase packet))
      | none => (packet, raise (rewriteEvent .noClock j fetched) s)

/-- The PCR of an alert's packet: the network estimate (R113). -/
def adjustAlertPcr (j : Job) (fetched packet : List Byte) (s : State) : List Byte × State :=
  if !carriesPcr packet then (packet, s)
  else
    match (s.service j.service).estimate j.stamp with
    | some est => (setPcrBase packet est, s)
    | none => (packet, raise (rewriteEvent .noClock j fetched) s)

/-! ### The decisions (R109) -/

/-- A PASS packet of component n (R14). -/
def passManaged (j : Job) (n : Nat) (c : Component) (packet : List Byte) (s : State) : List Byte × State :=
  let s1 := relabel j (some n) s
  let active := s1.mode == .active
  let offset := c.passOffset active (packetCc packet) (hasPayload packet)
  let cc := packetCc packet + offset
  (setCc packet cc, s1.modService j.service fun v => v.modComp n (Component.passed active offset cc))

/-- The component a packet's PID names, when the records are live (R8). -/
def Job.managed (j : Job) (pid : Pid) (s : State) : Option (Nat × Component) :=
  if j.live then
    match compIndex pid (s.service j.service).comps with
    | some n => ((s.service j.service).comp n).map fun c => (n, c)
    | none => none
  else none

/-- PASS: the network packet, with its count set when it is managed (R14, R96, R106, R109). -/
def rewritePass (j : Job) (network : List Byte) (s : State) : List Byte × State :=
  let packet := packetOf network
  if goodSync packet then
    match j.managed (packetPid packet) s with
    | some (n, c) => passManaged j n c packet s
    | none => (packet, relabel j none s)
  else (packet, relabel j none s)

/-- The target of R110 is acceptable: it names a component, is in a break's replace set, and is not alert-taken. -/
def targetOk (j : Job) (b : InsBinding) (n : ComponentIx) (cs : List Component) : Bool :=
  decide (n.val < cs.length)
    && (match b.replaceSet with
      | some set => set.getLsbD n.val
      | none => true)
    && !j.snapshot.getLsbD n.val

/-- A source packet emitted on an acceptable target (R110, R112, R113). -/
def emitOnTarget (j : Job) (kind : CurSource) (ref : InsRef) (n : Nat) (c : Component) (fetched : List Byte)
    (s : State) : List Byte × State :=
  let s1 := relabel j (some n) s
  let cc := substitutedCc c.outCc (packetCc fetched) (hasPayload fetched)
  let r := adjustInsertionPcr j ref fetched (setCc (setPid fetched c.pid) cc) s1
  (r.1, r.2.modService j.service fun v =>
    { v.modComp n (Component.substituted (s1.mode == .active) kind cc) with substituted := v.substituted + 1 })

/-- A source packet sent through its insertion binding (R110). -/
def emitMapped (j : Job) (kind : CurSource) (ref : InsRef) (b : InsBinding) (fetched : List Byte) (s : State) :
    List Byte × State :=
  match b.remap.find? fun q => q.pid == packetPid fetched with
  | none => emitNullError .unmappedPid j fetched s
  | some q =>
    match (s.service j.service).comp q.comp.val with
    | some c =>
      if j.live && targetOk j b q.comp (s.service j.service).comps then emitOnTarget j kind ref q.comp.val c fetched s
      else emitNullError .unmappedPid j fetched s
    | none => emitNullError .unmappedPid j fetched s

/-- SUBSTITUTE-BREAK and SUBSTITUTE-LOCAL (R109 to R113). -/
def rewriteInsertion (j : Job) (kind : CurSource) (ref : InsRef) (b : InsBinding) (failed : Bool)
    (fetched : List Byte) (s : State) : List Byte × State :=
  if failed then emitNull j s
  else if !goodSync fetched then emitNullError .sourceFormat j fetched s
  else if packetPid fetched == nullPid then emitNull j s
  else emitMapped j kind ref b fetched s

/-- An alert packet emitted on the PID of the component read (R109, R112, R113, R138). -/
def emitAlert (j : Job) (pid : Pid) (fetched : List Byte) (s : State) : List Byte × State :=
  match j.managed pid s with
  | none => (setPid fetched pid, relabel j none s)
  | some (n, c) =>
    let s1 := relabel j (some n) s
    let cc := substitutedCc c.outCc (packetCc fetched) (hasPayload fetched)
    let r := adjustAlertPcr j fetched (setCc (setPid fetched pid) cc) s1
    (r.1, r.2.modService j.service fun v =>
      { v.modComp n (Component.substituted (s1.mode == .active) .alert cc) with substituted := v.substituted + 1 })

/-- SUBSTITUTE-ALERT (R109, R111, R138). -/
def rewriteAlert (j : Job) (network : List Byte) (failed : Bool) (fetched : List Byte) (s : State) :
    List Byte × State :=
  if failed then emitNull j s
  else if !goodSync fetched then emitNullError .sourceFormat j fetched s
  else if packetPid fetched == nullPid then emitNull j s
  else emitAlert j (packetPid network) fetched s

/-- The count an overlay packet is emitted with (R140). -/
def overlayCount (cc : BitVec 4) (payload : Bool) : BitVec 4 := if payload then cc + 1 else cc

/-- OVERLAY: the captured packet with the service's overlay CC (R140). -/
def rewriteOverlay (j : Job) (packet : List Byte) (s : State) : List Byte × State :=
  let s1 := relabel j none s
  if j.live then
    let cc := overlayCount (s1.service j.service).overlayCc (hasPayload packet)
    (setCc packet cc,
      s1.modService j.service fun v => { v with overlayCc := cc, overlaid := v.overlaid + 1 })
  else (packet, s1)

/-- Bytes 0 to 187 of a rewrite, by its decision (R109). A break's or local programme's entry always holds a reference
and a binding (R95); without them the packet has no target (log 22). -/
def rewriteBytes (j : Job) (e : RttEntry) (s : State) : List Byte × State :=
  let ref := e.insRef.getD (.brk 0 0)
  let b := e.binding.getD { remap := [], replaceSet := none }
  match e.decision.getD .pass with
  | .pass => rewritePass j e.network s
  | .substituteBreak => rewriteInsertion j .brk ref b e.sourceFailed (packetOf e.fetched) s
  | .substituteLocal => rewriteInsertion j .loc ref b e.sourceFailed (packetOf e.fetched) s
  | .substituteAlert => rewriteAlert j e.network e.sourceFailed (packetOf e.fetched) s
  | .stuffNull => emitNull j s
  | .overlay => rewriteOverlay j e.overlay s

/-! ### The event (R34) -/

/-- The rewrite's job for an entry of a service. -/
def rewriteJob (e : RttEntry) (i : ServiceIx) (s : State) : Job where
  service := i
  requester := e.requester
  source := (e.reserved.map (·.addr)).getD 0
  stamp := slotStamp e.network
  snapshot := e.snapshot
  live := (s.service i).defined && !e.stale
  boundary := e.boundary

/-- Bytes 188 to 191: the stamp of the network slot read (R109). -/
def stampBytes (network : List Byte) : List Byte := (network.drop 188).take 4

/-- An entry READY with the data its requester receives (R34). -/
def RttEntry.ready (e : RttEntry) (bytes : List Byte) : RttEntry := { e with phase := .ready, result := bytes }

/-- An entry leaves its service's rewrite order (R34, R39). -/
def leaveOrder (x : EntryIx) (i : ServiceIx) (s : State) : State :=
  { s with rewriteOrder := vset s.rewriteOrder i ((vget s.rewriteOrder i).filter fun y => y != x) }

/-- It is an entry's turn: it is first in its service's rewrite order, or in no rewrite order (R34). -/
def State.hasTurn (s : State) (x : EntryIx) (i : ServiceIx) (e : RttEntry) : Bool :=
  e.sequence.isNone || (vget s.rewriteOrder i).head? == some x

/-- The rewrite of an entry (R34, R109). -/
def rewriteEntry (x : EntryIx) (e : RttEntry) (i : ServiceIx) (s : State) : State :=
  let r := rewriteBytes (rewriteJob e i s) e s
  (leaveOrder x i r.2).setEntry x (some (e.ready (padTo 188 r.1 ++ stampBytes e.network)))

end Sys2Proof.Machine
end

