-- ==== Sys2Proof/Machine/MemoryPort.lean ====
section
/-! DEFINITION. The memory port (R23, R32 to R43, R46, R131, R163): issuing waiting reads, matching answers, read
deadlines, rewrites, and the completion of commands that take time. -/

namespace Sys2Proof.Machine

/-! ### READ_ISSUE (R23) -/

/-- The read that stands first at the memory port is issued when the list has room, and the writes behind it, up to the
next read, follow it (R23; log 3). -/
def issueWaiting (s : State) : State :=
  match s.issueQueue with
  | .read r :: rest => if s.roomToIssue then issueWrites (issueRead r { s with issueQueue := rest }) else s
  | .write _ _ _ :: _ => issueWrites s
  | [] => s

/-- READ_ISSUE (R23). -/
def execReadIssue (now : Stamp) (s : State) : Host.Outcome State Fault Refusal := .next (issueWaiting (s.at now))

/-! ### Whose answer comes next (R23) -/

/-- Whose the oldest read on the list is (R23). -/
def State.oldestOwner (s : State) : Option ReadOwner := s.oldestRead.map fun r => r.read.owner

/-- The PLAIN entry whose network read is the oldest on the list (R32). -/
def State.awaitedPlain (s : State) : Option (EntryIx × RttEntry) :=
  match s.oldestOwner with
  | some (.network x) =>
    match s.entry x with
    | some e => if e.kind == .plain then some (x, e) else none
    | none => none
  | _ => none

/-- The SLOT entry whose network read is the oldest on the list, with its service (R33, R36). -/
def State.awaitedSlot (s : State) : Option (EntryIx × RttEntry × ServiceIx) :=
  match s.oldestOwner with
  | some (.network x) =>
    match s.entry x with
    | some e =>
      match e.kind with
      | .slot i => some (x, e, i)
      | .plain => none
    | none => none
  | _ => none

/-- The entry whose source fetch is the oldest on the list (R34, R35). -/
def State.awaitedFetch (s : State) : Option (EntryIx × RttEntry) :=
  match s.oldestOwner with
  | some (.fetch x) => (s.entry x).map fun e => (x, e)
  | _ => none

/-- The oldest read on the list is the executing command's (R43). -/
def State.awaitsCommand (s : State) : Bool := s.oldestOwner == some .command

/-- The oldest read on the list is an orphan (R40). -/
def State.awaitsOrphan (s : State) : Bool := s.oldestOwner == some .orphan

/-! ### RTT answers (R32 to R36) -/

/-- A PLAIN entry answered (R32). -/
def answerPlain (x : EntryIx) (e : RttEntry) (status : ReadStatus) (data : List Byte) (s : State) : State :=
  s.matched.setEntry x
    (some { e with network := data, status := status, phase := .ready, result := data })

/-- PLAIN_READ_ANSWER (R32): the answer carries the beats the read asked for (log 3). -/
def execPlainReadAnswer (now : Stamp) (status : ReadStatus) (data : List Byte) (s : State) :
    Host.Outcome State Fault Refusal :=
  if answerWf data then
    .next
      (match s.awaitedPlain with
      | some (x, e) => if data.length == 16 * e.beats then answerPlain x e status data (s.at now) else s.at now
      | none => s.at now)
  else .fault .illFormed

/-- CLASSIFICATION (R33, R95). -/
def execClassification (now : Stamp) (data : SlotData) (s : State) : Host.Outcome State Fault Refusal :=
  .next
    (match s.awaitedSlot with
    | some (x, e, i) => settle (classify x e i data.toList (s.at now).matched)
    | none => s.at now)

/-- DOWNSTREAM-ERROR carries the service, the requester and an address, and perhaps a packet (R35, R36). -/
def downstreamEvent (e : RttEntry) (addr : Addr) (packet : Option (List Byte)) : ErrorEvent where
  kind := .downstreamError
  service :=
    match e.kind with
    | .slot i => some i
    | .plain => none
  requester := some e.requester
  addr := some addr
  packet := packet

/-- An entry READY with status ERROR and every byte 0 (R36, R39). -/
def RttEntry.failed (e : RttEntry) : RttEntry :=
  { e with status := .error, phase := .ready, result := zeros (16 * e.beats) }

/-- A SLOT entry's network read answered ERROR (R36). -/
def answerError (x : EntryIx) (e : RttEntry) (s : State) : State :=
  raise (downstreamEvent e e.addr none) (s.matched.setEntry x (some e.failed))

/-- NETWORK_READ_ERROR (R36). -/
def execNetworkReadError (now : Stamp) (s : State) : Host.Outcome State Fault Refusal :=
  .next
    (match s.awaitedSlot with
    | some (x, e, _) => settle (answerError x e (s.at now))
    | none => s.at now)

/-- A source fetch answered OK (R34). -/
def answerFetch (x : EntryIx) (e : RttEntry) (data : SlotData) (s : State) : State :=
  s.matched.setEntry x (some { e with fetched := data.toList, phase := .awaitTurn })

/-- SOURCE_FETCH_ANSWER (R34). -/
def execSourceFetchAnswer (now : Stamp) (data : SlotData) (s : State) : Host.Outcome State Fault Refusal :=
  .next
    (match s.awaitedFetch with
    | some (x, e) => answerFetch x e data (s.at now)
    | none => s.at now)

/-- A source fetch answered ERROR (R35). -/
def fetchError (x : EntryIx) (e : RttEntry) (s : State) : State :=
  raise (downstreamEvent e ((e.reserved.map (·.addr)).getD 0) (some (packetHead e.network)))
    (s.matched.setEntry x (some { e with sourceFailed := true, phase := .awaitTurn }))

/-- SOURCE_FETCH_ERROR (R35). -/
def execSourceFetchError (now : Stamp) (s : State) : Host.Outcome State Fault Refusal :=
  .next
    (match s.awaitedFetch with
    | some (x, e) => settle (fetchError x e (s.at now))
    | none => s.at now)

/-- ORPHAN_ANSWER (R40): matched and discarded. -/
def execOrphanAnswer (now : Stamp) (s : State) : Host.Outcome State Fault Refusal :=
  .next (if s.awaitsOrphan then (s.at now).matched else s.at now)

/-! ### REWRITE (R34, R109) -/

/-- The SLOT entry in AWAIT-TURN whose turn it is, with its service (R34). -/
def State.rewritable (s : State) (x : EntryIx) : Option (RttEntry × ServiceIx) :=
  match s.entry x with
  | none => none
  | some e =>
    match e.kind with
    | .slot i => if e.phase == .awaitTurn && s.hasTurn x i e then some (e, i) else none
    | .plain => none

/-- REWRITE (R34, R109; log 31). -/
def execRewrite (now : Stamp) (x : EntryIx) (s : State) : Host.Outcome State Fault Refusal :=
  .next
    (match s.rewritable x with
    | some (e, i) => settle (rewriteEntry x e i (s.at now))
    | none => s.at now)

/-! ### Read deadlines (R38, R39, R43) -/

/-- A running deadline has been reached (R38; log 11). -/
def deadlineReached (now : Stamp) (deadline : Option Stamp) : Bool :=
  match deadline with
  | some d => atOrAfter now d
  | none => false

/-- The read is an entry's own: its network read or its source fetch. -/
def ReadOwner.isOf (x : EntryIx) : ReadOwner → Bool
  | .network y => x == y
  | .fetch y => x == y
  | .command | .orphan => false

/-- The read on the list with a reached deadline that `whose` holds of. -/
def State.timedOut (s : State) (whose : ReadOwner → Bool) (now : Stamp) : Option IssuedRead :=
  s.outstanding.find? fun r => whose r.read.owner && deadlineReached now r.deadline

/-- The reads `whose` holds of become orphans, which have no deadline (R39, R40). -/
def orphanReads (whose : ReadOwner → Bool) (s : State) : State :=
  { s with
    outstanding := s.outstanding.map fun r =>
      if whose r.read.owner then { read := { r.read with owner := .orphan }, deadline := none } else r }

/-- READ-TIMEOUT of an entry's read carries its requester, the address of the read and the service of a SLOT entry
(R39). -/
def timeoutEvent (e : RttEntry) (addr : Addr) : ErrorEvent where
  kind := .readTimeout
  service :=
    match e.kind with
    | .slot i => some i
    | .plain => none
  requester := some e.requester
  addr := some addr

/-- A SLOT entry leaves its service's rewrite order (R39). -/
def dropFromOrder (x : EntryIx) (e : RttEntry) (s : State) : State :=
  match e.kind with
  | .slot i => leaveOrder x i s
  | .plain => s

/-- An entry's read timed out (R39). -/
def timeOutEntry (x : EntryIx) (e : RttEntry) (addr : Addr) (s : State) : State :=
  raise (timeoutEvent e addr) ((dropFromOrder x e (orphanReads (ReadOwner.isOf x) s)).setEntry x (some e.failed))

/-- READ_DEADLINE_EXPIRY (R39). -/
def execReadDeadlineExpiry (now : Stamp) (x : EntryIx) (s : State) : Host.Outcome State Fault Refusal :=
  .next
    (match s.timedOut (ReadOwner.isOf x) now, s.entry x with
    | some r, some e => settle (timeOutEntry x e r.read.addr (s.at now))
    | _, _ => s.at now)

/-! ### Commands that take time (R43, R46, R131, R159, R163) -/

/-- A start check answered (R43, R46). -/
def answerStartCheck (k : SourceIx) (w : Window) (status : ReadStatus) (slot : List Byte) (s : State) : State :=
  match status with
  | .error => completeWork (.refused .downstream) s.matched
  | .ok =>
    let r := startChecked k w slot s.matched
    completeWork r.1 r.2

/-- START_CHECK_ANSWER (R46). -/
def execStartCheckAnswer (now : Stamp) (status : ReadStatus) (data : SlotData) (s : State) :
    Host.Outcome State Fault Refusal :=
  .next
    (match s.work, s.awaitsCommand with
    | some (.startCheck k w), true => answerStartCheck k w status data.toList (s.at now)
    | _, _ => s.at now)

/-- An overlay load answered (R43, R131). -/
def answerOverlayLoad (g : GroupIx) (status : ReadStatus) (slot : List Byte) (s : State) : State :=
  match status with
  | .error => completeWork (.refused .downstream) s.matched
  | .ok =>
    let r := overlayLoaded g slot s.matched
    completeWork r.1 r.2

/-- OVERLAY_LOAD_ANSWER (R131). -/
def execOverlayLoadAnswer (now : Stamp) (status : ReadStatus) (data : SlotData) (s : State) :
    Host.Outcome State Fault Refusal :=
  .next
    (match s.work, s.awaitsCommand with
    | some (.overlayLoad g), true => answerOverlayLoad g status data.toList (s.at now)
    | _, _ => s.at now)

/-- The read is the executing command's. -/
def ReadOwner.isCommand : ReadOwner → Bool
  | .command => true
  | .network _ | .fetch _ | .orphan => false

/-- A command's read timed out: READ-TIMEOUT with its address, no requester and no service, and the command refused with
DOWNSTREAM (R43). -/
def timeOutCommand (addr : Addr) (s : State) : State :=
  completeWork (.refused .downstream)
    (raise { kind := .readTimeout, addr := some addr } (orphanReads ReadOwner.isCommand s))

/-- INTERNAL_READ_EXPIRY (R43). -/
def execInternalReadExpiry (now : Stamp) (s : State) : Host.Outcome State Fault Refusal :=
  .next
    (match s.timedOut ReadOwner.isCommand now with
    | some r => timeOutCommand r.read.addr (s.at now)
    | none => s.at now)

/-- The rest of a snapshot record handed over, and the command complete with the number of bytes written (R163). -/
def finishSnapshot (dest : Addr) (record : List Byte) (handed : Nat) (s : State) : State :=
  completeWork (.done 256) (writeBeats dest record handed 16 s)

/-- SNAPSHOT_WRITE_COMPLETE (R163). -/
def execSnapshotWriteComplete (now : Stamp) (s : State) : Host.Outcome State Fault Refusal :=
  .next
    (match s.work with
    | some (.snapshot dest record handed) => finishSnapshot dest record handed (s.at now)
    | _ => s.at now)

end Sys2Proof.Machine
end

