-- ==== Sys2Proof/Machine/Timers.lean ====
section
/-! DEFINITION. Power-on reset (R41) and the events of the station clock: channel expiry (R91), stale stamps (R80), the
maximum duration of an alert (R143) and the recovery timer (R170). -/

namespace Sys2Proof.Machine

/-! ### Power-on reset -/

/-- The state power-on reset leaves (R41): every block reset and the straps sampled (R155). The model's own fields go on
(log 30); what waits at the memory port, the writes behind a waiting read too, is dropped (log 46). -/
def poweredOn (now : Stamp) (straps : BitVec 16) (s : State) : State :=
  { State.reset with
    pending := s.pending
    emitted := s.emitted
    freeIndex := s.freeIndex
    now := now
    straps := straps }

/-- POWER_ON_RESET (R41). -/
def execPowerOnReset (now : Stamp) (straps : BitVec 16) (s : State) : Host.Outcome State Fault Refusal :=
  .next (poweredOn now straps s)

/-! ### Channel expiry (R91) -/

/-- The head channel freed and its owner's check started (R91). -/
def expireChannel (c : Channel) (s : State) : State := checkOwner c.owner { s with bank := s.bank.tail }

/-- CHANNEL_EXPIRY (R91): the head channel, once the station clock is at or after its deadline. -/
def execChannelExpiry (now : Stamp) (s : State) : Host.Outcome State Fault Refusal :=
  .next
    (match s.bank with
    | c :: _ => if atOrAfter now c.deadline then settle (expireChannel c (s.at now)) else s.at now
    | [] => s.at now)

/-! ### Stale stamps (R80) -/

/-- The station clock lies 2^30 ticks or more after a stored stamp (R80). -/
def stale (now stamp : Stamp) : Bool := farAfter now stamp

/-- A break entry whose stamp is stale departs (R80): an ACTIVE one by its return stamp, any other by its splice stamp. -/
def staleBreak (i : ServiceIx) (e : BreakEntry) (s : State) : State :=
  if e.isActive then
    match e.ret with
    | some r => if stale s.now r.stamp then leaveBreak i e.event (.ended r.origin.cause s.now) s else s
    | none => s
  else if stale s.now e.splice then leaveBreak i e.event (.missed .late s.now) s
  else s

/-- A local slot whose stamp is stale departs (R80): a RUNNING one by its end stamp, any other by its start stamp. -/
def staleSlot (i : ServiceIx) (l : SlotLetter) (p : LocalProg) (s : State) : State :=
  if p.isRunning then (if stale s.now p.stop then leaveSlot i l (.ended .endStamp s.now) s else s)
  else if stale s.now p.start then leaveSlot i l (.missed .late s.now) s
  else s

/-- An owner whose stored stamp is stale departs (R80). -/
def departStale (o : InsOwner) (s : State) : State :=
  match o with
  | .brk i ev =>
    match (s.service i).findEntry ev with
    | some e => staleBreak i e s
    | none => s
  | .loc i l =>
    match (s.service i).slot l with
    | some p => staleSlot i l p s
    | none => s

/-- STALE_STAMP_DEPARTURE (R80). -/
def execStaleStampDeparture (now : Stamp) (o : InsOwner) (s : State) : Host.Outcome State Fault Refusal :=
  .next (settle (departStale o (s.at now)))

/-! ### Alerts and recovery (R143, R170) -/

/-- MAXIMUM_DURATION_EXPIRY (R143): the alert ends with cause TIMEOUT once the clock is at or after its deadline. -/
def execMaximumDurationExpiry (now : Stamp) (k : AlertIx) (s : State) : Host.Outcome State Fault Refusal :=
  .next
    (match s.alert k with
    | some a => if atOrAfter now a.deadline then settle (endAlert k .timeout (s.at now)) else s.at now
    | none => s.at now)

/-- RECOVERY_TIMER_EXPIRY (R170): the part returns to ACTIVE once the clock is at or after the timer's expiry. -/
def execRecoveryTimerExpiry (now : Stamp) (s : State) : Host.Outcome State Fault Refusal :=
  .next
    (match s.modeControl.timer with
    | some t => if atOrAfter now t then settle (leaveBypass .recovery (s.at now)) else s.at now
    | none => s.at now)

end Sys2Proof.Machine
end

