-- ==== Sys2Proof/Machine/Dispatch.lean ====
section
/-! DEFINITION. The command of each row of spec/opcode_table.json and its meaning. -/

namespace Sys2Proof.Machine

/-- What a command does to everything but the queue. -/
def exec (i : Instr) (s : State) : Host.Outcome State Fault Refusal :=
  match i with
  | .powerOnReset now straps => Sys2Proof.Machine.execPowerOnReset now straps s
  | .writeTaken now w => Sys2Proof.Machine.execWriteTaken now w s
  | .consumerIndexWrite now value => Sys2Proof.Machine.execConsumerIndexWrite now value s
  | .readTaken now r => Sys2Proof.Machine.execReadTaken now r s
  | .readIssue now => Sys2Proof.Machine.execReadIssue now s
  | .plainReadAnswer now status data => Sys2Proof.Machine.execPlainReadAnswer now status data s
  | .classification now data => Sys2Proof.Machine.execClassification now data s
  | .networkReadError now => Sys2Proof.Machine.execNetworkReadError now s
  | .sourceFetchAnswer now data => Sys2Proof.Machine.execSourceFetchAnswer now data s
  | .sourceFetchError now => Sys2Proof.Machine.execSourceFetchError now s
  | .rewrite now entry => Sys2Proof.Machine.execRewrite now entry s
  | .completion now requester => Sys2Proof.Machine.execCompletion now requester s
  | .readDeadlineExpiry now entry => Sys2Proof.Machine.execReadDeadlineExpiry now entry s
  | .orphanAnswer now => Sys2Proof.Machine.execOrphanAnswer now s
  | .startCheckAnswer now status data => Sys2Proof.Machine.execStartCheckAnswer now status data s
  | .overlayLoadAnswer now status data => Sys2Proof.Machine.execOverlayLoadAnswer now status data s
  | .internalReadExpiry now => Sys2Proof.Machine.execInternalReadExpiry now s
  | .snapshotWriteComplete now => Sys2Proof.Machine.execSnapshotWriteComplete now s
  | .channelExpiry now => Sys2Proof.Machine.execChannelExpiry now s
  | .staleStampDeparture now owner => Sys2Proof.Machine.execStaleStampDeparture now owner s
  | .maximumDurationExpiry now slot => Sys2Proof.Machine.execMaximumDurationExpiry now slot s
  | .recoveryTimerExpiry now => Sys2Proof.Machine.execRecoveryTimerExpiry now s
  | .periodTimerExpiry now => Sys2Proof.Machine.execPeriodTimerExpiry now s
  | .armFrame now => Sys2Proof.Machine.execArmFrame now s
  | .goFrame now => Sys2Proof.Machine.execGoFrame now s
  | .endFrame now => Sys2Proof.Machine.execEndFrame now s
  | .keepaliveFrame now => Sys2Proof.Machine.execKeepaliveFrame now s
  | .clearFrame now => Sys2Proof.Machine.execClearFrame now s
  | .statusRead now => Sys2Proof.Machine.execStatusRead now s
  | .frameDiscard now => Sys2Proof.Machine.execFrameDiscard now s
  | .enable now c => Sys2Proof.Machine.execEnable now c s
  | .disable now c => Sys2Proof.Machine.execDisable now c s
  | .restart now c => Sys2Proof.Machine.execRestart now c s
  | .statusSnapshot now c => Sys2Proof.Machine.execStatusSnapshot now c s
  | .requesterRoleSet now c => Sys2Proof.Machine.execRequesterRoleSet now c s
  | .serviceDefine now c => Sys2Proof.Machine.execServiceDefine now c s
  | .serviceRemove now c => Sys2Proof.Machine.execServiceRemove now c s
  | .componentSet now c => Sys2Proof.Machine.execComponentSet now c s
  | .serviceOptions now c => Sys2Proof.Machine.execServiceOptions now c s
  | .forceNetwork now c => Sys2Proof.Machine.execForceNetwork now c s
  | .releaseService now c => Sys2Proof.Machine.execReleaseService now c s
  | .sourceDefine now c => Sys2Proof.Machine.execSourceDefine now c s
  | .sourceRemove now c => Sys2Proof.Machine.execSourceRemove now c s
  | .sourceFlush now c => Sys2Proof.Machine.execSourceFlush now c s
  | .availBind now c => Sys2Proof.Machine.execAvailBind now c s
  | .availUnbind now c => Sys2Proof.Machine.execAvailUnbind now c s
  | .breakInsert now c => Sys2Proof.Machine.execBreakInsert now c s
  | .breakReturn now c => Sys2Proof.Machine.execBreakReturn now c s
  | .breakCancel now c => Sys2Proof.Machine.execBreakCancel now c s
  | .breakEndNow now c => Sys2Proof.Machine.execBreakEndNow now c s
  | .localLoad now c => Sys2Proof.Machine.execLocalLoad now c s
  | .localCancel now c => Sys2Proof.Machine.execLocalCancel now c s
  | .alertGroupSet now c => Sys2Proof.Machine.execAlertGroupSet now c s
  | .alertStart now c => Sys2Proof.Machine.execAlertStart now c s
  | .alertEnd now c => Sys2Proof.Machine.execAlertEnd now c s
  | .alertOverlayLoad now c => Sys2Proof.Machine.execAlertOverlayLoad now c s
  | .linkSet now c => Sys2Proof.Machine.execLinkSet now c s
  | .errorPolicy now c => Sys2Proof.Machine.execErrorPolicy now c s
  | .errorClear now c => Sys2Proof.Machine.execErrorClear now c s
  | .resume now c => Sys2Proof.Machine.execResume now c s
  | .reportRingSet now c => Sys2Proof.Machine.execReportRingSet now c s
  | .unknownCommand now code c => Sys2Proof.Machine.execUnknownCommand now code c s
  | .linkByteReceived now start byte => Sys2Proof.Machine.execLinkByteReceived now start byte s

end Sys2Proof.Machine
end

