-- ==== Sys2Proof/Safety.lean ====
section
/-! DEFINITION. The properties the statements speak of: invariants of the part, and the vocabulary of its commands. -/

namespace Sys2Proof.Machine

/-! ### Invariants -/

/-- Entry 0 of the Requester Role Map holds CONTROL (R24). -/
def ControlEntry (s : State) : Prop := vget s.roles 0 = .control

/-- The Outstanding Read List holds at most 48 reads (R23). -/
def ReadsBounded (s : State) : Prop := s.outstanding.length ≤ Config.outstandingMax

/-- What waits first at the memory port, if anything does, is a read: a write there would be issued (R23). -/
def ReadWaitsFirst (s : State) : Prop := ∀ w ∈ s.issueQueue.head?, w.isWrite = false

/-- The Intake Queue holds at most 8 entries (R158). -/
def QueueBounded (s : State) : Prop := s.intake.length ≤ Config.intakeMax

/-- At most 64 deadline channels are armed (R89). -/
def ChannelsBounded (s : State) : Prop := s.bank.length ≤ Config.channelMax

/-- A Splice Schedule holds at most 4 entries (R78). -/
def SchedulesBounded (s : State) : Prop := ∀ i, (s.service i).schedule.length ≤ Config.scheduleMax

/-- A defined ring has 16 to 4,096 records, and both its indexes lie below that count (R172). -/
def RingOk (g : Ring) : Prop :=
  ∀ d, g.defn = some d → 16 ≤ d.count ∧ d.count ≤ 4096 ∧ g.producer < d.count ∧ g.consumer < d.count

/-- A STREAM source's fill lies between 0 and its slot count, its read index below it, and read index and fill give its
write index (R44). -/
def FillOk (r : Source) : Prop :=
  ∀ c, r.config = some c → c.mode = .stream →
    0 < c.window.slots ∧ r.fill ≤ c.window.slots ∧ r.readIx < c.window.slots
      ∧ (r.readIx + r.fill) % c.window.slots = r.writeIx

/-- FillOk of every source (R44). -/
def FillsOk (s : State) : Prop := ∀ k, FillOk (s.source k)

/-- READ-TIMEOUT is reported and FATAL (R166). -/
def TimeoutFatal (s : State) : Prop :=
  (s.kindLog .readTimeout).severity = .fatal ∧ (s.kindLog .readTimeout).masked = false

/-! ### The Window Decoder -/

/-- `p` is the part of the `n` bytes at `a`, taken modulo 2^36, that lies in the region of `size` bytes from `base`: from the
first of them when `a` lies in the region, else from the region's first byte when the transaction reaches it, going upward or
past 2^36 − 1, to the last byte of whichever ends first (R22, R26). -/
def LiesIn (base size : Nat) (a : Addr) (n : Nat) (p : Part) : Prop :=
  let reaches (off : Nat) : Prop :=
    off < n ∧ p = { off := off, addr := BitVec.ofNat 36 base, len := min (n - off) size }
  base ≤ a.toNat ∧ a.toNat < base + size ∧ p = { off := 0, addr := a, len := min n (base + size - a.toNat) }
    ∨ 0 < size ∧ a.toNat < base ∧ reaches (base - a.toNat)
    ∨ 0 < size ∧ base + size ≤ a.toNat ∧ reaches (base + 2 ^ 36 - a.toNat)

/-! ### Commands -/

/-- The Command Unit is idle for a command: the Intake Queue is empty, the cell is not busy, and no severity action is
put off. -/
def Idle (c : CellCommand) (s : State) : Prop :=
  s.intake = [] ∧ (vget s.cells c.cell).busy = false ∧ s.deferred = []

/-- REPORT-OVERFLOW has severity NOTICE: a report puts off no action. -/
def Calm (s : State) : Prop := (s.kindLog .reportOverflow).severity = .notice

/-- The queue entry a command is taken into (R157). -/
def entryOf (code : Byte) (c : CellCommand) : QueueEntry where
  cell := c.cell
  code := code
  tag := c.tag
  requester := c.requester
  params := c.params

/-- The state in which a command taken by an idle Command Unit executes: its parameters in the shadow, the cell busy, the
entry alone in the queue (R156, R157). -/
def takenState (code : Byte) (now : Stamp) (c : CellCommand) (s : State) : State :=
  { s with
    now := now
    cells := vset s.cells c.cell { shadow := c.params, busy := true }
    intake := [entryOf code c] }

/-- The write-back of a command (R158, R177). -/
def writeBackOf (code : Byte) (c : CellCommand) (r : Reply) (s : State) : PortEvent :=
  .memWrite true (s.cellAddr c.cell) (enabledBytes (writeBackBytes code c.tag r))

/-- The state after a command that an idle Command Unit has taken and answered, given what the command did: its effect on
the state in which it executes, and then its completion (R158). -/
def afterReply (code : Byte) (now : Stamp) (c : CellCommand) (r : Reply) (effect : State → State) (s : State) : State :=
  complete (entryOf code c) r (effect (takenState code now c s))

/-- What was handed to the memory port last, or driven last when nothing waits there (R23). -/
def lastHanded (s : State) : Option PortEvent :=
  match s.issueQueue.getLast? with
  | some w => some w.event
  | none => s.emitted.getLast?

/-- What a completed command leaves in the Command Unit: its write-back handed over last, the cell not busy with the
command's parameters in its shadow, the queue empty, and no action put off (R158). -/
def Answered (code : Byte) (c : CellCommand) (r : Reply) (s t : State) : Prop :=
  lastHanded t = some (writeBackOf code c r s)
    ∧ t.cells = vset s.cells c.cell { shadow := c.params, busy := false }
    ∧ t.intake = [] ∧ t.work = none ∧ t.deferred = []

/-- The command code and the cell of a row that stands for a command taken from a cell (spec/10, section 10.4). -/
def commandOf : Instr → Option (Byte × CellCommand)
  | .enable _ c => some (0x01, c)
  | .disable _ c => some (0x02, c)
  | .restart _ c => some (0x03, c)
  | .statusSnapshot _ c => some (0x04, c)
  | .requesterRoleSet _ c => some (0x05, c)
  | .serviceDefine _ c => some (0x10, c)
  | .serviceRemove _ c => some (0x11, c)
  | .componentSet _ c => some (0x12, c)
  | .serviceOptions _ c => some (0x13, c)
  | .forceNetwork _ c => some (0x14, c)
  | .releaseService _ c => some (0x15, c)
  | .sourceDefine _ c => some (0x18, c)
  | .sourceRemove _ c => some (0x19, c)
  | .sourceFlush _ c => some (0x1A, c)
  | .availBind _ c => some (0x20, c)
  | .availUnbind _ c => some (0x21, c)
  | .breakInsert _ c => some (0x24, c)
  | .breakReturn _ c => some (0x25, c)
  | .breakCancel _ c => some (0x26, c)
  | .breakEndNow _ c => some (0x27, c)
  | .localLoad _ c => some (0x2C, c)
  | .localCancel _ c => some (0x2D, c)
  | .alertGroupSet _ c => some (0x30, c)
  | .alertStart _ c => some (0x31, c)
  | .alertEnd _ c => some (0x32, c)
  | .alertOverlayLoad _ c => some (0x33, c)
  | .linkSet _ c => some (0x38, c)
  | .errorPolicy _ c => some (0x40, c)
  | .errorClear _ c => some (0x41, c)
  | .resume _ c => some (0x42, c)
  | .reportRingSet _ c => some (0x43, c)
  | .unknownCommand _ code c => some (code, c)
  | .powerOnReset _ _ | .writeTaken _ _ | .consumerIndexWrite _ _ | .readTaken _ _ | .readIssue _
  | .plainReadAnswer _ _ _ | .classification _ _ | .networkReadError _ | .sourceFetchAnswer _ _ | .sourceFetchError _
  | .rewrite _ _ | .completion _ _ | .readDeadlineExpiry _ _ | .orphanAnswer _ | .startCheckAnswer _ _ _
  | .overlayLoadAnswer _ _ _ | .internalReadExpiry _ | .snapshotWriteComplete _ | .channelExpiry _
  | .staleStampDeparture _ _ | .maximumDurationExpiry _ _ | .recoveryTimerExpiry _ | .periodTimerExpiry _
  | .armFrame _ | .goFrame _ | .endFrame _ | .keepaliveFrame _ | .clearFrame _ | .statusRead _ | .frameDiscard _
  | .linkByteReceived _ _ _ => none

/-- The card-port write that submits a command from its cell: a fully enabled header with SUBMIT, and the parameters
(R156). -/
def submission (code : Byte) (c : CellCommand) (s : State) : PortWrite where
  requester := c.requester
  addr := s.cellAddr c.cell
  bytes := enabledBytes ([code, c.tag, 0x01] ++ zeros 13 ++ c.params.toList)

/-! ### Frames -/

/-- What waits at the memory port stands; behind it at most writes have been handed over, and none when nothing waits
(R23). -/
def WritesFollow (s t : State) : Prop :=
  ∃ ws : List MemTransaction, t.issueQueue = s.issueQueue ++ ws ∧ ws.all MemTransaction.isWrite = true
    ∧ (s.issueQueue = [] → ws = [])

/-- The memory path stands: the RTT, its orders and counters, and the reads on their way. -/
def SamePath (s t : State) : Prop :=
  t.rtt = s.rtt ∧ t.completionOrder = s.completionOrder ∧ t.rewriteOrder = s.rewriteOrder ∧ t.sequence = s.sequence
    ∧ t.waitingReads = s.waitingReads ∧ WritesFollow s t ∧ t.outstanding = s.outstanding

/-- The model's own queue and counter, the straps and the Requester Role Map stand. -/
def SameFixed (s t : State) : Prop :=
  t.pending = s.pending ∧ t.freeIndex = s.freeIndex ∧ t.straps = s.straps ∧ t.roles = s.roles

/-- The groups, the alert slots, the activation counter and the link stand. -/
def SameAlerts (s t : State) : Prop :=
  t.groups = s.groups ∧ t.alerts = s.alerts ∧ t.activations = s.activations ∧ t.link = s.link

/-- The services, the sources and the deadline bank stand. -/
def SameSchedule (s t : State) : Prop := t.services = s.services ∧ t.sources = s.sources ∧ t.bank = s.bank

/-- Every other service stands. -/
def OtherServices (i : ServiceIx) (s t : State) : Prop := ∀ j, j ≠ i → t.service j = s.service j

/-- Every other source stands. -/
def OtherSources (k : SourceIx) (s t : State) : Prop := ∀ j, j ≠ k → t.source j = s.source j

end Sys2Proof.Machine
end

