-- ==== Sys2Proof/Certificates/Slice0/Obligations.lean ====
section
/-! DEFINITION. The statements for the provers. A statement speaks of `exec` on one row; `afterReply` is the state a command
leaves that an idle Command Unit has taken and answered, `settle` carries out the severity actions an event has put off. -/

open Sys2Proof Sys2Proof.Machine

/-! ### The block -/

/-- A step takes the command at the front of the queue; on an empty queue the part idles (DESIGN CHOICE, log 2). -/
def Obligations.StepTakesFrontCommand : Prop :=
  (∀ (s : State) (i : Instr) (rest : List Instr),
      s.pending = i :: rest → step s = exec i { s with pending := rest })
    ∧ ∀ s : State, s.pending = [] → step s = .next s

/-- Every row completes on the operands a transaction can have, and stops on the others (log 28). -/
def Obligations.RowsCompleteExactlyWhenWellFormed : Prop :=
  ∀ (i : Instr) (s : State),
    (i.wellFormed = true → ∃ t, exec i s = .next t) ∧ (i.wellFormed = false → exec i s = .fault .illFormed)

/-- What power-on reset leaves: every block as its section says it is after a reset, every record and list of the part
empty, and the invariants below met (R3, R24, R30, R33, R44, R89, R129, R132, R146, R156, R164, R168, R172). The part's
stamp reads 0 and the straps are low (DESIGN CHOICE, log 1 and 7): the statement names neither. -/
def Obligations.ResetStateMeetsInvariants : Prop :=
  ControlEntry State.reset ∧ ReadsBounded State.reset ∧ ReadWaitsFirst State.reset ∧ QueueBounded State.reset
    ∧ ChannelsBounded State.reset ∧ SchedulesBounded State.reset ∧ RingOk State.reset.ring ∧ FillsOk State.reset
    ∧ TimeoutFatal State.reset ∧ State.reset.mode = .passive ∧ State.reset.modeControl.interval = 10
    ∧ State.reset.modeControl.holdOnFault = false ∧ State.reset.modeControl.timer = none
    ∧ State.reset.modeControl.bypassStamp = none
    ∧ (∀ i, State.reset.service i = Service.unused) ∧ (∀ k, State.reset.source k = Source.free)
    ∧ (∀ q, vget State.reset.roles q = if q = 0 then .control else .other)
    ∧ (∀ x, State.reset.entry x = none) ∧ (∀ q, vget State.reset.completionOrder q = [])
    ∧ (∀ i, vget State.reset.rewriteOrder i = [] ∧ vget State.reset.sequence i = 0)
    ∧ State.reset.waitingReads = [] ∧ State.reset.issueQueue = [] ∧ State.reset.outstanding = []
    ∧ State.reset.bank = [] ∧ (∀ g, State.reset.group g = AlertGroup.undefined) ∧ (∀ k, State.reset.alert k = none)
    ∧ State.reset.activations = 0
    ∧ State.reset.link =
        { enabled := false, interval := 0, arm := none, lost := false, mark := false, period := none,
          lastKeepalive := none, lostStamp := none, frame := none }
    ∧ (∀ c, (vget State.reset.cells c).busy = false ∧ (vget State.reset.cells c).shadow.toList = zeros 48)
    ∧ State.reset.intake = [] ∧ State.reset.work = none ∧ State.reset.deferred = []
    ∧ State.reset.ring = { defn := none, producer := 0, consumer := 0, dropped := 0, overflow := false }
    ∧ State.reset.firstError = none ∧ State.reset.multiple = false
    ∧ (∀ k, (vget State.reset.kinds k).masked = false ∧ (vget State.reset.kinds k).status = false
        ∧ (vget State.reset.kinds k).counter = 0)

/-- Power-on reset and RESTART put every block in its reset state; RESTART keeps the straps, the RTT and the
transactions on their way, and hands over its own write-back first (R41, R162). The model's own queue, trace and counter
go on (log 30); what waits at the memory port is dropped by power-on reset, the writes behind a waiting read too (DESIGN
CHOICE, log 46); and RESTART marks each SLOT read in the RTT as one of a service that has been UNUSED (R8; log 13).
Stated of a RESTART that an idle Command Unit takes; one behind other commands runs when they complete, as `runAll` says
(R158). -/
def Obligations.ResetsPutEveryBlockInResetState : Prop :=
  (∀ (now : Stamp) (straps : BitVec 16) (s : State),
      exec (.powerOnReset now straps) s = .next { State.reset with
        pending := s.pending, emitted := s.emitted, freeIndex := s.freeIndex, now := now, straps := straps })
    ∧ ∀ (now : Stamp) (c : CellCommand) (s : State), Idle c s →
      let answered := handWrite true (s.cellAddr c.cell) (enabledBytes (writeBackBytes 0x03 c.tag (.done 0))) s
      exec (.restart now c) s = .next { State.reset with
        pending := s.pending
        emitted := answered.emitted
        freeIndex := s.freeIndex
        now := now
        straps := s.straps
        rtt := s.rtt.map (Option.map fun e => if e.kind = .plain then e else { e with stale := true })
        completionOrder := s.completionOrder
        rewriteOrder := s.rewriteOrder
        sequence := s.sequence
        waitingReads := s.waitingReads
        issueQueue := answered.issueQueue
        outstanding := s.outstanding }

/-! ### Invariants -/

/-- No step lets a fixed table grow past its size: the Outstanding Read List, the Intake Queue, the Deadline Bank and the
Splice Schedules (R23, R158, R89, R78); and what waits first at the memory port stays a read, since a write there would be
issued (R23). -/
def Obligations.StepKeepsTableBounds : Prop :=
  ∀ s t : State, ReadsBounded s → QueueBounded s → ChannelsBounded s → SchedulesBounded s → step s = .next t →
    ReadsBounded t ∧ QueueBounded t ∧ ChannelsBounded t ∧ SchedulesBounded t ∧ (ReadWaitsFirst s → ReadWaitsFirst t)

/-- Entry 0 of the Requester Role Map stays CONTROL (R24, R25). -/
def Obligations.StepKeepsControlEntry : Prop :=
  ∀ s t : State, ControlEntry s → step s = .next t → ControlEntry t

/-- A defined report ring keeps 16 to 4,096 records and both indexes below the count (R172, R173, R174). -/
def Obligations.StepKeepsRingIndexesInRange : Prop :=
  ∀ s t : State, RingOk s.ring → step s = .next t → RingOk t.ring

/-- Every STREAM source keeps its fill between 0 and its slot count, and its indexes in agreement with it (R44, R49, R50,
R52, R56). -/
def Obligations.StepKeepsFillsInOrder : Prop :=
  ∀ s t : State, FillsOk s → step s = .next t → FillsOk t

/-- READ-TIMEOUT stays reported and FATAL (R166). -/
def Obligations.StepKeepsTimeoutFatal : Prop :=
  ∀ s t : State, TimeoutFatal s → step s = .next t → TimeoutFatal t

/-! ### Card-port writes -/

/-- A write is handed to the memory port unchanged, and each part of it that lies in a watched region is then offered to
that region's watcher, lowest offset first, as though it were a write of that part alone (R22, R26, R27; the order is
DESIGN CHOICE, log 17). A write with no such part does nothing else, and one of a role other than CONTROL in the control
region raises CONTROL-INTRUSION with the address of its first byte there. The parts offered are, from the first byte of
a window to its last: those in service windows for INGEST, those in windows of STREAM sources for PLAYER, and those in
the 4 KiB of the control region for every role; none else, and no region twice. -/
def Obligations.WritesPassUnchanged : Prop :=
  (∀ (now : Stamp) (w : PortWrite) (s : State), w.wf = true → s.deferred = [] →
    let role := vget s.roles w.requester
    let offers := s.offers role w.addr w.bytes.length
    let u : State := handWrite false w.addr w.bytes { s with now := now }
    (offers = [] → exec (.writeTaken now w) s = .next u)
      ∧ (∀ p : Part, role ≠ .control → offers = [{ region := .control, part := p }] →
        exec (.writeTaken now w) s = .next (settle
          (raise { kind := .controlIntrusion, requester := some w.requester, addr := some p.addr } u)))
      ∧ (role ≠ .control →
        exec (.writeTaken now w) s = .next (settle
          (offers.foldl (fun t o => watch role w.requester w.bytes o t) u))))
    ∧ (∀ (role : Role) (q : RequesterId) (bytes : List LaneByte) (o : Offer) (t : State),
      let alone : Offer := { o with part := { o.part with off := 0 } }
      watch role q bytes o t = watch role q ((bytes.drop o.part.off).take o.part.len) alone t)
    ∧ ∀ (role : Role) (a : Addr) (n : Nat) (s : State), 0 < n → n ≤ 256 →
      let offered (r : Watched) (p : Part) : Prop := { region := r, part := p } ∈ s.offers role a n
      (∀ i p, offered (.svc i) p ↔
          role = .ingest ∧ ∃ win, (s.service i).window = some win ∧ LiesIn win.base.toNat (192 * win.slots) a n p)
        ∧ (∀ k p, offered (.src k) p ↔
          role = .player ∧ ∃ win, (s.source k).config = some { mode := .stream, window := win }
            ∧ LiesIn win.base.toNat (192 * win.slots) a n p)
        ∧ (∀ p, offered .control p ↔ LiesIn (s.straps.toNat * 2 ^ 20) 4096 a n p)
        ∧ ((s.offers role a n).map (·.region)).Nodup
        ∧ ((s.offers role a n).map (·.part.off)).Pairwise (· ≤ ·)

/-- A whole-slot PLAYER write into a STREAM window (R49, R50, R51): at the write index of a ring below full it is counted;
at the write index of a full ring it discards the oldest unread slot, with SOURCE-OVERRUN on the first of a run; anywhere
else it is not counted and raises SOURCE-ORDER. -/
def Obligations.PlayerSlotWriteFillsRing : Prop :=
  ∀ (now : Stamp) (w : PortWrite) (k : SourceIx) (win : Window) (n : Nat) (s : State),
    w.bytes.length = 192 → w.bytes.all (·.enable) = true → s.deferred = [] →
    vget s.roles w.requester = .player → (s.source k).config = some { mode := .stream, window := win } →
    win.slotAt w.addr = some n →
    s.offers .player w.addr 192 = [{ region := .src k, part := { off := 0, addr := w.addr, len := 192 } }] →
    let r := s.source k
    let u : State := handWrite false w.addr w.bytes { s with now := now }
    let e (kind : ErrorKind) : ErrorEvent :=
      { kind := kind, service := r.attachment.map ownerService, requester := some w.requester, addr := some w.addr,
        source := some k, packet := some (packetHead (w.bytes.map (·.data))) }
    let next := nextSlot win.slots
    let spilled : Source :=
      { r with
        writeIx := next r.writeIx, readIx := next r.readIx, overrunRun := true, overruns := r.overruns + 1,
        discarded := r.discarded + 1 }
    (n = r.writeIx → r.fill < win.slots →
        exec (.writeTaken now w) s =
          .next { u with sources := vset s.sources k { r with writeIx := next r.writeIx, fill := r.fill + 1 } })
      ∧ (n = r.writeIx → win.slots ≤ r.fill → r.overrunRun = true →
        exec (.writeTaken now w) s = .next { u with sources := vset s.sources k spilled })
      ∧ (n = r.writeIx → win.slots ≤ r.fill → r.overrunRun = false →
        exec (.writeTaken now w) s =
          .next (settle (raise (e .sourceOverrun) { u with sources := vset s.sources k spilled })))
      ∧ (n ≠ r.writeIx → exec (.writeTaken now w) s = .next (settle (raise (e .sourceOrder) u)))

/-- A whole-slot INGEST write into a service's window (R15, R16, R61): a packet of the PCR component that carries a PCR
replaces the clock track; a start packet on the cue PID, outside PASSIVE, is then examined as a cue; a bad sync byte does
nothing; a write that is not whole-slot raises PARTIAL-WRITE. The cue's checks come in their order: room for 18 bytes at the
start of the payload, the marker, the check field, the type, the avail (R62, R64, R65); a good one is handed over as the
request its fields say, an immediate OUT or IN with the station clock for its stamp (R66 to R70). A cue's request is taken
as R81 to R84 say: an OUT of an ACTIVE event raises DUPLICATE-EVENT and one that finds four entries SCHEDULE-FULL, an IN or
CANCEL that matches nothing CUE-UNMATCHED; any other inserts, updates, returns or cancels its entry (that an update 2^30
ticks ahead is late, DEDUCED, log 42; what MISSED LATE of an update reports, DEDUCED, log 20; the packet bytes of
CUE-UNMATCHED after the event ID, DEDUCED, log 49). -/
def Obligations.IngestWriteTracksClockAndCapturesCue : Prop :=
  (∀ (now : Stamp) (w : PortWrite) (i : ServiceIx) (win : Window) (s : State),
    w.wf = true → s.deferred = [] → vget s.roles w.requester = .ingest → (s.service i).window = some win →
    s.offers .ingest w.addr w.bytes.length =
      [{ region := .svc i, part := { off := 0, addr := w.addr, len := w.bytes.length } }] →
    let slot := w.bytes.map (·.data)
    let whole : Prop := w.bytes.length = 192 ∧ w.bytes.all (·.enable) = true ∧ (win.slotAt w.addr).isSome = true
    let u : State := handWrite false w.addr w.bytes { s with now := now }
    let tracked : Service :=
      { s.service i with
        track :=
          if pcrPid (s.service i).comps = some (packetPid slot) ∧ carriesPcr slot = true then
            some { base := pcrBase slot, stamp := slotStamp slot }
          else (s.service i).track }
    let v : State := { u with services := vset s.services i tracked }
    let isCue : Prop := s.mode ≠ .passive ∧ (s.service i).cuePid = some (packetPid slot) ∧ startFlag slot = true
    let failed (k : ErrorKind) : State :=
      settle (raise
        { kind := k, service := some i, requester := some w.requester, addr := some w.addr,
          packet := some (packetHead slot) } v)
    let m := slot.drop (if hasAdaptation slot then 5 + (byteAt slot 4).toNat else 4)
    let room : Prop := hasPayload slot = true ∧ (hasAdaptation slot = true → (byteAt slot 4).toNat ≤ 165)
    let sum : Nat := ((m.take 16).foldl (fun n b => n + b.toNat) 0) % 65536
    let kind := (byteAt m 1).toNat
    let checked : Prop := room ∧ byteAt m 0 = 0xC5 ∧ fieldAt m 16 2 = sum
    let stamp : Stamp := if (byteAt m 15).getLsbD 0 then now else wordAt m 6
    (whole → goodSync slot = false → exec (.writeTaken now w) s = .next u)
      ∧ (whole → goodSync slot = true → ¬isCue → exec (.writeTaken now w) s = .next v)
      ∧ (whole → goodSync slot = true → isCue →
        (¬room → exec (.writeTaken now w) s = .next (failed .cueFormat))
        ∧ (room → byteAt m 0 ≠ 0xC5 → exec (.writeTaken now w) s = .next (failed .cueFormat))
        ∧ (room → byteAt m 0 = 0xC5 → fieldAt m 16 2 ≠ sum → exec (.writeTaken now w) s = .next (failed .cueCheck))
        ∧ (checked → (kind = 0 ∨ 3 < kind) → exec (.writeTaken now w) s = .next (failed .cueFormat))
        ∧ (checked → 15 < (byteAt m 14).toNat → exec (.writeTaken now w) s = .next (failed .cueFormat))
        ∧ (∀ a : AvailIx, checked → (byteAt m 14).toNat = a.val →
          (kind = 1 → exec (.writeTaken now w) s = .next (settle (takeCue i
            (.out { event := wordAt m 2, avail := a, splice := stamp,
                    duration := if wordAt m 10 = 0 then none else some (wordAt m 10) }) v)))
          ∧ (kind = 2 → exec (.writeTaken now w) s = .next (settle (takeCue i (.ret (wordAt m 2) stamp) v)))
          ∧ (kind = 3 → exec (.writeTaken now w) s = .next (settle (takeCue i (.cancel (wordAt m 2)) v)))))
      ∧ (¬whole → exec (.writeTaken now w) s = .next (settle (raise
            { kind := .partialWrite, service := some i, requester := some w.requester, addr := some w.addr } u))))
    ∧ ∀ (i : ServiceIx) (s : State),
      let v := s.service i
      let unmatched (ev : EventId) : State :=
        raise { kind := .cueUnmatched, service := some i, packet := some (beBytes 4 ev.toNat ++ zeros 12) } s
      (∀ o : OutRequest,
        let late : Prop :=
          before o.splice (s.now - BitVec.ofNat 32 (v.lateWindow * 90)) = true ∨ farAfter o.splice s.now = true
        let fresh : BreakEntry :=
          { event := o.event, intake := v.intakeCounter, avail := o.avail, splice := v.clampSplice o.splice,
            duration := o.duration, ret := none, state := .scheduled, binding := none, actualOut := none, actualIn := none,
            pcrOffset := none, underruns := 0 }
        (∀ e, v.findEntry o.event = some e → e.state = .active →
            takeCue i (.out o) s = raise { kind := .duplicateEvent, service := some i } s)
          ∧ (v.findEntry o.event = none → 4 ≤ v.schedule.length →
            takeCue i (.out o) s = raise { kind := .scheduleFull, service := some i } s)
          ∧ (v.findEntry o.event = none → v.schedule.length < 4 → late →
            takeCue i (.out o) s = offer (breakReport i o.event .missed .late (some o.splice) (some s.now) 0 none) s)
          ∧ (v.findEntry o.event = none → v.schedule.length < 4 → ¬late →
            takeCue i (.out o) s = armBreak i o.event { s with
              services := vset s.services i
                { v with schedule := placeEntry fresh v.schedule, intakeCounter := v.intakeCounter + 1 } })
          ∧ (∀ e, v.findEntry o.event = some e → e.state ≠ .active →
            let updated : BreakEntry := { e with avail := o.avail, splice := fresh.splice, duration := o.duration }
            let replaced : State := (disarm (.brk i o.event) s).modService i fun y =>
              { y with schedule := placeEntry updated (y.schedule.filter fun z => z.event != o.event) }
            let report : Report :=
              breakReport i o.event .updated .none (some updated.splice) (e.ret.map (·.stamp)) (o.duration.getD 0) none
            (late → takeCue i (.out o) s = leaveBreak i o.event (.missed .late s.now) s)
              ∧ (¬late → e.state = .ready → e.avail = o.avail → takeCue i (.out o) s = offer report replaced)
              ∧ (¬late → (e.state ≠ .ready ∨ e.avail ≠ o.avail) →
                takeCue i (.out o) s = offer report (armBreak i o.event
                  ((if e.state = .ready then detachEntry i e replaced else replaced).modEntry i o.event fun y =>
                    { y with state := .scheduled, binding := none })))))
        ∧ (∀ ev stamp, v.findEntry ev = none → takeCue i (.ret ev stamp) s = unmatched ev)
        ∧ (∀ ev stamp e, v.findEntry ev = some e →
          ((∀ r, e.ret = some r → before stamp r.stamp = true) →
            takeCue i (.ret ev stamp) s =
              s.modEntry i ev fun y => { y with ret := some { stamp := stamp, origin := .cueIn } })
          ∧ (∀ r, e.ret = some r → before stamp r.stamp = false → takeCue i (.ret ev stamp) s = s))
        ∧ (∀ ev, v.findEntry ev = none → takeCue i (.cancel ev) s = unmatched ev)
        ∧ (∀ ev e, v.findEntry ev = some e → e.state = .active →
          takeCue i (.cancel ev) s = leaveBreak i ev (.ended .cancelled s.now) s)
        ∧ (∀ ev e, v.findEntry ev = some e → e.state ≠ .active →
          takeCue i (.cancel ev) s = leaveBreak i ev .cancelled s)

/-- A consumer index handed over is taken when the ring is defined and the value lies below N; in any other case the
consumer index keeps its value (R173). -/
def Obligations.ConsumerIndexTakenBelowCount : Prop :=
  ∀ (now : Stamp) (value : BitVec 32) (s : State),
    (∀ d, s.ring.defn = some d → value.toNat < d.count →
        exec (.consumerIndexWrite now value) s =
          .next { s with now := now, ring := { s.ring with consumer := value.toNat } })
      ∧ ((∀ d, s.ring.defn = some d → d.count ≤ value.toNat) →
        exec (.consumerIndexWrite now value) s = .next { s with now := now })

/-! ### Commands are taken from cells -/

/-- A CONTROL write that submits a command from its cell, the Command Unit being idle, does what the command's own row
does, after the write has gone to the memory port (R156, R157, R158; the rows' reading is log 4). -/
def Obligations.SubmissionRunsItsCommand : Prop :=
  ∀ (i : Instr) (code : Byte) (c : CellCommand) (s : State),
    commandOf i = some (code, c) → i.wellFormed = true → Idle c s → vget s.roles c.requester = .control →
    exec (.writeTaken i.now (submission code c s)) s =
      exec i (handWrite false (submission code c s).addr (submission code c s).bytes s)

/-- A command whose cell is busy is ignored with CELL-BUSY; one that finds the Intake Queue full is answered at once
with a REFUSED QUEUE-FULL write-back; one that finds other commands before it waits behind them with its cell busy; one
taken into an empty queue begins to execute (R157, R158). The queue runs from its head: a command that is answered
completes, and the next one begins in the same event; one that takes time holds the queue (R158, R159). The severity
actions wait for the whole event, the commands that begin in it included (R165). -/
def Obligations.CommandIsTakenByCellAndQueue : Prop :=
  (∀ (i : Instr) (code : Byte) (c : CellCommand) (s : State),
      commandOf i = some (code, c) → i.wellFormed = true → s.deferred = [] →
      let captured : State :=
        { s with now := i.now, cells := vset s.cells c.cell { vget s.cells c.cell with shadow := c.params } }
      ((vget s.cells c.cell).busy = true →
          exec i s = .next (settle (raise
            { kind := .cellBusy, requester := some c.requester, addr := some (s.cellAddr c.cell) } captured)))
        ∧ ((vget s.cells c.cell).busy = false → 8 ≤ s.intake.length →
          exec i s = .next (handWrite true (s.cellAddr c.cell)
            (enabledBytes (writeBackBytes code c.tag (.refused .queueFull))) captured))
        ∧ ((vget s.cells c.cell).busy = false → s.intake ≠ [] → s.intake.length < 8 →
          exec i s = .next { s with
            now := i.now
            cells := vset s.cells c.cell { shadow := c.params, busy := true }
            intake := s.intake ++ [entryOf code c] })
        ∧ ((vget s.cells c.cell).busy = false → s.intake = [] →
          exec i s = .next (settle (runAll (takenState code i.now c s)))))
    ∧ (∀ s : State, s.intake = [] → runAll s = s)
    ∧ ∀ (q : QueueEntry) (more : List QueueEntry) (s : State), s.intake = q :: more →
      (∀ r t, runCommand q s = (.answered r, t) → runAll s = runAll (complete q r t))
        ∧ (∀ t, runCommand q s = (.working, t) → runAll s = t)
        ∧ (∀ t, runCommand q s = (.gone, t) → runAll s = t)

/-- A command that is refused changes nothing but the Command Unit; a code that is not in the table is refused
BAD-COMMAND (R158). -/
def Obligations.RefusedCommandsChangeNothingElse : Prop :=
  (∀ (q : QueueEntry) (code : RefusalCode) (s t : State), runCommand q s = (.answered (.refused code), t) → t = s)
    ∧ ∀ (now : Stamp) (code : Byte) (c : CellCommand) (s : State), unknownCode code = true → Idle c s →
      exec (.unknownCommand now code c) s = .next { handWrite true (s.cellAddr c.cell)
          (enabledBytes (writeBackBytes code c.tag (.refused .badCommand))) s with
        now := now
        cells := vset s.cells c.cell { shadow := c.params, busy := false }
        work := none }

/-! ### Card-port reads -/

/-- A read that finds an RTT entry free and no read waiting is taken into it under its requester's role, placed last in
its requester's completion order, and handed to the memory port; an OUTPUT read that touches a service window without being
a whole-slot access raises UNALIGNED-READ as well. Any other read waits (R24, R29, R30, R31). A read is SLOT for OUTPUT
alone, when it is 12 beats from a slot boundary of a service's window, from its first slot to its last; the service an
UNALIGNED-READ names is the one whose window holds the read's lowest byte in any service window. That READ_TAKEN is the
arrival of a read, which may wait, is log 8; that the entry taken is the lowest free one, log 9; that the memory port issues
the read at once when it can, log 10; where a read that passes 2^36 − 1 begins, log 40; that the read is handed over before
the UNALIGNED-READ report's writes, log 47. -/
def Obligations.ReadTakesFreeEntryOrWaits : Prop :=
  (∀ (now : Stamp) (r : PortRead) (s : State), r.wf = true → s.deferred = [] →
    let role := vget s.roles r.requester
    let kind := s.readKind role r
    let took (x : EntryIx) : State := handRead { owner := .network x, addr := r.addr, beats := r.beats }
      { s with
        now := now
        rtt := vset s.rtt x (some (RttEntry.taken role kind r))
        completionOrder := vset s.completionOrder r.requester (vget s.completionOrder r.requester ++ [x]) }
    (∀ x, s.waitingReads = [] → s.freeEntry = some x →
        (role ≠ .output ∨ kind ≠ .plain ∨ s.touchedService r = none) → exec (.readTaken now r) s = .next (took x))
      ∧ (∀ x i, s.waitingReads = [] → s.freeEntry = some x → role = .output → kind = .plain →
        s.touchedService r = some i →
        exec (.readTaken now r) s = .next (settle (raise
          { kind := .unalignedRead, service := some i, requester := some r.requester, addr := some r.addr } (took x))))
      ∧ (s.waitingReads ≠ [] ∨ s.freeEntry = none →
        exec (.readTaken now r) s = .next { s with now := now, waitingReads := s.waitingReads ++ [r] }))
    ∧ ∀ (role : Role) (r : PortRead) (s : State), r.wf = true →
      let whole (i : ServiceIx) : Prop := r.beats = 12 ∧ ∃ win n, (s.service i).window = some win ∧ n < win.slots
        ∧ r.addr.toNat = win.base.toNat + 192 * n
      let lies (i : ServiceIx) (p : Part) : Prop := ∃ win, (s.service i).window = some win
        ∧ LiesIn win.base.toNat (192 * win.slots) r.addr (16 * r.beats) p
      (role ≠ .output → s.readKind role r = .plain)
        ∧ ((∀ i, ¬whole i) → s.readKind role r = .plain)
        ∧ (∀ i, role = .output → whole i → (∀ j, j < i → ¬whole j) → s.readKind role r = .slot i)
        ∧ ((∀ i p, ¬lies i p) → s.touchedService r = none)
        ∧ (∀ i p, lies i p → (∀ j q, j ≠ i → lies j q → p.off < q.off) → s.touchedService r = some i)

/-- The READY entry first in a requester's completion order is completed with its status and data and freed; the read that
has waited longest is taken into it (R31, R37). A requester with no such entry sees nothing (log 3). -/
def Obligations.CompletionFreesEntryInOrder : Prop :=
  ∀ (now : Stamp) (q : RequesterId) (s : State), s.deferred = [] →
    (∀ x rest e, vget s.completionOrder q = x :: rest → s.entry x = some e → e.phase = .ready →
      let u : State :=
        { s with
          now := now
          emitted := s.emitted ++ [.cardComplete q e.status e.result]
          rtt := vset s.rtt x none
          completionOrder := vset s.completionOrder q rest }
      (s.waitingReads = [] → exec (.completion now q) s = .next u)
        ∧ ∀ r more, s.waitingReads = r :: more →
          exec (.completion now q) s = .next (settle (takeRead x r { u with waitingReads := more })))
    ∧ (s.completable q = none → exec (.completion now q) s = .next { s with now := now })

/-- The transactions handed to the memory port are issued in the order in which they were handed over (R23): a write at once
when nothing waits before it, a read when the Outstanding Read List holds fewer than 48 as well, else behind what waits. A
read is issued by going last on the list with its read deadline running (R23, R38; the 45 ticks are log 11). READ_ISSUE
issues the read that stands first once the list has room, and the writes up to the next read after it (R23; log 10). With
nothing to issue it changes the stamp alone (DESIGN CHOICE, log 3). -/
def Obligations.WaitingReadIsIssuedInOrder : Prop :=
  ∀ (now : Stamp) (s : State),
    (∀ r rest, s.issueQueue = .read r :: rest → s.outstanding.length < 48 →
        exec (.readIssue now) s = .next { s with
          now := now
          issueQueue := rest.dropWhile MemTransaction.isWrite
          outstanding := s.outstanding ++ [{ read := r, deadline := some (now + 45) }]
          emitted := s.emitted ++ .memRead r.owner.isInternal r.addr r.beats ::
            (rest.takeWhile MemTransaction.isWrite).map MemTransaction.event })
      ∧ (ReadWaitsFirst s → (s.issueQueue = [] ∨ 48 ≤ s.outstanding.length) →
        exec (.readIssue now) s = .next { s with now := now })
      ∧ (∀ isInternal addr bytes,
        (s.issueQueue = [] →
            handWrite isInternal addr bytes s =
              { s with emitted := s.emitted ++ [.memWrite isInternal addr bytes] })
          ∧ (s.issueQueue ≠ [] →
            handWrite isInternal addr bytes s =
              { s with issueQueue := s.issueQueue ++ [.write isInternal addr bytes] }))
      ∧ (∀ r,
        (s.issueQueue = [] → s.outstanding.length < 48 →
            handRead r s = { s with
              outstanding := s.outstanding ++ [{ read := r, deadline := some (s.now + 45) }]
              emitted := s.emitted ++ [.memRead r.owner.isInternal r.addr r.beats] })
          ∧ (s.issueQueue ≠ [] ∨ 48 ≤ s.outstanding.length →
            handRead r s = { s with issueQueue := s.issueQueue ++ [.read r] }))

/-- An answer is matched to the oldest read on the list (R23): that of a PLAIN entry makes it READY with the status and
data memory gave (R32); an orphan's is discarded (R40). -/
def Obligations.PlainAndOrphanAnswersMatchOldestRead : Prop :=
  ∀ (now : Stamp) (o : IssuedRead) (rest : List IssuedRead) (s : State), s.outstanding = o :: rest →
    (∀ x e status data, o.read.owner = .network x → s.entry x = some e → e.kind = .plain → answerWf data = true →
        data.length = 16 * e.beats →
        exec (.plainReadAnswer now status data) s = .next { s with
          now := now
          outstanding := rest
          rtt := vset s.rtt x
            (some { e with network := data, status := status, phase := .ready, result := data }) })
      ∧ (o.read.owner = .orphan → exec (.orphanAnswer now) s = .next { s with now := now, outstanding := rest })

/-! ### Classification -/

/-- A SLOT read whose service is UNUSED, or has been since the read was taken, is decided PASS, counted nowhere and
joins no rewrite order (R6, R8, R33; the mark is log 13). A packet the part lets pass is decided PASS, counted, numbered
and placed last in its service's rewrite order (R17, R33, R95, R105, R106; that its number is the counter before the
increase is log 41). A bad sync byte is decided PASS and raises NETWORK-FORMAT (R96). -/
def Obligations.ClassificationLetsPacketsPass : Prop :=
  ∀ (now : Stamp) (data : SlotData) (o : IssuedRead) (rest : List IssuedRead) (x : EntryIx) (e : RttEntry)
    (i : ServiceIx) (s : State),
    s.outstanding = o :: rest → o.read.owner = .network x → s.entry x = some e → e.kind = .slot i → s.deferred = [] →
    let slot := data.toList
    let v := s.service i
    let passed : RttEntry :=
      { e with
        network := slot, phase := .awaitTurn, decision := some .pass, reserved := none, overlay := [],
        boundary := false, insRef := none, binding := none }
    let u : State := { s with now := now, outstanding := rest }
    let unmanaged : Prop :=
      compIndex (packetPid slot) v.comps = none ∧ (packetPid slot ≠ nullPid ∨ s.overlayOf i = none)
    let untouched : Prop := ∃ n c, compIndex (packetPid slot) v.comps = some n ∧ v.comp n = some c ∧ c.alert = .none
      ∧ v.mode = .network
    let passes : Prop :=
      s.mode = .passive
        ∨ v.leadStart slot = false ∧ (s.mode = .bypass ∨ s.mode = .active ∧ (unmanaged ∨ untouched))
    (v.window = none ∨ e.stale = true →
        exec (.classification now data) s =
          .next { u with rtt := vset s.rtt x (some { passed with snapshot := 0, sequence := none, stale := true }) })
      ∧ (v.window ≠ none → e.stale = false → goodSync slot = true → passes →
        exec (.classification now data) s = .next { u with
          rtt := vset s.rtt x
            (some { passed with snapshot := takenSet v.comps, sequence := some (vget s.sequence i) })
          services := vset s.services i { v with classified := v.classified + 1 }
          sequence := vset s.sequence i (vget s.sequence i + 1)
          rewriteOrder := vset s.rewriteOrder i (vget s.rewriteOrder i ++ [x]) })
      ∧ (v.window ≠ none → e.stale = false → goodSync slot = false →
        exec (.classification now data) s = .next (settle (enterRewriteOrder x i e slot false (plainVerdict .pass) (raise
          { kind := .networkFormat, service := some i, requester := some e.requester, addr := some e.addr,
            packet := some (packetHead slot) } u))))

/-- A managed packet under an ACTIVE break or a RUNNING local programme draws a slot from its source, STREAM or LOOP,
and is substituted; an empty STREAM ring makes the read STUFF-NULL and counts an underrun, and at the underrun limit the
break or programme ends and SOURCE-UNDERRUN is raised; a component outside the break's replace set passes; a packet of
an alert-taken component draws the slot at the component's cursor, and a start packet of a component whose alert is
PENDING makes it TAKEN and draws slot 0 (R52, R54, R105, R107, R108, R124, R138). A network null of a service whose
alert has an overlay loaded is counted: every cadence-th one is decided OVERLAY with the store on the overlay PID, the
others pass (R106, R140). Whatever is decided, the packet is counted and numbered and its entry placed last in its
service's rewrite order with what was decided and the components whose alert was TAKEN; with a source slot reserved it
becomes AWAIT-SOURCE and a 12-beat read of that slot is handed to the memory port, else AWAIT-TURN (R17, R33; that its
number is the counter before the increase is log 41). -/
def Obligations.ClassificationDrawsFromInsertion : Prop :=
  ∀ (now : Stamp) (data : SlotData) (o : IssuedRead) (rest : List IssuedRead) (x : EntryIx) (e : RttEntry)
    (i : ServiceIx) (s : State),
    s.outstanding = o :: rest → o.read.owner = .network x → s.entry x = some e → e.kind = .slot i → s.deferred = [] →
    let slot := data.toList
    let v := s.service i
    v.window ≠ none → e.stale = false → goodSync slot = true → s.mode = .active →
    let u : State := { s with now := now, outstanding := rest }
    let passing : Verdict :=
      { decision := .pass, reserved := none, insRef := none, binding := none, overlay := [] }
    let stuffed (ref : InsRef) : Verdict := { passing with decision := .stuffNull, insRef := some ref }
    let underrun (t : State) : State :=
      raise { kind := .sourceUnderrun, service := some i, requester := some e.requester, addr := some e.addr } t
    let taken (k : SourceIx) (win : Window) : State := u.modSource k fun r =>
      { r with
        readIx := nextSlot win.slots r.readIx
        fill := r.fill - 1
        overrunRun := if r.fill = win.slots then false else r.overrunRun }
    let wrapped (k : SourceIx) (win : Window) : State :=
      u.modSource k fun r => { r with cursor := nextSlot win.slots r.cursor }
    let refused (k : SourceIx) : State := u.modSource k fun r => { r with underruns := r.underruns + 1 }
    (∀ n c, (v.leadStart slot = false ∨ v.schedule = [] ∧ v.slotA = none ∧ v.slotB = none) →
      compIndex (packetPid slot) v.comps = some n → v.comp n = some c →
      let scheduled : Prop := c.alert ≠ .taken ∧ (c.alert = .pending → startFlag slot = false)
      (∀ b d win, scheduled → v.mode = .brk → v.activeHead = some b → b.binding = some d →
        let k := d.source
        let count := stickyIncUnderrun b.underruns
        let drawn (a : Addr) : Verdict :=
          { decision := .substituteBreak, reserved := some { source := k, addr := a },
            insRef := some (.brk b.event b.intake),
            binding := some { remap := d.remap, replaceSet := some d.replaceSet }, overlay := [] }
        let set (m : Nat) (t : State) : State := t.modEntry i b.event fun y => { y with underruns := m }
        (d.replaceSet.getLsbD n = false →
            exec (.classification now data) s = .next (enterRewriteOrder x i e slot false passing u))
          ∧ (d.replaceSet.getLsbD n = true → (s.source k).config = some { mode := .loop, window := win } →
            exec (.classification now data) s = .next (enterRewriteOrder x i e slot false
              (drawn (win.slotAddr (s.source k).cursor)) (set 0 (wrapped k win))))
          ∧ (d.replaceSet.getLsbD n = true → (s.source k).config = some { mode := .stream, window := win } →
            ((s.source k).fill ≠ 0 →
              exec (.classification now data) s = .next (enterRewriteOrder x i e slot false
                (drawn (win.slotAddr (s.source k).readIx)) (set 0 (taken k win))))
            ∧ ((s.source k).fill = 0 → count < v.underrunLimit →
              exec (.classification now data) s = .next (enterRewriteOrder x i e slot false
                (stuffed (.brk b.event b.intake)) (set count (refused k))))
            ∧ ((s.source k).fill = 0 → v.underrunLimit ≤ count →
              exec (.classification now data) s = .next (settle (enterRewriteOrder x i e slot false
                (stuffed (.brk b.event b.intake))
                (underrun (leaveBreak i b.event (.ended .underrun now) (set count (refused k)))))))))
      ∧ (∀ l p win, scheduled → v.mode = .loc → v.running = some (l, p) →
        let k := p.source
        let count := stickyIncUnderrun p.underruns
        let ref : InsRef := .loc l (p.actualStart.getD 0)
        let drawn (a : Addr) : Verdict :=
          { decision := .substituteLocal, reserved := some { source := k, addr := a }, insRef := some ref,
            binding := some { remap := p.remap, replaceSet := none }, overlay := [] }
        let set (m : Nat) (t : State) : State := t.modSlot i l fun y => { y with underruns := m }
        ((s.source k).config = some { mode := .loop, window := win } →
            exec (.classification now data) s = .next (enterRewriteOrder x i e slot false
              (drawn (win.slotAddr (s.source k).cursor)) (set 0 (wrapped k win))))
          ∧ ((s.source k).config = some { mode := .stream, window := win } →
            ((s.source k).fill ≠ 0 →
              exec (.classification now data) s = .next (enterRewriteOrder x i e slot false
                (drawn (win.slotAddr (s.source k).readIx)) (set 0 (taken k win))))
            ∧ ((s.source k).fill = 0 → count < v.underrunLimit →
              exec (.classification now data) s = .next (enterRewriteOrder x i e slot false
                (stuffed ref) (set count (refused k))))
            ∧ ((s.source k).fill = 0 → v.underrunLimit ≤ count →
              exec (.classification now data) s = .next (settle (enterRewriteOrder x i e slot false
                (stuffed ref) (underrun (leaveSlot i l (.ended .underrun now) (set count (refused k)))))))))
      ∧ (∀ k win, c.alert = .taken → s.alertSource i c.kind = some (k, win) →
        exec (.classification now data) s = .next (enterRewriteOrder x i e slot false
          { passing with
            decision := .substituteAlert, reserved := some { source := k, addr := win.slotAddr c.cursor } }
          (u.modService i fun w => w.modComp n fun y => { y with cursor := nextSlot win.slots c.cursor })))
      ∧ (∀ k win, c.alert = .pending → startFlag slot = true → s.alertSource i c.kind = some (k, win) →
        exec (.classification now data) s = .next (enterRewriteOrder x i e slot false
          { passing with decision := .substituteAlert, reserved := some { source := k, addr := win.slotAddr 0 } }
          (u.modService i fun w => w.modComp n fun y => { y with alert := .taken, cursor := nextSlot win.slots 0 }))))
    ∧ (∀ j a pid store, compIndex (packetPid slot) v.comps = none → packetPid slot = 0x1FFF → v.owner = some j →
      s.alert j = some a → (s.group a.group).overlayPid = some pid → (s.group a.group).store = some store →
      let count := v.overlayNulls + 1
      let counted (m : BitVec 8) : State := u.modService i fun w => { w with overlayNulls := m }
      (count.toNat = (s.group a.group).cadence →
          exec (.classification now data) s = .next (enterRewriteOrder x i e slot false
            { passing with decision := .overlay, overlay := setPid store pid } (counted 0)))
        ∧ (count.toNat ≠ (s.group a.group).cadence →
          exec (.classification now data) s = .next (enterRewriteOrder x i e slot false passing (counted count))))
    ∧ (∀ (boundary : Bool) (d : Verdict) (t : State),
      let after := t.service i
      let placed (phase : EntryPhase) : State :=
        { t with
          rtt := vset t.rtt x (some { e with
            network := slot, phase := phase, decision := some d.decision, reserved := d.reserved,
            snapshot := takenSet after.comps, sequence := some (vget t.sequence i), overlay := d.overlay,
            boundary := boundary, insRef := d.insRef, binding := d.binding })
          services := vset t.services i { after with classified := after.classified + 1 }
          sequence := vset t.sequence i (vget t.sequence i + 1)
          rewriteOrder := vset t.rewriteOrder i (vget t.rewriteOrder i ++ [x]) }
      (∀ r, d.reserved = some r → enterRewriteOrder x i e slot boundary d t =
          handRead { owner := .fetch x, addr := r.addr, beats := 12 } (placed .awaitSource))
        ∧ (d.reserved = none → enterRewriteOrder x i e slot boundary d t = placed .awaitTurn)
        ∧ ∀ n, n < 8 →
          ((takenSet after.comps).getLsbD n = true ↔ ∃ c, after.comps[n]? = some c ∧ c.alert = .taken))

/-- At a lead start packet, in ACTIVE and in BYPASS, the Schedule Unit makes the local steps, the return of the break
and the choice and start of the next, each on the state the last one left, and the packet is then decided (R95, R97); in
BYPASS it passes, every due local slot is MISSED BYPASS and of the due entries the last is MISSED BYPASS and the others
SUPERSEDED (R103). In ACTIVE: a due READY break starts, a break whose return stamp has come and a programme whose end
stamp has come end, and a due READY programme starts and its first packet is drawn (R98, R102, R105, R107, R121, R123).
Each step by itself: the end of a programme (R121); a due slot MISSED by the first cause of R122's table that holds, or
resolved and started, an ACTIVE break ending PREEMPTED-LOCAL first (R122, R123); the return (R98); the due entries
before the candidate SUPERSEDED (R99); the candidate MISSED by the first cause of R100's table that holds, resolved at
the packet (R101), MISSED when its ring is empty, or started, an ACTIVE head ending CHAINED first (R102). A slot waits
while its start stamp is later than the packet's (R122), and an entry while its splice stamp is: that "at or before"
means not later where the stamps are exactly 2^31 apart is DEDUCED (log 52). -/
def Obligations.DueBreakStartsAtLeadStartPacket : Prop :=
  (∀ (now : Stamp) (data : SlotData) (o : IssuedRead) (rest : List IssuedRead) (x : EntryIx) (e : RttEntry)
    (i : ServiceIx) (s : State),
    s.outstanding = o :: rest → o.read.owner = .network x → s.entry x = some e → e.kind = .slot i → e.stale = false →
    let slot := data.toList
    let at_ := slotStamp slot
    let v := s.service i
    let u : State := { s with now := now, outstanding := rest }
    let waits (y : BreakEntry) : Prop := y.state ≠ .active ∧ later y.splice at_ = true
    v.window ≠ none → goodSync slot = true → v.leadStart slot = true →
    let passing : Verdict :=
      { decision := .pass, reserved := none, insRef := none, binding := none, overlay := [] }
    (s.mode = .active ∨ s.mode = .bypass →
        let ended := localEndAt i at_ u
        let begun := localStartAt i at_ ended.2
        let back := breakReturnAt i at_ begun.2
        let start := breakStartAt i at_ back.2
        let decided :=
          if s.mode = .active then decidePacket { service := i, requester := e.requester, addr := e.addr } slot start.2
          else (passing, start.2)
        exec (.classification now data) s = .next (settle (enterRewriteOrder x i e slot
          (ended.1 || begun.1 || back.1 || start.1) decided.1 decided.2)))
      ∧ (s.mode = .bypass → v.activeHead = none → v.running = none →
        let missLocal (w : State) : State :=
          match (w.service i).slot (w.service i).current with
          | some p =>
            if p.state != .running && !later p.start at_ then
              leaveSlot i (w.service i).current (.missed .bypass at_) w
            else w
          | none => w
        let due := (v.schedule.filter fun y => y.state != .active && !later y.splice at_).map (·.event)
        let superseded := due.dropLast.foldl (fun w ev => leaveBreak i ev (.missed .superseded at_) w)
          (missLocal (missLocal u))
        exec (.classification now data) s = .next (settle (enterRewriteOrder x i e slot false passing
          (match due.getLast? with
            | some ev => leaveBreak i ev (.missed .bypass at_) superseded
            | none => superseded))))
      ∧ ∀ (n : Nat) (c : Component), s.mode = .active →
        compIndex (packetPid slot) v.comps = some n → v.comp n = some c → c.alert = .none →
        (∀ b d, s.deferred = [] → Calm s →
          v.held = none → v.mode = .network → s.preempting i = false → v.slotA = none → v.slotB = none →
          v.schedule = [b] → b.state = .ready → b.binding = some d → (s.source d.source).isEmpty = false →
          (s.source d.source).defined = true → later b.splice at_ = false →
          later at_ (b.splice + msTicks v.lateWindow) = false → b.returnsBy at_ = false →
          let started : BreakEntry :=
            { b with
              state := .active, actualOut := some at_, underruns := 0, pcrOffset := none
              ret :=
                match b.duration, b.ret with
                | none, _ => b.ret
                | some len, none => some { stamp := at_ + len, origin := .duration }
                | some len, some r =>
                  if before (at_ + len) r.stamp then some { stamp := at_ + len, origin := .duration } else b.ret }
          ∃ t, exec (.classification now data) s = .next t
            ∧ (t.service i).mode = .brk ∧ (t.service i).schedule = [started]
            ∧ (t.service i).classified = v.classified + 1
            ∧ (∀ ch ∈ t.bank, ch.owner ≠ .brk i b.event)
            ∧ (∃ f, t.entry x = some f ∧ f.boundary = true ∧ f.network = slot
              ∧ f.decision = some (if d.replaceSet.getLsbD n then .substituteBreak else .pass)
              ∧ (d.replaceSet.getLsbD n = true → f.insRef = some (.brk b.event b.intake)))
            ∧ OtherServices i s t ∧ OtherSources d.source s t ∧ SameAlerts s t ∧ SameFixed s t)
        ∧ (∀ b more r, v.slotA = none → v.slotB = none → v.schedule = b :: more → b.state = .active → b.ret = some r →
          atOrAfter at_ r.stamp = true → (∀ y ∈ more, waits y ∧ y.event ≠ b.event) →
          exec (.classification now data) s = .next (settle (enterRewriteOrder x i e slot true passing
            (leaveBreak i b.event (.ended r.origin.cause at_) u))))
        ∧ (∀ l p, v.current = l → v.slot l = some p → p.state = .running → v.slot (otherLetter l) = none →
          atOrAfter at_ p.stop = true → (∀ y ∈ v.schedule, waits y) →
          exec (.classification now data) s = .next (settle (enterRewriteOrder x i e slot true passing
            (leaveSlot i l (.ended .endStamp at_) u))))
        ∧ (∀ l p win, v.current = l → v.slot l = some p → p.state = .ready → v.held = none →
          later p.start at_ = false → later at_ (p.start + msTicks v.lateWindow) = false →
          atOrAfter at_ p.stop = false → (∀ y ∈ v.schedule, waits y) →
          (s.source p.source).config = some { mode := .stream, window := win } → (s.source p.source).fill ≠ 0 →
          let begun : LocalProg :=
            { p with state := .running, actualStart := some at_, underruns := 0, pcrOffset := none }
          let running : State := offer
            (localReport i l .started .none (some at_) (some p.stop) (s.source p.source).reportedFill p.source)
            ((disarm (.loc i l) u).modService i fun w => { w.setSlot l (some begun) with mode := .loc })
          exec (.classification now data) s = .next (settle (enterRewriteOrder x i e slot true
            { decision := .substituteLocal,
              reserved := some { source := p.source, addr := win.slotAddr (s.source p.source).readIx },
              insRef := some (.loc l at_), binding := some { remap := p.remap, replaceSet := none }, overlay := [] }
            (running.modSource p.source (Source.taken win.slots))))))
    ∧ ∀ (i : ServiceIx) (t : Stamp) (s : State),
      let v := s.service i
      let window : Stamp := BitVec.ofNat 32 (v.lateWindow * 90)
      let endHead (cause : Cause) (w : State) : State :=
        match (w.service i).activeHead with
        | some h => leaveBreak i h.event (.ended cause t) w
        | none => w
      let startSlot_ (l : SlotLetter) (p : LocalProg) (w : State) : State :=
        let run := ((disarm (.loc i l) (endHead .preemptedLocal w)).modSlot i l fun y =>
          { y with state := .running, actualStart := some t, underruns := 0, pcrOffset := none }).modService i fun y =>
          { y with mode := .loc }
        offer (localReport i l .started .none (some t) (some p.stop) (run.source p.source).reportedFill p.source) run
      let slotCause (p : LocalProg) : Option Cause :=
        if s.mode = .bypass then some .bypass
        else if v.held ≠ none then some .held
        else if later t (p.start + window) = true ∨ atOrAfter t p.stop = true then some .late
        else none
      let cause (c : BreakEntry) : Option Cause :=
        if s.mode = .bypass then some .bypass
        else if v.held ≠ none then some .held
        else if v.mode = .loc then some .loc
        else if (match s.ownerGroup v.owner with | some g => g.preempt | none => false) = true then some .alert
        else if later t (c.splice + window) = true then some .late
        else if (match c.ret with | some r => atOrAfter t r.stamp | none => false) = true then some .zeroLength
        else none
      let returns (c : BreakEntry) : Option ReturnStamp :=
        match c.duration, c.ret with
        | none, _ => c.ret
        | some len, none => some { stamp := t + len, origin := .duration }
        | some len, some r => if before (t + len) r.stamp then some { stamp := t + len, origin := .duration } else c.ret
      let startBreak_ (c : BreakEntry) (d : Binding) (w : State) : State :=
        let run := ((disarm (.brk i c.event) (endHead .chained w)).modEntry i c.event fun y =>
          { y with
            state := .active, actualOut := some t, ret := returns y, underruns := 0, pcrOffset := none }).modService i
          fun y => { y with mode := .brk }
        offer (breakReport i c.event .started .none (some t) ((returns c).map (·.stamp))
          (run.source d.source).reportedFill (some d.source)) run
      let due := (v.schedule.filter fun y => y.state != .active && !later y.splice t).map (·.event)
      (∀ l p, v.current = l → v.slot l = some p → p.state = .running → atOrAfter t p.stop = true →
          localEndAt i t s = (true, leaveSlot i l (.ended .endStamp t) s))
        ∧ ((∀ p, v.slot v.current = some p → p.state = .running → atOrAfter t p.stop = false) →
          localEndAt i t s = (false, s))
        ∧ ((∀ p, v.slot v.current = some p → p.state = .running ∨ later p.start t = true) →
          examineSlot i t s = (.waits, s))
        ∧ (∀ l p, v.current = l → v.slot l = some p → p.state ≠ .running → later p.start t = false →
          let src := s.source p.source
          let tied := (disarm (.loc i l) s).modSource p.source (Source.attachTo (.loc i l))
          (∀ k, slotCause p = some k → examineSlot i t s = (.missed, leaveSlot i l (.missed k t) s))
          ∧ (slotCause p = none → p.state = .ready → examineSlot i t s = (.started, startSlot_ l p s))
          ∧ (slotCause p = none → p.state ≠ .ready → s.mode = .active →
            (src.defined = false → examineSlot i t s = (.missed, leaveSlot i l (.missed .noSource t) s))
            ∧ (∀ q, src.defined = true → src.attachment = some q → q ≠ .loc i l →
              examineSlot i t s = (.missed, leaveSlot i l (.missed .sourceBusy t) s))
            ∧ (src.defined = true → (∀ q, src.attachment = some q → q = .loc i l) →
              examineSlot i t s = (.started, startSlot_ l p tied))))
        ∧ (∀ w, examineSlot i t s = (.started, w) → localStartAt i t s = (true, w))
        ∧ (∀ w, examineSlot i t s = (.waits, w) → localStartAt i t s = (false, w))
        ∧ (∀ w, examineSlot i t s = (.missed, w) →
          localStartAt i t s = ((examineSlot i t w).1 == .started, (examineSlot i t w).2))
        ∧ (∀ h r, v.activeHead = some h → h.ret = some r → atOrAfter t r.stamp = true →
          breakReturnAt i t s =
            (true, leaveBreak i h.event (.ended (if r.origin = .cueIn then .cueIn else .returned) t) s))
        ∧ ((∀ h r, v.activeHead = some h → h.ret = some r → atOrAfter t r.stamp = false) →
          breakReturnAt i t s = (false, s))
        ∧ (due = [] → breakStartAt i t s = (false, s))
        ∧ (∀ evs ev c, due = evs ++ [ev] →
          let w := evs.foldl (fun y k => leaveBreak i k (.missed .superseded t) y) s
          (w.service i).findEntry ev = some c → breakStartAt i t s = examineCandidate i c t w)
        ∧ (∀ c k, cause c = some k → examineCandidate i c t s = (false, leaveBreak i c.event (.missed k t) s))
        ∧ ∀ c, cause c = none → v.findEntry c.event = some c → (∀ h, v.activeHead = some h → h.event ≠ c.event) →
          let missed (k : Cause) (w : State) : Bool × State := (false, leaveBreak i c.event (.missed k t) w)
          (∀ d, c.state = .ready → c.binding = some d →
            ((s.source d.source).isEmpty = true → examineCandidate i c t s = missed .notReadyEmpty s)
            ∧ ((s.source d.source).isEmpty = false → examineCandidate i c t s = (true, startBreak_ c d s)))
          ∧ (c.state ≠ .ready → s.mode = .active → vget v.avails c.avail = none →
            examineCandidate i c t s = missed .noSource s)
          ∧ (∀ d, c.state ≠ .ready → s.mode = .active → vget v.avails c.avail = some d →
            let own : InsOwner := .brk i c.event
            let src := s.source d.source
            let tied := ((disarm own s).modSource d.source (Source.attachTo own)).modEntry i c.event fun y =>
              { y with binding := some d }
            (src.defined = false → examineCandidate i c t s = missed .noSource s)
            ∧ (∀ q, src.defined = true → src.attachment = some q → q ≠ own →
              examineCandidate i c t s = missed .sourceBusy s)
            ∧ (src.defined = true → (∀ q, src.attachment = some q → q = own) →
              (src.isEmpty = true → examineCandidate i c t s = missed .notReadyEmpty tied)
              ∧ (src.isEmpty = false → examineCandidate i c t s = (true, startBreak_ c d tied))))

/-! ### Answers of SLOT reads -/

/-- An ERROR answer to a SLOT read's network read completes it with status ERROR and raises DOWNSTREAM-ERROR (R36); an OK
answer to a source fetch brings its packet and the entry to AWAIT-TURN (R34); an ERROR answer marks it failed, brings it
to AWAIT-TURN and raises DOWNSTREAM-ERROR (R35). -/
def Obligations.SlotAnswersMoveEntries : Prop :=
  ∀ (now : Stamp) (o : IssuedRead) (rest : List IssuedRead) (x : EntryIx) (e : RttEntry) (i : ServiceIx) (s : State),
    s.outstanding = o :: rest → s.entry x = some e → e.kind = .slot i →
    let u (f : RttEntry) : State := { s with now := now, outstanding := rest, rtt := vset s.rtt x (some f) }
    let ev (a : Addr) (p : Option (List Byte)) : ErrorEvent :=
      { kind := .downstreamError, service := some i, requester := some e.requester, addr := some a, packet := p }
    (o.read.owner = .network x →
        exec (.networkReadError now) s = .next (settle (raise (ev e.addr none)
          (u { e with status := .error, phase := .ready, result := zeros (16 * e.beats) }))))
      ∧ (∀ data : SlotData, o.read.owner = .fetch x →
        exec (.sourceFetchAnswer now data) s = .next (u { e with fetched := data.toList, phase := .awaitTurn }))
      ∧ (∀ r : Reserved, o.read.owner = .fetch x → e.reserved = some r →
        exec (.sourceFetchError now) s = .next (settle (raise (ev r.addr (some (packetHead e.network)))
          (u { e with sourceFailed := true, phase := .awaitTurn }))))

/-! ### Rewrites -/

/-- An entry in its turn whose decision is PASS is emitted as the network packet, with its continuity count carried by the
component's offset when the packet is managed; one whose decision is STUFF-NULL as a null packet, counted; one whose
decision is OVERLAY as the packet captured, with the service's overlay count. At a boundary, in ACTIVE, every other
component still showing an insertion is re-labelled first (which are the others is log 33). The rewrite of an entry whose
service is UNUSED, or has been since its classification, changes no record (logs 13 and 32). The entry becomes READY and
leaves its service's rewrite order (R8, R11, R14, R17, R34, R109, R140). -/
def Obligations.RewritePassesAndStuffs : Prop :=
  ∀ (now : Stamp) (x : EntryIx) (e : RttEntry) (i : ServiceIx) (s : State),
    s.rewritable x = some (e, i) → e.network.length = 192 → s.deferred = [] →
    let v := s.service i
    let live : Prop := v.window ≠ none ∧ e.stale = false
    let active : Prop := s.mode = .active
    let packet := e.network.take 188
    let null : List Byte := [0x47, 0x1F, 0xFF, 0x10] ++ List.replicate 184 0xFF
    let u (w : Service) (out : List Byte) : State :=
      { s with
        now := now
        services := vset s.services i w
        rewriteOrder := vset s.rewriteOrder i ((vget s.rewriteOrder i).filter fun y => y != x)
        rtt := vset s.rtt x (some { e with phase := .ready, result := out ++ (e.network.drop 188).take 4 }) }
    let begun (target : Option Nat) : Service :=
      if e.boundary = true ∧ active then
        { v with
          comps := v.comps.zipIdx.map fun q =>
            if some q.2 = target ∨ q.1.cur ≠ .brk ∧ q.1.cur ≠ .loc then q.1
            else { q.1 with cur := .network, rejoin := true } }
      else v
    (live → e.decision = some .pass → (goodSync packet = false ∨ compIndex (packetPid packet) v.comps = none) →
        exec (.rewrite now x) s = .next (u (begun none) packet))
      ∧ (∀ n c, live → e.decision = some .pass → goodSync packet = true →
        compIndex (packetPid packet) v.comps = some n → v.comp n = some c →
        let off : BitVec 4 :=
          if active ∧ (c.cur ≠ .network ∨ c.rejoin = true) then
            (match c.outCc with
              | none => 0
              | some k => if hasPayload packet then k + 1 - packetCc packet else k - packetCc packet)
          else c.ccOffset
        exec (.rewrite now x) s = .next (u
          ((begun (some n)).modComp n fun y =>
            { y with
              ccOffset := off
              outCc := some (packetCc packet + off)
              cur := if active then .network else y.cur
              rejoin := if active then false else y.rejoin })
          (setCc packet (packetCc packet + off))))
      ∧ (live → e.decision = some .stuffNull →
        exec (.rewrite now x) s = .next (u { begun none with stuffed := v.stuffed + 1 } null))
      ∧ (live → e.decision = some .overlay → e.overlay.length = 188 →
        let cc : BitVec 4 := if hasPayload e.overlay then v.overlayCc + 1 else v.overlayCc
        exec (.rewrite now x) s = .next (u
          { begun none with overlayCc := cc, overlaid := v.overlaid + 1 } (setCc e.overlay cc)))
      ∧ (¬live →
        (e.decision = some .pass → exec (.rewrite now x) s = .next (u v packet))
        ∧ (e.decision = some .stuffNull → exec (.rewrite now x) s = .next (u v null))
        ∧ (e.decision = some .overlay → e.overlay.length = 188 →
          exec (.rewrite now x) s = .next (u v e.overlay)))

/-- An entry of a break or a local programme in its turn whose source packet maps to an acceptable component is emitted on
that component's PID, one of an alert on the PID of the component read, with the next count, and is counted; a PCR it
carries is moved by its insertion's offset, fixed at the first, or set to the network estimate for an alert, and with no
clock track it stays and NO-CLOCK is raised. A packet that maps to none is emitted as a null with UNMAPPED-PID, one with a
bad sync byte as a null with SOURCE-FORMAT, a null packet or a failed fetch as a null, each counted. At a boundary, in
ACTIVE, every other component still showing an insertion is re-labelled first (log 33). With its service UNUSED, or UNUSED
since its classification, nothing maps and the rewrite itself changes no record (R8, R11, R13, R17, R109 to R114, R138; logs
13 and 32); the errors it raises name service i all the same, and their action is settled on whatever that service now is
(the model's choice, DEDUCED, log 27). UNMAPPED-PID and NO-CLOCK carry the packet as fetched (the model's choice, DEDUCED,
log 37). -/
def Obligations.RewriteSubstitutesMappedPacket : Prop :=
  ∀ (now : Stamp) (x : EntryIx) (e : RttEntry) (i : ServiceIx) (s : State),
    s.rewritable x = some (e, i) → s.deferred = [] →
    let v := s.service i
    let live : Prop := v.window ≠ none ∧ e.stale = false
    let inserted : Prop := e.decision = some .substituteBreak ∨ e.decision = some .substituteLocal
    let drawn : Prop := inserted ∨ e.decision = some .substituteAlert
    let packet := e.fetched.take 188
    let blank : Prop := e.sourceFailed = true ∨ goodSync packet = true ∧ packetPid packet = nullPid
    let bad : Prop := e.sourceFailed = false ∧ goodSync packet = false
    let whole : Prop := e.sourceFailed = false ∧ goodSync packet = true ∧ packetPid packet ≠ nullPid
    let null : List Byte := [0x47, 0x1F, 0xFF, 0x10] ++ List.replicate 184 0xFF
    let ready (out : List Byte) (t : State) : State :=
      { t with
        rewriteOrder := vset t.rewriteOrder i ((vget t.rewriteOrder i).filter fun y => y != x)
        rtt := vset t.rtt x (some { e with phase := .ready, result := out ++ (e.network.drop 188).take 4 }) }
    let u : State := { s with now := now }
    let begun (target : Option Nat) : State :=
      if e.boundary = true ∧ s.mode = .active then
        u.modService i fun w => { w with
          comps := w.comps.zipIdx.map fun q =>
            if some q.2 = target ∨ q.1.cur ≠ .brk ∧ q.1.cur ≠ .loc then q.1
            else { q.1 with cur := .network, rejoin := true } }
      else u
    let stuffed : State := (begun none).modService i fun w => { w with stuffed := w.stuffed + 1 }
    let counted (n : Nat) (cc : BitVec 4) (kind : CurSource) (t : State) : State :=
      t.modService i fun w =>
        { w.modComp n (fun y => { y with outCc := some cc, cur := if s.mode = .active then kind else y.cur }) with
          substituted := w.substituted + 1 }
    let count (c : Component) : BitVec 4 :=
      match c.outCc with
      | none => packetCc packet
      | some k => if hasPayload packet then k + 1 else k
    let estimate (k : ClockTrack) : PcrBase := k.base + (slotStamp e.network - k.stamp).signExtend 33
    let ev (kind : ErrorKind) (r : Reserved) : ErrorEvent :=
      { kind := kind, service := some i, requester := some e.requester, addr := some r.addr,
        packet := some (packetHead packet) }
    let acceptable (b : InsBinding) (n : ComponentIx) : Prop :=
      n.val < v.comps.length ∧ (∀ set, b.replaceSet = some set → set.getLsbD n.val = true)
        ∧ e.snapshot.getLsbD n.val = false
    (live → drawn → blank → exec (.rewrite now x) s = .next (ready null stuffed))
      ∧ (∀ r, live → drawn → bad → e.reserved = some r →
        exec (.rewrite now x) s = .next (settle (ready null (raise (ev .sourceFormat r) stuffed))))
      ∧ (∀ r b, live → inserted → whole → e.binding = some b → e.reserved = some r →
        (∀ pair, b.remap.find? (fun q => q.pid == packetPid packet) = some pair → ¬acceptable b pair.comp) →
        exec (.rewrite now x) s = .next (settle (ready null (raise (ev .unmappedPid r) stuffed))))
      ∧ (∀ ref b pair c, live → inserted → whole → e.fetched.length = 192 → e.insRef = some ref → e.binding = some b →
        b.remap.find? (fun q => q.pid == packetPid packet) = some pair → acceptable b pair.comp →
        v.comp pair.comp.val = some c →
        let out := setCc (setPid packet c.pid) (count c)
        let kind : CurSource := if e.decision = some .substituteBreak then .brk else .loc
        let home := v.offsetHome ref
        let moved : Prop := carriesPcr packet = true ∧ home ≠ .nowhere
        let t := begun (some pair.comp.val)
        let finished := counted pair.comp.val (count c) kind
        (¬moved → exec (.rewrite now x) s = .next (ready out (finished t)))
        ∧ (∀ p, moved → v.offsetAt home = some p →
          exec (.rewrite now x) s = .next (ready (setPcrBase out (pcrBase packet + p)) (finished t)))
        ∧ (∀ k, moved → v.offsetAt home = none → v.track = some k →
          exec (.rewrite now x) s = .next (ready (setPcrBase out (estimate k))
            (finished (t.modService i fun w => w.setOffset home (estimate k - pcrBase packet)))))
        ∧ (∀ r, moved → v.offsetAt home = none → v.track = none → e.reserved = some r →
          exec (.rewrite now x) s = .next (settle (ready out (finished (raise (ev .noClock r) t))))))
      ∧ (∀ n c, live → e.decision = some .substituteAlert → whole → e.fetched.length = 192 →
        compIndex (packetPid e.network) v.comps = some n → v.comp n = some c →
        let out := setCc (setPid packet (packetPid e.network)) (count c)
        let t := begun (some n)
        let finished := counted n (count c) .alert
        (carriesPcr packet = false → exec (.rewrite now x) s = .next (ready out (finished t)))
        ∧ (∀ k, carriesPcr packet = true → v.track = some k →
          exec (.rewrite now x) s = .next (ready (setPcrBase out (estimate k)) (finished t)))
        ∧ (∀ r, carriesPcr packet = true → v.track = none → e.reserved = some r →
          exec (.rewrite now x) s = .next (settle (ready out (finished (raise (ev .noClock r) t))))))
      ∧ (¬live → drawn →
        (blank → exec (.rewrite now x) s = .next (ready null u))
        ∧ (∀ r, bad → e.reserved = some r →
          exec (.rewrite now x) s = .next (settle (ready null (raise (ev .sourceFormat r) u))))
        ∧ (∀ r, inserted → whole → e.reserved = some r →
          exec (.rewrite now x) s = .next (settle (ready null (raise (ev .unmappedPid r) u))))
        ∧ (e.decision = some .substituteAlert → whole → e.fetched.length = 192 →
          exec (.rewrite now x) s = .next (ready (setPid packet (packetPid e.network)) u)))

/-! ### Read deadlines -/

/-- An entry whose read has timed out completes with status ERROR and zero data and leaves its service's rewrite order; its
read becomes an orphan, and READ-TIMEOUT is raised (R38, R39). The read of a command that has timed out becomes an orphan,
READ-TIMEOUT is raised with its address and nothing else, and the command is refused DOWNSTREAM (R43); the commands behind
it begin in the same event (R158). The error's action is carried out when all of that is done
(R165). -/
def Obligations.TimedOutReadsEndWithReadTimeout : Prop :=
  (∀ (now : Stamp) (x : EntryIx) (e : RttEntry) (o : IssuedRead) (s : State),
      s.timedOut (ReadOwner.isOf x) now = some o → s.entry x = some e →
      let orphaned : List IssuedRead := s.outstanding.map fun r =>
        if r.read.owner = .network x ∨ r.read.owner = .fetch x then
          { read := { r.read with owner := .orphan }, deadline := none }
        else r
      let u : State :=
        { s with
          now := now
          outstanding := orphaned
          rtt := vset s.rtt x (some { e with status := .error, phase := .ready, result := zeros (16 * e.beats) }) }
      (∀ i, e.kind = .slot i →
          exec (.readDeadlineExpiry now x) s = .next (settle (raise
            { kind := .readTimeout, service := some i, requester := some e.requester, addr := some o.read.addr }
            { u with rewriteOrder := vset s.rewriteOrder i ((vget s.rewriteOrder i).filter fun y => y != x) })))
        ∧ (e.kind = .plain →
          exec (.readDeadlineExpiry now x) s = .next (settle (raise
            { kind := .readTimeout, requester := some e.requester, addr := some o.read.addr } u))))
    ∧ ∀ (now : Stamp) (o : IssuedRead) (q : QueueEntry) (more : List QueueEntry) (s : State),
      s.timedOut ReadOwner.isCommand now = some o → s.intake = q :: more →
      exec (.internalReadExpiry now) s = .next (settle (runAll (complete q (.refused .downstream)
        (raise { kind := .readTimeout, addr := some o.read.addr } { s with
          now := now
          outstanding := s.outstanding.map fun r =>
            if r.read.owner = .command then { read := { r.read with owner := .orphan }, deadline := none } else r }))))

/-- A read that times out while the part is ACTIVE takes it to BYPASS: every alert ends, no break or local programme runs,
no component shows anything but the network, and the recovery timer starts unless the hold-on-fault flag is set
(R165, R166, R169). -/
def Obligations.ReadTimeoutTakesActivePartToBypass : Prop :=
  ∀ (now : Stamp) (x : EntryIx) (e : RttEntry) (o : IssuedRead) (s : State),
    s.timedOut (ReadOwner.isOf x) now = some o → s.entry x = some e →
    s.mode = .active → TimeoutFatal s → Calm s → s.deferred = [] →
    ∃ t, exec (.readDeadlineExpiry now x) s = .next t ∧ t.mode = .bypass ∧ t.modeControl.bypassStamp = some now
      ∧ t.modeControl.timer =
          (if s.modeControl.holdOnFault then s.modeControl.timer else some (now + secTicks s.modeControl.interval))
      ∧ (∀ k, t.alert k = none)
      ∧ (∀ i, (s.service i).window ≠ none →
          (t.service i).activeHead = none ∧ (t.service i).running = none ∧ (t.service i).overlayNulls = 0)
      ∧ (∀ i, ∀ c ∈ (t.service i).comps, c.cur = .network ∧ c.rejoin = false ∧ c.ccOffset = 0 ∧ c.alert = .none)
      ∧ SameFixed s t ∧ t.groups = s.groups ∧ t.link = s.link ∧ t.intake = s.intake ∧ t.cells = s.cells

/-! ### Commands that take time -/

/-- SOURCE DEFINE of a LOOP source that passes its checks hands over a 12-beat read of slot 0 and stays in progress (R45,
R46). A good start then defines the source; a bad one is refused BAD-PARAM and an ERROR answer DOWNSTREAM, the record
staying FREE (R43, R46, R159); the commands behind it begin in the same event (R158), and any action put off comes last
(R165). -/
def Obligations.LoopSourceDefinedByItsStartCheck : Prop :=
  (∀ (now : Stamp) (c : CellCommand) (k : SourceIx) (w : Window) (s : State), Idle c s →
      pIndex 32 c.params 0 = some k → (s.source k).config = none → pByte c.params 1 = 2 → pWindow c.params 4 = some w →
      s.windowClash w = false →
      exec (.sourceDefine now c) s = .next (handRead { owner := .command, addr := w.base, beats := 12 }
        { takenState 0x18 now c s with work := some (.startCheck k w) }))
    ∧ ∀ (now : Stamp) (status : ReadStatus) (data : SlotData) (o : IssuedRead) (rest : List IssuedRead)
        (q : QueueEntry) (more : List QueueEntry) (k : SourceIx) (w : Window) (s : State),
      s.outstanding = o :: rest → o.read.owner = .command → s.work = some (.startCheck k w) → s.intake = q :: more →
      let u : State := { s with now := now, outstanding := rest }
      let good : Prop := goodSync data.toList = true ∧ startFlag data.toList = true
      (status = .ok → good →
          exec (.startCheckAnswer now status data) s = .next (settle (runAll (complete q (.done 0)
            { u with
              sources := vset s.sources k ({ Source.free with config := some { mode := .loop, window := w } }) }))))
        ∧ (status = .ok → ¬good →
          exec (.startCheckAnswer now status data) s = .next (settle (runAll (complete q (.refused .badParam) u))))
        ∧ (status = .error →
          exec (.startCheckAnswer now status data) s = .next (settle (runAll (complete q (.refused .downstream) u))))

/-- ALERT OVERLAY LOAD that passes its checks hands over a 12-beat read and stays in progress; a packet with a good sync
byte then becomes the group's overlay store, any other is refused BAD-PARAM and an ERROR answer DOWNSTREAM, the store
keeping its packet (R43, R131); the commands behind it begin in the same event (R158), and any action put off comes last
(R165). -/
def Obligations.OverlayStoreLoadedByItsRead : Prop :=
  (∀ (now : Stamp) (c : CellCommand) (g : GroupIx) (a : Addr) (s : State), Idle c s →
      pIndex 8 c.params 0 = some g → pAddr c.params 4 = some a → a.toNat % 16 = 0 → a.toNat + 192 ≤ 2 ^ 36 →
      (s.group g).defined = true → (s.group g).overlayPid ≠ none →
      exec (.alertOverlayLoad now c) s = .next (handRead { owner := .command, addr := a, beats := 12 }
        { takenState 0x33 now c s with work := some (.overlayLoad g) }))
    ∧ ∀ (now : Stamp) (status : ReadStatus) (data : SlotData) (o : IssuedRead) (rest : List IssuedRead)
        (q : QueueEntry) (more : List QueueEntry) (g : GroupIx) (s : State),
      s.outstanding = o :: rest → o.read.owner = .command → s.work = some (.overlayLoad g) → s.intake = q :: more →
      let u : State := { s with now := now, outstanding := rest }
      (status = .ok → goodSync data.toList = true →
          exec (.overlayLoadAnswer now status data) s = .next (settle (runAll (complete q (.done 0)
            { u with groups := vset s.groups g { s.group g with store := some (data.toList.take 188) } }))))
        ∧ (status = .ok → goodSync data.toList = false →
          exec (.overlayLoadAnswer now status data) s = .next (settle (runAll (complete q (.refused .badParam) u))))
        ∧ (status = .error →
          exec (.overlayLoadAnswer now status data) s = .next (settle (runAll (complete q (.refused .downstream) u))))

/-- STATUS SNAPSHOT captures its record in the event that begins it and hands over the first `n` of its 16 beats, how
many being a free value (log 12); in whatever state the part has come to since, the write of its last beat hands over
the beats from `n` on and completes the command with result word 256, and the commands behind it begin, any action put
off coming last (R158, R159, R163, R165). Beats 0 to `n` and then `n` to 16 are the 16 beats of the record, in ascending
address. The records of a service, a source and the part hold at each offset the field R180 names there, in `length`
bytes, big-endian; the codes of the current pointer, the severities, the presence bits and the mode of a FREE source,
and the zeros of a place of a list with no entry, are the model's choice (DEDUCED, log 24). -/
def Obligations.SnapshotIsWrittenWholeInOrder : Prop :=
  let handed (dest : Addr) (record : List Byte) (first last : Nat) (u : State) : State :=
    (List.range' first (last - first)).foldl (fun t k =>
      handWrite true (dest + BitVec.ofNat 36 (16 * k)) (enabledBytes ((record.drop (16 * k)).take 16)) t) u
  (∀ (now : Stamp) (c : CellCommand) (dest : Addr) (record : List Byte) (s : State), Idle c s →
      snapshotRecord (pByte c.params 0) c.params (takenState 0x04 now c s) = some record →
      pAddr c.params 4 = some dest → dest.toNat % 16 = 0 → dest.toNat + 256 ≤ 2 ^ 36 → s.snapshotClash dest = false →
      ∃ n, n ≤ 16 ∧ exec (.statusSnapshot now c) s = .next
        { handed dest record 0 n { takenState 0x04 now c s with freeIndex := s.freeIndex + 1 } with
          work := some (.snapshot dest record n) })
    ∧ (∀ (now : Stamp) (dest : Addr) (record : List Byte) (n : Nat) (q : QueueEntry) (more : List QueueEntry)
        (s : State), s.work = some (.snapshot dest record n) → n ≤ 16 → s.intake = q :: more →
      exec (.snapshotWriteComplete now) s =
        .next (settle (runAll (complete q (.done 256) (handed dest record n 16 { s with now := now })))))
    ∧ (∀ (dest : Addr) (record : List Byte) (n : Nat) (u : State), n ≤ 16 →
      handed dest record n 16 (handed dest record 0 n u) = handed dest record 0 16 u)
    ∧ (∀ (p : Params) (i : ServiceIx) (u : State), pIndex 48 p 1 = some i →
      let v := u.service i
      let number (w : Option (BitVec 32)) : Nat := (w.getD 0).toNat
      ∃ r, snapshotRecord 1 p u = some r ∧ r.length = 256 ∧
        let f (offset length : Nat) : Nat := fieldAt r offset length
        f 0 1 = i.val ∧ f 1 1 = v.window.isSome.toNat
          ∧ f 2 1 = (match v.mode with | .network => 0 | .brk => 1 | .loc => 2)
          ∧ f 3 1 = (match v.held with | none => 0 | some .error => 40 | some .control => 41)
          ∧ f 4 1 = v.owner.elim 0xFF (·.val) ∧ f 5 1 = v.exempt.toNat ∧ f 6 1 = v.comps.length % 256
          ∧ f 7 1 = (match v.current with | .a => 0 | .b => 1)
          ∧ f 8 5 = v.window.elim 0 (·.base.toNat) ∧ f 13 3 = v.window.elim 0 (·.slots) % 2 ^ 24
          ∧ f 16 2 = v.cuePid.elim 0xFFFF (·.toNat) ∧ f 18 2 = v.preRoll % 2 ^ 16 ∧ f 20 2 = v.lateWindow % 2 ^ 16
          ∧ f 22 1 = v.underrunLimit % 256 ∧ f 23 1 = v.overlayCc.toNat ∧ f 24 1 = v.overlayNulls.toNat
          ∧ f 25 1 = v.track.isSome.toNat ∧ f 26 5 = v.track.elim 0 (·.base.toNat)
          ∧ f 32 4 = number (v.track.map (·.stamp)) ∧ f 36 4 = v.classified.toNat ∧ f 40 4 = v.substituted.toNat
          ∧ f 44 4 = v.stuffed.toNat ∧ f 48 4 = v.overlaid.toNat
          ∧ (∀ n : Nat, n < 8 →
            let o := 56 + 10 * n
            (v.comps[n]? = none → (r.drop o).take 10 = zeros 10)
              ∧ ∀ c : Component, v.comps[n]? = some c →
                f o 2 = c.pid.toNat
                  ∧ f (o + 2) 1 =
                    (match c.kind with | .video => 1 | .audio => 2 | .data => 3) + 16 * c.lead.toNat + 32 * c.pcr.toNat
                  ∧ f (o + 3) 1 = (match c.cur with | .network => 0 | .brk => 1 | .loc => 2 | .alert => 3)
                  ∧ f (o + 4) 1 = c.outCc.elim 0xFF (·.toNat) ∧ f (o + 5) 1 = c.ccOffset.toNat
                  ∧ f (o + 6) 1 = (match c.alert with | .none => 0 | .pending => 1 | .taken => 2) + 128 * c.rejoin.toNat
                  ∧ f (o + 7) 2 = c.cursor % 2 ^ 16 ∧ f (o + 9) 1 = 0)
          ∧ (∀ n : Nat, n < 4 →
            let o := 136 + 12 * n
            (v.schedule[n]? = none → (r.drop o).take 12 = zeros 12)
              ∧ ∀ e : BreakEntry, v.schedule[n]? = some e →
                f o 1 = (match e.state with | .scheduled => 1 | .ready => 2 | .notReady _ => 3 | .active => 4)
                  ∧ f (o + 4) 4 = e.event.toNat ∧ f (o + 8) 4 = e.splice.toNat)
          ∧ ∀ l : SlotLetter,
            let o : Nat := (match l with | .a => 184 | .b => 196)
            (v.slot l = none → (r.drop o).take 12 = zeros 12)
              ∧ ∀ q : LocalProg, v.slot l = some q →
                f o 1 = (match q.state with | .loaded => 1 | .ready => 2 | .notReady _ => 3 | .running => 4)
                  ∧ f (o + 4) 4 = q.start.toNat ∧ f (o + 8) 4 = q.stop.toNat)
    ∧ (∀ (p : Params) (k : SourceIx) (u : State), pIndex 32 p 1 = some k →
      let q := u.source k
      ∃ r, snapshotRecord 2 p u = some r ∧ r.length = 256 ∧
        let f (offset length : Nat) : Nat := fieldAt r offset length
        f 0 1 = k.val ∧ f 1 1 = q.config.isSome.toNat
          ∧ f 2 1 = (match q.config.map (·.mode) with | none => 0 | some .stream => 1 | some .loop => 2)
          ∧ f 3 1 = q.alertUsers % 256 ∧ f 4 5 = q.config.elim 0 (·.window.base.toNat)
          ∧ f 9 3 = q.config.elim 0 (·.window.slots) % 2 ^ 24 ∧ f 12 4 = q.writeIx % 2 ^ 32 ∧ f 16 4 = q.readIx % 2 ^ 32
          ∧ f 20 4 = q.fill % 2 ^ 32 ∧ f 24 4 = q.minFill % 2 ^ 32 ∧ f 28 4 = q.cursor % 2 ^ 32
          ∧ f 32 1 = (match q.attachment with | none => 0 | some (.brk _ _) => 1 | some (.loc _ _) => 2)
          ∧ f 33 1 = (match q.attachment with | none => 0 | some (.brk i _) => i.val | some (.loc i _) => i.val)
          ∧ f 34 1 = q.overrunRun.toNat
          ∧ f 36 4 = (match q.attachment with
            | none => 0
            | some (.brk _ ev) => ev.toNat
            | some (.loc _ .a) => 1
            | some (.loc _ .b) => 2)
          ∧ f 40 4 = q.overruns.toNat ∧ f 44 4 = q.underruns.toNat ∧ f 48 4 = q.discarded.toNat)
    ∧ ∀ (p : Params) (u : State),
      let m := u.modeControl
      let l := u.link
      let number (w : Option (BitVec 32)) : Nat := (w.getD 0).toNat
      ∃ r, snapshotRecord 3 p u = some r ∧ r.length = 256 ∧
        let f (offset length : Nat) : Nat := fieldAt r offset length
        f 0 1 = (match m.mode with | .passive => 0 | .active => 1 | .bypass => 2) ∧ f 1 1 = m.holdOnFault.toNat
          ∧ f 2 1 = m.interval % 256 ∧ f 3 1 = u.intake.length % 256 ∧ f 4 4 = u.ring.dropped.toNat
          ∧ f 8 2 = u.ring.defn.elim 0 (·.count) % 2 ^ 16 ∧ f 10 2 = u.ring.producer % 2 ^ 16
          ∧ f 12 2 = u.ring.consumer % 2 ^ 16 ∧ f 14 5 = u.ring.defn.elim 0 (·.base.toNat) ∧ f 19 1 = u.multiple.toNat
          ∧ (u.firstError = none → (r.drop 20).take 29 = zeros 29)
          ∧ (∀ e : FirstError, u.firstError = some e →
            f 20 1 = e.kind.ix.val + 1
              ∧ f 21 1 = e.service.isSome.toNat + 2 * e.requester.isSome.toNat + 4 * e.addr.isSome.toNat
                + 8 * e.packet.isSome.toNat
              ∧ f 22 1 = e.service.elim 0 (·.val) ∧ f 23 1 = e.requester.elim 0 (·.val)
              ∧ f 24 5 = e.addr.elim 0 (·.toNat) ∧ f 29 4 = e.stamp.toNat
              ∧ (r.drop 33).take 16 = (e.packet.getD [] ++ zeros 16).take 16)
          ∧ (∀ k : Fin 22,
            let g := vget u.kinds k
            let o := 56 + 4 * k.val
            f o 1 = g.status.toNat + 2 * g.masked.toNat
              ∧ f (o + 1) 1 = (match g.severity with | .notice => 1 | .service => 2 | .fatal => 3)
              ∧ f (o + 2) 2 = g.counter.toNat)
          ∧ (∀ k : AlertIx,
            let o := 144 + 16 * k.val
            (u.alert k = none → (r.drop o).take 16 = zeros 16)
              ∧ ∀ a : Alert, u.alert k = some a →
                f o 1 = 1 ∧ f (o + 1) 1 = a.group.val ∧ f (o + 2) 1 = a.level % 256
                  ∧ f (o + 3) 1 = (match a.origin with | .link => 1 | .control => 2)
                  ∧ f (o + 4) 4 = a.number.toNat ∧ f (o + 8) 4 = a.start.toNat ∧ f (o + 12) 4 = a.deadline.toNat)
          ∧ f 208 1 = l.enabled.toNat ∧ f 209 1 = l.interval % 256 ∧ f 210 1 = l.arm.elim 0xFF (·.group.val)
          ∧ f 211 1 = l.arm.elim 0 (·.level) % 256 ∧ f 212 1 = l.lost.toNat ∧ f 213 1 = l.mark.toNat
          ∧ f 214 1 = l.period.isSome.toNat ∧ f 215 1 = 0 ∧ f 216 4 = number l.lastKeepalive ∧ f 220 4 = number l.lostStamp
          ∧ f 224 1 = l.lastKeepalive.isSome.toNat + 2 * l.lostStamp.isSome.toNat
          ∧ f 228 4 = number m.timer ∧ f 232 4 = number m.bypassStamp
          ∧ f 236 1 = m.timer.isSome.toNat + 2 * m.bypassStamp.isSome.toNat

/-! ### Deadlines -/

/-- The head channel of the Deadline Bank whose deadline has come is freed and its owner's pre-roll check runs. A
SCHEDULED break whose avail is bound to a source it can attach becomes READY with the binding copied; it becomes
NOT-READY with NO-SOURCE when the source is FREE, SOURCE-BUSY when another owner holds it, and BYPASS when the part is
not ACTIVE, each reported with the binding's source index; NO-SOURCE with no source index when the avail is unbound,
also in BYPASS, where R88 has the check end with cause BYPASS (the model's choice, DEDUCED, log 43). A LOADED local slot
becomes READY or NOT-READY in the same way, by the source it names (R55, R76, R87, R91, R94, R119, R128). A channel
whose deadline has not come stays (log 3). -/
def Obligations.ChannelExpiryRunsPreRollCheck : Prop :=
  ∀ (now : Stamp) (ch : Channel) (rest : List Channel) (s : State), s.bank = ch :: rest → s.deferred = [] → Calm s →
    let u : State := { s with now := now, bank := rest }
    let refusal (k : SourceIx) (own : InsOwner) (cause : NotReadyCause) : Prop :=
      match cause with
      | .bypass => s.mode ≠ .active
      | .noSource => s.mode = .active ∧ (s.source k).defined = false
      | .sourceBusy => s.mode = .active ∧ (s.source k).defined = true
        ∧ ∃ q, (s.source k).attachment = some q ∧ q ≠ own
    let attachable (k : SourceIx) (own : InsOwner) : Prop :=
      s.mode = .active ∧ (s.source k).defined = true ∧ ∀ q, (s.source k).attachment = some q → q = own
    let reason (cause : NotReadyCause) : Cause :=
      match cause with
      | .noSource => .noSource
      | .sourceBusy => .sourceBusy
      | .bypass => .bypass
    (before now ch.deadline = true → exec (.channelExpiry now) s = .next { s with now := now })
      ∧ (∀ i ev e, atOrAfter now ch.deadline = true → ch.owner = .brk i ev → (s.service i).findEntry ev = some e →
        e.state = .scheduled →
        (vget (s.service i).avails e.avail = none →
          exec (.channelExpiry now) s = .next (offer
            (breakReport i e.event .notReady .noSource (some e.splice) (some now) 0 none)
            (u.modEntry i e.event fun y => { y with state := .notReady .noSource })))
        ∧ (∀ b, vget (s.service i).avails e.avail = some b →
          (attachable b.source ch.owner →
            exec (.channelExpiry now) s = .next (offer
              (breakReport i e.event .ready (if (s.source b.source).isLow then .lowFill else .none) (some e.splice)
                (some now) (s.source b.source).reportedFill (some b.source))
              ((u.modSource b.source (Source.attachTo ch.owner)).modEntry i e.event fun y =>
                { y with binding := some b, state := .ready })))
          ∧ (∀ cause, refusal b.source ch.owner cause →
            exec (.channelExpiry now) s = .next (offer
              (breakReport i e.event .notReady (reason cause) (some e.splice) (some now) 0 (some b.source))
              (u.modEntry i e.event fun y => { y with state := .notReady cause })))))
      ∧ (∀ i l p, atOrAfter now ch.deadline = true → ch.owner = .loc i l → (s.service i).slot l = some p →
        p.state = .loaded →
        (attachable p.source ch.owner →
          exec (.channelExpiry now) s = .next (offer
            (localReport i l .ready (if (s.source p.source).isLow then .lowFill else .none) (some p.start) (some now)
              (s.source p.source).reportedFill p.source)
            ((u.modSource p.source (Source.attachTo ch.owner)).modSlot i l fun y => { y with state := .ready })))
        ∧ (∀ cause, refusal p.source ch.owner cause →
          exec (.channelExpiry now) s = .next (offer
            (localReport i l .notReady (reason cause) (some p.start) (some now) 0 p.source)
            (u.modSlot i l fun y => { y with state := .notReady cause }))))

/-- An owner whose stored stamp has fallen 2^30 ticks behind the station clock departs: a break that is not ACTIVE and a
local slot that is not RUNNING as MISSED LATE, an ACTIVE break with the cause of its return stamp, a RUNNING slot with
END-STAMP (R80; that a clock exactly 2^31 ticks away does not lie after a stamp is DEDUCED, log 52). -/
def Obligations.StaleStampsMakeOwnersDepart : Prop :=
  ∀ (now : Stamp) (i : ServiceIx) (s : State),
    let u : State := { s with now := now }
    (∀ ev e, (s.service i).findEntry ev = some e → e.state ≠ .active → farAfter now e.splice = true →
        exec (.staleStampDeparture now (.brk i ev)) s = .next (settle (leaveBreak i ev (.missed .late now) u)))
      ∧ (∀ ev e r, (s.service i).findEntry ev = some e → e.state = .active → e.ret = some r →
        farAfter now r.stamp = true →
        exec (.staleStampDeparture now (.brk i ev)) s =
          .next (settle (leaveBreak i ev (.ended r.origin.cause now) u)))
      ∧ (∀ l p, (s.service i).slot l = some p → p.state ≠ .running → farAfter now p.start = true →
        exec (.staleStampDeparture now (.loc i l)) s = .next (settle (leaveSlot i l (.missed .late now) u)))
      ∧ (∀ l p, (s.service i).slot l = some p → p.state = .running → farAfter now p.stop = true →
        exec (.staleStampDeparture now (.loc i l)) s = .next (settle (leaveSlot i l (.ended .endStamp now) u)))

/-- An owner leaves with one report, offered between the end of what it ran and the detaching of its source: its channel is
disarmed, its source detached, its event ID or slot free; an ACTIVE break and a RUNNING slot leave the service in NETWORK
with their insertion reference in the trailing record (R85, R94, R114, R120, R128). -/
def Obligations.LeavingOwnersAreRemoved : Prop :=
  (∀ (i : ServiceIx) (ev : EventId) (how : BreakLeave) (e : BreakEntry) (s : State),
      (s.service i).findEntry ev = some e →
      let t := leaveBreak i ev how s
      t = dropEntry i ev (detachEntry i e (offer (leaveReport i e how s.now) (endActive i e how (disarm (.brk i ev) s))))
        ∧ (t.service i).findEntry ev = none
        ∧ (∀ y, y.event ≠ ev → (y ∈ (t.service i).schedule ↔ y ∈ (s.service i).schedule))
        ∧ t.bank = s.bank.filter (fun ch => ch.owner != .brk i ev)
        ∧ (∀ b, e.binding = some b → (t.source b.source).attachment ≠ some (.brk i ev))
        ∧ (e.state = .active →
            (t.service i).mode = .network
              ∧ (t.service i).trailing = some { ref := .brk e.event e.intake, pcrOffset := e.pcrOffset })
        ∧ (e.state ≠ .active →
            (t.service i).mode = (s.service i).mode ∧ (t.service i).trailing = (s.service i).trailing)
        ∧ (t.service i).comps = (s.service i).comps ∧ OtherServices i s t ∧ SameAlerts s t ∧ SamePath s t
        ∧ SameFixed s t)
    ∧ ∀ (i : ServiceIx) (l : SlotLetter) (how : SlotLeave) (p : LocalProg) (s : State),
      (s.service i).slot l = some p →
      let t := leaveSlot i l how s
      t = emptySlot i l (detach p.source (.loc i l) (offer (slotLeaveReport i l p how s.now)
          (endRunning i l p how (disarm (.loc i l) s))))
        ∧ (t.service i).slot l = none ∧ (t.service i).slot (otherLetter l) = (s.service i).slot (otherLetter l)
        ∧ (t.service i).current = (if (s.service i).current = l then otherLetter l else (s.service i).current)
        ∧ t.bank = s.bank.filter (fun ch => ch.owner != .loc i l)
        ∧ (t.source p.source).attachment ≠ some (.loc i l)
        ∧ (p.state = .running →
            (t.service i).mode = .network
              ∧ (t.service i).trailing = some { ref := .loc l (p.actualStart.getD 0), pcrOffset := p.pcrOffset })
        ∧ (p.state ≠ .running →
            (t.service i).mode = (s.service i).mode ∧ (t.service i).trailing = (s.service i).trailing)
        ∧ (t.service i).schedule = (s.service i).schedule ∧ OtherServices i s t ∧ SameAlerts s t ∧ SamePath s t
        ∧ SameFixed s t

/-- The bank's answer to a pre-roll (R90): a moment that has come starts the check at once; a later one takes a channel
placed by its deadline; with no channel free the owner goes unchecked and NO-TIMER is raised. That a moment exactly 2^31
ticks away has come is DEDUCED (log 52). -/
def Obligations.PreRollIsArmedCheckedOrUntimed : Prop :=
  ∀ (i : ServiceIx) (ev : EventId) (e : BreakEntry) (s : State), (s.service i).findEntry ev = some e →
    let moment := e.splice - BitVec.ofNat 32 ((s.service i).preRoll * 90)
    (later moment s.now = false → e.state = .scheduled → armBreak i ev s = checkEntry i e s)
      ∧ (later moment s.now = true → s.bank.length < 64 →
        ∃ before_ after, s.bank = before_ ++ after ∧ (∀ ch ∈ before_, later ch.deadline moment = false)
          ∧ (∀ ch ∈ after.head?, later ch.deadline moment = true)
          ∧ armBreak i ev s = { s with bank := before_ ++ [{ deadline := moment, owner := .brk i ev }] ++ after })
      ∧ (later moment s.now = true → 64 ≤ s.bank.length →
        armBreak i ev s = raise { kind := .noTimer, service := some i } s)

/-! ### Alerts -/

/-- An activation that passes R133 in a FREE slot (R134): ALERT START and a GO frame with an arm pending put the alert into
the lowest FREE slot with the next number, the station clock and its deadline, count its users, give every DEFINED service
its owner, report STARTED and then preempt (R59, R136, R139, R145, R150). A raise changes the level alone and reports RAISED
(R135). ALERT START is refused MODE, BUSY, NOT-DEFINED, BAD-PARAM or FULL as R133 orders; a GO without an arm, or outside
ACTIVE, is reported REFUSED, whatever the groups; without an arm its ID has group and level 0 (R150; DEDUCED, log 35).
The owner is the ACTIVE alert of the highest level that covers the service, among equal levels the one activated first, and
none for an exempt service (R136). Under a new owner AUDIO, and VIDEO with a slate source, become PENDING or stay TAKEN with
their cursor at 0, and every other component's alert is NONE; the overlay null counter becomes 0 (R137). A service with the
same owner stands. A service newly owned by a preempting alert has its ACTIVE break ENDED PREEMPTED-ALERT, in ascending
service order (R139). -/
def Obligations.ActivationStartsOrRaisesAlert : Prop :=
  (∀ (now : Stamp) (g : GroupIx) (level : Nat) (k : AlertIx) (s : State), s.deferred = [] → Calm s →
    1 ≤ level → level ≤ 3 → (s.group g).defined = true →
    let fresh (origin : AlertOrigin) : Alert :=
      { group := g, level := level, origin := origin, number := s.activations, start := now,
        deadline := now + secTicks (s.group g).maxDuration }
    let named (x : SourceIx) : Prop := (s.group g).audio = some x ∨ (s.group g).slate = some x
    let placed (a : Alert) (t : State) : Prop :=
      t.alert k = some a ∧ (∀ j, j ≠ k → t.alert j = s.alert j)
        ∧ (∀ i, (t.service i).defined = true → (t.service i).owner = t.ownerOf i)
        ∧ t.groups = s.groups ∧ t.modeControl = s.modeControl ∧ SamePath s t ∧ SameFixed s t
    let counted (t : State) : Prop :=
      t.activations = s.activations + 1
        ∧ ∀ x, (named x → (t.source x).alertUsers = (s.source x).alertUsers + 1)
          ∧ (¬named x → (t.source x).alertUsers = (s.source x).alertUsers)
    let free : Prop := s.slotOfGroup g = none ∧ (s.group g).sourceCheck s = none
    let start : Prop := s.mode = .active ∧ free ∧ s.freeAlert = some k
    let report (a : Alert) (sub : Subkind) (second : Stamp) (v : State) : Report :=
      { kind := .alert, subkind := sub.code, cause := .none, service := none,
        id := some (idBytes (BitVec.ofNat 8 g.val) (BitVec.ofNat 8 k.val) (BitVec.ofNat 8 level) a.origin.code),
        first := some a.start, second := some second,
        count := BitVec.ofNat 32 (allServices.countP fun i => (v.service i).owner == some k),
        source := (s.group g).audio }
    let inForce (a : Alert) (sub : Subkind) (second : Stamp) (u v : State) : State :=
      preempt u (offer (report a sub second (recomputeAll v)) (recomputeAll v))
    let started (origin : AlertOrigin) (u : State) : State :=
      inForce (fresh origin) .started (fresh origin).deadline u
        { changeUsers (· + 1) (s.group g) u with
          alerts := vset u.alerts k (some (fresh origin)), activations := u.activations + 1 }
    let raised (a : Alert) (u : State) : State :=
      inForce a .raised now u { u with alerts := vset u.alerts k (some { a with level := level }) }
    let gone : State := { s with now := now, link := { s.link with arm := none, frame := none } }
    (∀ c, Idle c s → (pByte c.params 0).toNat = g.val → (pByte c.params 1).toNat = level →
        let refused (code : RefusalCode) : Prop :=
          exec (.alertStart now c) s = .next (afterReply 0x31 now c (.refused code) id s)
        (start →
            exec (.alertStart now c) s = .next (afterReply 0x31 now c (.done (BitVec.ofNat 32 k.val)) (started .control) s)
            ∧ ∃ t, exec (.alertStart now c) s = .next t ∧ Answered 0x31 c (.done (BitVec.ofNat 32 k.val)) s t
              ∧ placed (fresh .control) t ∧ counted t ∧ t.link = s.link)
          ∧ (s.mode ≠ .active → refused .mode)
          ∧ (∀ a, s.mode = .active → s.slotOfGroup g = some k → s.alert k = some a → level ≤ a.level → refused .busy)
          ∧ (∀ code, s.mode = .active → s.slotOfGroup g = none → (s.group g).sourceCheck s = some code → refused code)
          ∧ (s.mode = .active → free → s.freeAlert = none → refused .full))
      ∧ (∀ f, s.completeFrame 0x02 = some f → s.link.arm = some { group := g, level := level } → start →
        exec (.goFrame now) s = .next (started .link gone)
          ∧ ∃ t, exec (.goFrame now) s = .next t ∧ placed (fresh .link) t ∧ counted t
            ∧ t.link = { s.link with arm := none, frame := none } ∧ t.intake = s.intake)
      ∧ (∀ a, s.mode = .active → s.slotOfGroup g = some k → s.alert k = some a → a.level < level →
        (∀ c, Idle c s → (pByte c.params 0).toNat = g.val → (pByte c.params 1).toNat = level →
            exec (.alertStart now c) s =
                .next (afterReply 0x31 now c (.done (BitVec.ofNat 32 (k.val + 256))) (raised a) s)
              ∧ ∃ t, exec (.alertStart now c) s = .next t
                ∧ Answered 0x31 c (.done (BitVec.ofNat 32 (k.val + 256))) s t
                ∧ placed { a with level := level } t ∧ t.activations = s.activations)
          ∧ ∀ f, s.completeFrame 0x02 = some f → s.link.arm = some { group := g, level := level } →
            exec (.goFrame now) s = .next (raised a gone)))
    ∧ (∀ (now : Stamp) (f : Frame) (s : State), s.completeFrame 0x02 = some f →
      (s.link.arm = none →
        exec (.goFrame now) s = .next (settle (offer
          (linkReport .refused .noArm (some (idBytes 0x02 0 0 0)) now none 0)
          { s with now := now, link := { s.link with frame := none } })))
      ∧ (∀ (g : GroupIx) (level : Nat), s.link.arm = some { group := g, level := level } → 1 ≤ level → level ≤ 3 →
        s.mode ≠ .active →
        exec (.goFrame now) s = .next (settle (offer
          (linkReport .refused (.refusal .mode)
            (some (idBytes 0x02 (BitVec.ofNat 8 g.val) (BitVec.ofNat 8 level) 0)) now none 0)
          { s with now := now, link := { s.link with frame := none, arm := none } }))))
    ∧ (∀ (g : GroupIx) (s : State),
      let loop (x : SourceIx) : Prop := ∃ win, (s.source x).config = some { mode := .loop, window := win }
      let named (x : SourceIx) : Prop := (s.group g).audio = some x ∨ (s.group g).slate = some x
      (∀ k a, s.alert k = some a → a.group = g → (∀ j b, j < k → s.alert j = some b → b.group ≠ g) →
          s.slotOfGroup g = some k)
        ∧ ((∀ k a, s.alert k = some a → a.group ≠ g) → s.slotOfGroup g = none)
        ∧ (∀ k, s.alert k = none → (∀ j, j < k → s.alert j ≠ none) → s.freeAlert = some k)
        ∧ ((∀ k, s.alert k ≠ none) → s.freeAlert = none)
        ∧ ((∀ x, named x → loop x) → (s.group g).sourceCheck s = none)
        ∧ ((∃ x, named x ∧ (s.source x).config = none) → (s.group g).sourceCheck s = some .notDefined)
        ∧ ((∀ x, named x → (s.source x).config ≠ none) → (∃ x, named x ∧ ¬loop x) →
          (s.group g).sourceCheck s = some .badParam))
    ∧ (∀ (i : ServiceIx) (first : BitVec 32) (s : State),
      let covers (a : Alert) : Prop := (s.group a.group).mask.getLsbD i.val = true
      let age (a : Alert) : Nat := (a.number - first).toNat
      ((s.service i).exempt = true ∨ (∀ k a, s.alert k = some a → ¬covers a) → s.ownerOf i = none)
        ∧ (∀ k a, (s.service i).exempt = false → s.alert k = some a → covers a →
          (∀ j b, j ≠ k → s.alert j = some b → covers b →
            b.level < a.level ∨ b.level = a.level ∧ age a < age b ∧ age b < 2 ^ 31) →
          s.ownerOf i = some k))
    ∧ (∀ (v : Service) (owner : Option AlertIx) (group : Option AlertGroup),
      let w := v.giveOwner owner group
      w = { v with owner := owner, overlayNulls := 0, comps := w.comps } ∧ w.comps.length = v.comps.length
        ∧ ∀ (n : Nat) (c : Component), v.comps[n]? = some c →
          let covered : Prop :=
            (c.alert = .none → w.comps[n]? = some { c with alert := .pending, cursor := 0 })
              ∧ (c.alert = .pending → w.comps[n]? = some { c with cursor := 0 })
              ∧ (c.alert = .taken → w.comps[n]? = some { c with cursor := 0 })
          let left : Prop := w.comps[n]? = some { c with alert := .none }
          (group ≠ none → c.kind = .audio → covered)
            ∧ (∀ g k, group = some g → c.kind = .video → g.slate = some k → covered)
            ∧ (∀ g, group = some g → c.kind = .video → g.slate = none → left)
            ∧ (c.kind = .data → left)
            ∧ (group = none → left))
    ∧ (∀ (i : ServiceIx) (s : State),
      let o := s.ownerOf i
      let given (group : Option AlertGroup) : State :=
        { s with services := vset s.services i ((s.service i).giveOwner o group) }
      (o = (s.service i).owner → recompute i s = s)
        ∧ (o ≠ (s.service i).owner → o = none → recompute i s = given none)
        ∧ (∀ k a, o ≠ (s.service i).owner → o = some k → s.alert k = some a →
          recompute i s = given (some (s.group a.group)))
        ∧ recomputeOne i s = preempt s (recompute i s)
        ∧ (recomputeAll s).service i = (if (s.service i).window = none then s else recompute i s).service i
        ∧ recomputeAll s = { s with services := (recomputeAll s).services })
    ∧ ∀ s t : State,
      let preempting (i : ServiceIx) : Bool :=
        (t.service i).owner != (s.service i).owner
          && match (t.service i).owner.bind t.alert with
            | some a => (t.group a.group).preempt
            | none => false
      let endBreak (i : ServiceIx) (u : State) : State :=
        match (u.service i).activeHead with
        | some h => leaveBreak i h.event (.ended .preemptedAlert t.now) u
        | none => u
      preempt s t = (List.finRange 48).foldl (fun u i => if preempting i then endBreak i u else u) t

/-- An alert ends at its maximum duration, by ALERT END and by an END frame (R141, R142, R143, R151): it is reported
ENDED with its start stamp, the station clock and the ticks between them (R145), its slot becomes FREE, its users are
counted down, and every service is given its owner afresh and preempted. Before the deadline the row changes the stamp
alone (DESIGN CHOICE, log 3). An END frame whose group is not active is reported REFUSED, whatever the other groups.
When every alert ends they end in ascending slot order, and each overlay null counter becomes 0 (R144). -/
def Obligations.AlertsEndAndFreeTheirSlot : Prop :=
  (∀ (now : Stamp) (k : AlertIx) (a : Alert) (s : State), s.alert k = some a → s.deferred = [] → Calm s →
    let ended (t : State) : Prop :=
      t.alert k = none ∧ (∀ j, j ≠ k → t.alert j = s.alert j)
        ∧ (∀ i, (t.service i).defined = true → (t.service i).owner = t.ownerOf i)
        ∧ (∀ x, ((s.group a.group).audio = some x ∨ (s.group a.group).slate = some x →
            (t.source x).alertUsers = (s.source x).alertUsers - 1)
          ∧ ((s.group a.group).audio ≠ some x → (s.group a.group).slate ≠ some x →
            (t.source x).alertUsers = (s.source x).alertUsers))
        ∧ t.activations = s.activations ∧ t.groups = s.groups ∧ t.modeControl = s.modeControl ∧ SamePath s t
        ∧ SameFixed s t
    (atOrAfter now a.deadline = true →
        exec (.maximumDurationExpiry now k) s = .next (endAlert k .timeout { s with now := now })
          ∧ ∃ t, exec (.maximumDurationExpiry now k) s = .next t ∧ ended t ∧ t.link = s.link ∧ t.intake = s.intake)
      ∧ (before now a.deadline = true → exec (.maximumDurationExpiry now k) s = .next { s with now := now })
      ∧ (∀ c, Idle c s →
        (pByte c.params 0 = 1 ∧ pIndex 4 c.params 1 = some k
          ∨ pByte c.params 0 = 2 ∧ ∃ g, pIndex 8 c.params 1 = some g ∧ s.slotOfGroup g = some k) →
        exec (.alertEnd now c) s =
            .next (afterReply 0x32 now c (.done (now - a.start)) (fun u => endAlert k .command u) s)
          ∧ ∃ t, exec (.alertEnd now c) s = .next t ∧ Answered 0x32 c (.done (now - a.start)) s t ∧ ended t
            ∧ t.link = s.link)
      ∧ (∀ f g, s.completeFrame 0x03 = some f → (byteAt f.bytes 1).toNat = g.val → s.slotOfGroup g = some k →
        exec (.endFrame now) s = .next (endAlert k .link { s with now := now, link := { s.link with frame := none } })
          ∧ ∃ t, exec (.endFrame now) s = .next t ∧ ended t ∧ t.link = { s.link with frame := none }
            ∧ t.intake = s.intake))
    ∧ (∀ (now : Stamp) (f : Frame) (g : GroupIx) (s : State), s.completeFrame 0x03 = some f →
      (byteAt f.bytes 1).toNat = g.val → s.slotOfGroup g = none →
      exec (.endFrame now) s = .next (settle (offer
        (linkReport .refused (.refusal .notDefined) (some (idBytes 0x03 (byteAt f.bytes 1) 0 0)) now none 0)
        { s with now := now, link := { s.link with frame := none } })))
    ∧ (∀ (cause : Cause) (k : AlertIx) (s : State),
      (s.alert k = none → endAlert k cause s = s)
        ∧ ∀ a, s.alert k = some a →
          let reported : State := offer
            { kind := .alert, subkind := Subkind.ended.code, cause := cause, service := none,
              id := some (idBytes (BitVec.ofNat 8 a.group.val) (BitVec.ofNat 8 k.val) (BitVec.ofNat 8 a.level)
                a.origin.code),
              first := some a.start, second := some s.now, count := s.now - a.start,
              source := (s.group a.group).audio } s
          let free : State :=
            { changeUsers (· - 1) (s.group a.group) reported with alerts := vset reported.alerts k none }
          endAlert k cause s = preempt free (recomputeAll free))
    ∧ (∀ (f : Nat → Nat) (g : AlertGroup) (s : State) (x : SourceIx),
      let t := changeUsers f g s
      t = { s with sources := t.sources }
        ∧ (g.audio = some x ∨ g.slate = some x →
          t.source x = { s.source x with alertUsers := f (s.source x).alertUsers })
        ∧ (g.audio ≠ some x → g.slate ≠ some x → t.source x = s.source x))
    ∧ ∀ (cause : Cause) (s : State),
      let ended : State := (List.finRange 4).foldl (fun t k => endAlert k cause t) s
      endAllAlerts cause s =
        { ended with services := ended.services.map fun v => { v with overlayNulls := 0 } }

/-! ### The link -/

/-- A complete ARM frame makes its group and level the pending arm, whatever was pending; a complete CLEAR frame makes the
pending arm absent. Neither reports anything (R149). -/
def Obligations.ArmAndClearSetPendingArm : Prop :=
  ∀ (now : Stamp) (f : Frame) (s : State),
    (∀ (g : GroupIx) (level : Byte), s.completeFrame 0x01 = some f → f.bytes = [0x01, BitVec.ofNat 8 g.val, level] →
        exec (.armFrame now) s = .next { s with
          now := now, link := { s.link with frame := none, arm := some { group := g, level := level.toNat } } })
      ∧ (s.completeFrame 0x05 = some f →
        exec (.clearFrame now) s = .next { s with now := now, link := { s.link with frame := none, arm := none } })

/-- A complete KEEPALIVE sets the mark and brings a LOST link UP with a report; the end of a period with the mark clear
makes an UP link LOST, raising LINK-LOST and reporting it, and begins the next period (R154). Before the period's expiry
the row changes the stamp alone (DESIGN CHOICE, log 3). -/
def Obligations.WatchdogLosesAndRegainsLink : Prop :=
  ∀ (now : Stamp) (s : State), s.deferred = [] → Calm s →
    let marked : State :=
      { s with
        now := now
        link := { s.link with frame := none, mark := true, lastKeepalive := some now, lost := false } }
    let next_ : Option Period :=
      if s.link.interval = 0 then none
      else some { expiry := now + BitVec.ofNat 32 (s.link.interval * 90000), seconds := s.link.interval }
    let renewed (u : State) : State := { u with link := { u.link with mark := false, period := next_ } }
    (∀ f, s.completeFrame 0x04 = some f → s.link.lost = false → exec (.keepaliveFrame now) s = .next marked)
      ∧ (∀ f st, s.completeFrame 0x04 = some f → s.link.lost = true → s.link.lostStamp = some st →
        exec (.keepaliveFrame now) s =
          .next (offer (linkReport .up .none none now (some st) (now - st)) marked))
      ∧ (∀ p, s.link.period = some p → atOrAfter now p.expiry = true → (s.link.mark = true ∨ s.link.lost = true) →
        exec (.periodTimerExpiry now) s = .next (renewed { s with now := now }))
      ∧ (∀ p, s.link.period = some p → atOrAfter now p.expiry = true → s.link.mark = false → s.link.lost = false →
        exec (.periodTimerExpiry now) s = .next (settle (renewed (offer
          (linkReport .lost .none none now s.link.lastKeepalive (BitVec.ofNat 32 p.seconds))
          (raise { kind := .linkLost }
            { s with now := now, link := { s.link with lost := true, lostStamp := some now } })))))
      ∧ (∀ p, s.link.period = some p → before now p.expiry = true →
        exec (.periodTimerExpiry now) s = .next { s with now := now })

/-- A start condition ends the frame in hand and begins the next; a byte of a frame is acknowledged when the link is
enabled, nothing in the frame was NAKed and it is in range; a byte that no start condition came before is in no frame
(R147). A frame that does not end complete is discarded, with LINK-FORMAT, which carries the bytes received (log 45), unless
the link was disabled (R148). A status read samples the status byte at its command byte, sends it once and then 0xFF (R152).
The reading of the rows, and the NAK of a byte in no frame, is log 23; of a link disabled meanwhile log 39; that the sample
is sent although the link has been disabled since is the model's choice (DESIGN CHOICE, log 51); that FRAME_DISCARD
of a complete write frame, and STATUS_READ in a frame that sampled nothing, change the stamp alone, log 3. -/
def Obligations.LinkAnswersBytesAndStatusReads : Prop :=
  ∀ (now : Stamp) (s : State),
    let f := s.link.frame.getD { bytes := [], naked := false, nakedDisabled := false, sample := none, sent := 0 }
    let hold (g : Option Frame) (out : List PortEvent) : State :=
      { s with now := now, link := { s.link with frame := g }, emitted := s.emitted ++ out }
    (∀ start b, start = true ∧ s.link.frame = none ∨ start = false ∧ s.link.frame ≠ none →
        let ok : Bool := s.link.enabled && !f.naked && byteInRange f.bytes b
        exec (.linkByteReceived now start b) s = .next (hold
          (some { f with
            bytes := f.bytes ++ [b]
            naked := f.naked || !ok
            nakedDisabled := f.nakedDisabled || !s.link.enabled
            sample := if ok && f.bytes.isEmpty && b == 0x80 then some (linkStatusByte s) else f.sample })
          [if ok then .linkAck else .linkNak]))
      ∧ (∀ b, s.link.frame = none → exec (.linkByteReceived now false b) s = .next (hold none [.linkNak]))
      ∧ (∀ b g, s.link.frame = some g →
        exec (.linkByteReceived now true b) s =
          .next (receiveByte b ((settle (endFrame g { s with now := now })).setFrame (some Frame.begun))))
      ∧ (∀ g, s.link.frame = some g → g.complete s.link = false → g.statusDone s.link = false →
        endFrame g s =
          if s.link.enabled = true ∧ g.nakedDisabled = false then
            raise { kind := .linkFormat, packet := some (packetHead g.bytes) } (s.setFrame none)
          else s.setFrame none)
      ∧ (f.complete s.link = true → exec (.frameDiscard now) s = .next { s with now := now })
      ∧ (f.complete s.link = false → f.statusDone s.link = true → s.deferred = [] →
        exec (.frameDiscard now) s = .next (hold none []))
      ∧ (f.complete s.link = false → f.statusDone s.link = false → s.deferred = [] →
        (s.link.enabled = false ∨ f.nakedDisabled = true) → exec (.frameDiscard now) s = .next (hold none []))
      ∧ (f.complete s.link = false → f.statusDone s.link = false → s.link.enabled = true → f.nakedDisabled = false →
        exec (.frameDiscard now) s = .next (settle (raise
          { kind := .linkFormat, packet := some (packetHead f.bytes) } (hold none []))))
      ∧ (s.link.frame = none → s.link.enabled = true →
        exec (.statusRead now) s = .next (hold
          (some { bytes := [0x80], naked := false, nakedDisabled := false, sample := some (linkStatusByte s), sent := 1 })
          [.linkAck, .linkSend (linkStatusByte s)]))
      ∧ (s.link.frame = none → s.link.enabled = false →
        exec (.statusRead now) s = .next (hold
          (some { bytes := [0x80], naked := true, nakedDisabled := true, sample := none, sent := 0 }) [.linkNak]))
      ∧ (∀ g b, s.link.frame = some g → g.bytes ≠ [] → g.sample = some b →
        exec (.statusRead now) s = .next (hold (some { g with sent := g.sent + 1 })
          [.linkSend (if g.sent = 0 then b else 0xFF)]))
      ∧ (∀ g, s.link.frame = some g → g.bytes ≠ [] → g.sample = none →
        exec (.statusRead now) s = .next { s with now := now })

/-! ### Part mode -/

/-- ENABLE stores its flag and interval; in PASSIVE the part becomes ACTIVE with a MODE report and result word 1, in ACTIVE
nothing more happens, result word 0. It is refused MODE in BYPASS and BAD-PARAM on a field out of range (R160). -/
def Obligations.EnableActivatesPassivePart : Prop :=
  ∀ (now : Stamp) (c : CellCommand) (s : State), Idle c s → Calm s →
    let hold := (pByte c.params 0).toNat
    let interval := (pByte c.params 1).toNat
    let inRange : Prop := hold ≤ 1 ∧ 1 ≤ interval ∧ interval ≤ 60
    let stored (u : State) (m : Mode) : State :=
      { u with modeControl := { u.modeControl with mode := m, holdOnFault := hold == 1, interval := interval } }
    (inRange → s.mode = .passive →
        exec (.enable now c) s = .next (afterReply 0x01 now c (.done 1)
          (fun u => offer (modeReport .active .enable none none 0 u) (stored u .active)) s))
      ∧ (inRange → s.mode = .active →
        exec (.enable now c) s = .next (afterReply 0x01 now c (.done 0) (fun u => stored u .active) s))
      ∧ (inRange → s.mode = .bypass → exec (.enable now c) s = .next (afterReply 0x01 now c (.refused .mode) id s))
      ∧ (¬inRange → exec (.enable now c) s = .next (afterReply 0x01 now c (.refused .badParam) id s))

/-- DISABLE takes an ACTIVE or BYPASS part to PASSIVE: every break entry and local slot leaves, every alert ends, every
component shows the network, and the result word is the number of entries and slots removed; held flags, bindings,
windows, groups, the link and the Error Log's policies stand (R12, R161), and so does the bypass stamp of a part disabled in
BYPASS (DEDUCED, log 36). In PASSIVE it is refused MODE. -/
def Obligations.DisableEmptiesPartToPassive : Prop :=
  ∀ (now : Stamp) (c : CellCommand) (s : State), Idle c s → Calm s →
    (s.mode ≠ .passive →
        ∃ t, exec (.disable now c) s = .next t
          ∧ Answered 0x02 c
              (.done (BitVec.ofNat 32 ((allServices.map fun i => (s.service i).schedule.length
                + (s.service i).slotA.isSome.toNat + (s.service i).slotB.isSome.toNat).sum))) s t
          ∧ t.modeControl = { s.modeControl with mode := .passive, timer := none }
          ∧ (∀ i, (s.service i).window ≠ none →
              (t.service i).schedule = [] ∧ (t.service i).slotA = none ∧ (t.service i).slotB = none)
          ∧ (∀ i, ∀ d ∈ (t.service i).comps, d.cur = .network ∧ d.rejoin = false ∧ d.ccOffset = 0 ∧ d.alert = .none)
          ∧ (∀ i, (t.service i).comps.map (fun d => (d.pid, d.kind, d.outCc))
              = (s.service i).comps.map fun d => (d.pid, d.kind, d.outCc))
          ∧ (∀ i, (t.service i).held = (s.service i).held ∧ (t.service i).avails = (s.service i).avails
              ∧ (t.service i).window = (s.service i).window ∧ (t.service i).track = (s.service i).track)
          ∧ (∀ k, t.alert k = none) ∧ (∀ k, (t.source k).config = (s.source k).config)
          ∧ (∀ k, (vget t.kinds k).masked = (vget s.kinds k).masked ∧ (vget t.kinds k).severity = (vget s.kinds k).severity)
          ∧ t.groups = s.groups ∧ t.link = s.link ∧ SamePath s t ∧ SameFixed s t)
      ∧ (s.mode = .passive → exec (.disable now c) s = .next (afterReply 0x02 now c (.refused .mode) id s))

/-- The recovery timer's expiry and RESUME return the part from BYPASS to ACTIVE with a MODE report that carries the bypass
stamp and the ticks since; the stamp then becomes absent (R170, R171). RESUME is refused MODE outside BYPASS, whatever the
stamp. Before the timer's expiry, or with no timer, the row changes the stamp input alone (DESIGN CHOICE, log 3). -/
def Obligations.RecoveryAndResumeReturnToActive : Prop :=
  ∀ (now : Stamp) (s : State),
    let back (cause : Cause) (st : Stamp) (u : State) : State :=
      let v : State := { u with modeControl := { s.modeControl with mode := .active, timer := none } }
      { offer (modeReport .active cause none (some st) (now - st) v) v with
        modeControl := { s.modeControl with mode := .active, timer := none, bypassStamp := none } }
    (∀ e st, s.modeControl.timer = some e → s.modeControl.bypassStamp = some st → atOrAfter now e = true →
        exec (.recoveryTimerExpiry now) s = .next (settle (back .recovery st { s with now := now })))
      ∧ (∀ e, s.modeControl.timer = some e → before now e = true →
        exec (.recoveryTimerExpiry now) s = .next { s with now := now })
      ∧ (s.modeControl.timer = none → exec (.recoveryTimerExpiry now) s = .next { s with now := now })
      ∧ (∀ c st, Idle c s → Calm s → s.mode = .bypass → s.modeControl.bypassStamp = some st →
        exec (.resume now c) s = .next (afterReply 0x42 now c (.done (now - st)) (back .resume st) s))
      ∧ (∀ c, Idle c s → s.mode ≠ .bypass →
        exec (.resume now c) s = .next (afterReply 0x42 now c (.refused .mode) id s))

/-! ### Roles, policies, errors and reports -/

/-- REQUESTER ROLE SET writes one entry of the Requester Role Map; it is refused BAD-PARAM for an ID above 63, a code that
is no role, and ID 0 (R25). -/
def Obligations.RoleSetWritesOneEntry : Prop :=
  ∀ (now : Stamp) (c : CellCommand) (s : State), Idle c s →
    (∀ (q : RequesterId) role, (pByte c.params 0).toNat = q.val → q ≠ 0 → roleOfCode (pByte c.params 1) = some role →
        exec (.requesterRoleSet now c) s =
          .next (afterReply 0x05 now c (.done 0) (fun u => { u with roles := vset u.roles q role }) s))
      ∧ (63 < (pByte c.params 0).toNat ∨ roleOfCode (pByte c.params 1) = none ∨ pByte c.params 0 = 0 →
        exec (.requesterRoleSet now c) s = .next (afterReply 0x05 now c (.refused .badParam) id s))

/-- ERROR POLICY gives a kind its policy and severity and keeps its status and counter; it is refused BAD-PARAM for a code
outside 1 to 22, a policy or severity out of range, and READ-TIMEOUT (R166). -/
def Obligations.ErrorPolicySetsKind : Prop :=
  ∀ (now : Stamp) (c : CellCommand) (s : State), Idle c s →
    let policy := (pByte c.params 1).toNat
    (∀ (k : Fin 22) severity, (pByte c.params 0).toNat = k.val + 1 → k ≠ ErrorKind.readTimeout.ix → policy ≤ 1 →
        severityOfCode (pByte c.params 2) = some severity →
        exec (.errorPolicy now c) s = .next (afterReply 0x40 now c (.done 0)
          (fun u => { u with
            kinds := vset u.kinds k { vget u.kinds k with masked := policy == 1, severity := severity } }) s))
      ∧ ((pByte c.params 0).toNat = 0 ∨ 22 < (pByte c.params 0).toNat ∨ 1 < policy
          ∨ severityOfCode (pByte c.params 2) = none ∨ (pByte c.params 0).toNat = 18 →
        exec (.errorPolicy now c) s = .next (afterReply 0x40 now c (.refused .badParam) id s))

/-- ERROR CLEAR clears the status and counter of the kinds named and, with the record flag, the first-error record; its
result word counts the named kinds whose status was set; another record flag is refused BAD-PARAM (R167). -/
def Obligations.ErrorClearClearsNamedKinds : Prop :=
  ∀ (now : Stamp) (c : CellCommand) (s : State), Idle c s →
    let named (k : Fin 22) : Bool := (pWord c.params 0).getLsbD (k.val + 1)
    let flag := (pByte c.params 4).toNat
    (flag ≤ 1 →
        ∃ t, exec (.errorClear now c) s = .next t
          ∧ Answered 0x41 c
              (.done (BitVec.ofNat 32 (allKinds.countP fun k => named k && (vget s.kinds k).status))) s t
          ∧ (∀ k, vget t.kinds k =
              if named k then { vget s.kinds k with status := false, counter := 0 } else vget s.kinds k)
          ∧ t.firstError = (if flag = 1 then none else s.firstError)
          ∧ t.multiple = (if flag = 1 then false else s.multiple)
          ∧ t.modeControl = s.modeControl ∧ t.ring = s.ring ∧ SameSchedule s t ∧ SameAlerts s t ∧ SamePath s t
          ∧ SameFixed s t)
      ∧ (1 < flag → exec (.errorClear now c) s = .next (afterReply 0x41 now c (.refused .badParam) id s))

/-- REPORT RING SET with a count of 0 undefines the ring; with a count, base and place that pass its checks it defines it,
writes 0 to the producer-index word, and writes a GAP record when reports have been dropped (R172). That the word is
written as its 4 bytes alone, with no beat around them, is the model's choice (DESIGN CHOICE, log 54). -/
def Obligations.RingSetDefinesOrUndefinesRing : Prop :=
  ∀ (now : Stamp) (c : CellCommand) (base : Addr) (s : State), Idle c s → pAddr c.params 4 = some base →
    let n := pField c.params 9 2
    let fitting : Prop := 16 ≤ n ∧ n ≤ 4096 ∧ base.toNat % 32 = 0 ∧ base.toNat + 32 * n ≤ 2 ^ 36
    let clash : Bool :=
      s.meetsService base.toNat (32 * n) || s.meetsSource base.toNat (32 * n)
        || s.meetsControl controlSize base.toNat (32 * n)
    let defined (u : State) : State :=
      handWrite true (u.strapBase + 0x020) (enabledBytes [0, 0, 0, 0]) { u with
        ring :=
          { defn := some { base := base, count := n }, producer := 0, consumer := 0, dropped := u.ring.dropped,
            overflow := false } }
    (n = 0 →
        exec (.reportRingSet now c) s = .next (afterReply 0x43 now c (.done 0)
          (fun u => { u with
            ring := { defn := none, producer := 0, consumer := 0, dropped := u.ring.dropped, overflow := false } }) s))
      ∧ (fitting → clash = false → s.ring.dropped = 0 →
        exec (.reportRingSet now c) s = .next (afterReply 0x43 now c (.done 0) defined s))
      ∧ (fitting → clash = false → s.ring.dropped ≠ 0 →
        exec (.reportRingSet now c) s = .next (afterReply 0x43 now c (.done s.ring.dropped)
          (fun u => putGap { base := base, count := n } (defined u)) s))
      ∧ (n ≠ 0 → ¬fitting → exec (.reportRingSet now c) s = .next (afterReply 0x43 now c (.refused .badParam) id s))
      ∧ (fitting → clash = true → exec (.reportRingSet now c) s = .next (afterReply 0x43 now c (.refused .overlap) id s))

/-- Offering a report (R174): dropped and counted while no ring is defined; written at the producer index, which
advances, when nothing has been dropped and a position is free; after a GAP record when reports have been dropped and
two positions are free; otherwise dropped and counted, and, the overflow flag being clear, sets it and raises
REPORT-OVERFLOW, whose own report, unless the kind is masked, is dropped and counted too. Raising an error (R164, R165):
its kind's status is set and its counter advanced to at most 65,535, and the action of its severity is put off; a
reported kind is captured in an empty first-error record, or sets the multiple flag, and offers an ERROR report with the
kind code, the action taken (NOTICE for a SERVICE error of no DEFINED service), the service, the requester, the clock,
the advanced counter and the source (R175). That an error stays the first when its own report overflows the ring is
DEDUCED (log 15). The actions put off are carried out in the order of their errors, one raised meanwhile after the one
that raised it: SERVICE holds the DEFINED service named with cause ERROR, reporting HELD and ending its break and local
programme (R18, R21; the report first is DEDUCED, log 16); FATAL does nothing in PASSIVE, starts a running recovery
timer afresh in BYPASS, and enters BYPASS from ACTIVE (R165, R169). That whether the service is DEFINED is judged for
the report as the error is raised, and for the hold as the action runs, is the model's choice (DESIGN CHOICE, log 53);
so is that the producer-index word is written as its 4 bytes alone, with no beat around them (DESIGN CHOICE, log 54). -/
def Obligations.ReportsAndErrorsAreLogged : Prop :=
  (∀ (r : Report) (s : State),
      let fill (d : RingDef) : Nat := (s.ring.producer + d.count - s.ring.consumer) % d.count
      let put (d : RingDef) (record : Report) (u : State) : State :=
        { handWrite true (u.strapBase + 0x020) (enabledBytes (beBytes 4 (nextSlot d.count u.ring.producer)))
            (handWrite true (d.base + BitVec.ofNat 36 (32 * u.ring.producer)) (enabledBytes record.bytes) u) with
          ring := { u.ring with producer := nextSlot d.count u.ring.producer, overflow := false } }
      let gap : Report :=
        { kind := .gap, subkind := 0, cause := .none, service := none, id := none, first := some s.now, second := none,
          count := s.ring.dropped, source := none }
      let gapped (d : RingDef) : State :=
        { put d gap s with ring := { (put d gap s).ring with dropped := 0 } }
      let more (n : BitVec 32) : BitVec 32 := if n = 0xFFFFFFFF then 0xFFFFFFFF else n + 1
      let lost : State := { s with ring := { s.ring with dropped := more s.ring.dropped } }
      (s.ring.defn = none → offer r s = lost)
        ∧ (∀ d, s.ring.defn = some d → s.ring.dropped = 0 → 1 ≤ d.count - 1 - fill d → offer r s = put d r s)
        ∧ (∀ d, s.ring.defn = some d → s.ring.dropped ≠ 0 → 2 ≤ d.count - 1 - fill d →
          offer r s = put d r (gapped d))
        ∧ (∀ d, s.ring.defn = some d →
          (d.count - 1 - fill d = 0 ∨ s.ring.dropped ≠ 0 ∧ d.count - 1 - fill d < 2) → s.ring.overflow = true →
          offer r s = lost)
        ∧ (∀ d, s.ring.defn = some d →
          (d.count - 1 - fill d = 0 ∨ s.ring.dropped ≠ 0 ∧ d.count - 1 - fill d < 2) → s.ring.overflow = false →
          let t := offer r s
          let l := s.kindLog .reportOverflow
          t.ring =
              { s.ring with
                overflow := true
                dropped := if l.masked then more s.ring.dropped else more (more s.ring.dropped) }
            ∧ (t.kindLog .reportOverflow).status = true
            ∧ (t.kindLog .reportOverflow).counter = (if l.counter = 0xFFFF then 0xFFFF else l.counter + 1)
            ∧ (l.masked = false → s.firstError = none → t.firstError =
              some { kind := .reportOverflow, stamp := s.now, service := none, requester := none, addr := none,
                     packet := none })
            ∧ (l.masked = false → s.firstError ≠ none → t.firstError = s.firstError ∧ t.multiple = true)
            ∧ (l.masked = true → t.firstError = s.firstError ∧ t.multiple = s.multiple)
            ∧ t.emitted = s.emitted ∧ t.issueQueue = s.issueQueue ∧ SameSchedule s t ∧ SameAlerts s t))
    ∧ (∀ (e : ErrorEvent) (s : State),
      let l := s.kindLog e.kind
      let count := if l.counter = 0xFFFF then 0xFFFF else l.counter + 1
      let action : List Deferred :=
        match l.severity with
        | .notice => []
        | .service => [.hold e.service]
        | .fatal => [.fatal e.kind]
      let logged : State :=
        { s with
          kinds := vset s.kinds e.kind.ix { l with status := true, counter := count }
          deferred := s.deferred ++ action }
      let captured : State :=
        if s.firstError = none then
          { logged with
            firstError := some
              { kind := e.kind, stamp := s.now, service := e.service, requester := e.requester, addr := e.addr,
                packet := e.packet } }
        else { logged with multiple := true }
      let report (taken : Severity) : Report :=
        { kind := .error, subkind := BitVec.ofNat 8 (e.kind.ix.val + 1), cause := .action taken, service := e.service,
          id := e.requester.map fun q => BitVec.ofNat 32 q.val, first := some s.now, second := none,
          count := BitVec.ofNat 32 count.toNat, source := e.source }
      let held : Prop := ∃ i, e.service = some i ∧ (s.service i).window ≠ none
      (l.masked = true → raise e s = logged)
        ∧ (l.masked = false → (l.severity ≠ .service ∨ held) → raise e s = offer (report l.severity) captured)
        ∧ (l.masked = false → l.severity = .service → ¬held → raise e s = offer (report .notice) captured))
    ∧ (∀ (d : Deferred) (more : List Deferred) (s : State),
      let u : State := { s with deferred := more }
      let restarted : State :=
        { u with modeControl :=
            { s.modeControl with timer := some (s.now + BitVec.ofNat 32 (s.modeControl.interval * 90000)) } }
      (s.deferred = [] → settle s = s)
        ∧ (Calm s → s.deferred = d :: more → settle s = settle (runAction d u))
        ∧ (d = .hold none → runAction d u = u)
        ∧ (∀ i, d = .hold (some i) → (s.service i).window = none → runAction d u = u)
        ∧ (∀ i, d = .hold (some i) → (s.service i).window ≠ none →
          let flagged : State := { u with services := vset s.services i { s.service i with held := some .error } }
          let ended : State := endRunningSlot i .held s.now (endActiveBreak i .held s.now (offer
            { kind := .service, subkind := Subkind.held.code, cause := .error, service := some i, id := none,
              first := some s.now, second := none, count := 0, source := none } flagged))
          ((s.service i).held ≠ none → runAction d u = flagged)
            ∧ ((s.service i).held = none →
              runAction d u = ended.modService i fun v => { v with mode := .network }))
        ∧ (∀ k, d = .fatal k → s.mode = .passive → runAction d u = u)
        ∧ (∀ k, d = .fatal k → s.mode = .bypass → s.modeControl.timer = none → runAction d u = u)
        ∧ (∀ k, d = .fatal k → s.mode = .bypass → s.modeControl.timer ≠ none → runAction d u = restarted)
        ∧ (∀ k, d = .fatal k → s.mode = .active → runAction d u = enterBypass k u))
    ∧ ∀ (e : ErrorEvent) (s : State), e.kind ≠ .reportOverflow →
      let t := raise e s
      let l := s.kindLog e.kind
      (t.kindLog e.kind).status = true
        ∧ (t.kindLog e.kind).counter = (if l.counter = 0xFFFF then 0xFFFF else l.counter + 1)
        ∧ (l.masked = false → s.firstError = none →
          t.firstError = some
            { kind := e.kind, stamp := s.now, service := e.service, requester := e.requester, addr := e.addr,
              packet := e.packet })
        ∧ (l.masked = false → s.firstError ≠ none → t.firstError = s.firstError ∧ t.multiple = true)
        ∧ (l.masked = true → t.firstError = s.firstError ∧ t.multiple = s.multiple ∧ t.ring = s.ring
          ∧ t.emitted = s.emitted ∧ t.issueQueue = s.issueQueue)
        ∧ (l.severity = .fatal → .fatal e.kind ∈ t.deferred)
        ∧ (l.severity = .service → .hold e.service ∈ t.deferred)

/-! ### Services -/

/-- SERVICE DEFINE that passes its checks makes the record DEFINED with the window, cue PID and components given and every
other field at its definition value, and then gives it the alert owner that covers it (R6, R136, R137). -/
def Obligations.ServiceDefineMakesFreshService : Prop :=
  ∀ (now : Stamp) (c : CellCommand) (i : ServiceIx) (comps : List Component) (w : Window) (s : State), Idle c s →
    pIndex 48 c.params 0 = some i → (s.service i).window = none → pOptPid c.params 2 ≠ .malformed →
    pComponents c.params (pOptPid c.params 2).toOption = some comps → pWindow c.params 16 = some w →
    s.windowClash w = false →
    let fresh : Service :=
      { Service.unused with window := some w, cuePid := (pOptPid c.params 2).toOption, comps := comps }
    let owner := (s.winner i allAlerts none).map (·.1)
    exec (.serviceDefine now c) s = .next (afterReply 0x10 now c (.done 0)
      (fun u => { u with
        services := vset u.services i
          (if owner.isSome then fresh.giveOwner owner (s.ownerGroup owner) else fresh) }) s)

/-- SERVICE REMOVE ends and cancels everything the service has and leaves its record UNUSED; its result word is the number
of entries and slots removed, and its reads in the RTT are classified and rewritten without its records (R6, R7, R8; the
mark is log 13). -/
def Obligations.ServiceRemoveLeavesUnusedRecord : Prop :=
  ∀ (now : Stamp) (c : CellCommand) (i : ServiceIx) (s : State), Idle c s → Calm s →
    pIndex 48 c.params 0 = some i →
    ((s.service i).window ≠ none →
        ∃ t, exec (.serviceRemove now c) s = .next t
          ∧ Answered 0x11 c
              (.done (BitVec.ofNat 32 ((s.service i).schedule.length
                + (s.service i).slotA.isSome.toNat + (s.service i).slotB.isSome.toNat))) s t
          ∧ t.service i = Service.unused ∧ OtherServices i s t
          ∧ (∀ x, t.entry x = (s.entry x).map fun e =>
              if e.kind = .slot i then { e with stale := true } else e)
          ∧ (∀ k, (t.source k).config = (s.source k).config) ∧ SameAlerts s t ∧ SameFixed s t
          ∧ t.modeControl = s.modeControl ∧ t.outstanding = s.outstanding)
      ∧ ((s.service i).window = none →
        exec (.serviceRemove now c) s = .next (afterReply 0x11 now c (.refused .notDefined) id s))

/-- COMPONENT SET replaces the component list, keeping the continuity state of PIDs in both lists and the clock track of an
unchanged PCR PID; it is refused BUSY while the service is in BREAK or LOCAL or has an alert owner (R9). SERVICE OPTIONS
stores its five options; a change of the exempt flag recomputes the service's ownership (R10). -/
def Obligations.ComponentSetAndOptionsReplaceFields : Prop :=
  ∀ (now : Stamp) (c : CellCommand) (i : ServiceIx) (s : State), Idle c s →
    pIndex 48 c.params 0 = some i → (s.service i).window ≠ none →
    let v := s.service i
    let keep (n : Component) : Component :=
      match v.comps.find? fun o => o.pid == n.pid with
      | some o => { n with cur := o.cur, rejoin := o.rejoin, outCc := o.outCc, ccOffset := o.ccOffset }
      | none => n
    let options : Service :=
      { v with
        preRoll := pField c.params 4 2, lateWindow := pField c.params 6 2
        underrunLimit := (pByte c.params 8).toNat, exempt := (pByte c.params 1).getLsbD 0
        cuePid := (pOptPid c.params 2).toOption }
    let inRange : Prop := pField c.params 4 2 ≤ 30000 ∧ pField c.params 6 2 ≤ 5000 ∧ 1 ≤ (pByte c.params 8).toNat
    let cueOk : Prop := pOptPid c.params 2 ≠ .malformed
      ∧ ∀ d ∈ v.comps, some d.pid ≠ (pOptPid c.params 2).toOption
    (∀ list, v.mode = .network → v.owner = none → pComponents c.params v.cuePid = some list →
        exec (.componentSet now c) s = .next (afterReply 0x12 now c (.done 0)
          (fun u => { u with
            services := vset u.services i
              { v with
                comps := list.map keep
                track := if pcrPid list ≠ none ∧ pcrPid list = pcrPid v.comps then v.track else none } }) s))
      ∧ (v.mode ≠ .network ∨ v.owner ≠ none →
        exec (.componentSet now c) s = .next (afterReply 0x12 now c (.refused .busy) id s))
      ∧ (inRange → cueOk → options.exempt = v.exempt →
        exec (.serviceOptions now c) s = .next (afterReply 0x13 now c (.done 0)
          (fun u => { u with services := vset u.services i options }) s))
      ∧ (inRange → cueOk → options.exempt ≠ v.exempt → Calm s →
        exec (.serviceOptions now c) s = .next (afterReply 0x13 now c (.done 0)
          (fun u => recomputeOne i { u with services := vset u.services i options }) s))
      ∧ (¬inRange ∨ ¬cueOk →
        exec (.serviceOptions now c) s = .next (afterReply 0x13 now c (.refused .badParam) id s))

/-- FORCE NETWORK holds every DEFINED service of its mask with cause CONTROL: its break and its local programme end and its
mode becomes NETWORK; the other services stand, and the result word counts those whose flag was clear (R18, R19). -/
def Obligations.ForceNetworkHoldsMaskedServices : Prop :=
  ∀ (now : Stamp) (c : CellCommand) (s : State), Idle c s → Calm s →
    let named (i : ServiceIx) : Bool := (s.service i).window.isSome && (pMask c.params 0).getLsbD i.val
    ∃ t, exec (.forceNetwork now c) s = .next t
      ∧ Answered 0x14 c
          (.done (BitVec.ofNat 32 (allServices.countP fun i => named i && (s.service i).held.isNone))) s t
      ∧ (∀ i, named i = true → (t.service i).held = some .control)
      ∧ (∀ i, named i = true → (s.service i).held = none →
          (t.service i).mode = .network
            ∧ (∀ e, (s.service i).activeHead = some e → (t.service i).findEntry e.event = none)
            ∧ ∀ l p, (s.service i).running = some (l, p) → (t.service i).slot l = none)
      ∧ (∀ i, named i = true → (s.service i).held ≠ none →
          t.service i = { s.service i with held := some .control })
      ∧ (∀ i, named i = false → t.service i = s.service i)
      ∧ (∀ k, (t.source k).config = (s.source k).config) ∧ SameAlerts s t ∧ SamePath s t ∧ SameFixed s t
      ∧ t.modeControl = s.modeControl

/-- RELEASE SERVICE clears a held flag and reports the cause that was held, result word 1; on a service that is not held it
does nothing, result word 0 (R20). -/
def Obligations.ReleaseServiceClearsHeldFlag : Prop :=
  ∀ (now : Stamp) (c : CellCommand) (s : State), Idle c s →
    (∀ i cause, (pByte c.params 0).toNat = i.val → (s.service i).window ≠ none → (s.service i).held = some cause →
        Calm s →
        exec (.releaseService now c) s = .next (afterReply 0x15 now c (.done 1)
          (fun u => offer
            { kind := .service, subkind := 10, cause := cause.cause, service := some i, id := none, first := some now,
              second := none, count := 0, source := none }
            { u with services := vset u.services i { s.service i with held := none } }) s))
      ∧ (∀ i : ServiceIx, (pByte c.params 0).toNat = i.val → (s.service i).window ≠ none → (s.service i).held = none →
        exec (.releaseService now c) s = .next (afterReply 0x15 now c (.done 0) id s))
      ∧ (∀ i : ServiceIx, (pByte c.params 0).toNat = i.val → (s.service i).window = none →
        exec (.releaseService now c) s = .next (afterReply 0x15 now c (.refused .notDefined) id s))
      ∧ (47 < (pByte c.params 0).toNat →
        exec (.releaseService now c) s = .next (afterReply 0x15 now c (.refused .badParam) id s))

/-! ### Sources and avails -/

/-- SOURCE DEFINE of a STREAM source, SOURCE REMOVE and SOURCE FLUSH each set one source record: to its definition values
with the mode, window and minimum fill given, to FREE, or with its unread slots discarded; the result word is 0 or the
fill. They are refused BUSY, NOT-DEFINED or BAD-PARAM as the record stands (R45, R47, R57). -/
def Obligations.SourceCommandsSetRecord : Prop :=
  ∀ (now : Stamp) (c : CellCommand) (k : SourceIx) (s : State), Idle c s → pIndex 32 c.params 0 = some k →
    let r := s.source k
    let put (f : Source) (u : State) : State := { u with sources := vset u.sources k f }
    let fill : BitVec 32 := if r.isStream then BitVec.ofNat 32 r.fill else 0
    (∀ w, r.config = none → pByte c.params 1 = 1 → pWindow c.params 8 = some w → pField c.params 12 3 ≤ w.slots →
        s.windowClash w = false →
        exec (.sourceDefine now c) s = .next (afterReply 0x18 now c (.done 0)
          (put { Source.free with
            config := some { mode := .stream, window := w }, minFill := pField c.params 12 3 }) s))
      ∧ (r.config ≠ none → exec (.sourceDefine now c) s = .next (afterReply 0x18 now c (.refused .busy) id s))
      ∧ (r.config ≠ none → r.attachment = none → r.alertUsers = 0 →
        exec (.sourceRemove now c) s = .next (afterReply 0x19 now c (.done fill) (put Source.free) s))
      ∧ (r.config ≠ none → (r.attachment ≠ none ∨ r.alertUsers ≠ 0) →
        exec (.sourceRemove now c) s = .next (afterReply 0x19 now c (.refused .busy) id s))
      ∧ (r.isStream = true → r.attachment = none →
        exec (.sourceFlush now c) s = .next (afterReply 0x1A now c (.done fill)
          (put { r with
            readIx := r.writeIx, fill := 0, overrunRun := false, discarded := r.discarded + BitVec.ofNat 32 r.fill }) s))
      ∧ (r.isStream = true → r.attachment ≠ none →
        exec (.sourceFlush now c) s = .next (afterReply 0x1A now c (.refused .busy) id s))
      ∧ (r.isLoop = true → exec (.sourceFlush now c) s = .next (afterReply 0x1A now c (.refused .badParam) id s))
      ∧ (r.config = none →
        exec (.sourceRemove now c) s = .next (afterReply 0x19 now c (.refused .notDefined) id s)
          ∧ exec (.sourceFlush now c) s = .next (afterReply 0x1A now c (.refused .notDefined) id s))

/-- AVAIL BIND that passes R73 replaces the avail's binding as a whole (R74). -/
def Obligations.AvailBindReplacesBinding : Prop :=
  ∀ (now : Stamp) (c : CellCommand) (i : ServiceIx) (a : AvailIx) (k : SourceIx) (pairs : List RemapPair) (s : State),
    Idle c s → pIndex 48 c.params 0 = some i → pIndex 16 c.params 1 = some a → pIndex 32 c.params 2 = some k →
    (s.service i).window ≠ none → (s.source k).config ≠ none → pByte c.params 3 ≠ 0 →
    (∀ n : Nat, n < 8 → (pByte c.params 3).getLsbD n = true → n < (s.service i).comps.length) →
    pPairs c.params (inReplaceSet (pByte c.params 3)) = some pairs →
    exec (.availBind now c) s = .next (afterReply 0x20 now c
      (.done (if (vget (s.service i).avails a).isSome then 1 else 0))
      (fun u => { u with
        services := vset u.services i { s.service i with
          avails := vset (s.service i).avails a
            (some { source := k, replaceSet := pByte c.params 3, remap := pairs }) } }) s)

/-- AVAIL UNBIND leaves the avail unbound, with result word 1 when it was bound and 0 when it was not; no entry's copy of a
binding changes (R75). -/
def Obligations.AvailUnbindClearsBinding : Prop :=
  ∀ (now : Stamp) (c : CellCommand) (s : State), Idle c s →
    (∀ (i : ServiceIx) (a : AvailIx), (pByte c.params 0).toNat = i.val → (pByte c.params 1).toNat = a.val →
        (s.service i).window ≠ none →
        exec (.availUnbind now c) s = .next (afterReply 0x21 now c
          (.done (if vget (s.service i).avails a = none then 0 else 1))
          (fun u => { u with
            services := vset u.services i
              { s.service i with avails := vset (s.service i).avails a none } }) s))
      ∧ (47 < (pByte c.params 0).toNat ∨ 15 < (pByte c.params 1).toNat →
        exec (.availUnbind now c) s = .next (afterReply 0x21 now c (.refused .badParam) id s))
      ∧ (∀ (i : ServiceIx) (a : AvailIx), (pByte c.params 0).toNat = i.val → (pByte c.params 1).toNat = a.val →
        (s.service i).window = none →
        exec (.availUnbind now c) s = .next (afterReply 0x21 now c (.refused .notDefined) id s))

/-! ### Breaks and local programmes -/

/-- BREAK INSERT of a new event that is not late inserts a SCHEDULED entry with the next intake number, placed by its
splice stamp, and arms its pre-roll, with NO-TIMER when no channel is free (R78, R79, R81, R86, R90; a moment exactly
2^31 ticks away, log 52); a late one is MISSED at once and a full schedule refused FULL. One that names an entry that is
not ACTIVE gives it the new avail, splice stamp and duration and places it again: a READY entry with the same avail
stays READY, any other is SCHEDULED and armed afresh, a READY one detached first, and UPDATED is reported; a late one
makes the entry leave MISSED LATE (R82; that the whole of case 4 of R81 is late is DEDUCED, log 42; that the report then
carries the entry's own splice stamp, not the request's, is the model's choice, DEDUCED, log 20). BREAK RETURN sets a
return stamp, or keeps an earlier one (R83, R86). -/
def Obligations.BreakInsertAndReturnWriteSchedule : Prop :=
  ∀ (now : Stamp) (c : CellCommand) (i : ServiceIx) (a : AvailIx) (s : State), Idle c s → Calm s →
    pIndex 48 c.params 0 = some i → pIndex 16 c.params 14 = some a → s.mode ≠ .passive → (s.service i).window ≠ none →
    let v := s.service i
    let ev := pWord c.params 2
    let stamp : Stamp := if (pByte c.params 15).getLsbD 0 then now else pWord c.params 6
    let late : Prop :=
      before stamp (now - BitVec.ofNat 32 (v.lateWindow * 90)) = true ∨ farAfter stamp now = true
    let entry : BreakEntry :=
      { event := ev, intake := v.intakeCounter, avail := a, splice := v.clampSplice stamp,
        duration := if pWord c.params 10 = 0 then none else some (pWord c.params 10), ret := none,
        state := .scheduled, binding := none, actualOut := none, actualIn := none, pcrOffset := none, underruns := 0 }
    (v.findEntry ev = none → v.schedule.length < 4 → ¬late →
        (later (entry.splice - BitVec.ofNat 32 (v.preRoll * 90)) now = true → s.bank.length < 64 →
          exec (.breakInsert now c) s = .next (afterReply 0x24 now c (.done 1)
            (fun u => { u with
              services := vset u.services i
                { v with schedule := placeEntry entry v.schedule, intakeCounter := v.intakeCounter + 1 }
              bank := insertChannel
                { deadline := entry.splice - BitVec.ofNat 32 (v.preRoll * 90), owner := .brk i ev } u.bank }) s))
          ∧ (later (entry.splice - BitVec.ofNat 32 (v.preRoll * 90)) now = false →
            exec (.breakInsert now c) s = .next (afterReply 0x24 now c (.done 1)
              (fun u => checkEntry i entry { u with
                services := vset u.services i
                  { v with schedule := placeEntry entry v.schedule, intakeCounter := v.intakeCounter + 1 } }) s))
          ∧ (later (entry.splice - BitVec.ofNat 32 (v.preRoll * 90)) now = true → 64 ≤ s.bank.length →
            exec (.breakInsert now c) s = .next (settle (afterReply 0x24 now c (.done 1)
              (fun u => raise { kind := .noTimer, service := some i } { u with
                services := vset u.services i
                  { v with schedule := placeEntry entry v.schedule, intakeCounter := v.intakeCounter + 1 } }) s))))
      ∧ (v.findEntry ev = none → v.schedule.length < 4 → late →
        exec (.breakInsert now c) s = .next (afterReply 0x24 now c (.done 3)
          (offer (breakReport i ev .missed .late (some stamp) (some now) 0 none)) s))
      ∧ (v.findEntry ev = none → 4 ≤ v.schedule.length →
        exec (.breakInsert now c) s = .next (afterReply 0x24 now c (.refused .full) id s))
      ∧ (∀ e, v.findEntry ev = some e → e.state = .active →
        exec (.breakInsert now c) s = .next (afterReply 0x24 now c (.refused .busy) id s))
      ∧ (∀ e, v.findEntry ev = some e → e.state ≠ .active →
        let updated : BreakEntry :=
          { e with avail := a, splice := entry.splice, duration := entry.duration }
        let replaced (u : State) : State :=
          (disarm (.brk i ev) u).modService i fun w =>
            { w with schedule := placeEntry updated (w.schedule.filter fun y => y.event != ev) }
        let report : Report :=
          breakReport i ev .updated .none (some updated.splice) (e.ret.map (·.stamp)) (pWord c.params 10) none
        let afresh (u : State) : State :=
          armBreak i ev ((if e.state = .ready then detachEntry i e u else u).modEntry i ev fun y =>
            { y with state := .scheduled, binding := none })
        (late →
            exec (.breakInsert now c) s = .next (afterReply 0x24 now c (.done 3)
              (leaveBreak i ev (.missed .late now)) s))
          ∧ (¬late → e.state = .ready → e.avail = a →
            exec (.breakInsert now c) s = .next (afterReply 0x24 now c (.done 2)
              (fun u => offer report (replaced u)) s))
          ∧ (¬late → (e.state ≠ .ready ∨ e.avail ≠ a) →
            exec (.breakInsert now c) s = .next (settle (afterReply 0x24 now c (.done 2)
              (fun u => offer report (afresh (replaced u))) s))))
      ∧ (∀ e, v.findEntry ev = some e → (∀ r, e.ret = some r → before stamp r.stamp = true) →
        exec (.breakReturn now c) s = .next (afterReply 0x25 now c (.done 1)
          (fun u => { u with
            services := vset u.services i
              { v with
                schedule := v.schedule.map fun y =>
                  if y.event = ev then { y with ret := some { stamp := stamp, origin := .cueIn } } else y } }) s))
      ∧ (∀ e r, v.findEntry ev = some e → e.ret = some r → atOrAfter stamp r.stamp = true →
        exec (.breakReturn now c) s = .next (afterReply 0x25 now c (.done 0) id s))
      ∧ (v.findEntry ev = none →
        exec (.breakReturn now c) s = .next (afterReply 0x25 now c (.refused .notDefined) id s))

/-- BREAK CANCEL makes its entry leave, CANCELLED or, when it is ACTIVE, ENDED (R84, R86); BREAK END NOW ends an ACTIVE head
with the event ID given, its result word the ticks it was ACTIVE (R104); LOCAL CANCEL makes the slot with the start stamp
given leave, ENDED when it is RUNNING (R125). One that names nothing is refused NOT-DEFINED. -/
def Obligations.CancelCommandsMakeOwnersLeave : Prop :=
  ∀ (now : Stamp) (c : CellCommand) (i : ServiceIx) (s : State), Idle c s → Calm s →
    pIndex 48 c.params 0 = some i → (s.service i).window ≠ none →
    let v := s.service i
    let ev := pWord c.params 2
    (∀ e, (pByte c.params 14).toNat < 16 → v.findEntry ev = some e → e.state ≠ .active →
        exec (.breakCancel now c) s = .next (afterReply 0x26 now c (.done 1) (leaveBreak i ev .cancelled) s))
      ∧ (∀ e, (pByte c.params 14).toNat < 16 → v.findEntry ev = some e → e.state = .active →
        exec (.breakCancel now c) s =
          .next (afterReply 0x26 now c (.done 2) (leaveBreak i ev (.ended .cancelled now)) s))
      ∧ ((pByte c.params 14).toNat < 16 → v.findEntry ev = none →
        exec (.breakCancel now c) s = .next (afterReply 0x26 now c (.refused .notDefined) id s))
      ∧ (∀ e out, s.mode ≠ .passive → v.activeHead = some e → e.event = ev → e.actualOut = some out →
        exec (.breakEndNow now c) s =
          .next (afterReply 0x27 now c (.done (now - out)) (leaveBreak i ev (.ended .controlEnd now)) s))
      ∧ (s.mode ≠ .passive → (∀ e, v.activeHead = some e → e.event ≠ ev) →
        exec (.breakEndNow now c) s = .next (afterReply 0x27 now c (.refused .notDefined) id s))
      ∧ (∀ l p, letterOfCode (pByte c.params 1) = some l → v.slot l = some p → p.start = pWord c.params 6 →
        (p.state = .running →
          exec (.localCancel now c) s =
            .next (afterReply 0x2D now c (.done 2) (leaveSlot i l (.ended .cancelled now)) s))
        ∧ (p.state ≠ .running →
          exec (.localCancel now c) s = .next (afterReply 0x2D now c (.done 1) (leaveSlot i l .cancelled) s)))
      ∧ (∀ l, letterOfCode (pByte c.params 1) = some l → (∀ p, v.slot l = some p → p.start ≠ pWord c.params 6) →
        exec (.localCancel now c) s = .next (afterReply 0x2D now c (.refused .notDefined) id s))

/-- LOCAL LOAD that passes R117 puts the programme into the slot chosen, LOADED, and arms its pre-roll, with NO-TIMER
when no channel is free (R90; a moment exactly 2^31 ticks away, log 52); a READY slot reloaded with the same source
keeps its attachment and takes the new stamps and remap list, any other is detached or disarmed and loaded afresh; the
result word is the slot's letter (R118). It is refused by the first check of R117 that fails. The next free slot is the
current one, else the other, else FULL; a slot named is NOT-DEFINED when empty and BUSY while it runs. The end stamp
lies 1 to 2^31 − 1 ticks after the start and 1 to 2^30 − 1 after now, and beside the other slot's programme the current
slot's ends first. -/
def Obligations.LocalLoadFillsChosenSlot : Prop :=
  (∀ (now : Stamp) (c : CellCommand) (i : ServiceIx) (k : SourceIx) (sel : Selector) (s : State), Idle c s → Calm s →
    pIndex 48 c.params 0 = some i → pIndex 32 c.params 2 = some k → selectorOfCode (pByte c.params 1) = some sel →
    let v := s.service i
    let start := pWord c.params 6
    let stop := pWord c.params 10
    let pairs := pPairs c.params fun n => decide (n.val < v.comps.length)
    let refused (code : RefusalCode) : Prop :=
      exec (.localLoad now c) s = .next (afterReply 0x2C now c (.refused code) id s)
    let ready : Prop := s.mode ≠ .passive ∧ v.window ≠ none ∧ (s.source k).config ≠ none
    (s.mode = .passive → refused .mode)
      ∧ (s.mode ≠ .passive → v.window = none → refused .notDefined)
      ∧ (s.mode ≠ .passive → v.window ≠ none → (s.source k).config = none → refused .notDefined)
      ∧ (ready → (pairs = none ∨ stampsOk start stop now = false) → refused .badParam)
      ∧ (∀ code, ready → pairs ≠ none → stampsOk start stop now = true → chooseSlot v sel = .error code → refused code)
      ∧ (∀ l, ready → pairs ≠ none → stampsOk start stop now = true → chooseSlot v sel = .ok l →
        slotOrderOk v l start stop = false → refused .overlap)
      ∧ ∀ l list, ready → pairs = some list → stampsOk start stop now = true → chooseSlot v sel = .ok l →
        slotOrderOk v l start stop = true →
        let word : BitVec 32 :=
          match l with
          | .a => 1
          | .b => 2
        let prog : LocalProg :=
          { state := .loaded, source := k, start := start, stop := stop, remap := list, actualStart := none,
            actualEnd := none, pcrOffset := none, underruns := 0 }
        let moment := start - BitVec.ofNat 32 (v.preRoll * 90)
        let loaded (effect : State → State) : State := afterReply 0x2C now c (.done word) effect s
        let placed (u : State) : State := { u with services := vset u.services i (v.setSlot l (some prog)) }
        let armed (u : State) : State :=
          if later moment now = false then checkLoaded i l prog (placed u)
          else if u.bank.length < 64 then
            { placed u with bank := insertChannel { deadline := moment, owner := .loc i l } u.bank }
          else raise { kind := .noTimer, service := some i } (placed u)
        (v.slot l = none → later moment now = true → s.bank.length < 64 →
            exec (.localLoad now c) s = .next (loaded fun u =>
              { placed u with bank := insertChannel { deadline := moment, owner := .loc i l } u.bank }))
          ∧ (v.slot l = none → later moment now = false →
            exec (.localLoad now c) s = .next (loaded fun u => checkLoaded i l prog (placed u)))
          ∧ (v.slot l = none → later moment now = true → 64 ≤ s.bank.length →
            exec (.localLoad now c) s = .next (settle (loaded fun u =>
              raise { kind := .noTimer, service := some i } (placed u))))
          ∧ (∀ p, v.slot l = some p → p.state = .ready → p.source = k →
            exec (.localLoad now c) s = .next (loaded fun u => { u with
              services := vset u.services i
                (v.setSlot l (some { p with start := start, stop := stop, remap := list })) }))
          ∧ (∀ p, v.slot l = some p → p.state = .ready → p.source ≠ k →
            exec (.localLoad now c) s = .next (settle (loaded fun u => armed (detach p.source (.loc i l) u))))
          ∧ (∀ p, v.slot l = some p → p.state ≠ .ready →
            exec (.localLoad now c) s = .next (settle (loaded fun u => armed (disarm (.loc i l) u)))))
    ∧ (∀ (now : Stamp) (c : CellCommand) (s : State), Idle c s →
      (pIndex 48 c.params 0 = none ∨ pIndex 32 c.params 2 = none ∨ 2 < (pByte c.params 1).toNat) →
      exec (.localLoad now c) s = .next (afterReply 0x2C now c (.refused .badParam) id s))
    ∧ ∀ (v : Service) (l : SlotLetter) (start stop now : Stamp),
      let other : SlotLetter → SlotLetter := fun
        | .a => .b
        | .b => .a
      (selectorOfCode 0 = some .nextFree ∧ selectorOfCode 1 = some (.reload .a) ∧ selectorOfCode 2 = some (.reload .b))
        ∧ (v.slot v.current = none → chooseSlot v .nextFree = .ok v.current)
        ∧ (v.slot v.current ≠ none → v.slot (other v.current) = none → chooseSlot v .nextFree = .ok (other v.current))
        ∧ (v.slot v.current ≠ none → v.slot (other v.current) ≠ none → chooseSlot v .nextFree = .error .full)
        ∧ (v.slot l = none → chooseSlot v (.reload l) = .error .notDefined)
        ∧ (∀ p, v.slot l = some p → p.state = .running → chooseSlot v (.reload l) = .error .busy)
        ∧ (∀ p, v.slot l = some p → p.state ≠ .running → chooseSlot v (.reload l) = .ok l)
        ∧ (stampsOk start stop now = true ↔
          1 ≤ (stop - start).toNat ∧ (stop - start).toNat < 2 ^ 31 ∧ 1 ≤ (stop - now).toNat
            ∧ (stop - now).toNat < 2 ^ 30)
        ∧ (v.slot (other l) = none → slotOrderOk v l start stop = true)
        ∧ (∀ p, v.slot (other l) = some p → l = v.current → slotOrderOk v l start stop = atOrAfter p.start stop)
        ∧ (∀ p, v.slot (other l) = some p → l ≠ v.current → slotOrderOk v l start stop = atOrAfter start p.stop)

/-- ALERT GROUP SET that passes its checks replaces a group that is not active by the fields given, with no overlay
packet stored; the result word is 1 when the group was defined before; a field out of its range is refused BAD-PARAM, an
active group BUSY, a source that is not DEFINED NOT-DEFINED and one that is not LOOP BAD-PARAM (R130, R177). LINK SET
enables, retimes or disables the link (R153). -/
def Obligations.GroupAndLinkSettingsAreReplaced : Prop :=
  ∀ (now : Stamp) (c : CellCommand) (s : State), Idle c s →
    let interval := (pByte c.params 1).toNat
    let period : Option Period :=
      if interval = 0 then none
      else some { expiry := now + BitVec.ofNat 32 (interval * 90000), seconds := interval }
    let linked (l : Link) (u : State) : State := { u with link := l }
    let p := c.params
    let cadence := (pByte p 3).toNat
    let seconds := pField p 8 2
    let pid := pField p 4 2
    let ranges : Prop := 1 ≤ cadence ∧ 1 ≤ seconds ∧ seconds ≤ 7200 ∧ (pid ≤ 0x1FFE ∨ pid = 0xFFFF)
    let loop (x : SourceIx) : Prop := ∃ win, (s.source x).config = some { mode := .loop, window := win }
    let refused (code : RefusalCode) : Prop :=
      exec (.alertGroupSet now c) s = .next (afterReply 0x30 now c (.refused code) id s)
    (∀ (g : GroupIx) (audio : SourceIx) (slate : Option SourceIx),
        (pByte p 0).toNat = g.val → (pByte p 1).toNat = audio.val →
        (match slate with
          | none => pByte p 2 = 0xFF
          | some x => (pByte p 2).toNat = x.val) →
        ranges →
        let group : AlertGroup :=
          { defined := true, mask := BitVec.ofNat 48 (pField p 16 6), audio := some audio, slate := slate,
            overlayPid := if pid = 0xFFFF then none else some (BitVec.ofNat 13 pid), cadence := cadence,
            preempt := (pByte p 6).getLsbD 0, maxDuration := seconds, store := none }
        let named (x : SourceIx) : Prop := x = audio ∨ slate = some x
        let idle : Prop := ∀ k a, s.alert k = some a → a.group ≠ g
        (idle → (∀ x, named x → loop x) →
            exec (.alertGroupSet now c) s = .next (afterReply 0x30 now c
              (.done (if (s.group g).defined then 1 else 0)) (fun u => { u with groups := vset u.groups g group }) s))
          ∧ (¬idle → refused .busy)
          ∧ (idle → (∃ x, named x ∧ (s.source x).config = none) → refused .notDefined)
          ∧ (idle → (∀ x, named x → (s.source x).config ≠ none) → (∃ x, named x ∧ ¬loop x) → refused .badParam))
      ∧ (¬ranges ∨ 7 < (pByte p 0).toNat ∨ 31 < (pByte p 1).toNat
          ∨ 31 < (pByte p 2).toNat ∧ pByte p 2 ≠ 0xFF → refused .badParam)
      ∧ (pByte c.params 0 = 1 → interval ≤ 60 → s.link.enabled = false →
        exec (.linkSet now c) s = .next (afterReply 0x38 now c (.done 0)
          (linked { s.link with
            enabled := true, interval := interval, lost := false, mark := false, lastKeepalive := none,
            lostStamp := none, period := period }) s))
      ∧ (pByte c.params 0 = 1 → interval ≤ 60 → s.link.enabled = true → s.link.period = none → interval ≠ 0 →
        exec (.linkSet now c) s = .next (afterReply 0x38 now c (.done 0)
          (linked { s.link with interval := interval, mark := false, period := period }) s))
      ∧ (pByte c.params 0 = 1 → interval ≤ 60 → s.link.enabled = true → (s.link.period ≠ none ∨ interval = 0) →
        exec (.linkSet now c) s = .next (afterReply 0x38 now c (.done 0)
          (linked { s.link with interval := interval }) s))
      ∧ (pByte c.params 0 = 0 → interval ≤ 60 →
        exec (.linkSet now c) s = .next (afterReply 0x38 now c (.done 0)
          (linked { s.link with
            enabled := false, interval := interval, arm := none, period := none, lost := false, mark := false }) s))
      ∧ (1 < (pByte c.params 0).toNat ∨ 60 < interval →
        exec (.linkSet now c) s = .next (afterReply 0x38 now c (.refused .badParam) id s))
end

