-- ==== Sys2Proof/Laws/State.lean ====
section
/-! SUPPORT. What each update of State leaves in each field, and reading a table after a write. -/

namespace Sys2Proof.Machine

/-! ### Tables -/

/-- Reading back the record just written. -/
@[simp] theorem vget_vset_self {α : Type} {n : Nat} (v : Vector α n) (i : Fin n) (x : α) :
    vget (vset v i x) i = x := by simp [vget, vset]

/-- Reading a record other than the one written. -/
theorem vget_vset_ne {α : Type} {n : Nat} (v : Vector α n) {i j : Fin n} (x : α) (h : j ≠ i) :
    vget (vset v i x) j = vget v j := by
  have h' : i.val ≠ j.val := fun e => h (Fin.ext e.symm)
  simp [vget, vset, h']

/-- Reading any record after a write. -/
theorem vget_vset {α : Type} {n : Nat} (v : Vector α n) (i j : Fin n) (x : α) :
    vget (vset v i x) j = if j = i then x else vget v j := by
  by_cases h : j = i
  · subst h; simp
  · simp [h, vget_vset_ne v x h]

/-- The second write to a record stands. -/
@[simp] theorem vset_vset {α : Type} {n : Nat} (v : Vector α n) (i : Fin n) (x y : α) :
    vset (vset v i x) i y = vset v i y := by simp [vset]

/-- Writing a record back changes nothing. -/
@[simp] theorem vset_vget {α : Type} {n : Nat} (v : Vector α n) (i : Fin n) : vset v i (vget v i) = v := by
  simp [vset, vget]

/-- Every record of a table filled with one value. -/
@[simp] theorem vget_replicate {α : Type} {n : Nat} (x : α) (i : Fin n) : vget (Vector.replicate n x) i = x := by
  simp [vget]

/-- Reading a table mapped by a function. -/
@[simp] theorem vget_map {α β : Type} {n : Nat} (f : α → β) (v : Vector α n) (i : Fin n) :
    vget (v.map f) i = f (vget v i) := by simp [vget]

/-- Mapping a table after a write. -/
theorem vset_map {α β : Type} {n : Nat} (f : α → β) (v : Vector α n) (i : Fin n) (x : α) :
    (vset v i x).map f = vset (v.map f) i (f x) := by
  ext j hj
  simp only [vset, Vector.getElem_map, Vector.getElem_set]
  split <;> rfl

/-! ### at -/

@[simp] theorem at_pending (s : State) (now : Stamp) :
    (s.at now).pending = s.pending := rfl
@[simp] theorem at_emitted (s : State) (now : Stamp) :
    (s.at now).emitted = s.emitted := rfl
@[simp] theorem at_deferred (s : State) (now : Stamp) :
    (s.at now).deferred = s.deferred := rfl
@[simp] theorem at_freeIndex (s : State) (now : Stamp) :
    (s.at now).freeIndex = s.freeIndex := rfl
@[simp] theorem at_now (s : State) (now : Stamp) :
    (s.at now).now = now := rfl
@[simp] theorem at_straps (s : State) (now : Stamp) :
    (s.at now).straps = s.straps := rfl
@[simp] theorem at_modeControl (s : State) (now : Stamp) :
    (s.at now).modeControl = s.modeControl := rfl
@[simp] theorem at_roles (s : State) (now : Stamp) :
    (s.at now).roles = s.roles := rfl
@[simp] theorem at_rtt (s : State) (now : Stamp) :
    (s.at now).rtt = s.rtt := rfl
@[simp] theorem at_completionOrder (s : State) (now : Stamp) :
    (s.at now).completionOrder = s.completionOrder := rfl
@[simp] theorem at_rewriteOrder (s : State) (now : Stamp) :
    (s.at now).rewriteOrder = s.rewriteOrder := rfl
@[simp] theorem at_sequence (s : State) (now : Stamp) :
    (s.at now).sequence = s.sequence := rfl
@[simp] theorem at_waitingReads (s : State) (now : Stamp) :
    (s.at now).waitingReads = s.waitingReads := rfl
@[simp] theorem at_issueQueue (s : State) (now : Stamp) :
    (s.at now).issueQueue = s.issueQueue := rfl
@[simp] theorem at_outstanding (s : State) (now : Stamp) :
    (s.at now).outstanding = s.outstanding := rfl
@[simp] theorem at_services (s : State) (now : Stamp) :
    (s.at now).services = s.services := rfl
@[simp] theorem at_sources (s : State) (now : Stamp) :
    (s.at now).sources = s.sources := rfl
@[simp] theorem at_bank (s : State) (now : Stamp) :
    (s.at now).bank = s.bank := rfl
@[simp] theorem at_groups (s : State) (now : Stamp) :
    (s.at now).groups = s.groups := rfl
@[simp] theorem at_alerts (s : State) (now : Stamp) :
    (s.at now).alerts = s.alerts := rfl
@[simp] theorem at_activations (s : State) (now : Stamp) :
    (s.at now).activations = s.activations := rfl
@[simp] theorem at_link (s : State) (now : Stamp) :
    (s.at now).link = s.link := rfl
@[simp] theorem at_cells (s : State) (now : Stamp) :
    (s.at now).cells = s.cells := rfl
@[simp] theorem at_intake (s : State) (now : Stamp) :
    (s.at now).intake = s.intake := rfl
@[simp] theorem at_work (s : State) (now : Stamp) :
    (s.at now).work = s.work := rfl
@[simp] theorem at_kinds (s : State) (now : Stamp) :
    (s.at now).kinds = s.kinds := rfl
@[simp] theorem at_firstError (s : State) (now : Stamp) :
    (s.at now).firstError = s.firstError := rfl
@[simp] theorem at_multiple (s : State) (now : Stamp) :
    (s.at now).multiple = s.multiple := rfl
@[simp] theorem at_ring (s : State) (now : Stamp) :
    (s.at now).ring = s.ring := rfl

/-! ### modService -/

@[simp] theorem modService_pending (s : State) (i : ServiceIx) (f : Service → Service) :
    (s.modService i f).pending = s.pending := rfl
@[simp] theorem modService_emitted (s : State) (i : ServiceIx) (f : Service → Service) :
    (s.modService i f).emitted = s.emitted := rfl
@[simp] theorem modService_deferred (s : State) (i : ServiceIx) (f : Service → Service) :
    (s.modService i f).deferred = s.deferred := rfl
@[simp] theorem modService_freeIndex (s : State) (i : ServiceIx) (f : Service → Service) :
    (s.modService i f).freeIndex = s.freeIndex := rfl
@[simp] theorem modService_now (s : State) (i : ServiceIx) (f : Service → Service) :
    (s.modService i f).now = s.now := rfl
@[simp] theorem modService_straps (s : State) (i : ServiceIx) (f : Service → Service) :
    (s.modService i f).straps = s.straps := rfl
@[simp] theorem modService_modeControl (s : State) (i : ServiceIx) (f : Service → Service) :
    (s.modService i f).modeControl = s.modeControl := rfl
@[simp] theorem modService_roles (s : State) (i : ServiceIx) (f : Service → Service) :
    (s.modService i f).roles = s.roles := rfl
@[simp] theorem modService_rtt (s : State) (i : ServiceIx) (f : Service → Service) :
    (s.modService i f).rtt = s.rtt := rfl
@[simp] theorem modService_completionOrder (s : State) (i : ServiceIx) (f : Service → Service) :
    (s.modService i f).completionOrder = s.completionOrder := rfl
@[simp] theorem modService_rewriteOrder (s : State) (i : ServiceIx) (f : Service → Service) :
    (s.modService i f).rewriteOrder = s.rewriteOrder := rfl
@[simp] theorem modService_sequence (s : State) (i : ServiceIx) (f : Service → Service) :
    (s.modService i f).sequence = s.sequence := rfl
@[simp] theorem modService_waitingReads (s : State) (i : ServiceIx) (f : Service → Service) :
    (s.modService i f).waitingReads = s.waitingReads := rfl
@[simp] theorem modService_issueQueue (s : State) (i : ServiceIx) (f : Service → Service) :
    (s.modService i f).issueQueue = s.issueQueue := rfl
@[simp] theorem modService_outstanding (s : State) (i : ServiceIx) (f : Service → Service) :
    (s.modService i f).outstanding = s.outstanding := rfl
@[simp] theorem modService_services (s : State) (i : ServiceIx) (f : Service → Service) :
    (s.modService i f).services = vset s.services i (f (vget s.services i)) := rfl
@[simp] theorem modService_sources (s : State) (i : ServiceIx) (f : Service → Service) :
    (s.modService i f).sources = s.sources := rfl
@[simp] theorem modService_bank (s : State) (i : ServiceIx) (f : Service → Service) :
    (s.modService i f).bank = s.bank := rfl
@[simp] theorem modService_groups (s : State) (i : ServiceIx) (f : Service → Service) :
    (s.modService i f).groups = s.groups := rfl
@[simp] theorem modService_alerts (s : State) (i : ServiceIx) (f : Service → Service) :
    (s.modService i f).alerts = s.alerts := rfl
@[simp] theorem modService_activations (s : State) (i : ServiceIx) (f : Service → Service) :
    (s.modService i f).activations = s.activations := rfl
@[simp] theorem modService_link (s : State) (i : ServiceIx) (f : Service → Service) :
    (s.modService i f).link = s.link := rfl
@[simp] theorem modService_cells (s : State) (i : ServiceIx) (f : Service → Service) :
    (s.modService i f).cells = s.cells := rfl
@[simp] theorem modService_intake (s : State) (i : ServiceIx) (f : Service → Service) :
    (s.modService i f).intake = s.intake := rfl
@[simp] theorem modService_work (s : State) (i : ServiceIx) (f : Service → Service) :
    (s.modService i f).work = s.work := rfl
@[simp] theorem modService_kinds (s : State) (i : ServiceIx) (f : Service → Service) :
    (s.modService i f).kinds = s.kinds := rfl
@[simp] theorem modService_firstError (s : State) (i : ServiceIx) (f : Service → Service) :
    (s.modService i f).firstError = s.firstError := rfl
@[simp] theorem modService_multiple (s : State) (i : ServiceIx) (f : Service → Service) :
    (s.modService i f).multiple = s.multiple := rfl
@[simp] theorem modService_ring (s : State) (i : ServiceIx) (f : Service → Service) :
    (s.modService i f).ring = s.ring := rfl

/-! ### modSource -/

@[simp] theorem modSource_pending (s : State) (k : SourceIx) (f : Source → Source) :
    (s.modSource k f).pending = s.pending := rfl
@[simp] theorem modSource_emitted (s : State) (k : SourceIx) (f : Source → Source) :
    (s.modSource k f).emitted = s.emitted := rfl
@[simp] theorem modSource_deferred (s : State) (k : SourceIx) (f : Source → Source) :
    (s.modSource k f).deferred = s.deferred := rfl
@[simp] theorem modSource_freeIndex (s : State) (k : SourceIx) (f : Source → Source) :
    (s.modSource k f).freeIndex = s.freeIndex := rfl
@[simp] theorem modSource_now (s : State) (k : SourceIx) (f : Source → Source) :
    (s.modSource k f).now = s.now := rfl
@[simp] theorem modSource_straps (s : State) (k : SourceIx) (f : Source → Source) :
    (s.modSource k f).straps = s.straps := rfl
@[simp] theorem modSource_modeControl (s : State) (k : SourceIx) (f : Source → Source) :
    (s.modSource k f).modeControl = s.modeControl := rfl
@[simp] theorem modSource_roles (s : State) (k : SourceIx) (f : Source → Source) :
    (s.modSource k f).roles = s.roles := rfl
@[simp] theorem modSource_rtt (s : State) (k : SourceIx) (f : Source → Source) :
    (s.modSource k f).rtt = s.rtt := rfl
@[simp] theorem modSource_completionOrder (s : State) (k : SourceIx) (f : Source → Source) :
    (s.modSource k f).completionOrder = s.completionOrder := rfl
@[simp] theorem modSource_rewriteOrder (s : State) (k : SourceIx) (f : Source → Source) :
    (s.modSource k f).rewriteOrder = s.rewriteOrder := rfl
@[simp] theorem modSource_sequence (s : State) (k : SourceIx) (f : Source → Source) :
    (s.modSource k f).sequence = s.sequence := rfl
@[simp] theorem modSource_waitingReads (s : State) (k : SourceIx) (f : Source → Source) :
    (s.modSource k f).waitingReads = s.waitingReads := rfl
@[simp] theorem modSource_issueQueue (s : State) (k : SourceIx) (f : Source → Source) :
    (s.modSource k f).issueQueue = s.issueQueue := rfl
@[simp] theorem modSource_outstanding (s : State) (k : SourceIx) (f : Source → Source) :
    (s.modSource k f).outstanding = s.outstanding := rfl
@[simp] theorem modSource_services (s : State) (k : SourceIx) (f : Source → Source) :
    (s.modSource k f).services = s.services := rfl
@[simp] theorem modSource_sources (s : State) (k : SourceIx) (f : Source → Source) :
    (s.modSource k f).sources = vset s.sources k (f (vget s.sources k)) := rfl
@[simp] theorem modSource_bank (s : State) (k : SourceIx) (f : Source → Source) :
    (s.modSource k f).bank = s.bank := rfl
@[simp] theorem modSource_groups (s : State) (k : SourceIx) (f : Source → Source) :
    (s.modSource k f).groups = s.groups := rfl
@[simp] theorem modSource_alerts (s : State) (k : SourceIx) (f : Source → Source) :
    (s.modSource k f).alerts = s.alerts := rfl
@[simp] theorem modSource_activations (s : State) (k : SourceIx) (f : Source → Source) :
    (s.modSource k f).activations = s.activations := rfl
@[simp] theorem modSource_link (s : State) (k : SourceIx) (f : Source → Source) :
    (s.modSource k f).link = s.link := rfl
@[simp] theorem modSource_cells (s : State) (k : SourceIx) (f : Source → Source) :
    (s.modSource k f).cells = s.cells := rfl
@[simp] theorem modSource_intake (s : State) (k : SourceIx) (f : Source → Source) :
    (s.modSource k f).intake = s.intake := rfl
@[simp] theorem modSource_work (s : State) (k : SourceIx) (f : Source → Source) :
    (s.modSource k f).work = s.work := rfl
@[simp] theorem modSource_kinds (s : State) (k : SourceIx) (f : Source → Source) :
    (s.modSource k f).kinds = s.kinds := rfl
@[simp] theorem modSource_firstError (s : State) (k : SourceIx) (f : Source → Source) :
    (s.modSource k f).firstError = s.firstError := rfl
@[simp] theorem modSource_multiple (s : State) (k : SourceIx) (f : Source → Source) :
    (s.modSource k f).multiple = s.multiple := rfl
@[simp] theorem modSource_ring (s : State) (k : SourceIx) (f : Source → Source) :
    (s.modSource k f).ring = s.ring := rfl

/-! ### setAlert -/

@[simp] theorem setAlert_pending (s : State) (k : AlertIx) (a : Option Alert) :
    (s.setAlert k a).pending = s.pending := rfl
@[simp] theorem setAlert_emitted (s : State) (k : AlertIx) (a : Option Alert) :
    (s.setAlert k a).emitted = s.emitted := rfl
@[simp] theorem setAlert_deferred (s : State) (k : AlertIx) (a : Option Alert) :
    (s.setAlert k a).deferred = s.deferred := rfl
@[simp] theorem setAlert_freeIndex (s : State) (k : AlertIx) (a : Option Alert) :
    (s.setAlert k a).freeIndex = s.freeIndex := rfl
@[simp] theorem setAlert_now (s : State) (k : AlertIx) (a : Option Alert) :
    (s.setAlert k a).now = s.now := rfl
@[simp] theorem setAlert_straps (s : State) (k : AlertIx) (a : Option Alert) :
    (s.setAlert k a).straps = s.straps := rfl
@[simp] theorem setAlert_modeControl (s : State) (k : AlertIx) (a : Option Alert) :
    (s.setAlert k a).modeControl = s.modeControl := rfl
@[simp] theorem setAlert_roles (s : State) (k : AlertIx) (a : Option Alert) :
    (s.setAlert k a).roles = s.roles := rfl
@[simp] theorem setAlert_rtt (s : State) (k : AlertIx) (a : Option Alert) :
    (s.setAlert k a).rtt = s.rtt := rfl
@[simp] theorem setAlert_completionOrder (s : State) (k : AlertIx) (a : Option Alert) :
    (s.setAlert k a).completionOrder = s.completionOrder := rfl
@[simp] theorem setAlert_rewriteOrder (s : State) (k : AlertIx) (a : Option Alert) :
    (s.setAlert k a).rewriteOrder = s.rewriteOrder := rfl
@[simp] theorem setAlert_sequence (s : State) (k : AlertIx) (a : Option Alert) :
    (s.setAlert k a).sequence = s.sequence := rfl
@[simp] theorem setAlert_waitingReads (s : State) (k : AlertIx) (a : Option Alert) :
    (s.setAlert k a).waitingReads = s.waitingReads := rfl
@[simp] theorem setAlert_issueQueue (s : State) (k : AlertIx) (a : Option Alert) :
    (s.setAlert k a).issueQueue = s.issueQueue := rfl
@[simp] theorem setAlert_outstanding (s : State) (k : AlertIx) (a : Option Alert) :
    (s.setAlert k a).outstanding = s.outstanding := rfl
@[simp] theorem setAlert_services (s : State) (k : AlertIx) (a : Option Alert) :
    (s.setAlert k a).services = s.services := rfl
@[simp] theorem setAlert_sources (s : State) (k : AlertIx) (a : Option Alert) :
    (s.setAlert k a).sources = s.sources := rfl
@[simp] theorem setAlert_bank (s : State) (k : AlertIx) (a : Option Alert) :
    (s.setAlert k a).bank = s.bank := rfl
@[simp] theorem setAlert_groups (s : State) (k : AlertIx) (a : Option Alert) :
    (s.setAlert k a).groups = s.groups := rfl
@[simp] theorem setAlert_alerts (s : State) (k : AlertIx) (a : Option Alert) :
    (s.setAlert k a).alerts = vset s.alerts k a := rfl
@[simp] theorem setAlert_activations (s : State) (k : AlertIx) (a : Option Alert) :
    (s.setAlert k a).activations = s.activations := rfl
@[simp] theorem setAlert_link (s : State) (k : AlertIx) (a : Option Alert) :
    (s.setAlert k a).link = s.link := rfl
@[simp] theorem setAlert_cells (s : State) (k : AlertIx) (a : Option Alert) :
    (s.setAlert k a).cells = s.cells := rfl
@[simp] theorem setAlert_intake (s : State) (k : AlertIx) (a : Option Alert) :
    (s.setAlert k a).intake = s.intake := rfl
@[simp] theorem setAlert_work (s : State) (k : AlertIx) (a : Option Alert) :
    (s.setAlert k a).work = s.work := rfl
@[simp] theorem setAlert_kinds (s : State) (k : AlertIx) (a : Option Alert) :
    (s.setAlert k a).kinds = s.kinds := rfl
@[simp] theorem setAlert_firstError (s : State) (k : AlertIx) (a : Option Alert) :
    (s.setAlert k a).firstError = s.firstError := rfl
@[simp] theorem setAlert_multiple (s : State) (k : AlertIx) (a : Option Alert) :
    (s.setAlert k a).multiple = s.multiple := rfl
@[simp] theorem setAlert_ring (s : State) (k : AlertIx) (a : Option Alert) :
    (s.setAlert k a).ring = s.ring := rfl

/-! ### setEntry -/

@[simp] theorem setEntry_pending (s : State) (x : EntryIx) (r : Option RttEntry) :
    (s.setEntry x r).pending = s.pending := rfl
@[simp] theorem setEntry_emitted (s : State) (x : EntryIx) (r : Option RttEntry) :
    (s.setEntry x r).emitted = s.emitted := rfl
@[simp] theorem setEntry_deferred (s : State) (x : EntryIx) (r : Option RttEntry) :
    (s.setEntry x r).deferred = s.deferred := rfl
@[simp] theorem setEntry_freeIndex (s : State) (x : EntryIx) (r : Option RttEntry) :
    (s.setEntry x r).freeIndex = s.freeIndex := rfl
@[simp] theorem setEntry_now (s : State) (x : EntryIx) (r : Option RttEntry) :
    (s.setEntry x r).now = s.now := rfl
@[simp] theorem setEntry_straps (s : State) (x : EntryIx) (r : Option RttEntry) :
    (s.setEntry x r).straps = s.straps := rfl
@[simp] theorem setEntry_modeControl (s : State) (x : EntryIx) (r : Option RttEntry) :
    (s.setEntry x r).modeControl = s.modeControl := rfl
@[simp] theorem setEntry_roles (s : State) (x : EntryIx) (r : Option RttEntry) :
    (s.setEntry x r).roles = s.roles := rfl
@[simp] theorem setEntry_rtt (s : State) (x : EntryIx) (r : Option RttEntry) :
    (s.setEntry x r).rtt = vset s.rtt x r := rfl
@[simp] theorem setEntry_completionOrder (s : State) (x : EntryIx) (r : Option RttEntry) :
    (s.setEntry x r).completionOrder = s.completionOrder := rfl
@[simp] theorem setEntry_rewriteOrder (s : State) (x : EntryIx) (r : Option RttEntry) :
    (s.setEntry x r).rewriteOrder = s.rewriteOrder := rfl
@[simp] theorem setEntry_sequence (s : State) (x : EntryIx) (r : Option RttEntry) :
    (s.setEntry x r).sequence = s.sequence := rfl
@[simp] theorem setEntry_waitingReads (s : State) (x : EntryIx) (r : Option RttEntry) :
    (s.setEntry x r).waitingReads = s.waitingReads := rfl
@[simp] theorem setEntry_issueQueue (s : State) (x : EntryIx) (r : Option RttEntry) :
    (s.setEntry x r).issueQueue = s.issueQueue := rfl
@[simp] theorem setEntry_outstanding (s : State) (x : EntryIx) (r : Option RttEntry) :
    (s.setEntry x r).outstanding = s.outstanding := rfl
@[simp] theorem setEntry_services (s : State) (x : EntryIx) (r : Option RttEntry) :
    (s.setEntry x r).services = s.services := rfl
@[simp] theorem setEntry_sources (s : State) (x : EntryIx) (r : Option RttEntry) :
    (s.setEntry x r).sources = s.sources := rfl
@[simp] theorem setEntry_bank (s : State) (x : EntryIx) (r : Option RttEntry) :
    (s.setEntry x r).bank = s.bank := rfl
@[simp] theorem setEntry_groups (s : State) (x : EntryIx) (r : Option RttEntry) :
    (s.setEntry x r).groups = s.groups := rfl
@[simp] theorem setEntry_alerts (s : State) (x : EntryIx) (r : Option RttEntry) :
    (s.setEntry x r).alerts = s.alerts := rfl
@[simp] theorem setEntry_activations (s : State) (x : EntryIx) (r : Option RttEntry) :
    (s.setEntry x r).activations = s.activations := rfl
@[simp] theorem setEntry_link (s : State) (x : EntryIx) (r : Option RttEntry) :
    (s.setEntry x r).link = s.link := rfl
@[simp] theorem setEntry_cells (s : State) (x : EntryIx) (r : Option RttEntry) :
    (s.setEntry x r).cells = s.cells := rfl
@[simp] theorem setEntry_intake (s : State) (x : EntryIx) (r : Option RttEntry) :
    (s.setEntry x r).intake = s.intake := rfl
@[simp] theorem setEntry_work (s : State) (x : EntryIx) (r : Option RttEntry) :
    (s.setEntry x r).work = s.work := rfl
@[simp] theorem setEntry_kinds (s : State) (x : EntryIx) (r : Option RttEntry) :
    (s.setEntry x r).kinds = s.kinds := rfl
@[simp] theorem setEntry_firstError (s : State) (x : EntryIx) (r : Option RttEntry) :
    (s.setEntry x r).firstError = s.firstError := rfl
@[simp] theorem setEntry_multiple (s : State) (x : EntryIx) (r : Option RttEntry) :
    (s.setEntry x r).multiple = s.multiple := rfl
@[simp] theorem setEntry_ring (s : State) (x : EntryIx) (r : Option RttEntry) :
    (s.setEntry x r).ring = s.ring := rfl

/-! ### modMode -/

@[simp] theorem modMode_pending (s : State) (f : ModeControl → ModeControl) :
    (s.modMode f).pending = s.pending := rfl
@[simp] theorem modMode_emitted (s : State) (f : ModeControl → ModeControl) :
    (s.modMode f).emitted = s.emitted := rfl
@[simp] theorem modMode_deferred (s : State) (f : ModeControl → ModeControl) :
    (s.modMode f).deferred = s.deferred := rfl
@[simp] theorem modMode_freeIndex (s : State) (f : ModeControl → ModeControl) :
    (s.modMode f).freeIndex = s.freeIndex := rfl
@[simp] theorem modMode_now (s : State) (f : ModeControl → ModeControl) :
    (s.modMode f).now = s.now := rfl
@[simp] theorem modMode_straps (s : State) (f : ModeControl → ModeControl) :
    (s.modMode f).straps = s.straps := rfl
@[simp] theorem modMode_modeControl (s : State) (f : ModeControl → ModeControl) :
    (s.modMode f).modeControl = f s.modeControl := rfl
@[simp] theorem modMode_roles (s : State) (f : ModeControl → ModeControl) :
    (s.modMode f).roles = s.roles := rfl
@[simp] theorem modMode_rtt (s : State) (f : ModeControl → ModeControl) :
    (s.modMode f).rtt = s.rtt := rfl
@[simp] theorem modMode_completionOrder (s : State) (f : ModeControl → ModeControl) :
    (s.modMode f).completionOrder = s.completionOrder := rfl
@[simp] theorem modMode_rewriteOrder (s : State) (f : ModeControl → ModeControl) :
    (s.modMode f).rewriteOrder = s.rewriteOrder := rfl
@[simp] theorem modMode_sequence (s : State) (f : ModeControl → ModeControl) :
    (s.modMode f).sequence = s.sequence := rfl
@[simp] theorem modMode_waitingReads (s : State) (f : ModeControl → ModeControl) :
    (s.modMode f).waitingReads = s.waitingReads := rfl
@[simp] theorem modMode_issueQueue (s : State) (f : ModeControl → ModeControl) :
    (s.modMode f).issueQueue = s.issueQueue := rfl
@[simp] theorem modMode_outstanding (s : State) (f : ModeControl → ModeControl) :
    (s.modMode f).outstanding = s.outstanding := rfl
@[simp] theorem modMode_services (s : State) (f : ModeControl → ModeControl) :
    (s.modMode f).services = s.services := rfl
@[simp] theorem modMode_sources (s : State) (f : ModeControl → ModeControl) :
    (s.modMode f).sources = s.sources := rfl
@[simp] theorem modMode_bank (s : State) (f : ModeControl → ModeControl) :
    (s.modMode f).bank = s.bank := rfl
@[simp] theorem modMode_groups (s : State) (f : ModeControl → ModeControl) :
    (s.modMode f).groups = s.groups := rfl
@[simp] theorem modMode_alerts (s : State) (f : ModeControl → ModeControl) :
    (s.modMode f).alerts = s.alerts := rfl
@[simp] theorem modMode_activations (s : State) (f : ModeControl → ModeControl) :
    (s.modMode f).activations = s.activations := rfl
@[simp] theorem modMode_link (s : State) (f : ModeControl → ModeControl) :
    (s.modMode f).link = s.link := rfl
@[simp] theorem modMode_cells (s : State) (f : ModeControl → ModeControl) :
    (s.modMode f).cells = s.cells := rfl
@[simp] theorem modMode_intake (s : State) (f : ModeControl → ModeControl) :
    (s.modMode f).intake = s.intake := rfl
@[simp] theorem modMode_work (s : State) (f : ModeControl → ModeControl) :
    (s.modMode f).work = s.work := rfl
@[simp] theorem modMode_kinds (s : State) (f : ModeControl → ModeControl) :
    (s.modMode f).kinds = s.kinds := rfl
@[simp] theorem modMode_firstError (s : State) (f : ModeControl → ModeControl) :
    (s.modMode f).firstError = s.firstError := rfl
@[simp] theorem modMode_multiple (s : State) (f : ModeControl → ModeControl) :
    (s.modMode f).multiple = s.multiple := rfl
@[simp] theorem modMode_ring (s : State) (f : ModeControl → ModeControl) :
    (s.modMode f).ring = s.ring := rfl

/-! ### modKind -/

@[simp] theorem modKind_pending (s : State) (k : Fin 22) (f : KindLog → KindLog) :
    (s.modKind k f).pending = s.pending := rfl
@[simp] theorem modKind_emitted (s : State) (k : Fin 22) (f : KindLog → KindLog) :
    (s.modKind k f).emitted = s.emitted := rfl
@[simp] theorem modKind_deferred (s : State) (k : Fin 22) (f : KindLog → KindLog) :
    (s.modKind k f).deferred = s.deferred := rfl
@[simp] theorem modKind_freeIndex (s : State) (k : Fin 22) (f : KindLog → KindLog) :
    (s.modKind k f).freeIndex = s.freeIndex := rfl
@[simp] theorem modKind_now (s : State) (k : Fin 22) (f : KindLog → KindLog) :
    (s.modKind k f).now = s.now := rfl
@[simp] theorem modKind_straps (s : State) (k : Fin 22) (f : KindLog → KindLog) :
    (s.modKind k f).straps = s.straps := rfl
@[simp] theorem modKind_modeControl (s : State) (k : Fin 22) (f : KindLog → KindLog) :
    (s.modKind k f).modeControl = s.modeControl := rfl
@[simp] theorem modKind_roles (s : State) (k : Fin 22) (f : KindLog → KindLog) :
    (s.modKind k f).roles = s.roles := rfl
@[simp] theorem modKind_rtt (s : State) (k : Fin 22) (f : KindLog → KindLog) :
    (s.modKind k f).rtt = s.rtt := rfl
@[simp] theorem modKind_completionOrder (s : State) (k : Fin 22) (f : KindLog → KindLog) :
    (s.modKind k f).completionOrder = s.completionOrder := rfl
@[simp] theorem modKind_rewriteOrder (s : State) (k : Fin 22) (f : KindLog → KindLog) :
    (s.modKind k f).rewriteOrder = s.rewriteOrder := rfl
@[simp] theorem modKind_sequence (s : State) (k : Fin 22) (f : KindLog → KindLog) :
    (s.modKind k f).sequence = s.sequence := rfl
@[simp] theorem modKind_waitingReads (s : State) (k : Fin 22) (f : KindLog → KindLog) :
    (s.modKind k f).waitingReads = s.waitingReads := rfl
@[simp] theorem modKind_issueQueue (s : State) (k : Fin 22) (f : KindLog → KindLog) :
    (s.modKind k f).issueQueue = s.issueQueue := rfl
@[simp] theorem modKind_outstanding (s : State) (k : Fin 22) (f : KindLog → KindLog) :
    (s.modKind k f).outstanding = s.outstanding := rfl
@[simp] theorem modKind_services (s : State) (k : Fin 22) (f : KindLog → KindLog) :
    (s.modKind k f).services = s.services := rfl
@[simp] theorem modKind_sources (s : State) (k : Fin 22) (f : KindLog → KindLog) :
    (s.modKind k f).sources = s.sources := rfl
@[simp] theorem modKind_bank (s : State) (k : Fin 22) (f : KindLog → KindLog) :
    (s.modKind k f).bank = s.bank := rfl
@[simp] theorem modKind_groups (s : State) (k : Fin 22) (f : KindLog → KindLog) :
    (s.modKind k f).groups = s.groups := rfl
@[simp] theorem modKind_alerts (s : State) (k : Fin 22) (f : KindLog → KindLog) :
    (s.modKind k f).alerts = s.alerts := rfl
@[simp] theorem modKind_activations (s : State) (k : Fin 22) (f : KindLog → KindLog) :
    (s.modKind k f).activations = s.activations := rfl
@[simp] theorem modKind_link (s : State) (k : Fin 22) (f : KindLog → KindLog) :
    (s.modKind k f).link = s.link := rfl
@[simp] theorem modKind_cells (s : State) (k : Fin 22) (f : KindLog → KindLog) :
    (s.modKind k f).cells = s.cells := rfl
@[simp] theorem modKind_intake (s : State) (k : Fin 22) (f : KindLog → KindLog) :
    (s.modKind k f).intake = s.intake := rfl
@[simp] theorem modKind_work (s : State) (k : Fin 22) (f : KindLog → KindLog) :
    (s.modKind k f).work = s.work := rfl
@[simp] theorem modKind_kinds (s : State) (k : Fin 22) (f : KindLog → KindLog) :
    (s.modKind k f).kinds = vset s.kinds k (f (vget s.kinds k)) := rfl
@[simp] theorem modKind_firstError (s : State) (k : Fin 22) (f : KindLog → KindLog) :
    (s.modKind k f).firstError = s.firstError := rfl
@[simp] theorem modKind_multiple (s : State) (k : Fin 22) (f : KindLog → KindLog) :
    (s.modKind k f).multiple = s.multiple := rfl
@[simp] theorem modKind_ring (s : State) (k : Fin 22) (f : KindLog → KindLog) :
    (s.modKind k f).ring = s.ring := rfl

/-! ### modCell -/

@[simp] theorem modCell_pending (s : State) (c : CellIx) (f : Cell → Cell) :
    (s.modCell c f).pending = s.pending := rfl
@[simp] theorem modCell_emitted (s : State) (c : CellIx) (f : Cell → Cell) :
    (s.modCell c f).emitted = s.emitted := rfl
@[simp] theorem modCell_deferred (s : State) (c : CellIx) (f : Cell → Cell) :
    (s.modCell c f).deferred = s.deferred := rfl
@[simp] theorem modCell_freeIndex (s : State) (c : CellIx) (f : Cell → Cell) :
    (s.modCell c f).freeIndex = s.freeIndex := rfl
@[simp] theorem modCell_now (s : State) (c : CellIx) (f : Cell → Cell) :
    (s.modCell c f).now = s.now := rfl
@[simp] theorem modCell_straps (s : State) (c : CellIx) (f : Cell → Cell) :
    (s.modCell c f).straps = s.straps := rfl
@[simp] theorem modCell_modeControl (s : State) (c : CellIx) (f : Cell → Cell) :
    (s.modCell c f).modeControl = s.modeControl := rfl
@[simp] theorem modCell_roles (s : State) (c : CellIx) (f : Cell → Cell) :
    (s.modCell c f).roles = s.roles := rfl
@[simp] theorem modCell_rtt (s : State) (c : CellIx) (f : Cell → Cell) :
    (s.modCell c f).rtt = s.rtt := rfl
@[simp] theorem modCell_completionOrder (s : State) (c : CellIx) (f : Cell → Cell) :
    (s.modCell c f).completionOrder = s.completionOrder := rfl
@[simp] theorem modCell_rewriteOrder (s : State) (c : CellIx) (f : Cell → Cell) :
    (s.modCell c f).rewriteOrder = s.rewriteOrder := rfl
@[simp] theorem modCell_sequence (s : State) (c : CellIx) (f : Cell → Cell) :
    (s.modCell c f).sequence = s.sequence := rfl
@[simp] theorem modCell_waitingReads (s : State) (c : CellIx) (f : Cell → Cell) :
    (s.modCell c f).waitingReads = s.waitingReads := rfl
@[simp] theorem modCell_issueQueue (s : State) (c : CellIx) (f : Cell → Cell) :
    (s.modCell c f).issueQueue = s.issueQueue := rfl
@[simp] theorem modCell_outstanding (s : State) (c : CellIx) (f : Cell → Cell) :
    (s.modCell c f).outstanding = s.outstanding := rfl
@[simp] theorem modCell_services (s : State) (c : CellIx) (f : Cell → Cell) :
    (s.modCell c f).services = s.services := rfl
@[simp] theorem modCell_sources (s : State) (c : CellIx) (f : Cell → Cell) :
    (s.modCell c f).sources = s.sources := rfl
@[simp] theorem modCell_bank (s : State) (c : CellIx) (f : Cell → Cell) :
    (s.modCell c f).bank = s.bank := rfl
@[simp] theorem modCell_groups (s : State) (c : CellIx) (f : Cell → Cell) :
    (s.modCell c f).groups = s.groups := rfl
@[simp] theorem modCell_alerts (s : State) (c : CellIx) (f : Cell → Cell) :
    (s.modCell c f).alerts = s.alerts := rfl
@[simp] theorem modCell_activations (s : State) (c : CellIx) (f : Cell → Cell) :
    (s.modCell c f).activations = s.activations := rfl
@[simp] theorem modCell_link (s : State) (c : CellIx) (f : Cell → Cell) :
    (s.modCell c f).link = s.link := rfl
@[simp] theorem modCell_cells (s : State) (c : CellIx) (f : Cell → Cell) :
    (s.modCell c f).cells = vset s.cells c (f (vget s.cells c)) := rfl
@[simp] theorem modCell_intake (s : State) (c : CellIx) (f : Cell → Cell) :
    (s.modCell c f).intake = s.intake := rfl
@[simp] theorem modCell_work (s : State) (c : CellIx) (f : Cell → Cell) :
    (s.modCell c f).work = s.work := rfl
@[simp] theorem modCell_kinds (s : State) (c : CellIx) (f : Cell → Cell) :
    (s.modCell c f).kinds = s.kinds := rfl
@[simp] theorem modCell_firstError (s : State) (c : CellIx) (f : Cell → Cell) :
    (s.modCell c f).firstError = s.firstError := rfl
@[simp] theorem modCell_multiple (s : State) (c : CellIx) (f : Cell → Cell) :
    (s.modCell c f).multiple = s.multiple := rfl
@[simp] theorem modCell_ring (s : State) (c : CellIx) (f : Cell → Cell) :
    (s.modCell c f).ring = s.ring := rfl

/-! ### emit -/

@[simp] theorem emit_pending (s : State) (e : PortEvent) :
    (s.emit e).pending = s.pending := rfl
@[simp] theorem emit_emitted (s : State) (e : PortEvent) :
    (s.emit e).emitted = s.emitted ++ [e] := rfl
@[simp] theorem emit_deferred (s : State) (e : PortEvent) :
    (s.emit e).deferred = s.deferred := rfl
@[simp] theorem emit_freeIndex (s : State) (e : PortEvent) :
    (s.emit e).freeIndex = s.freeIndex := rfl
@[simp] theorem emit_now (s : State) (e : PortEvent) :
    (s.emit e).now = s.now := rfl
@[simp] theorem emit_straps (s : State) (e : PortEvent) :
    (s.emit e).straps = s.straps := rfl
@[simp] theorem emit_modeControl (s : State) (e : PortEvent) :
    (s.emit e).modeControl = s.modeControl := rfl
@[simp] theorem emit_roles (s : State) (e : PortEvent) :
    (s.emit e).roles = s.roles := rfl
@[simp] theorem emit_rtt (s : State) (e : PortEvent) :
    (s.emit e).rtt = s.rtt := rfl
@[simp] theorem emit_completionOrder (s : State) (e : PortEvent) :
    (s.emit e).completionOrder = s.completionOrder := rfl
@[simp] theorem emit_rewriteOrder (s : State) (e : PortEvent) :
    (s.emit e).rewriteOrder = s.rewriteOrder := rfl
@[simp] theorem emit_sequence (s : State) (e : PortEvent) :
    (s.emit e).sequence = s.sequence := rfl
@[simp] theorem emit_waitingReads (s : State) (e : PortEvent) :
    (s.emit e).waitingReads = s.waitingReads := rfl
@[simp] theorem emit_issueQueue (s : State) (e : PortEvent) :
    (s.emit e).issueQueue = s.issueQueue := rfl
@[simp] theorem emit_outstanding (s : State) (e : PortEvent) :
    (s.emit e).outstanding = s.outstanding := rfl
@[simp] theorem emit_services (s : State) (e : PortEvent) :
    (s.emit e).services = s.services := rfl
@[simp] theorem emit_sources (s : State) (e : PortEvent) :
    (s.emit e).sources = s.sources := rfl
@[simp] theorem emit_bank (s : State) (e : PortEvent) :
    (s.emit e).bank = s.bank := rfl
@[simp] theorem emit_groups (s : State) (e : PortEvent) :
    (s.emit e).groups = s.groups := rfl
@[simp] theorem emit_alerts (s : State) (e : PortEvent) :
    (s.emit e).alerts = s.alerts := rfl
@[simp] theorem emit_activations (s : State) (e : PortEvent) :
    (s.emit e).activations = s.activations := rfl
@[simp] theorem emit_link (s : State) (e : PortEvent) :
    (s.emit e).link = s.link := rfl
@[simp] theorem emit_cells (s : State) (e : PortEvent) :
    (s.emit e).cells = s.cells := rfl
@[simp] theorem emit_intake (s : State) (e : PortEvent) :
    (s.emit e).intake = s.intake := rfl
@[simp] theorem emit_work (s : State) (e : PortEvent) :
    (s.emit e).work = s.work := rfl
@[simp] theorem emit_kinds (s : State) (e : PortEvent) :
    (s.emit e).kinds = s.kinds := rfl
@[simp] theorem emit_firstError (s : State) (e : PortEvent) :
    (s.emit e).firstError = s.firstError := rfl
@[simp] theorem emit_multiple (s : State) (e : PortEvent) :
    (s.emit e).multiple = s.multiple := rfl
@[simp] theorem emit_ring (s : State) (e : PortEvent) :
    (s.emit e).ring = s.ring := rfl

/-! ### handWrite and handRead -/

@[simp] theorem handWrite_pending (i : Bool) (a : Addr) (bs : List LaneByte) (s : State) :
    (handWrite i a bs s).pending = s.pending := by unfold handWrite; split <;> rfl
@[simp] theorem handWrite_deferred (i : Bool) (a : Addr) (bs : List LaneByte) (s : State) :
    (handWrite i a bs s).deferred = s.deferred := by unfold handWrite; split <;> rfl
@[simp] theorem handWrite_freeIndex (i : Bool) (a : Addr) (bs : List LaneByte) (s : State) :
    (handWrite i a bs s).freeIndex = s.freeIndex := by unfold handWrite; split <;> rfl
@[simp] theorem handWrite_now (i : Bool) (a : Addr) (bs : List LaneByte) (s : State) :
    (handWrite i a bs s).now = s.now := by unfold handWrite; split <;> rfl
@[simp] theorem handWrite_straps (i : Bool) (a : Addr) (bs : List LaneByte) (s : State) :
    (handWrite i a bs s).straps = s.straps := by unfold handWrite; split <;> rfl
@[simp] theorem handWrite_modeControl (i : Bool) (a : Addr) (bs : List LaneByte) (s : State) :
    (handWrite i a bs s).modeControl = s.modeControl := by unfold handWrite; split <;> rfl
@[simp] theorem handWrite_roles (i : Bool) (a : Addr) (bs : List LaneByte) (s : State) :
    (handWrite i a bs s).roles = s.roles := by unfold handWrite; split <;> rfl
@[simp] theorem handWrite_rtt (i : Bool) (a : Addr) (bs : List LaneByte) (s : State) :
    (handWrite i a bs s).rtt = s.rtt := by unfold handWrite; split <;> rfl
@[simp] theorem handWrite_completionOrder (i : Bool) (a : Addr) (bs : List LaneByte) (s : State) :
    (handWrite i a bs s).completionOrder = s.completionOrder := by unfold handWrite; split <;> rfl
@[simp] theorem handWrite_rewriteOrder (i : Bool) (a : Addr) (bs : List LaneByte) (s : State) :
    (handWrite i a bs s).rewriteOrder = s.rewriteOrder := by unfold handWrite; split <;> rfl
@[simp] theorem handWrite_sequence (i : Bool) (a : Addr) (bs : List LaneByte) (s : State) :
    (handWrite i a bs s).sequence = s.sequence := by unfold handWrite; split <;> rfl
@[simp] theorem handWrite_waitingReads (i : Bool) (a : Addr) (bs : List LaneByte) (s : State) :
    (handWrite i a bs s).waitingReads = s.waitingReads := by unfold handWrite; split <;> rfl
@[simp] theorem handWrite_outstanding (i : Bool) (a : Addr) (bs : List LaneByte) (s : State) :
    (handWrite i a bs s).outstanding = s.outstanding := by unfold handWrite; split <;> rfl
@[simp] theorem handWrite_services (i : Bool) (a : Addr) (bs : List LaneByte) (s : State) :
    (handWrite i a bs s).services = s.services := by unfold handWrite; split <;> rfl
@[simp] theorem handWrite_sources (i : Bool) (a : Addr) (bs : List LaneByte) (s : State) :
    (handWrite i a bs s).sources = s.sources := by unfold handWrite; split <;> rfl
@[simp] theorem handWrite_bank (i : Bool) (a : Addr) (bs : List LaneByte) (s : State) :
    (handWrite i a bs s).bank = s.bank := by unfold handWrite; split <;> rfl
@[simp] theorem handWrite_groups (i : Bool) (a : Addr) (bs : List LaneByte) (s : State) :
    (handWrite i a bs s).groups = s.groups := by unfold handWrite; split <;> rfl
@[simp] theorem handWrite_alerts (i : Bool) (a : Addr) (bs : List LaneByte) (s : State) :
    (handWrite i a bs s).alerts = s.alerts := by unfold handWrite; split <;> rfl
@[simp] theorem handWrite_activations (i : Bool) (a : Addr) (bs : List LaneByte) (s : State) :
    (handWrite i a bs s).activations = s.activations := by unfold handWrite; split <;> rfl
@[simp] theorem handWrite_link (i : Bool) (a : Addr) (bs : List LaneByte) (s : State) :
    (handWrite i a bs s).link = s.link := by unfold handWrite; split <;> rfl
@[simp] theorem handWrite_cells (i : Bool) (a : Addr) (bs : List LaneByte) (s : State) :
    (handWrite i a bs s).cells = s.cells := by unfold handWrite; split <;> rfl
@[simp] theorem handWrite_intake (i : Bool) (a : Addr) (bs : List LaneByte) (s : State) :
    (handWrite i a bs s).intake = s.intake := by unfold handWrite; split <;> rfl
@[simp] theorem handWrite_work (i : Bool) (a : Addr) (bs : List LaneByte) (s : State) :
    (handWrite i a bs s).work = s.work := by unfold handWrite; split <;> rfl
@[simp] theorem handWrite_kinds (i : Bool) (a : Addr) (bs : List LaneByte) (s : State) :
    (handWrite i a bs s).kinds = s.kinds := by unfold handWrite; split <;> rfl
@[simp] theorem handWrite_firstError (i : Bool) (a : Addr) (bs : List LaneByte) (s : State) :
    (handWrite i a bs s).firstError = s.firstError := by unfold handWrite; split <;> rfl
@[simp] theorem handWrite_multiple (i : Bool) (a : Addr) (bs : List LaneByte) (s : State) :
    (handWrite i a bs s).multiple = s.multiple := by unfold handWrite; split <;> rfl
@[simp] theorem handWrite_ring (i : Bool) (a : Addr) (bs : List LaneByte) (s : State) :
    (handWrite i a bs s).ring = s.ring := by unfold handWrite; split <;> rfl
@[simp] theorem handRead_pending (r : MemRead) (s : State) : (handRead r s).pending = s.pending := by
  unfold handRead issueRead; split <;> rfl
@[simp] theorem handRead_deferred (r : MemRead) (s : State) : (handRead r s).deferred = s.deferred := by
  unfold handRead issueRead; split <;> rfl
@[simp] theorem handRead_freeIndex (r : MemRead) (s : State) : (handRead r s).freeIndex = s.freeIndex := by
  unfold handRead issueRead; split <;> rfl
@[simp] theorem handRead_now (r : MemRead) (s : State) : (handRead r s).now = s.now := by
  unfold handRead issueRead; split <;> rfl
@[simp] theorem handRead_straps (r : MemRead) (s : State) : (handRead r s).straps = s.straps := by
  unfold handRead issueRead; split <;> rfl
@[simp] theorem handRead_modeControl (r : MemRead) (s : State) : (handRead r s).modeControl = s.modeControl := by
  unfold handRead issueRead; split <;> rfl
@[simp] theorem handRead_roles (r : MemRead) (s : State) : (handRead r s).roles = s.roles := by
  unfold handRead issueRead; split <;> rfl
@[simp] theorem handRead_rtt (r : MemRead) (s : State) : (handRead r s).rtt = s.rtt := by
  unfold handRead issueRead; split <;> rfl
@[simp] theorem handRead_completionOrder (r : MemRead) (s : State) : (handRead r s).completionOrder = s.completionOrder := by
  unfold handRead issueRead; split <;> rfl
@[simp] theorem handRead_rewriteOrder (r : MemRead) (s : State) : (handRead r s).rewriteOrder = s.rewriteOrder := by
  unfold handRead issueRead; split <;> rfl
@[simp] theorem handRead_sequence (r : MemRead) (s : State) : (handRead r s).sequence = s.sequence := by
  unfold handRead issueRead; split <;> rfl
@[simp] theorem handRead_waitingReads (r : MemRead) (s : State) : (handRead r s).waitingReads = s.waitingReads := by
  unfold handRead issueRead; split <;> rfl
@[simp] theorem handRead_services (r : MemRead) (s : State) : (handRead r s).services = s.services := by
  unfold handRead issueRead; split <;> rfl
@[simp] theorem handRead_sources (r : MemRead) (s : State) : (handRead r s).sources = s.sources := by
  unfold handRead issueRead; split <;> rfl
@[simp] theorem handRead_bank (r : MemRead) (s : State) : (handRead r s).bank = s.bank := by
  unfold handRead issueRead; split <;> rfl
@[simp] theorem handRead_groups (r : MemRead) (s : State) : (handRead r s).groups = s.groups := by
  unfold handRead issueRead; split <;> rfl
@[simp] theorem handRead_alerts (r : MemRead) (s : State) : (handRead r s).alerts = s.alerts := by
  unfold handRead issueRead; split <;> rfl
@[simp] theorem handRead_activations (r : MemRead) (s : State) : (handRead r s).activations = s.activations := by
  unfold handRead issueRead; split <;> rfl
@[simp] theorem handRead_link (r : MemRead) (s : State) : (handRead r s).link = s.link := by
  unfold handRead issueRead; split <;> rfl
@[simp] theorem handRead_cells (r : MemRead) (s : State) : (handRead r s).cells = s.cells := by
  unfold handRead issueRead; split <;> rfl
@[simp] theorem handRead_intake (r : MemRead) (s : State) : (handRead r s).intake = s.intake := by
  unfold handRead issueRead; split <;> rfl
@[simp] theorem handRead_work (r : MemRead) (s : State) : (handRead r s).work = s.work := by
  unfold handRead issueRead; split <;> rfl
@[simp] theorem handRead_kinds (r : MemRead) (s : State) : (handRead r s).kinds = s.kinds := by
  unfold handRead issueRead; split <;> rfl
@[simp] theorem handRead_firstError (r : MemRead) (s : State) : (handRead r s).firstError = s.firstError := by
  unfold handRead issueRead; split <;> rfl
@[simp] theorem handRead_multiple (r : MemRead) (s : State) : (handRead r s).multiple = s.multiple := by
  unfold handRead issueRead; split <;> rfl
@[simp] theorem handRead_ring (r : MemRead) (s : State) : (handRead r s).ring = s.ring := by
  unfold handRead issueRead; split <;> rfl

end Sys2Proof.Machine
end

