-- ==== Sys2Proof/Laws/Reports.lean ====
section
/-! SUPPORT. What offering a report and raising an error can do: they append to what the part drives, and change the ring,
the Error Log and the actions put off; every other field stands. -/

namespace Sys2Proof.Machine

/-! ### Writes at the memory port -/

@[refl] theorem WritesFollow.refl (s : State) : WritesFollow s s := ⟨[], by simp, rfl, fun _ => rfl⟩

theorem WritesFollow.of_eq {s t : State} (h : t.issueQueue = s.issueQueue) : WritesFollow s t :=
  ⟨[], by simp [h], rfl, fun _ => rfl⟩

theorem WritesFollow.trans {s t u : State} (h : WritesFollow s t) (k : WritesFollow t u) : WritesFollow s u := by
  obtain ⟨ws, e, a, n⟩ := h
  obtain ⟨vs, e', a', n'⟩ := k
  refine ⟨ws ++ vs, by rw [e', e, List.append_assoc], by rw [List.all_append, a, a']; rfl, fun z => ?_⟩
  have w := n z
  rw [w, n' (by rw [e, z, w]; rfl)]
  rfl

/-- Only writes follow, so what waits first is the same. -/
theorem WritesFollow.readWaitsFirst {s t : State} (h : WritesFollow s t) (b : ReadWaitsFirst s) : ReadWaitsFirst t := by
  obtain ⟨ws, e, _, n⟩ := h
  unfold ReadWaitsFirst at *
  rw [e]
  cases q : s.issueQueue with
  | nil => rw [n q]; simp
  | cons w r => rw [q] at b; simpa using b

/-- What handing a write over can do: drive it when nothing waits, or put it behind what waits (R23). -/
theorem handWrite_eq (isInternal : Bool) (addr : Addr) (bytes : List LaneByte) (s : State) :
    handWrite isInternal addr bytes s = { s with
      emitted := (handWrite isInternal addr bytes s).emitted
      issueQueue := (handWrite isInternal addr bytes s).issueQueue } := by
  unfold handWrite; split <;> rfl

/-- With nothing waiting at the memory port a write is driven at once (R23). -/
theorem handWrite_nil (isInternal : Bool) (addr : Addr) (bytes : List LaneByte) {s : State} (h : s.issueQueue = []) :
    handWrite isInternal addr bytes s = s.emit (.memWrite isInternal addr bytes) := by
  unfold handWrite; rw [h]; rfl

theorem handWrite_follows (isInternal : Bool) (addr : Addr) (bytes : List LaneByte) (s : State) :
    WritesFollow s (handWrite isInternal addr bytes s) := by
  unfold handWrite
  split
  · exact .of_eq rfl
  · rename_i n
    exact ⟨[.write isInternal addr bytes], rfl, rfl, fun z => absurd (by rw [z]; rfl) n⟩

theorem handWrite_driven (isInternal : Bool) (addr : Addr) (bytes : List LaneByte) (s : State) :
    s.emitted <+: (handWrite isInternal addr bytes s).emitted := by
  unfold handWrite
  split
  · exact List.prefix_append _ _
  · exact List.prefix_rfl

/-- A write handed over is what has been handed over last (R23). -/
theorem handWrite_last (isInternal : Bool) (addr : Addr) (bytes : List LaneByte) (s : State) :
    lastHanded (handWrite isInternal addr bytes s) = some (.memWrite isInternal addr bytes) := by
  unfold handWrite
  split
  · rename_i h
    rw [List.isEmpty_iff] at h
    show (match s.issueQueue.getLast? with
      | some w => some w.event
      | none => (s.emitted ++ [PortEvent.memWrite isInternal addr bytes]).getLast?) = _
    rw [h]
    exact List.getLast?_concat
  · show (match (s.issueQueue ++ [MemTransaction.write isInternal addr bytes]).getLast? with
      | some w => some w.event
      | none => s.emitted.getLast?) = _
    rw [List.getLast?_concat]
    rfl

/-- The state `t` differs from `s` at most in what reporting writes. -/
structure Reported (s t : State) : Prop where
  same : t = { s with
    emitted := t.emitted, issueQueue := t.issueQueue, deferred := t.deferred, kinds := t.kinds,
    firstError := t.firstError, multiple := t.multiple, ring := t.ring }
  driven : s.emitted <+: t.emitted
  follow : WritesFollow s t
  policies : t.kinds.map (fun l => (l.masked, l.severity)) = s.kinds.map (fun l => (l.masked, l.severity))

theorem Reported.refl (s : State) : Reported s s := ⟨rfl, List.prefix_rfl, .refl s, rfl⟩

theorem Reported.trans {s t u : State} (h : Reported s t) (k : Reported t u) : Reported s u := by
  refine ⟨?_, h.driven.trans k.driven, h.follow.trans k.follow, k.policies.trans h.policies⟩
  have a := k.same
  rw [h.same] at a
  exact a

theorem Reported.handWrite {s t : State} (h : Reported s t) (i : Bool) (a : Addr) (bs : List LaneByte) :
    Reported s (Machine.handWrite i a bs t) := by
  refine h.trans ⟨?_, handWrite_driven i a bs t, handWrite_follows i a bs t, ?_⟩
  · rw [handWrite_eq]
  · rw [handWrite_eq]

theorem Reported.ring {s t : State} (h : Reported s t) (g : Ring) : Reported s { t with ring := g } :=
  h.trans ⟨rfl, List.prefix_rfl, .of_eq rfl, rfl⟩

theorem Reported.log {s t : State} (h : Reported s t) (f : Option FirstError) (m : Bool) :
    Reported s { t with firstError := f, multiple := m } :=
  h.trans ⟨rfl, List.prefix_rfl, .of_eq rfl, rfl⟩

theorem Reported.deferred {s t : State} (h : Reported s t) (d : List Deferred) : Reported s { t with deferred := d } :=
  h.trans ⟨rfl, List.prefix_rfl, .of_eq rfl, rfl⟩

theorem Reported.writeInternal {s t : State} (h : Reported s t) (a : Addr) (bs : List Byte) :
    Reported s (Machine.writeInternal a bs t) := h.handWrite _ _ _

theorem Reported.putRecord {s t : State} (h : Reported s t) (d : RingDef) (r : Report) :
    Reported s (Machine.putRecord d r t) := by
  unfold Machine.putRecord writeProducer
  exact ((h.writeInternal _ _).ring _).writeInternal _ _

theorem Reported.putGap {s t : State} (h : Reported s t) (d : RingDef) : Reported s (Machine.putGap d t) := by
  unfold Machine.putGap
  exact (h.putRecord _ _).ring _

theorem Reported.dropReport {s t : State} (h : Reported s t) : Reported s (Machine.dropReport t) := h.ring _

/-- A kind's policy and severity are kept by counting it. -/
theorem countKind_policies (k : ErrorKind) (s : State) :
    (countKind k s).kinds.map (fun l => (l.masked, l.severity)) = s.kinds.map (fun l => (l.masked, l.severity)) := by
  simp only [countKind, modKind_kinds, vset_map]
  have h : ((vget s.kinds k.ix).masked, (vget s.kinds k.ix).severity)
      = vget (s.kinds.map fun l => (l.masked, l.severity)) k.ix := by simp
  rw [h, vset_vget]

theorem Reported.countKind {s t : State} (h : Reported s t) (k : ErrorKind) : Reported s (Machine.countKind k t) :=
  h.trans ⟨rfl, List.prefix_rfl, .of_eq rfl, countKind_policies k t⟩

theorem Reported.captureError {s t : State} (h : Reported s t) (e : ErrorEvent) :
    Reported s (Machine.captureError e t) := by
  unfold Machine.captureError
  split
  · exact h.trans ⟨rfl, List.prefix_rfl, .of_eq rfl, rfl⟩
  · exact h.trans ⟨rfl, List.prefix_rfl, .of_eq rfl, rfl⟩

theorem Reported.deferAction {s t : State} (h : Reported s t) (e : ErrorEvent) :
    Reported s (Machine.deferAction e t) := by
  unfold Machine.deferAction
  split
  · exact h
  · exact h.deferred _
  · exact h.deferred _

theorem Reported.raiseOverflow {s t : State} (h : Reported s t) : Reported s (Machine.raiseOverflow t) := by
  unfold Machine.raiseOverflow
  dsimp only
  split
  · exact (h.countKind _).deferAction _
  · exact (((h.countKind _).deferAction _).captureError _).dropReport

theorem Reported.overflowReport {s t : State} (h : Reported s t) : Reported s (Machine.overflowReport t) := by
  unfold Machine.overflowReport
  dsimp only
  split
  · exact h.dropReport
  · exact (h.dropReport.ring _).raiseOverflow

theorem Reported.keepReport {s t : State} (h : Reported s t) (d : RingDef) (r : Report) :
    Reported s (Machine.keepReport d r t) := by
  unfold Machine.keepReport
  exact (h.putRecord _ _).ring _

theorem Reported.offer {s t : State} (h : Reported s t) (r : Report) : Reported s (Machine.offer r t) := by
  unfold Machine.offer
  split
  · exact h.dropReport
  · split
    · exact h.keepReport _ _
    · split
      · exact (h.putGap _).keepReport _ _
      · exact h.overflowReport

theorem Reported.raise {s t : State} (h : Reported s t) (e : ErrorEvent) : Reported s (Machine.raise e t) := by
  unfold Machine.raise
  dsimp only
  split
  · exact (h.countKind _).deferAction _
  · exact (((h.countKind _).deferAction _).captureError _).offer _

/-- Offering a report changes nothing but the reporting fields. -/
theorem offer_reported (r : Report) (s : State) : Reported s (offer r s) := (Reported.refl s).offer r

/-- Raising an error changes nothing but the reporting fields. -/
theorem raise_reported (e : ErrorEvent) (s : State) : Reported s (raise e s) := (Reported.refl s).raise e

/-! ### Fields -/

theorem Reported.pending {s t : State} (h : Reported s t) : t.pending = s.pending := by rw [h.same]
theorem Reported.freeIndex {s t : State} (h : Reported s t) : t.freeIndex = s.freeIndex := by rw [h.same]
theorem Reported.now {s t : State} (h : Reported s t) : t.now = s.now := by rw [h.same]
theorem Reported.straps {s t : State} (h : Reported s t) : t.straps = s.straps := by rw [h.same]
theorem Reported.modeControl {s t : State} (h : Reported s t) : t.modeControl = s.modeControl := by rw [h.same]
theorem Reported.roles {s t : State} (h : Reported s t) : t.roles = s.roles := by rw [h.same]
theorem Reported.rtt {s t : State} (h : Reported s t) : t.rtt = s.rtt := by rw [h.same]
theorem Reported.completionOrder {s t : State} (h : Reported s t) : t.completionOrder = s.completionOrder := by rw [h.same]
theorem Reported.rewriteOrder {s t : State} (h : Reported s t) : t.rewriteOrder = s.rewriteOrder := by rw [h.same]
theorem Reported.sequence {s t : State} (h : Reported s t) : t.sequence = s.sequence := by rw [h.same]
theorem Reported.waitingReads {s t : State} (h : Reported s t) : t.waitingReads = s.waitingReads := by rw [h.same]
theorem Reported.outstanding {s t : State} (h : Reported s t) : t.outstanding = s.outstanding := by rw [h.same]
theorem Reported.services {s t : State} (h : Reported s t) : t.services = s.services := by rw [h.same]
theorem Reported.sources {s t : State} (h : Reported s t) : t.sources = s.sources := by rw [h.same]
theorem Reported.bank {s t : State} (h : Reported s t) : t.bank = s.bank := by rw [h.same]
theorem Reported.groups {s t : State} (h : Reported s t) : t.groups = s.groups := by rw [h.same]
theorem Reported.alerts {s t : State} (h : Reported s t) : t.alerts = s.alerts := by rw [h.same]
theorem Reported.activations {s t : State} (h : Reported s t) : t.activations = s.activations := by rw [h.same]
theorem Reported.link {s t : State} (h : Reported s t) : t.link = s.link := by rw [h.same]
theorem Reported.cells {s t : State} (h : Reported s t) : t.cells = s.cells := by rw [h.same]
theorem Reported.intake {s t : State} (h : Reported s t) : t.intake = s.intake := by rw [h.same]
theorem Reported.work {s t : State} (h : Reported s t) : t.work = s.work := by rw [h.same]
@[simp] theorem offer_pending (r : Report) (s : State) : (offer r s).pending = s.pending := (offer_reported r s).pending
@[simp] theorem offer_freeIndex (r : Report) (s : State) : (offer r s).freeIndex = s.freeIndex := (offer_reported r s).freeIndex
@[simp] theorem offer_now (r : Report) (s : State) : (offer r s).now = s.now := (offer_reported r s).now
@[simp] theorem offer_straps (r : Report) (s : State) : (offer r s).straps = s.straps := (offer_reported r s).straps
@[simp] theorem offer_modeControl (r : Report) (s : State) : (offer r s).modeControl = s.modeControl := (offer_reported r s).modeControl
@[simp] theorem offer_roles (r : Report) (s : State) : (offer r s).roles = s.roles := (offer_reported r s).roles
@[simp] theorem offer_rtt (r : Report) (s : State) : (offer r s).rtt = s.rtt := (offer_reported r s).rtt
@[simp] theorem offer_completionOrder (r : Report) (s : State) : (offer r s).completionOrder = s.completionOrder := (offer_reported r s).completionOrder
@[simp] theorem offer_rewriteOrder (r : Report) (s : State) : (offer r s).rewriteOrder = s.rewriteOrder := (offer_reported r s).rewriteOrder
@[simp] theorem offer_sequence (r : Report) (s : State) : (offer r s).sequence = s.sequence := (offer_reported r s).sequence
@[simp] theorem offer_waitingReads (r : Report) (s : State) : (offer r s).waitingReads = s.waitingReads := (offer_reported r s).waitingReads
@[simp] theorem offer_outstanding (r : Report) (s : State) : (offer r s).outstanding = s.outstanding := (offer_reported r s).outstanding
@[simp] theorem offer_services (r : Report) (s : State) : (offer r s).services = s.services := (offer_reported r s).services
@[simp] theorem offer_sources (r : Report) (s : State) : (offer r s).sources = s.sources := (offer_reported r s).sources
@[simp] theorem offer_bank (r : Report) (s : State) : (offer r s).bank = s.bank := (offer_reported r s).bank
@[simp] theorem offer_groups (r : Report) (s : State) : (offer r s).groups = s.groups := (offer_reported r s).groups
@[simp] theorem offer_alerts (r : Report) (s : State) : (offer r s).alerts = s.alerts := (offer_reported r s).alerts
@[simp] theorem offer_activations (r : Report) (s : State) : (offer r s).activations = s.activations := (offer_reported r s).activations
@[simp] theorem offer_link (r : Report) (s : State) : (offer r s).link = s.link := (offer_reported r s).link
@[simp] theorem offer_cells (r : Report) (s : State) : (offer r s).cells = s.cells := (offer_reported r s).cells
@[simp] theorem offer_intake (r : Report) (s : State) : (offer r s).intake = s.intake := (offer_reported r s).intake
@[simp] theorem offer_work (r : Report) (s : State) : (offer r s).work = s.work := (offer_reported r s).work
@[simp] theorem raise_pending (e : ErrorEvent) (s : State) : (raise e s).pending = s.pending := (raise_reported e s).pending
@[simp] theorem raise_freeIndex (e : ErrorEvent) (s : State) : (raise e s).freeIndex = s.freeIndex := (raise_reported e s).freeIndex
@[simp] theorem raise_now (e : ErrorEvent) (s : State) : (raise e s).now = s.now := (raise_reported e s).now
@[simp] theorem raise_straps (e : ErrorEvent) (s : State) : (raise e s).straps = s.straps := (raise_reported e s).straps
@[simp] theorem raise_modeControl (e : ErrorEvent) (s : State) : (raise e s).modeControl = s.modeControl := (raise_reported e s).modeControl
@[simp] theorem raise_roles (e : ErrorEvent) (s : State) : (raise e s).roles = s.roles := (raise_reported e s).roles
@[simp] theorem raise_rtt (e : ErrorEvent) (s : State) : (raise e s).rtt = s.rtt := (raise_reported e s).rtt
@[simp] theorem raise_completionOrder (e : ErrorEvent) (s : State) : (raise e s).completionOrder = s.completionOrder := (raise_reported e s).completionOrder
@[simp] theorem raise_rewriteOrder (e : ErrorEvent) (s : State) : (raise e s).rewriteOrder = s.rewriteOrder := (raise_reported e s).rewriteOrder
@[simp] theorem raise_sequence (e : ErrorEvent) (s : State) : (raise e s).sequence = s.sequence := (raise_reported e s).sequence
@[simp] theorem raise_waitingReads (e : ErrorEvent) (s : State) : (raise e s).waitingReads = s.waitingReads := (raise_reported e s).waitingReads
@[simp] theorem raise_outstanding (e : ErrorEvent) (s : State) : (raise e s).outstanding = s.outstanding := (raise_reported e s).outstanding
@[simp] theorem raise_services (e : ErrorEvent) (s : State) : (raise e s).services = s.services := (raise_reported e s).services
@[simp] theorem raise_sources (e : ErrorEvent) (s : State) : (raise e s).sources = s.sources := (raise_reported e s).sources
@[simp] theorem raise_bank (e : ErrorEvent) (s : State) : (raise e s).bank = s.bank := (raise_reported e s).bank
@[simp] theorem raise_groups (e : ErrorEvent) (s : State) : (raise e s).groups = s.groups := (raise_reported e s).groups
@[simp] theorem raise_alerts (e : ErrorEvent) (s : State) : (raise e s).alerts = s.alerts := (raise_reported e s).alerts
@[simp] theorem raise_activations (e : ErrorEvent) (s : State) : (raise e s).activations = s.activations := (raise_reported e s).activations
@[simp] theorem raise_link (e : ErrorEvent) (s : State) : (raise e s).link = s.link := (raise_reported e s).link
@[simp] theorem raise_cells (e : ErrorEvent) (s : State) : (raise e s).cells = s.cells := (raise_reported e s).cells
@[simp] theorem raise_intake (e : ErrorEvent) (s : State) : (raise e s).intake = s.intake := (raise_reported e s).intake
@[simp] theorem raise_work (e : ErrorEvent) (s : State) : (raise e s).work = s.work := (raise_reported e s).work

/-! ### Actions put off -/

theorem Reported.severity {s t : State} (h : Reported s t) (k : Fin 22) :
    (vget t.kinds k).severity = (vget s.kinds k).severity := by
  have e := congrArg (fun v => (vget v k).2) h.policies
  simpa using e

theorem Reported.masked {s t : State} (h : Reported s t) (k : Fin 22) :
    (vget t.kinds k).masked = (vget s.kinds k).masked := by
  have e := congrArg (fun v => (vget v k).1) h.policies
  simpa using e

theorem Reported.calm {s t : State} (h : Reported s t) (c : Calm s) : Calm t := by
  unfold Calm State.kindLog at *
  rw [h.severity]; exact c

theorem captureError_deferred (e : ErrorEvent) (s : State) : (captureError e s).deferred = s.deferred := by
  unfold captureError; split <;> rfl

theorem raiseOverflow_deferred {s : State} (c : Calm s) : (raiseOverflow s).deferred = s.deferred := by
  have c' : ((countKind .reportOverflow s).kindLog .reportOverflow).severity = .notice :=
    ((Reported.refl s).countKind _).calm c
  have d : deferAction overflowEvent (countKind .reportOverflow s) = countKind .reportOverflow s := by
    unfold deferAction
    have c'' : ((countKind .reportOverflow s).kindLog overflowEvent.kind).severity = .notice := c'
    rw [c'']
  unfold raiseOverflow
  simp only [d]
  split
  · rfl
  · exact captureError_deferred _ _

/-- Writing a record puts off no action. -/
theorem putRecord_deferred (d : RingDef) (r : Report) (s : State) : (putRecord d r s).deferred = s.deferred := by
  simp [putRecord, writeProducer, writeInternal]

theorem putGap_deferred (d : RingDef) (s : State) : (putGap d s).deferred = s.deferred := by
  simp [putGap, putRecord_deferred]

theorem keepReport_deferred (d : RingDef) (r : Report) (s : State) : (keepReport d r s).deferred = s.deferred := by
  simp [keepReport, putRecord_deferred]

/-- Under a NOTICE severity of REPORT-OVERFLOW a report puts off no action. -/
theorem offer_deferred {s : State} (r : Report) (c : Calm s) : (offer r s).deferred = s.deferred := by
  unfold offer
  split
  · rfl
  · split
    · exact keepReport_deferred _ _ _
    · split
      · exact (keepReport_deferred _ _ _).trans (putGap_deferred _ _)
      · unfold overflowReport
        dsimp only
        split
        · rfl
        · have c' : Calm ({ (dropReport s) with ring := { (dropReport s).ring with overflow := true } } : State) := c
          rw [raiseOverflow_deferred c']
          rfl

end Sys2Proof.Machine
end

