-- ==== Sys2Proof/Laws/Inner.lean ====
section
/-! SUPPORT. What a step of the inner blocks can do, said once: the Schedule Unit, Source Tracker, Alert Unit, Deadline
Bank, Mode Control, Error Log and Report Writer reach a state by the few updates below. -/

namespace Sys2Proof.Machine

/-! ### The ring under reports -/

theorem nextSlot_lt {n i : Nat} (h : 0 < n) : nextSlot n i < n := by
  unfold nextSlot; split
  · assumption
  · exact h

theorem putRecord_ring (d : RingDef) (r : Report) (s : State) :
    (putRecord d r s).ring = { s.ring with producer := nextSlot d.count s.ring.producer } := by
  simp [putRecord, writeProducer, writeInternal]

theorem captureError_ring (e : ErrorEvent) (s : State) : (captureError e s).ring = s.ring := by
  unfold captureError; split <;> rfl

theorem deferAction_ring (e : ErrorEvent) (s : State) : (deferAction e s).ring = s.ring := by
  unfold deferAction; split <;> rfl

/-- A change of the dropped count or the overflow flag keeps the ring in order. -/
theorem RingOk.dropped {g : Ring} (h : RingOk g) (n : BitVec 32) (o : Bool) :
    RingOk { g with dropped := n, overflow := o } := h

theorem RingOk.putRecord {s : State} {d : RingDef} (r : Report) (e : s.ring.defn = some d) (h : RingOk s.ring) :
    RingOk (Machine.putRecord d r s).ring := by
  intro d' e'
  rw [putRecord_ring] at e' ⊢
  have hd : d = d' := by simpa [e] using e'
  subst hd
  obtain ⟨a, b, _, c⟩ := h d e
  exact ⟨a, b, nextSlot_lt (by omega), c⟩

theorem raiseOverflow_ring {s : State} (h : RingOk s.ring) : RingOk (raiseOverflow s).ring := by
  unfold raiseOverflow
  dsimp only
  split
  · rw [deferAction_ring]; exact h
  · show RingOk { (captureError _ _).ring with dropped := _ }
    rw [captureError_ring, deferAction_ring]
    exact h.dropped _ _

theorem offer_ringOk (r : Report) {s : State} (h : RingOk s.ring) : RingOk (offer r s).ring := by
  unfold offer
  split
  · exact h.dropped _ _
  · rename_i d e
    split
    · exact (h.putRecord r e).dropped _ _
    · split
      · have g : RingOk (putGap d s).ring := (h.putRecord (gapReport s) e).dropped _ _
        have e' : (putGap d s).ring.defn = some d := by simp [putGap, putRecord_ring, e]
        exact (g.putRecord r e').dropped _ _
      · unfold overflowReport
        dsimp only
        split
        · exact h.dropped _ _
        · exact raiseOverflow_ring (h.dropped _ _)

theorem raise_ringOk (e : ErrorEvent) {s : State} (h : RingOk s.ring) : RingOk (raise e s).ring := by
  unfold raise
  dsimp only
  split
  · rw [deferAction_ring]; exact h
  · apply offer_ringOk
    rw [captureError_ring, deferAction_ring]
    exact h

/-! ### The updates -/

/-- `t` is reached from `s` by updates of the inner blocks. Each carries what it keeps of the invariants of Safety. -/
inductive Inner (s : State) : State → Prop
  | refl : Inner s s
  | report {t u : State} (h : Inner s t) (r : Reported t u) (g : RingOk t.ring → RingOk u.ring) : Inner s u
  | service {t : State} (h : Inner s t) (i : ServiceIx) (f : Service → Service)
      (k : (t.service i).schedule.length ≤ Config.scheduleMax →
        (f (t.service i)).schedule.length ≤ Config.scheduleMax) : Inner s (t.modService i f)
  | source {t : State} (h : Inner s t) (k : SourceIx) (f : Source → Source)
      (p : FillOk (t.source k) → FillOk (f (t.source k))) : Inner s (t.modSource k f)
  | alert {t : State} (h : Inner s t) (k : AlertIx) (a : Option Alert) : Inner s (t.setAlert k a)
  | channels {t : State} (h : Inner s t) (b : List Channel)
      (p : t.bank.length ≤ Config.channelMax → b.length ≤ Config.channelMax) : Inner s { t with bank := b }
  | count {t : State} (h : Inner s t) (n : BitVec 32) : Inner s { t with activations := n }
  | action {t : State} (h : Inner s t) (d : List Deferred) : Inner s { t with deferred := d }
  | part {t : State} (h : Inner s t) (f : ModeControl → ModeControl) : Inner s (t.modMode f)

theorem Inner.trans {s t u : State} (h : Inner s t) (k : Inner t u) : Inner s u := by
  induction k with
  | refl => exact h
  | report _ r g ih => exact ih.report r g
  | service _ i f k ih => exact ih.service i f k
  | source _ k f p ih => exact ih.source k f p
  | alert _ k a ih => exact ih.alert k a
  | channels _ b p ih => exact ih.channels b p
  | count _ n ih => exact ih.count n
  | action _ d ih => exact ih.action d
  | part _ f ih => exact ih.part f

theorem Inner.offer {s t : State} (h : Inner s t) (r : Report) : Inner s (Machine.offer r t) :=
  h.report (offer_reported r t) (offer_ringOk r)

theorem Inner.raise {s t : State} (h : Inner s t) (e : ErrorEvent) : Inner s (Machine.raise e t) :=
  h.report (raise_reported e t) (raise_ringOk e)

/-- A service changed in other fields than its schedule. -/
theorem Inner.record {s t : State} (h : Inner s t) (i : ServiceIx) (f : Service → Service)
    (k : ∀ v, (f v).schedule = v.schedule) : Inner s (t.modService i f) :=
  h.service i f fun b => by rw [k]; exact b

/-! ### What it keeps -/

/-- The fields no inner block writes. -/
structure Kept (s t : State) : Prop where
  path : SamePath s t
  fixed : SameFixed s t
  now : t.now = s.now
  groups : t.groups = s.groups
  link : t.link = s.link
  cells : t.cells = s.cells
  intake : t.intake = s.intake
  work : t.work = s.work

theorem Kept.refl (s : State) : Kept s s :=
  ⟨⟨rfl, rfl, rfl, rfl, rfl, .refl s, rfl⟩, ⟨rfl, rfl, rfl, rfl⟩, rfl, rfl, rfl, rfl, rfl, rfl⟩

theorem Kept.trans {s t u : State} (h : Kept s t) (k : Kept t u) : Kept s u := by
  obtain ⟨⟨a1, a2, a3, a4, a5, a6, a7⟩, ⟨b1, b2, b3, b4⟩, c1, c2, c3, c4, c5, c6⟩ := h
  obtain ⟨⟨a1', a2', a3', a4', a5', a6', a7'⟩, ⟨b1', b2', b3', b4'⟩, c1', c2', c3', c4', c5', c6'⟩ := k
  exact ⟨⟨a1'.trans a1, a2'.trans a2, a3'.trans a3, a4'.trans a4, a5'.trans a5, a6.trans a6', a7'.trans a7⟩,
    ⟨b1'.trans b1, b2'.trans b2, b3'.trans b3, b4'.trans b4⟩, c1'.trans c1, c2'.trans c2, c3'.trans c3, c4'.trans c4,
    c5'.trans c5, c6'.trans c6⟩

theorem Reported.kept {s t : State} (h : Reported s t) : Kept s t := by
  exact ⟨⟨h.rtt, h.completionOrder, h.rewriteOrder, h.sequence, h.waitingReads, h.follow, h.outstanding⟩,
    ⟨h.pending, h.freeIndex, h.straps, h.roles⟩, h.now, h.groups, h.link, h.cells, h.intake, h.work⟩

/-- Inner blocks leave the memory path, the fixed fields, the groups, the link and the Command Unit alone. -/
theorem Inner.kept {s t : State} (h : Inner s t) : Kept s t := by
  induction h with
  | refl => exact Kept.refl s
  | report _ r _ ih => exact ih.trans r.kept
  | service _ i f _ ih => refine ih.trans ?_; exact ⟨⟨rfl, rfl, rfl, rfl, rfl, .of_eq rfl, rfl⟩, ⟨rfl, rfl, rfl, rfl⟩, rfl, rfl, rfl, rfl, rfl, rfl⟩
  | source _ k f _ ih => refine ih.trans ?_; exact ⟨⟨rfl, rfl, rfl, rfl, rfl, .of_eq rfl, rfl⟩, ⟨rfl, rfl, rfl, rfl⟩, rfl, rfl, rfl, rfl, rfl, rfl⟩
  | alert _ k a ih => refine ih.trans ?_; exact ⟨⟨rfl, rfl, rfl, rfl, rfl, .of_eq rfl, rfl⟩, ⟨rfl, rfl, rfl, rfl⟩, rfl, rfl, rfl, rfl, rfl, rfl⟩
  | channels _ b _ ih => refine ih.trans ?_; exact ⟨⟨rfl, rfl, rfl, rfl, rfl, .of_eq rfl, rfl⟩, ⟨rfl, rfl, rfl, rfl⟩, rfl, rfl, rfl, rfl, rfl, rfl⟩
  | count _ n ih => refine ih.trans ?_; exact ⟨⟨rfl, rfl, rfl, rfl, rfl, .of_eq rfl, rfl⟩, ⟨rfl, rfl, rfl, rfl⟩, rfl, rfl, rfl, rfl, rfl, rfl⟩
  | action _ d ih => refine ih.trans ?_; exact ⟨⟨rfl, rfl, rfl, rfl, rfl, .of_eq rfl, rfl⟩, ⟨rfl, rfl, rfl, rfl⟩, rfl, rfl, rfl, rfl, rfl, rfl⟩
  | part _ f ih => refine ih.trans ?_; exact ⟨⟨rfl, rfl, rfl, rfl, rfl, .of_eq rfl, rfl⟩, ⟨rfl, rfl, rfl, rfl⟩, rfl, rfl, rfl, rfl, rfl, rfl⟩

theorem Inner.channelsBounded {s t : State} (h : Inner s t) (b : ChannelsBounded s) : ChannelsBounded t := by
  induction h with
  | refl => exact b
  | report _ r _ ih => unfold ChannelsBounded; rw [r.bank]; exact ih
  | service _ i f _ ih => exact ih
  | source _ k f _ ih => exact ih
  | alert _ k a ih => exact ih
  | channels _ c p ih => exact p ih
  | count _ n ih => exact ih
  | action _ d ih => exact ih
  | part _ f ih => exact ih

theorem Inner.schedulesBounded {s t : State} (h : Inner s t) (b : SchedulesBounded s) : SchedulesBounded t := by
  induction h with
  | refl => exact b
  | report _ r _ ih => unfold SchedulesBounded State.service; rw [r.services]; exact ih
  | @service t _ i f k ih =>
    intro j
    simp only [State.service, modService_services, vget_vset]
    split
    · exact k (ih i)
    · exact ih j
  | source _ k f _ ih => exact ih
  | alert _ k a ih => exact ih
  | channels _ c p ih => exact ih
  | count _ n ih => exact ih
  | action _ d ih => exact ih
  | part _ f ih => exact ih

theorem Inner.fillsOk {s t : State} (h : Inner s t) (b : FillsOk s) : FillsOk t := by
  induction h with
  | refl => exact b
  | report _ r _ ih => unfold FillsOk State.source; rw [r.sources]; exact ih
  | service _ i f _ ih => exact ih
  | @source t _ k f p ih =>
    intro j
    simp only [State.source, modSource_sources, vget_vset]
    split
    · exact p (ih k)
    · exact ih j
  | alert _ k a ih => exact ih
  | channels _ c p ih => exact ih
  | count _ n ih => exact ih
  | action _ d ih => exact ih
  | part _ f ih => exact ih

theorem Inner.ringOk {s t : State} (h : Inner s t) (b : RingOk s.ring) : RingOk t.ring := by
  induction h with
  | refl => exact b
  | report _ _ g ih => exact g ih
  | service _ i f _ ih => exact ih
  | source _ k f _ ih => exact ih
  | alert _ k a ih => exact ih
  | channels _ c p ih => exact ih
  | count _ n ih => exact ih
  | action _ d ih => exact ih
  | part _ f ih => exact ih

/-- Inner blocks keep every kind's policy and severity. -/
theorem Inner.policies {s t : State} (h : Inner s t) :
    t.kinds.map (fun l => (l.masked, l.severity)) = s.kinds.map (fun l => (l.masked, l.severity)) := by
  induction h with
  | refl => rfl
  | report _ r _ ih => exact r.policies.trans ih
  | service _ i f _ ih => exact ih
  | source _ k f _ ih => exact ih
  | alert _ k a ih => exact ih
  | channels _ c p ih => exact ih
  | count _ n ih => exact ih
  | action _ d ih => exact ih
  | part _ f ih => exact ih

/-- Inner blocks only append to what the part has driven. -/
theorem Inner.driven {s t : State} (h : Inner s t) : s.emitted <+: t.emitted := by
  induction h with
  | refl => exact List.prefix_rfl
  | report _ r _ ih => exact ih.trans r.driven
  | service _ i f _ ih => exact ih
  | source _ k f _ ih => exact ih
  | alert _ k a ih => exact ih
  | channels _ c p ih => exact ih
  | count _ n ih => exact ih
  | action _ d ih => exact ih
  | part _ f ih => exact ih

end Sys2Proof.Machine
end

