-- ==== Sys2Proof/Laws/InnerOps.lean ====
section
/-! SUPPORT. One lemma per operation of the inner blocks: what it reaches, it reaches by the updates of Laws/Inner. -/

namespace Sys2Proof.Machine

theorem attachTo_fillOk (o : InsOwner) {r : Source} (h : FillOk r) : FillOk (r.attachTo o) := h

theorem attach_inner {s0 t0 : State} {src : SourceIx} {o : InsOwner} (h : Inner s0 t0) :
    Inner s0 (attach src o t0).2 := by
  unfold attach
  split
  · exact h.source _ _ (attachTo_fillOk o)
  · exact h

theorem attach_inner' {s0 t0 u0 : State} {src : SourceIx} {o : InsOwner} {a0 : AttachAnswer}
    (e : attach src o t0 = (a0, u0)) (h : Inner s0 t0) : Inner s0 u0 := by
  have k := attach_inner h (src := src) (o := o)
  rwa [e] at k

theorem flushed_fillOk {r : Source} (h : FillOk r) : FillOk r.flushed := by
  unfold Source.flushed
  split
  · intro c e m
    obtain ⟨a, b, d, g⟩ := h c e m
    have w : r.writeIx < c.window.slots := by rw [← g]; exact Nat.mod_lt _ a
    exact ⟨a, Nat.zero_le _, w, Nat.mod_eq_of_lt w⟩
  · exact h

theorem detach_inner {s0 t0 : State} {src : SourceIx} {o : InsOwner} (h : Inner s0 t0) :
    Inner s0 (detach src o t0) := by
  unfold detach
  split
  · apply Inner.offer
    apply h.source
    exact flushed_fillOk
  · exact h

theorem nextSlot_eq {n i : Nat} (h : i < n) : nextSlot n i = (i + 1) % n := by
  unfold nextSlot
  split
  · rw [Nat.mod_eq_of_lt (by assumption)]
  · have e : i + 1 = n := by omega
    rw [e, Nat.mod_self]

theorem taken_fillOk {r : Source} {c : SourceConfig} (e : r.config = some c) (p : r.fill ≠ 0) (h : FillOk r) :
    FillOk (r.taken c.window.slots) := by
  intro d e' m
  have ed : c = d := by
    have x : r.config = some d := e'
    rw [e] at x; exact Option.some.inj x
  subst ed
  obtain ⟨a, b, g, i⟩ := h c e m
  refine ⟨a, ?_, nextSlot_lt a, ?_⟩
  · show r.fill - 1 ≤ _; omega
  · show (nextSlot _ r.readIx + (r.fill - 1)) % _ = r.writeIx
    rw [nextSlot_eq g, Nat.mod_add_mod, ← i]
    congr 1
    omega

theorem reserve_inner {s0 t0 : State} {src : SourceIx} (h : Inner s0 t0) : Inner s0 (reserve src t0).2 := by
  unfold reserve
  split
  · exact h
  · rename_i c e
    split
    · dsimp only
      apply h.source
      exact id
    · split
      · dsimp only
        apply h.source
        exact id
      · rename_i p
        exact h.source _ _ fun k => taken_fillOk e (by simpa using p) k

theorem reserve_inner' {s0 t0 u0 : State} {src : SourceIx} {a0 : Option Addr} (e : reserve src t0 = (a0, u0))
    (h : Inner s0 t0) : Inner s0 u0 := by
  have k := reserve_inner h (src := src)
  rwa [e] at k

theorem counted_fillOk {r : Source} {c : SourceConfig} (e : r.config = some c) (p : r.fill < c.window.slots)
    (h : FillOk r) : FillOk (r.counted c.window.slots) := by
  intro d e' m
  have ed : c = d := by
    have x : r.config = some d := e'
    rw [e] at x; exact Option.some.inj x
  subst ed
  obtain ⟨a, b, g, i⟩ := h c e m
  refine ⟨a, p, g, ?_⟩
  have w : r.writeIx < c.window.slots := by rw [← i]; exact Nat.mod_lt _ a
  show (r.readIx + (r.fill + 1)) % _ = nextSlot _ r.writeIx
  rw [nextSlot_eq w, ← i, Nat.mod_add_mod, Nat.add_assoc]

theorem overrun_fillOk {r : Source} {c : SourceConfig} (e : r.config = some c) (h : FillOk r) :
    FillOk (r.overrun c.window.slots) := by
  intro d e' m
  have ed : c = d := by
    have x : r.config = some d := e'
    rw [e] at x; exact Option.some.inj x
  subst ed
  obtain ⟨a, b, g, i⟩ := h c e m
  refine ⟨a, b, nextSlot_lt a, ?_⟩
  have w : r.writeIx < c.window.slots := by rw [← i]; exact Nat.mod_lt _ a
  show (nextSlot _ r.readIx + r.fill) % _ = nextSlot _ r.writeIx
  rw [nextSlot_eq w, nextSlot_eq g, ← i, Nat.mod_add_mod, Nat.mod_add_mod]
  congr 1
  omega

theorem playerSlotWrite_inner {s0 t0 : State} {src : SourceIx} {c : SourceConfig} {w : Nat} {q : RequesterId}
    {addr : Addr} {packet : List Byte} (e : (t0.source src).config = some c) (h : Inner s0 t0) :
    Inner s0 (playerSlotWrite src c w q addr packet t0) := by
  unfold playerSlotWrite
  dsimp only
  split
  · exact h.raise _
  · split
    · rename_i p
      exact h.source _ _ fun k => counted_fillOk e p k
    · split
      · exact h.source _ _ fun k => overrun_fillOk e k
      · exact (h.source _ _ fun k => overrun_fillOk e k).raise _

theorem sourceTrackerWrite_inner {s0 t0 : State} {src : SourceIx} {q : RequesterId} {p : Part} {bytes : List LaneByte}
    (h : Inner s0 t0) : Inner s0 (sourceTrackerWrite src q p bytes t0) := by
  unfold sourceTrackerWrite
  split
  · exact h
  · rename_i c e
    split
    · exact playerSlotWrite_inner e h
    · exact h.raise _

theorem disarm_inner {s0 t0 : State} {o : InsOwner} (h : Inner s0 t0) : Inner s0 (disarm o t0) :=
  h.channels _ fun b => (List.length_filter_le _ _).trans b

theorem insertChannel_length (c : Channel) (l : List Channel) : (insertChannel c l).length = l.length + 1 := by
  induction l with
  | nil => rfl
  | cons x r ih => unfold insertChannel; split <;> simp [ih]

theorem armChannel_inner {s0 t0 : State} {moment : Stamp} {o : InsOwner} (p : armAnswer moment t0 = .armed)
    (h : Inner s0 t0) : Inner s0 (armChannel moment o t0) := by
  refine h.channels _ fun _ => ?_
  rw [insertChannel_length]
  unfold armAnswer at p
  split at p
  · cases p
  · split at p
    · assumption
    · cases p

theorem armPreRoll_inner {s0 t0 : State} {moment : Stamp} {o : InsOwner} {check : State → State}
    (k : Inner s0 (check t0)) (h : Inner s0 t0) : Inner s0 (armPreRoll moment o check t0) := by
  unfold armPreRoll
  split
  · exact k
  · rename_i p
    exact armChannel_inner p h
  · exact h.raise _

theorem modEntry_inner {s0 t0 : State} {i : ServiceIx} {ev : EventId} {f : BreakEntry → BreakEntry} (h : Inner s0 t0) :
    Inner s0 (t0.modEntry i ev f) :=
  h.service _ _ fun b => by simpa [mapEntry] using b

theorem endActive_inner {s0 t0 : State} {i : ServiceIx} {e : BreakEntry} {how : BreakLeave} (h : Inner s0 t0) :
    Inner s0 (endActive i e how t0) := by
  unfold endActive
  split
  · exact (modEntry_inner h).record _ _ fun _ => rfl
  · exact h

theorem detachEntry_inner {s0 t0 : State} {i : ServiceIx} {e : BreakEntry} (h : Inner s0 t0) :
    Inner s0 (detachEntry i e t0) := by
  unfold detachEntry
  try dsimp only
  repeat' split
  all_goals repeat first
    | with_reducible exact h
    | with_reducible apply detach_inner

theorem dropEntry_inner {s0 t0 : State} {i : ServiceIx} {ev : EventId} (h : Inner s0 t0) :
    Inner s0 (dropEntry i ev t0) :=
  h.service _ _ fun b => (List.length_filter_le _ _).trans b

theorem leaveBreak_inner {s0 t0 : State} {i : ServiceIx} {ev : EventId} {how : BreakLeave} (h : Inner s0 t0) :
    Inner s0 (leaveBreak i ev how t0) := by
  unfold leaveBreak
  split
  · exact h
  · exact dropEntry_inner (detachEntry_inner ((endActive_inner (disarm_inner h)).offer _))

theorem endActiveBreak_inner {s0 t0 : State} {i : ServiceIx} {cause : Cause} {actualIn : Stamp} (h : Inner s0 t0) :
    Inner s0 (endActiveBreak i cause actualIn t0) := by
  unfold endActiveBreak
  try dsimp only
  repeat' split
  all_goals repeat first
    | with_reducible exact h
    | with_reducible apply leaveBreak_inner

theorem resolveEntry_inner {s0 t0 : State} {i : ServiceIx} {e : BreakEntry} (h : Inner s0 t0) :
    Inner s0 (resolveEntry i e t0).2 := by
  unfold resolveEntry
  try dsimp only
  repeat' split
  all_goals try dsimp only
  all_goals repeat first
    | with_reducible exact h
    | with_reducible apply attach_inner
    | with_reducible refine attach_inner' (by assumption) ?_
    | with_reducible apply modEntry_inner

theorem resolveEntry_inner' {s0 t0 u0 : State} {i : ServiceIx} {e : BreakEntry} {a0 : Resolution}
    (eq0 : resolveEntry i e t0 = (a0, u0)) (h : Inner s0 t0) : Inner s0 u0 := by
  have k := resolveEntry_inner h (i := i) (e := e)
  rwa [eq0] at k

theorem checkEntry_inner {s0 t0 : State} {i : ServiceIx} {e : BreakEntry} (h : Inner s0 t0) :
    Inner s0 (checkEntry i e t0) := by
  unfold checkEntry
  try dsimp only
  repeat' split
  all_goals repeat first
    | with_reducible exact h
    | with_reducible apply modEntry_inner
    | with_reducible apply resolveEntry_inner
    | with_reducible refine resolveEntry_inner' (by assumption) ?_
    | with_reducible apply Inner.offer

theorem checkBreak_inner {s0 t0 : State} {i : ServiceIx} {ev : EventId} (h : Inner s0 t0) :
    Inner s0 (checkBreak i ev t0) := by
  unfold checkBreak
  try dsimp only
  repeat' split
  all_goals repeat first
    | with_reducible exact h
    | with_reducible apply checkEntry_inner

theorem armBreak_inner {s0 t0 : State} {i : ServiceIx} {ev : EventId} (h : Inner s0 t0) :
    Inner s0 (armBreak i ev t0) := by
  unfold armBreak
  split
  · exact armPreRoll_inner (checkBreak_inner h) h
  · exact h

theorem insertEntry_length (e : BreakEntry) (l : List BreakEntry) : (insertEntry e l).length = l.length + 1 := by
  induction l with
  | nil => rfl
  | cons x r ih => unfold insertEntry; split <;> simp [ih]

theorem placeEntry_length (e : BreakEntry) (l : List BreakEntry) : (placeEntry e l).length = l.length + 1 := by
  unfold placeEntry
  split
  · rfl
  · split <;> simp [insertEntry_length]

theorem insertOut_inner {s0 t0 : State} {i : ServiceIx} {o : OutRequest}
    (p : (t0.service i).schedule.length < Config.scheduleMax) (h : Inner s0 t0) : Inner s0 (insertOut i o t0) := by
  unfold insertOut
  refine armBreak_inner (h.service _ _ fun _ => ?_)
  show (placeEntry _ _).length ≤ _
  rw [placeEntry_length]
  exact p

theorem filter_event_length {l : List BreakEntry} {ev : EventId} {e : BreakEntry}
    (p : (l.find? fun x => x.event == ev) = some e) : (l.filter fun x => x.event != ev).length + 1 ≤ l.length := by
  induction l with
  | nil => cases p
  | cons x r ih =>
    by_cases c : x.event == ev
    · have n : (x.event != ev) = false := by simpa [bne] using c
      rw [List.filter_cons_of_neg (by simp [n])]
      exact Nat.succ_le_succ (List.length_filter_le _ _)
    · rw [List.find?_cons_of_neg (by exact c)] at p
      rw [List.filter_cons_of_pos (by simpa [bne] using c)]
      simpa using ih p

theorem replaceOut_inner {s0 t0 : State} {i : ServiceIx} {o : OutRequest} {e x : BreakEntry}
    (p : (t0.service i).findEntry o.event = some x) (h : Inner s0 t0) : Inner s0 (replaceOut i o e t0) := by
  refine h.service _ _ fun b => ?_
  show (placeEntry _ _).length ≤ _
  rw [placeEntry_length]
  exact (filter_event_length p).trans b

theorem rearmOut_inner {s0 t0 : State} {i : ServiceIx} {o : OutRequest} {e : BreakEntry} (h : Inner s0 t0) :
    Inner s0 (rearmOut i o e t0) := by
  unfold rearmOut
  split
  · exact h
  · refine armBreak_inner (modEntry_inner ?_)
    split
    · exact detachEntry_inner h
    · exact h

theorem offerUpdated_inner {s0 t0 : State} {i : ServiceIx} {ev : EventId} (h : Inner s0 t0) :
    Inner s0 (offerUpdated i ev t0) := by
  unfold offerUpdated
  try dsimp only
  repeat' split
  all_goals repeat first
    | with_reducible exact h
    | with_reducible apply Inner.offer

theorem updateOut_inner {s0 t0 : State} {i : ServiceIx} {o : OutRequest} {e x : BreakEntry}
    (p : (t0.service i).findEntry o.event = some x) (h : Inner s0 t0) : Inner s0 (updateOut i o e t0).2 := by
  unfold updateOut
  dsimp only
  split
  · exact leaveBreak_inner (disarm_inner h)
  · exact offerUpdated_inner (rearmOut_inner (replaceOut_inner p (disarm_inner h)))

theorem takeOut_inner {s0 t0 : State} {i : ServiceIx} {o : OutRequest} (h : Inner s0 t0) :
    Inner s0 (takeOut i o t0).2 := by
  unfold takeOut
  split
  · rename_i p
    split
    · exact h
    · exact updateOut_inner p h
  · split
    · exact h
    · split
      · exact h.offer _
      · rename_i p _
        exact insertOut_inner (Nat.lt_of_not_le p) h

theorem takeOut_inner' {s0 t0 u0 : State} {i : ServiceIx} {o : OutRequest} {a0 : OutOutcome}
    (e : takeOut i o t0 = (a0, u0)) (h : Inner s0 t0) : Inner s0 u0 := by
  have k := takeOut_inner h (i := i) (o := o)
  rwa [e] at k

theorem takeIn_inner {s0 t0 : State} {i : ServiceIx} {ev : EventId} {stamp : Stamp} (h : Inner s0 t0) :
    Inner s0 (takeIn i ev stamp t0).2 := by
  unfold takeIn
  try dsimp only
  repeat' split
  all_goals try dsimp only
  all_goals repeat first
    | with_reducible exact h
    | with_reducible apply modEntry_inner

theorem takeIn_inner' {s0 t0 u0 : State} {i : ServiceIx} {ev : EventId} {stamp : Stamp} {a0 : InOutcome}
    (eq0 : takeIn i ev stamp t0 = (a0, u0)) (h : Inner s0 t0) : Inner s0 u0 := by
  have k := takeIn_inner h (i := i) (ev := ev) (stamp := stamp)
  rwa [eq0] at k

theorem takeCancel_inner {s0 t0 : State} {i : ServiceIx} {ev : EventId} (h : Inner s0 t0) :
    Inner s0 (takeCancel i ev t0).2 := by
  unfold takeCancel
  try dsimp only
  repeat' split
  all_goals try dsimp only
  all_goals repeat first
    | with_reducible exact h
    | with_reducible apply leaveBreak_inner

theorem takeCancel_inner' {s0 t0 u0 : State} {i : ServiceIx} {ev : EventId} {a0 : CancelOutcome}
    (eq0 : takeCancel i ev t0 = (a0, u0)) (h : Inner s0 t0) : Inner s0 u0 := by
  have k := takeCancel_inner h (i := i) (ev := ev)
  rwa [eq0] at k

/-- A fold of a function that keeps `Inner` keeps it. -/
theorem foldl_inner {α : Type} {s0 : State} {f : State → α → State} (k : ∀ t a, Inner s0 t → Inner s0 (f t a)) (l : List α)
    {t0 : State} (h : Inner s0 t0) : Inner s0 (l.foldl f t0) := by
  induction l generalizing t0 with
  | nil => exact h
  | cons a r ih => exact ih (k t0 a h)

/-- An event applied to every service keeps `Inner` when it does so for one. -/
theorem forServices_inner {s0 t0 : State} {f : ServiceIx → State → State} (k : ∀ t i, Inner s0 t → Inner s0 (f i t))
    (h : Inner s0 t0) : Inner s0 (forServices f t0) := foldl_inner (fun t a => k t a) _ h

theorem clearSchedule_inner {s0 t0 : State} {i : ServiceIx} {cause : Cause} (h : Inner s0 t0) :
    Inner s0 (clearSchedule i cause t0) := by
  refine foldl_inner (fun t ev k => ?_) _ h
  split
  · split
    · exact leaveBreak_inner k
    · exact leaveBreak_inner k
  · exact k

theorem bypassReady_inner {s0 t0 : State} {i : ServiceIx} {e : BreakEntry} (h : Inner s0 t0) :
    Inner s0 (bypassReady i e t0) := by
  unfold bypassReady
  try dsimp only
  all_goals repeat first
    | with_reducible exact h
    | with_reducible apply modEntry_inner
    | with_reducible apply detachEntry_inner
    | with_reducible apply Inner.offer

theorem bypassSchedule_inner {s0 t0 : State} {i : ServiceIx} (h : Inner s0 t0) : Inner s0 (bypassSchedule i t0) := by
  refine foldl_inner (fun t ev k => ?_) _ h
  split
  · split
    · exact leaveBreak_inner k
    · split
      · exact bypassReady_inner k
      · exact k
  · exact k

theorem setSlot_schedule (v : Service) (l : SlotLetter) (p : Option LocalProg) :
    (v.setSlot l p).schedule = v.schedule := by cases l <;> rfl

theorem modSlot_inner {s0 t0 : State} {i : ServiceIx} {l : SlotLetter} {f : LocalProg → LocalProg} (h : Inner s0 t0) :
    Inner s0 (t0.modSlot i l f) := h.record _ _ fun v => setSlot_schedule v l _

theorem endRunning_inner {s0 t0 : State} {i : ServiceIx} {l : SlotLetter} {p : LocalProg} {how : SlotLeave}
    (h : Inner s0 t0) : Inner s0 (endRunning i l p how t0) := by
  unfold endRunning
  split
  · exact (modSlot_inner h).record _ _ fun _ => rfl
  · exact h

theorem emptySlot_inner {s0 t0 : State} {i : ServiceIx} {l : SlotLetter} (h : Inner s0 t0) :
    Inner s0 (emptySlot i l t0) := h.record _ _ fun v => setSlot_schedule v l _

theorem leaveSlot_inner {s0 t0 : State} {i : ServiceIx} {l : SlotLetter} {how : SlotLeave} (h : Inner s0 t0) :
    Inner s0 (leaveSlot i l how t0) := by
  unfold leaveSlot
  try dsimp only
  repeat' split
  all_goals repeat first
    | with_reducible exact h
    | with_reducible apply detach_inner
    | with_reducible apply disarm_inner
    | with_reducible apply endRunning_inner
    | with_reducible apply emptySlot_inner
    | with_reducible apply Inner.offer

theorem endRunningSlot_inner {s0 t0 : State} {i : ServiceIx} {cause : Cause} {actualEnd : Stamp} (h : Inner s0 t0) :
    Inner s0 (endRunningSlot i cause actualEnd t0) := by
  unfold endRunningSlot
  try dsimp only
  repeat' split
  all_goals repeat first
    | with_reducible exact h
    | with_reducible apply leaveSlot_inner

theorem checkLoaded_inner {s0 t0 : State} {i : ServiceIx} {l : SlotLetter} {p : LocalProg} (h : Inner s0 t0) :
    Inner s0 (checkLoaded i l p t0) := by
  unfold checkLoaded
  try dsimp only
  repeat' split
  all_goals repeat first
    | with_reducible exact h
    | with_reducible apply attach_inner
    | with_reducible refine attach_inner' (by assumption) ?_
    | with_reducible apply modSlot_inner
    | with_reducible apply Inner.offer

theorem checkSlot_inner {s0 t0 : State} {i : ServiceIx} {l : SlotLetter} (h : Inner s0 t0) :
    Inner s0 (checkSlot i l t0) := by
  unfold checkSlot
  try dsimp only
  repeat' split
  all_goals repeat first
    | with_reducible exact h
    | with_reducible apply checkLoaded_inner

theorem armSlot_inner {s0 t0 : State} {i : ServiceIx} {l : SlotLetter} (h : Inner s0 t0) :
    Inner s0 (armSlot i l t0) := by
  unfold armSlot
  split
  · exact armPreRoll_inner (checkSlot_inner h) h
  · exact h

theorem checkOwner_inner {s0 t0 : State} {o : InsOwner} (h : Inner s0 t0) :
    Inner s0 (checkOwner o t0) := by
  unfold checkOwner
  try dsimp only
  repeat' split
  all_goals repeat first
    | with_reducible exact h
    | with_reducible apply checkBreak_inner
    | with_reducible apply checkSlot_inner

theorem localEndAt_inner {s0 t0 : State} {i : ServiceIx} {t : Stamp} (h : Inner s0 t0) :
    Inner s0 (localEndAt i t t0).2 := by
  unfold localEndAt
  try dsimp only
  repeat' split
  all_goals try dsimp only
  all_goals repeat first
    | with_reducible exact h
    | with_reducible apply leaveSlot_inner

theorem resolveSlot_inner {s0 t0 : State} {i : ServiceIx} {l : SlotLetter} {p : LocalProg} (h : Inner s0 t0) :
    Inner s0 (resolveSlot i l p t0).2 := by
  unfold resolveSlot
  try dsimp only
  repeat' split
  all_goals try dsimp only
  all_goals repeat first
    | with_reducible exact h
    | with_reducible apply attach_inner
    | with_reducible refine attach_inner' (by assumption) ?_
    | with_reducible apply disarm_inner

theorem resolveSlot_inner' {s0 t0 u0 : State} {i : ServiceIx} {l : SlotLetter} {p : LocalProg} {a0 : Option Cause}
    (eq0 : resolveSlot i l p t0 = (a0, u0)) (h : Inner s0 t0) : Inner s0 u0 := by
  have k := resolveSlot_inner h (i := i) (l := l) (p := p)
  rwa [eq0] at k

theorem startSlot_inner {s0 t0 : State} {i : ServiceIx} {l : SlotLetter} {p : LocalProg} {t : Stamp} (h : Inner s0 t0) :
    Inner s0 (startSlot i l p t t0) := by
  unfold startSlot
  try dsimp only
  all_goals repeat first
    | with_reducible exact h
    | with_reducible apply disarm_inner
    | with_reducible apply endActiveBreak_inner
    | with_reducible apply modSlot_inner
    | ((with_reducible apply Inner.record); rotate_left; (intro _; rfl))
    | with_reducible apply Inner.offer

theorem examineSlot_inner {s0 t0 : State} {i : ServiceIx} {t : Stamp} (h : Inner s0 t0) :
    Inner s0 (examineSlot i t t0).2 := by
  unfold examineSlot
  try dsimp only
  repeat' split
  all_goals try dsimp only
  all_goals repeat first
    | with_reducible exact h
    | with_reducible apply leaveSlot_inner
    | with_reducible apply resolveSlot_inner
    | with_reducible refine resolveSlot_inner' (by assumption) ?_
    | with_reducible apply startSlot_inner

theorem examineSlot_inner' {s0 t0 u0 : State} {i : ServiceIx} {t : Stamp} {a0 : SlotExam}
    (eq0 : examineSlot i t t0 = (a0, u0)) (h : Inner s0 t0) : Inner s0 u0 := by
  have k := examineSlot_inner h (i := i) (t := t)
  rwa [eq0] at k

theorem localStartAt_inner {s0 t0 : State} {i : ServiceIx} {t : Stamp} (h : Inner s0 t0) :
    Inner s0 (localStartAt i t t0).2 := by
  unfold localStartAt
  try dsimp only
  repeat' split
  all_goals try dsimp only
  all_goals repeat first
    | with_reducible exact h
    | with_reducible apply examineSlot_inner
    | with_reducible refine examineSlot_inner' (by assumption) ?_

theorem localSteps_inner {s0 t0 : State} {i : ServiceIx} {t : Stamp} (h : Inner s0 t0) :
    Inner s0 (localSteps i t t0).2 := localStartAt_inner (localEndAt_inner h)

theorem clearSlots_inner {s0 t0 : State} {i : ServiceIx} {cause : Cause} (h : Inner s0 t0) :
    Inner s0 (clearSlots i cause t0) := foldl_inner (fun _ _ k => leaveSlot_inner k) _ h

theorem bypassReadySlot_inner {s0 t0 : State} {i : ServiceIx} {l : SlotLetter} {p : LocalProg} (h : Inner s0 t0) :
    Inner s0 (bypassReadySlot i l p t0) := by
  unfold bypassReadySlot
  try dsimp only
  all_goals repeat first
    | with_reducible exact h
    | with_reducible apply detach_inner
    | with_reducible apply modSlot_inner
    | with_reducible apply Inner.offer

theorem bypassSlots_inner {s0 t0 : State} {i : ServiceIx} (h : Inner s0 t0) : Inner s0 (bypassSlots i t0) := by
  refine foldl_inner (fun t ev k => ?_) _ h
  split
  · split
    · exact leaveSlot_inner k
    · split
      · exact bypassReadySlot_inner k
      · exact k
  · exact k

theorem recompute_inner {s0 t0 : State} {i : ServiceIx} (h : Inner s0 t0) :
    Inner s0 (recompute i t0) := by
  unfold recompute
  try dsimp only
  repeat' split
  all_goals repeat first
    | with_reducible exact h
    | ((with_reducible apply Inner.record); rotate_left; (intro _; rfl))

theorem recomputeAll_inner {s0 t0 : State} (h : Inner s0 t0) : Inner s0 (recomputeAll t0) := by
  refine forServices_inner (fun t i k => ?_) h
  split
  · exact recompute_inner k
  · exact k

theorem preempt_inner {s0 t0 before : State} (h : Inner s0 t0) : Inner s0 (preempt before t0) := by
  refine forServices_inner (fun t i k => ?_) h
  split
  · exact endActiveBreak_inner k
  · exact k

theorem recomputeOne_inner {s0 t0 : State} {i : ServiceIx} (h : Inner s0 t0) :
    Inner s0 (recomputeOne i t0) := by
  unfold recomputeOne
  try dsimp only
  all_goals repeat first
    | with_reducible exact h
    | with_reducible apply recompute_inner
    | with_reducible apply preempt_inner

theorem changeUsers_inner {s0 t0 : State} {f : Nat → Nat} {g : AlertGroup} (h : Inner s0 t0) :
    Inner s0 (changeUsers f g t0) := foldl_inner (fun _ _ k => k.source _ _ fun p => p) _ h

theorem activate_inner {s0 t0 : State} {k : AlertIx} {g : GroupIx} {level : Nat} {origin : AlertOrigin}
    (h : Inner s0 t0) : Inner s0 (activate k g level origin t0) := by
  unfold activate
  exact preempt_inner ((recomputeAll_inner (changeUsers_inner ((h.alert _ _).count _))).offer _)

theorem raiseAlert_inner {s0 t0 : State} {k : AlertIx} {a : Alert} {level : Nat} (h : Inner s0 t0) :
    Inner s0 (raiseAlert k a level t0) := by
  unfold raiseAlert
  exact preempt_inner ((recomputeAll_inner (h.alert _ _)).offer _)

theorem activateGroup_inner {s0 t0 : State} {g : GroupIx} {level : Nat} {origin : AlertOrigin} (h : Inner s0 t0) :
    Inner s0 (activateGroup g level origin t0).2 := by
  unfold activateGroup
  try dsimp only
  repeat' split
  all_goals try dsimp only
  all_goals repeat first
    | with_reducible exact h
    | with_reducible apply activate_inner

theorem activateOrRaise_inner {s0 t0 : State} {g : GroupIx} {level : Nat} {origin : AlertOrigin} (h : Inner s0 t0) :
    Inner s0 (activateOrRaise g level origin t0).2 := by
  unfold activateOrRaise
  try dsimp only
  repeat' split
  all_goals try dsimp only
  all_goals repeat first
    | with_reducible exact h
    | with_reducible apply raiseAlert_inner
    | with_reducible apply activateGroup_inner

theorem requestActivation_inner {s0 t0 : State} {r : ActivationRequest} (h : Inner s0 t0) :
    Inner s0 (requestActivation r t0).2 := by
  unfold requestActivation
  try dsimp only
  repeat' split
  all_goals try dsimp only
  all_goals repeat first
    | with_reducible exact h
    | with_reducible apply activateOrRaise_inner

theorem endAlert_inner {s0 t0 : State} {k : AlertIx} {cause : Cause} (h : Inner s0 t0) :
    Inner s0 (endAlert k cause t0) := by
  unfold endAlert
  split
  · exact h
  · exact preempt_inner (recomputeAll_inner ((changeUsers_inner (h.offer _)).alert _ _))

theorem endAllAlerts_inner {s0 t0 : State} {cause : Cause} (h : Inner s0 t0) : Inner s0 (endAllAlerts cause t0) :=
  forServices_inner (fun _ _ k => k.record _ _ fun _ => rfl) (foldl_inner (fun _ _ k => endAlert_inner k) _ h)

theorem holdEnds_inner {s0 t0 : State} {i : ServiceIx} (h : Inner s0 t0) : Inner s0 (holdEnds i t0) := by
  unfold holdEnds
  apply Inner.record
  · exact endRunningSlot_inner (endActiveBreak_inner h)
  · exact fun _ => rfl

theorem setHeld_inner {s0 t0 : State} {i : ServiceIx} {cause : HeldCause} (h : Inner s0 t0) :
    Inner s0 (setHeld i cause t0) := by
  unfold setHeld
  dsimp only
  split
  · apply h.record
    exact fun _ => rfl
  · apply holdEnds_inner
    apply Inner.offer
    apply h.record
    exact fun _ => rfl

theorem resetComponents_inner {s0 t0 : State} (h : Inner s0 t0) : Inner s0 (resetComponents t0) :=
  forServices_inner (fun _ _ k => k.record _ _ fun _ => rfl) h

theorem startRecovery_inner {s0 t0 : State} (h : Inner s0 t0) : Inner s0 (startRecovery t0) := h.part _

theorem bypassMode_inner {s0 t0 : State} {kind : ErrorKind} (h : Inner s0 t0) : Inner s0 (bypassMode kind t0) :=
  (h.part _).offer _

theorem bypassServices_inner {s0 t0 : State} (h : Inner s0 t0) : Inner s0 (bypassServices t0) := by
  refine forServices_inner (fun t i k => ?_) h
  split
  · exact bypassSlots_inner (bypassSchedule_inner k)
  · exact k

theorem enterBypass_inner {s0 t0 : State} {kind : ErrorKind} (h : Inner s0 t0) : Inner s0 (enterBypass kind t0) := by
  unfold enterBypass
  have k := resetComponents_inner (endAllAlerts_inner (cause := .bypass) (bypassServices_inner (bypassMode_inner (kind := kind) h)))
  dsimp only
  split
  · exact k
  · exact startRecovery_inner k

theorem fatalAction_inner {s0 t0 : State} {kind : ErrorKind} (h : Inner s0 t0) :
    Inner s0 (fatalAction kind t0) := by
  unfold fatalAction
  try dsimp only
  repeat' split
  all_goals repeat first
    | with_reducible exact h
    | with_reducible apply startRecovery_inner
    | with_reducible apply enterBypass_inner

theorem leaveBypass_inner {s0 t0 : State} {cause : Cause} (h : Inner s0 t0) : Inner s0 (leaveBypass cause t0) := by
  unfold leaveBypass
  apply Inner.part
  apply Inner.offer
  exact h.part _

theorem runAction_inner {s0 t0 : State} {d : Deferred} (h : Inner s0 t0) :
    Inner s0 (runAction d t0) := by
  unfold runAction
  try dsimp only
  repeat' split
  all_goals repeat first
    | with_reducible exact h
    | with_reducible apply setHeld_inner
    | with_reducible apply fatalAction_inner

theorem settleIn_inner {s0 : State} (n : Nat) {t0 : State} (h : Inner s0 t0) : Inner s0 (settleIn n t0) := by
  induction n generalizing t0 with
  | zero => exact h
  | succ n ih =>
    unfold settleIn
    split
    · exact h
    · exact ih (runAction_inner (h.action _))

/-- Carrying out the actions put off is a run of inner updates. -/
theorem settle_inner {s0 t0 : State} (h : Inner s0 t0) : Inner s0 (settle t0) := settleIn_inner _ h

theorem breakReturnAt_inner {s0 t0 : State} {i : ServiceIx} {t : Stamp} (h : Inner s0 t0) :
    Inner s0 (breakReturnAt i t t0).2 := by
  unfold breakReturnAt
  try dsimp only
  repeat' split
  all_goals try dsimp only
  all_goals repeat first
    | with_reducible exact h
    | with_reducible apply leaveBreak_inner

theorem supersede_inner {s0 t0 : State} {i : ServiceIx} {t : Stamp} {evs : List EventId} (h : Inner s0 t0) :
    Inner s0 (supersede i t evs t0) := foldl_inner (fun _ _ k => leaveBreak_inner k) _ h

theorem settleSource_inner {s0 t0 : State} {i : ServiceIx} {e : BreakEntry} (h : Inner s0 t0) :
    Inner s0 (settleSource i e t0).2 := by
  unfold settleSource
  try dsimp only
  repeat' split
  all_goals try dsimp only
  all_goals repeat first
    | with_reducible exact h
    | with_reducible apply disarm_inner
    | with_reducible apply resolveEntry_inner

theorem settleSource_inner' {s0 t0 u0 : State} {i : ServiceIx} {e : BreakEntry} {a0 : Option Cause}
    (eq0 : settleSource i e t0 = (a0, u0)) (h : Inner s0 t0) : Inner s0 u0 := by
  have k := settleSource_inner h (i := i) (e := e)
  rwa [eq0] at k

theorem offerStarted_inner {s0 t0 : State} {i : ServiceIx} {ev : EventId} (h : Inner s0 t0) :
    Inner s0 (offerStarted i ev t0) := by
  unfold offerStarted
  try dsimp only
  repeat' split
  all_goals repeat first
    | with_reducible exact h
    | with_reducible apply Inner.offer

theorem startBreak_inner {s0 t0 : State} {i : ServiceIx} {ev : EventId} {t : Stamp} (h : Inner s0 t0) :
    Inner s0 (startBreak i ev t t0) := by
  unfold startBreak
  try dsimp only
  all_goals repeat first
    | with_reducible exact h
    | with_reducible apply disarm_inner
    | with_reducible apply modEntry_inner
    | with_reducible apply endActiveBreak_inner
    | with_reducible apply offerStarted_inner
    | ((with_reducible apply Inner.record); rotate_left; (intro _; rfl))

theorem examineCandidate_inner {s0 t0 : State} {i : ServiceIx} {e : BreakEntry} {t : Stamp} (h : Inner s0 t0) :
    Inner s0 (examineCandidate i e t t0).2 := by
  unfold examineCandidate
  try dsimp only
  repeat' split
  all_goals try dsimp only
  all_goals repeat first
    | with_reducible exact h
    | with_reducible apply leaveBreak_inner
    | with_reducible apply settleSource_inner
    | with_reducible refine settleSource_inner' (by assumption) ?_
    | with_reducible apply startBreak_inner

theorem breakStartAt_inner {s0 t0 : State} {i : ServiceIx} {t : Stamp} (h : Inner s0 t0) :
    Inner s0 (breakStartAt i t t0).2 := by
  unfold breakStartAt
  try dsimp only
  repeat' split
  all_goals try dsimp only
  all_goals repeat first
    | with_reducible exact h
    | with_reducible apply supersede_inner
    | with_reducible apply examineCandidate_inner

theorem consult_inner {s0 t0 : State} {i : ServiceIx} {t : Stamp} (h : Inner s0 t0) : Inner s0 (consult i t t0).2 :=
  breakStartAt_inner (breakReturnAt_inner (localSteps_inner h))

theorem stuffBreak_inner {s0 t0 : State} {r : ReadInfo} {e : BreakEntry} (h : Inner s0 t0) :
    Inner s0 (stuffBreak r e t0).2 := by
  unfold stuffBreak
  try dsimp only
  repeat' split
  all_goals repeat first
    | with_reducible exact h
    | with_reducible apply modEntry_inner
    | with_reducible apply leaveBreak_inner
    | with_reducible apply Inner.raise

theorem drawBreak_inner {s0 t0 : State} {r : ReadInfo} {e : BreakEntry} {b : Binding} (h : Inner s0 t0) :
    Inner s0 (drawBreak r e b t0).2 := by
  unfold drawBreak
  try dsimp only
  repeat' split
  all_goals try dsimp only
  all_goals repeat first
    | with_reducible exact h
    | with_reducible apply reserve_inner
    | with_reducible refine reserve_inner' (by assumption) ?_
    | with_reducible apply modEntry_inner
    | with_reducible apply stuffBreak_inner

theorem stuffLocal_inner {s0 t0 : State} {r : ReadInfo} {l : SlotLetter} {p : LocalProg} (h : Inner s0 t0) :
    Inner s0 (stuffLocal r l p t0).2 := by
  unfold stuffLocal
  try dsimp only
  repeat' split
  all_goals repeat first
    | with_reducible exact h
    | with_reducible apply modSlot_inner
    | with_reducible apply leaveSlot_inner
    | with_reducible apply Inner.raise

theorem drawLocal_inner {s0 t0 : State} {r : ReadInfo} {l : SlotLetter} {p : LocalProg} (h : Inner s0 t0) :
    Inner s0 (drawLocal r l p t0).2 := by
  unfold drawLocal
  try dsimp only
  repeat' split
  all_goals try dsimp only
  all_goals repeat first
    | with_reducible exact h
    | with_reducible apply reserve_inner
    | with_reducible refine reserve_inner' (by assumption) ?_
    | with_reducible apply modSlot_inner
    | with_reducible apply stuffLocal_inner

theorem drawAlert_inner {s0 t0 : State} {r : ReadInfo} {n : Nat} {c : Component} (h : Inner s0 t0) :
    Inner s0 (drawAlert r n c t0).2 := by
  unfold drawAlert
  split
  · dsimp only
    apply h.record
    exact fun _ => rfl
  · exact h

theorem decideScheduled_inner {s0 t0 : State} {r : ReadInfo} {n : Nat} (h : Inner s0 t0) :
    Inner s0 (decideScheduled r n t0).2 := by
  unfold decideScheduled
  try dsimp only
  repeat' split
  all_goals try dsimp only
  all_goals repeat first
    | with_reducible exact h
    | with_reducible apply drawBreak_inner
    | with_reducible apply drawLocal_inner

theorem decideManaged_inner {s0 t0 : State} {r : ReadInfo} {n : Nat} {start : Bool} (h : Inner s0 t0) :
    Inner s0 (decideManaged r n start t0).2 := by
  unfold decideManaged
  try dsimp only
  repeat' split
  all_goals try dsimp only
  all_goals repeat first
    | with_reducible exact h
    | with_reducible apply drawAlert_inner
    | with_reducible apply decideScheduled_inner
    | ((with_reducible apply Inner.record); rotate_left; (intro _; rfl))

theorem decideNull_inner {s0 t0 : State} {r : ReadInfo} (h : Inner s0 t0) :
    Inner s0 (decideNull r t0).2 := by
  unfold decideNull
  try dsimp only
  repeat' split
  all_goals try dsimp only
  all_goals repeat first
    | with_reducible exact h
    | ((with_reducible apply Inner.record); rotate_left; (intro _; rfl))

theorem decidePacket_inner {s0 t0 : State} {r : ReadInfo} {slot : List Byte} (h : Inner s0 t0) :
    Inner s0 (decidePacket r slot t0).2 := by
  unfold decidePacket
  try dsimp only
  repeat' split
  all_goals try dsimp only
  all_goals repeat first
    | with_reducible exact h
    | with_reducible apply decideManaged_inner
    | with_reducible apply decideNull_inner

theorem update_inner {s0 t0 : State} {j : Job} {f : Service → Service} (h : Inner s0 t0)
    (k : ∀ v, (f v).schedule = v.schedule) : Inner s0 (j.update f t0) := by
  unfold Job.update
  split
  · exact h.record _ _ k
  · exact h

theorem relabel_inner {s0 t0 : State} {j : Job} {target : Option Nat} (h : Inner s0 t0) :
    Inner s0 (relabel j target t0) := by
  unfold relabel
  try dsimp only
  repeat' split
  all_goals repeat first
    | with_reducible exact h
    | ((with_reducible apply update_inner); rotate_left; (intro _; rfl))

theorem emitNull_inner {s0 t0 : State} {j : Job} (h : Inner s0 t0) :
    Inner s0 (emitNull j t0).2 := by
  unfold emitNull
  try dsimp only
  all_goals repeat first
    | with_reducible exact h
    | with_reducible apply relabel_inner
    | ((with_reducible apply update_inner); rotate_left; (intro _; rfl))

theorem emitNullError_inner {s0 t0 : State} {k : ErrorKind} {j : Job} {packet : List Byte} (h : Inner s0 t0) :
    Inner s0 (emitNullError k j packet t0).2 := by
  unfold emitNullError
  try dsimp only
  all_goals repeat first
    | with_reducible exact h
    | with_reducible apply emitNull_inner
    | with_reducible apply Inner.raise

theorem setOffset_schedule_length (v : Service) (h : OffsetHome) (o : PcrBase) :
    (v.setOffset h o).schedule.length = v.schedule.length := by
  cases h with
  | entry ev => simp [Service.setOffset, mapEntry]
  | slot l => cases l <;> rfl
  | trailing => rfl
  | nowhere => rfl

theorem adjustInsertionPcr_inner {s0 t0 : State} {j : Job} {ref : InsRef} {fetched packet : List Byte}
    (h : Inner s0 t0) : Inner s0 (adjustInsertionPcr j ref fetched packet t0).2 := by
  unfold adjustInsertionPcr
  dsimp only
  split
  · exact h
  · split
    · exact h
    · split
      · dsimp only
        apply h.service
        rw [setOffset_schedule_length]
        exact id
      · exact h.raise _

theorem adjustAlertPcr_inner {s0 t0 : State} {j : Job} {fetched : List Byte} {packet : List Byte} (h : Inner s0 t0) :
    Inner s0 (adjustAlertPcr j fetched packet t0).2 := by
  unfold adjustAlertPcr
  try dsimp only
  repeat' split
  all_goals try dsimp only
  all_goals repeat first
    | with_reducible exact h
    | with_reducible apply Inner.raise

theorem passManaged_inner {s0 t0 : State} {j : Job} {n : Nat} {c : Component} {packet : List Byte} (h : Inner s0 t0) :
    Inner s0 (passManaged j n c packet t0).2 := by
  unfold passManaged
  try dsimp only
  all_goals repeat first
    | with_reducible exact h
    | with_reducible apply relabel_inner
    | ((with_reducible apply Inner.record); rotate_left; (intro _; rfl))

theorem rewritePass_inner {s0 t0 : State} {j : Job} {network : List Byte} (h : Inner s0 t0) :
    Inner s0 (rewritePass j network t0).2 := by
  unfold rewritePass
  try dsimp only
  repeat' split
  all_goals try dsimp only
  all_goals repeat first
    | with_reducible exact h
    | with_reducible apply relabel_inner
    | with_reducible apply passManaged_inner

theorem emitOnTarget_inner {s0 t0 : State} {j : Job} {kind : CurSource} {ref : InsRef} {n : Nat} {c : Component} {fetched : List Byte} (h : Inner s0 t0) :
    Inner s0 (emitOnTarget j kind ref n c fetched t0).2 := by
  unfold emitOnTarget
  try dsimp only
  all_goals repeat first
    | with_reducible exact h
    | with_reducible apply relabel_inner
    | with_reducible apply adjustInsertionPcr_inner
    | ((with_reducible apply Inner.record); rotate_left; (intro _; rfl))

theorem emitMapped_inner {s0 t0 : State} {j : Job} {kind : CurSource} {ref : InsRef} {b : InsBinding} {fetched : List Byte} (h : Inner s0 t0) :
    Inner s0 (emitMapped j kind ref b fetched t0).2 := by
  unfold emitMapped
  try dsimp only
  repeat' split
  all_goals repeat first
    | with_reducible exact h
    | with_reducible apply emitNullError_inner
    | with_reducible apply emitOnTarget_inner

theorem rewriteInsertion_inner {s0 t0 : State} {j : Job} {kind : CurSource} {ref : InsRef} {b : InsBinding} {failed : Bool} {fetched : List Byte} (h : Inner s0 t0) :
    Inner s0 (rewriteInsertion j kind ref b failed fetched t0).2 := by
  unfold rewriteInsertion
  try dsimp only
  repeat' split
  all_goals repeat first
    | with_reducible exact h
    | with_reducible apply emitNull_inner
    | with_reducible apply emitNullError_inner
    | with_reducible apply emitMapped_inner

theorem emitAlert_inner {s0 t0 : State} {j : Job} {pid : Pid} {fetched : List Byte} (h : Inner s0 t0) :
    Inner s0 (emitAlert j pid fetched t0).2 := by
  unfold emitAlert
  try dsimp only
  repeat' split
  all_goals try dsimp only
  all_goals repeat first
    | with_reducible exact h
    | with_reducible apply relabel_inner
    | with_reducible apply adjustAlertPcr_inner
    | ((with_reducible apply Inner.record); rotate_left; (intro _; rfl))

theorem rewriteAlert_inner {s0 t0 : State} {j : Job} {network : List Byte} {failed : Bool} {fetched : List Byte} (h : Inner s0 t0) :
    Inner s0 (rewriteAlert j network failed fetched t0).2 := by
  unfold rewriteAlert
  try dsimp only
  repeat' split
  all_goals repeat first
    | with_reducible exact h
    | with_reducible apply emitNull_inner
    | with_reducible apply emitNullError_inner
    | with_reducible apply emitAlert_inner

theorem rewriteOverlay_inner {s0 t0 : State} {j : Job} {packet : List Byte} (h : Inner s0 t0) :
    Inner s0 (rewriteOverlay j packet t0).2 := by
  unfold rewriteOverlay
  try dsimp only
  repeat' split
  all_goals try dsimp only
  all_goals repeat first
    | with_reducible exact h
    | with_reducible apply relabel_inner
    | ((with_reducible apply Inner.record); rotate_left; (intro _; rfl))

theorem rewriteBytes_inner {s0 t0 : State} {j : Job} {e : RttEntry} (h : Inner s0 t0) :
    Inner s0 (rewriteBytes j e t0).2 := by
  unfold rewriteBytes
  try dsimp only
  repeat' split
  all_goals repeat first
    | with_reducible exact h
    | with_reducible apply emitNull_inner
    | with_reducible apply rewritePass_inner
    | with_reducible apply rewriteInsertion_inner
    | with_reducible apply rewriteAlert_inner
    | with_reducible apply rewriteOverlay_inner

theorem takeCueOut_inner {s0 t0 : State} {i : ServiceIx} {o : OutRequest} (h : Inner s0 t0) :
    Inner s0 (takeCueOut i o t0) := by
  unfold takeCueOut
  try dsimp only
  repeat' split
  all_goals repeat first
    | with_reducible exact h
    | with_reducible apply takeOut_inner
    | with_reducible refine takeOut_inner' (by assumption) ?_
    | with_reducible apply Inner.raise

theorem takeCueIn_inner {s0 t0 : State} {i : ServiceIx} {ev : EventId} {stamp : Stamp} (h : Inner s0 t0) :
    Inner s0 (takeCueIn i ev stamp t0) := by
  unfold takeCueIn
  try dsimp only
  repeat' split
  all_goals repeat first
    | with_reducible exact h
    | with_reducible apply takeIn_inner
    | with_reducible refine takeIn_inner' (by assumption) ?_
    | with_reducible apply Inner.raise

theorem takeCueCancel_inner {s0 t0 : State} {i : ServiceIx} {ev : EventId} (h : Inner s0 t0) :
    Inner s0 (takeCueCancel i ev t0) := by
  unfold takeCueCancel
  try dsimp only
  repeat' split
  all_goals repeat first
    | with_reducible exact h
    | with_reducible apply takeCancel_inner
    | with_reducible refine takeCancel_inner' (by assumption) ?_
    | with_reducible apply Inner.raise

theorem takeCue_inner {s0 t0 : State} {i : ServiceIx} {r : CueRequest} (h : Inner s0 t0) :
    Inner s0 (takeCue i r t0) := by
  unfold takeCue
  try dsimp only
  repeat' split
  all_goals repeat first
    | with_reducible exact h
    | with_reducible apply takeCueOut_inner
    | with_reducible apply takeCueIn_inner
    | with_reducible apply takeCueCancel_inner

theorem captureCue_inner {s0 t0 : State} {i : ServiceIx} {q : RequesterId} {a : Addr} {slot : List Byte} (h : Inner s0 t0) :
    Inner s0 (captureCue i q a slot t0) := by
  unfold captureCue
  try dsimp only
  repeat' split
  all_goals repeat first
    | with_reducible exact h
    | with_reducible apply takeCue_inner
    | with_reducible apply Inner.raise

theorem inspectSlot_inner {s0 t0 : State} {i : ServiceIx} {q : RequesterId} {a : Addr} {slot : List Byte}
    (h : Inner s0 t0) : Inner s0 (inspectSlot i q a slot t0) := by
  unfold inspectSlot
  split
  · apply captureCue_inner
    apply h.record
    intro v
    unfold Service.tracked
    split <;> rfl
  · exact h

theorem ingestWrite_inner {s0 t0 : State} {i : ServiceIx} {q : RequesterId} {p : Part} {bytes : List LaneByte} (h : Inner s0 t0) :
    Inner s0 (ingestWrite i q p bytes t0) := by
  unfold ingestWrite
  try dsimp only
  repeat' split
  all_goals repeat first
    | with_reducible exact h
    | with_reducible apply inspectSlot_inner
    | with_reducible apply Inner.raise

end Sys2Proof.Machine
end

