-- ==== Sys2Proof/Laws/Commands.lean ====
section
/-! SUPPORT. The Command Unit, said once: settling nothing, and what taking a command comes to when the unit is idle. -/

namespace Sys2Proof.Machine

/-! ### Settling -/

@[simp] theorem settleIn_nil (n : Nat) {s : State} (h : s.deferred = []) : settleIn n s = s := by
  cases n with
  | zero => rfl
  | succ n => unfold settleIn; rw [h]

/-- With no action put off, settling does nothing. -/
@[simp] theorem settle_nil {s : State} (h : s.deferred = []) : settle s = s := settleIn_nil _ h

/-! ### Completing a command -/

/-- Completing a command puts off no action (R158). -/
@[simp] theorem complete_deferred (q : QueueEntry) (r : Reply) (s : State) : (complete q r s).deferred = s.deferred := by
  simp [complete, writeBack, writeInternal]

/-- Completing a command takes it from the head of the Intake Queue (R158). -/
@[simp] theorem complete_intake (q : QueueEntry) (r : Reply) (s : State) : (complete q r s).intake = s.intake.tail := by
  simp [complete, writeBack, writeInternal]

/-! ### Taking a command -/

/-- An idle Command Unit takes a command into an empty queue (R156, R157). -/
theorem submit_idle {code : Byte} {now : Stamp} {c : CellCommand} {s : State} (h : Idle c s) :
    submit { cell := c.cell, requester := c.requester, code := code, tag := c.tag } (captureParams c (s.at now))
      = takenState code now c s := by
  obtain ⟨hq, hb, _⟩ := h
  unfold submit
  have b : (vget (captureParams c (s.at now)).cells c.cell).busy = false := by
    simp [captureParams, State.modCell, State.at, hb]
  have l : ¬ Config.intakeMax ≤ (captureParams c (s.at now)).intake.length := by
    simp [captureParams, State.modCell, State.at, hq, Config.intakeMax]
  simp only [b, l, if_false, Bool.false_eq_true]
  simp [captureParams, State.modCell, State.at, takenState, entryOf, hq]

/-- The Command Unit takes a command while it is idle: the command executes at once (R158), and the actions put off come
last (R165). -/
theorem takeCommand_eq {code : Byte} {now : Stamp} {c : CellCommand} {s : State} (h : Idle c s) :
    takeCommand code now c s = settle (runAll (takenState code now c s)) := by
  unfold takeCommand
  dsimp only
  rw [submit_idle h]
  unfold runIfIdle
  rw [if_pos (by simp [State.at, h.1])]

/-- A command that is answered by an idle Command Unit: its write-back, and the actions it has put off (R158, R165). -/
theorem takeCommand_answered {code : Byte} {now : Stamp} {c : CellCommand} {r : Reply} {s t : State} (h : Idle c s)
    (k : runCommand (entryOf code c) (takenState code now c s) = (.answered r, t)) :
    takeCommand code now c s = settle (complete (entryOf code c) r t) := by
  rw [takeCommand_eq h]
  show settle (runQueue 1 _) = _
  unfold runQueue
  have q : (takenState code now c s).intake = [entryOf code c] := rfl
  simp only [q, k]
  rfl

/-- A command that takes time is in progress (R159). -/
theorem takeCommand_working {code : Byte} {now : Stamp} {c : CellCommand} {s t : State} (h : Idle c s)
    (k : runCommand (entryOf code c) (takenState code now c s) = (.working, t)) :
    takeCommand code now c s = settle t := by
  rw [takeCommand_eq h]
  show settle (runQueue 1 _) = _
  unfold runQueue
  have q : (takenState code now c s).intake = [entryOf code c] := rfl
  simp only [q, k]

/-- A command that clears the queue it stood in is gone (R162). -/
theorem takeCommand_gone {code : Byte} {now : Stamp} {c : CellCommand} {s t : State} (h : Idle c s)
    (k : runCommand (entryOf code c) (takenState code now c s) = (.gone, t)) : takeCommand code now c s = settle t := by
  rw [takeCommand_eq h]
  show settle (runQueue 1 _) = _
  unfold runQueue
  have q : (takenState code now c s).intake = [entryOf code c] := rfl
  simp only [q, k]

/-- A command that an idle Command Unit takes and answers, putting no action off. -/
theorem takeCommand_effect {code : Byte} {now : Stamp} {c : CellCommand} {r : Reply} {f : State → State} {s : State}
    (h : Idle c s)
    (k : runCommand (entryOf code c) (takenState code now c s) = (.answered r, f (takenState code now c s)))
    (hd : (f (takenState code now c s)).deferred = []) : takeCommand code now c s = afterReply code now c r f s := by
  rw [takeCommand_answered h k]
  exact settle_nil ((complete_deferred _ _ _).trans hd)

/-- A command taken while others wait, or while one executes, leaves the Intake Queue to the one in progress; an event
that submits none leaves an empty queue empty (R158). -/
theorem runIfIdle_kept {s0 s t : State} (h : Inner s t) (e : s.intake = s0.intake) : runIfIdle s0 t = t := by
  unfold runIfIdle
  split
  · rename_i c
    have k : t.intake = [] := by rw [h.kept.intake, e]; simpa using c
    unfold runAll; rw [k]; rfl
  · rfl

/-- The part of a write that is all of it. -/
theorem part_whole (bytes : List LaneByte) (a : Addr) :
    Part.of { off := 0, addr := a, len := bytes.length } bytes = bytes := by
  simp [Part.of]

end Sys2Proof.Machine
end

