-- ==== Sys2Proof/Laws/Keeps.lean ====
section
/-! SUPPORT. What every operation keeps: the invariants of Safety, one lemma per operation. -/

namespace Sys2Proof.Machine

/-- Each invariant of Safety that holds of `s` holds of `t`. -/
structure Keeps (s t : State) : Prop where
  reads : ReadsBounded s → ReadsBounded t
  queue : QueueBounded s → QueueBounded t
  channels : ChannelsBounded s → ChannelsBounded t
  schedules : SchedulesBounded s → SchedulesBounded t
  ring : RingOk s.ring → RingOk t.ring
  fills : FillsOk s → FillsOk t
  control : ControlEntry s → ControlEntry t
  timeout : TimeoutFatal s → TimeoutFatal t
  first : ReadWaitsFirst s → ReadWaitsFirst t

theorem Keeps.refl (s : State) : Keeps s s := ⟨id, id, id, id, id, id, id, id, id⟩

theorem Keeps.trans {s t u : State} (h : Keeps s t) (k : Keeps t u) : Keeps s u :=
  ⟨k.reads ∘ h.reads, k.queue ∘ h.queue, k.channels ∘ h.channels, k.schedules ∘ h.schedules, k.ring ∘ h.ring,
    k.fills ∘ h.fills, k.control ∘ h.control, k.timeout ∘ h.timeout, k.first ∘ h.first⟩

theorem Inner.timeoutFatal {s t : State} (h : Inner s t) (b : TimeoutFatal s) : TimeoutFatal t := by
  have e := congrArg (fun v => vget v ErrorKind.readTimeout.ix) h.policies
  simp only [vget_map, Prod.mk.injEq] at e
  exact ⟨e.2.trans b.1, e.1.trans b.2⟩

theorem Inner.keeps {s t : State} (h : Inner s t) : Keeps s t where
  reads b := by unfold ReadsBounded; rw [h.kept.path.2.2.2.2.2.2]; exact b
  queue b := by unfold QueueBounded; rw [h.kept.intake]; exact b
  channels := h.channelsBounded
  schedules := h.schedulesBounded
  ring := h.ringOk
  fills := h.fillsOk
  control b := by unfold ControlEntry; rw [h.kept.fixed.2.2.2]; exact b
  timeout := h.timeoutFatal
  first := h.kept.path.2.2.2.2.2.1.readWaitsFirst

theorem Keeps.inner {s t u : State} (h : Keeps s t) (k : Inner t u) : Keeps s u := h.trans k.keeps

theorem foldl_keeps {α : Type} {s0 : State} {f : State → α → State} (k : ∀ t a, Keeps s0 t → Keeps s0 (f t a))
    (l : List α) {t0 : State} (h : Keeps s0 t0) : Keeps s0 (l.foldl f t0) := by
  induction l generalizing t0 with
  | nil => exact h
  | cons a r ih => exact ih (k t0 a h)

theorem emit_keeps {s0 t0 : State} {e : PortEvent} (h : Keeps s0 t0) :
    Keeps s0 (State.emit t0 e) := by
  unfold State.emit
  try dsimp only
  all_goals repeat first
    | with_reducible exact h
    | exact h.trans ⟨id, id, id, id, id, id, id, id, id⟩

theorem handWrite_keeps {s0 t0 : State} {i : Bool} {addr : Addr} {bs : List LaneByte} (h : Keeps s0 t0) :
    Keeps s0 (handWrite i addr bs t0) := h.inner (Inner.report .refl ((Reported.refl t0).handWrite i addr bs)
      (by rw [handWrite_ring]; exact id))

theorem writeInternal_keeps {s0 t0 : State} {addr : Addr} {bs : List Byte} (h : Keeps s0 t0) :
    Keeps s0 (writeInternal addr bs t0) := handWrite_keeps h

theorem issueRead_keeps {s0 t0 : State} {r : MemRead} (p : t0.roomToIssue = true) (h : Keeps s0 t0) :
    Keeps s0 (issueRead r t0) := by
  refine h.trans ⟨fun _ => ?_, id, id, id, id, id, id, id, id⟩
  unfold ReadsBounded issueRead
  have q : t0.outstanding.length < Config.outstandingMax := by simpa [State.roomToIssue] using p
  simpa using q

theorem handRead_keeps {s0 t0 : State} {r : MemRead} (h : Keeps s0 t0) : Keeps s0 (handRead r t0) := by
  unfold handRead
  split
  · rename_i p
    exact issueRead_keeps (by simp only [Bool.and_eq_true] at p; exact p.2) h
  · refine h.trans ⟨id, id, id, id, id, id, id, id, fun b => ?_⟩
    show ∀ w ∈ (t0.issueQueue ++ [MemTransaction.read r]).head?, w.isWrite = false
    cases q : t0.issueQueue with
    | nil => intro w e; cases e; rfl
    | cons w l => unfold ReadWaitsFirst at b; rw [q] at b; simpa using b

/-- The writes that stand first at the memory port being issued, a read stands first (R23). -/
theorem issueWrites_keeps {s0 t0 : State} {t1 : State} (h : Keeps s0 t1)
    (e : ∃ q, t0 = { t1 with issueQueue := q }) : Keeps s0 (issueWrites t0) := by
  obtain ⟨q, rfl⟩ := e
  refine h.trans ⟨id, id, id, id, id, id, id, id, fun _ w m => ?_⟩
  have k : (q.dropWhile MemTransaction.isWrite).head? = some w := m
  have n := List.head?_dropWhile_not MemTransaction.isWrite q
  rw [k] at n
  simpa using n

theorem matched_keeps {s0 t0 : State} (h : Keeps s0 t0) : Keeps s0 t0.matched := by
  refine h.trans ⟨fun b => ?_, id, id, id, id, id, id, id, id⟩
  unfold ReadsBounded State.matched at *
  simp only [List.length_tail]
  omega

theorem setEntry_keeps {s0 t0 : State} {e : EntryIx} {r : Option RttEntry} (h : Keeps s0 t0) :
    Keeps s0 (State.setEntry t0 e r) := by
  unfold State.setEntry
  try dsimp only
  all_goals repeat first
    | with_reducible exact h
    | exact h.trans ⟨id, id, id, id, id, id, id, id, id⟩

theorem writeProducer_keeps {s0 t0 : State} {v : Nat} (h : Keeps s0 t0) :
    Keeps s0 (writeProducer v t0) := by
  unfold writeProducer
  try dsimp only
  all_goals repeat first
    | with_reducible exact h
    | with_reducible apply writeInternal_keeps
    | exact h.trans ⟨id, id, id, id, id, id, id, id, id⟩

theorem Keeps.ringSet {s0 t0 : State} {g : Ring} (h : Keeps s0 t0) (k : RingOk t0.ring → RingOk g) :
    Keeps s0 { t0 with ring := g } := h.trans ⟨id, id, id, id, k, id, id, id, id⟩

theorem putRecord_keeps {s0 t0 : State} {d : RingDef} {r : Report} (e : t0.ring.defn = some d) (h : Keeps s0 t0) :
    Keeps s0 (putRecord d r t0) :=
  h.inner (Inner.report .refl ((Reported.refl t0).putRecord d r) fun b => b.putRecord r e)

theorem putGap_keeps {s0 t0 : State} {d : RingDef} (e : t0.ring.defn = some d) (h : Keeps s0 t0) :
    Keeps s0 (putGap d t0) :=
  (putRecord_keeps (r := gapReport t0) e h).ringSet fun b => b.dropped _ _

theorem modCell_keeps {s0 t0 : State} {c : CellIx} {f : Cell → Cell} (h : Keeps s0 t0) :
    Keeps s0 (State.modCell t0 c f) := by
  unfold State.modCell
  try dsimp only
  all_goals repeat first
    | with_reducible exact h
    | exact h.trans ⟨id, id, id, id, id, id, id, id, id⟩

theorem writeBack_keeps {s0 t0 : State} {cell : CellIx} {code : Byte} {tag : Byte} {r : Reply} (h : Keeps s0 t0) :
    Keeps s0 (writeBack cell code tag r t0) := by
  unfold writeBack
  try dsimp only
  all_goals repeat first
    | with_reducible exact h
    | with_reducible apply writeInternal_keeps
    | exact h.trans ⟨id, id, id, id, id, id, id, id, id⟩

theorem complete_keeps {s0 t0 : State} {q : QueueEntry} {r : Reply} (h : Keeps s0 t0) : Keeps s0 (complete q r t0) := by
  refine (modCell_keeps (c := q.cell) (f := fun c => { c with busy := false }) (writeBack_keeps (cell := q.cell)
    (code := q.code) (tag := q.tag) (r := r) h)).trans ⟨id, fun b => ?_, id, id, id, id, id, id, id⟩
  unfold QueueBounded at *
  show (State.intake _).tail.length ≤ _
  rw [List.length_tail]
  omega

theorem submit_keeps {s0 t0 : State} {b : Submission} (h : Keeps s0 t0) : Keeps s0 (submit b t0) := by
  unfold submit
  split
  · exact h.inner (Inner.raise .refl _)
  · split
    · exact writeBack_keeps h
    · rename_i p
      refine h.trans ⟨id, fun _ => ?_, id, id, id, id, id, id, id⟩
      show (t0.intake ++ [_]).length ≤ _
      simpa using p

theorem writeBeat_keeps {s0 t0 : State} {dest : Addr} {record : List Byte} {k : Nat} (h : Keeps s0 t0) :
    Keeps s0 (writeBeat dest record k t0) := by
  unfold writeBeat
  try dsimp only
  all_goals repeat first
    | with_reducible exact h
    | with_reducible apply writeInternal_keeps
    | exact h.trans ⟨id, id, id, id, id, id, id, id, id⟩

theorem writeBeats_keeps {s0 t0 : State} {dest : Addr} {record : List Byte} {first last : Nat} (h : Keeps s0 t0) :
    Keeps s0 (writeBeats dest record first last t0) := foldl_keeps (fun _ _ k => writeBeat_keeps k) _ h

theorem done_keeps {s0 t0 : State} {word : BitVec 32} (h : Keeps s0 t0) :
    Keeps s0 (done word t0).2 := by
  unfold done
  try dsimp only
  all_goals repeat first
    | with_reducible exact h
    | exact h.trans ⟨id, id, id, id, id, id, id, id, id⟩

theorem refuse_keeps {s0 t0 : State} {code : RefusalCode} (h : Keeps s0 t0) :
    Keeps s0 (refuse code t0).2 := by
  unfold refuse
  try dsimp only
  all_goals repeat first
    | with_reducible exact h
    | exact h.trans ⟨id, id, id, id, id, id, id, id, id⟩

theorem answer_keeps {s0 t0 : State} {r : Reply} (h : Keeps s0 t0) :
    Keeps s0 (answer r t0).2 := by
  unfold answer
  try dsimp only
  all_goals repeat first
    | with_reducible exact h
    | exact h.trans ⟨id, id, id, id, id, id, id, id, id⟩

theorem enablePart_keeps {s0 t0 : State} {hold : Bool} {interval : Nat} (h : Keeps s0 t0) :
    Keeps s0 (enablePart hold interval t0).2 := by
  unfold enablePart
  try dsimp only
  repeat' split
  all_goals repeat first
    | with_reducible exact h
    | with_reducible apply done_keeps
    | (with_reducible refine Keeps.inner ?_ (Inner.offer .refl _))
    | (with_reducible refine Keeps.inner ?_ (Inner.part .refl _))
    | exact h.trans ⟨id, id, id, id, id, id, id, id, id⟩

theorem cmdEnable_keeps {s0 t0 : State} {p : Params} (h : Keeps s0 t0) :
    Keeps s0 (cmdEnable p t0).2 := by
  unfold cmdEnable
  try dsimp only
  repeat' split
  all_goals repeat first
    | with_reducible exact h
    | with_reducible apply refuse_keeps
    | with_reducible apply enablePart_keeps
    | exact h.trans ⟨id, id, id, id, id, id, id, id, id⟩

theorem disableServices_keeps {s0 t0 : State} (h : Keeps s0 t0) : Keeps s0 (disableServices t0) := by
  refine foldl_keeps (fun t i k => ?_) _ h
  dsimp only
  split
  · exact k.inner (clearSlots_inner (clearSchedule_inner .refl))
  · exact k

theorem disableMode_keeps {s0 t0 : State} (h : Keeps s0 t0) :
    Keeps s0 (disableMode t0) := by
  unfold disableMode
  try dsimp only
  all_goals repeat first
    | with_reducible exact h
    | (with_reducible refine Keeps.inner ?_ (Inner.offer .refl _))
    | (with_reducible refine Keeps.inner ?_ (Inner.part .refl _))
    | exact h.trans ⟨id, id, id, id, id, id, id, id, id⟩

theorem cmdDisable_keeps {s0 t0 : State} (h : Keeps s0 t0) : Keeps s0 (cmdDisable t0).2 := by
  unfold cmdDisable
  split
  · exact refuse_keeps h
  · exact done_keeps (disableMode_keeps (((disableServices_keeps h).inner (endAllAlerts_inner .refl)).inner
      (resetComponents_inner .refl)))

theorem reset_keeps {s0 t0 : State} {t : State} (h : Keeps s0 t0) (o : t.outstanding = [] ∨ t.outstanding = t0.outstanding)
    (i : t.intake = []) (b : t.bank = []) (v : t.services = Vector.replicate 48 Service.unused)
    (g : t.ring = Ring.initial) (r : t.sources = Vector.replicate 32 Source.free) (q : t.roles = initialRoles)
    (k : t.kinds = initialKinds) (u : t.issueQueue = [] ∨ t.issueQueue = t0.issueQueue) : Keeps s0 t := by
  refine h.trans ⟨fun c => ?_, fun _ => ?_, fun _ => ?_, fun _ => ?_, fun _ => ?_, fun _ => ?_, fun _ => ?_, fun _ => ?_,
    fun c => ?_⟩
  · unfold ReadsBounded at *
    rcases o with o | o
    · rw [o]; exact Nat.zero_le _
    · rw [o]; exact c
  · unfold QueueBounded; rw [i]; exact Nat.zero_le _
  · unfold ChannelsBounded; rw [b]; exact Nat.zero_le _
  · intro j; unfold State.service; rw [v, vget_replicate]; exact Nat.zero_le _
  · rw [g]; intro d e; cases e
  · intro j c e; unfold State.source at e; rw [r, vget_replicate] at e; cases e
  · unfold ControlEntry; rw [q]; decide +kernel
  · unfold TimeoutFatal State.kindLog; rw [k]; decide +kernel
  · unfold ReadWaitsFirst at *
    rcases u with u | u
    · rw [u]; simp
    · rw [u]; exact c

theorem restarted_keeps {s0 t0 : State} (h : Keeps s0 t0) : Keeps s0 (restarted t0) :=
  reset_keeps h (.inr rfl) rfl rfl rfl rfl rfl rfl rfl (.inr rfl)

theorem cmdRestart_keeps {s0 t0 : State} {q : QueueEntry} (h : Keeps s0 t0) :
    Keeps s0 (cmdRestart q t0).2 := by
  unfold cmdRestart
  try dsimp only
  all_goals repeat first
    | with_reducible exact h
    | with_reducible apply writeBack_keeps
    | with_reducible apply done_keeps
    | with_reducible apply restarted_keeps
    | exact h.trans ⟨id, id, id, id, id, id, id, id, id⟩

theorem beginSnapshot_keeps {s0 t0 : State} {dest : Addr} {record : List Byte} (h : Keeps s0 t0) :
    Keeps s0 (beginSnapshot dest record t0) := by
  unfold beginSnapshot
  refine Keeps.trans (writeBeats_keeps (h.trans ?_)) ⟨id, id, id, id, id, id, id, id, id⟩
  exact ⟨id, id, id, id, id, id, id, id, id⟩

theorem cmdStatusSnapshot_keeps {s0 t0 : State} {p : Params} (h : Keeps s0 t0) :
    Keeps s0 (cmdStatusSnapshot p t0).2 := by
  unfold cmdStatusSnapshot
  try dsimp only
  repeat' split
  all_goals try dsimp only
  all_goals repeat first
    | with_reducible exact h
    | with_reducible apply refuse_keeps
    | with_reducible apply beginSnapshot_keeps
    | exact h.trans ⟨id, id, id, id, id, id, id, id, id⟩

theorem cmdRequesterRoleSet_keeps {s0 t0 : State} {p : Params} (h : Keeps s0 t0) :
    Keeps s0 (cmdRequesterRoleSet p t0).2 := by
  unfold cmdRequesterRoleSet
  split
  · rename_i q role _ _
    split
    · exact h
    · rename_i n
      refine h.trans ⟨id, id, id, id, id, id, fun b => ?_, id, id⟩
      have ne : (0 : RequesterId) ≠ q := by
        intro e
        apply n
        simp [← e]
      show vget (vset t0.roles q role) 0 = _
      rw [vget_vset_ne _ _ ne]
      exact b
  · exact h

theorem modKind_keeps {s0 t0 : State} {k : Fin 22} {f : KindLog → KindLog}
    (p : k = ErrorKind.readTimeout.ix → ∀ l, (f l).severity = l.severity ∧ (f l).masked = l.masked) (h : Keeps s0 t0) :
    Keeps s0 (t0.modKind k f) := by
  refine h.trans ⟨id, id, id, id, id, id, id, fun b => ?_, id⟩
  unfold TimeoutFatal State.kindLog at *
  simp only [modKind_kinds, vget_vset]
  split
  · rename_i e
    obtain ⟨x, y⟩ := p e.symm (vget t0.kinds k)
    rw [x, y, ← e]; exact b
  · exact b

theorem cmdErrorPolicy_keeps {s0 t0 : State} {p : Params} (h : Keeps s0 t0) : Keeps s0 (cmdErrorPolicy p t0).2 := by
  unfold cmdErrorPolicy
  split
  · split
    · exact h
    · rename_i n
      refine done_keeps (modKind_keeps (fun e => ?_) h)
      exact absurd (by simp [e]) n
  · exact h

theorem clearKinds_keeps {s0 t0 : State} {mask : BitVec 32} (h : Keeps s0 t0) : Keeps s0 (clearKinds mask t0) := by
  refine foldl_keeps (fun t k j => ?_) _ h
  split
  · exact modKind_keeps (fun _ _ => ⟨rfl, rfl⟩) j
  · exact j

theorem cmdErrorClear_keeps {s0 t0 : State} {p : Params} (h : Keeps s0 t0) : Keeps s0 (cmdErrorClear p t0).2 := by
  unfold cmdErrorClear
  dsimp only
  split
  · exact h
  · have k := clearKinds_keeps (mask := pWord p 0) h
    unfold done
    dsimp only
    split
    · exact k.trans ⟨id, id, id, id, id, id, id, id, id⟩
    · exact k

theorem cmdResume_keeps {s0 t0 : State} (h : Keeps s0 t0) :
    Keeps s0 (cmdResume t0).2 := by
  unfold cmdResume
  try dsimp only
  repeat' split
  all_goals repeat first
    | with_reducible exact h
    | with_reducible apply done_keeps
    | with_reducible apply refuse_keeps
    | (with_reducible refine Keeps.inner ?_ (leaveBypass_inner .refl))
    | exact h.trans ⟨id, id, id, id, id, id, id, id, id⟩

theorem defineRing_keeps {s0 t0 : State} {d : RingDef} (p : 16 ≤ d.count ∧ d.count ≤ 4096) (h : Keeps s0 t0) :
    Keeps s0 (defineRing d t0).2 := by
  have k : Keeps s0 (writeProducer 0 (setRing (some d) t0)) := by
    refine writeProducer_keeps (h.ringSet (g := { t0.ring with
      defn := some d, producer := 0, consumer := 0, overflow := false }) fun _ => ?_)
    intro d' e
    have ed : d = d' := Option.some.inj e
    subst ed
    exact ⟨p.1, p.2, by show 0 < _; omega, by show 0 < _; omega⟩
  unfold defineRing
  dsimp only
  split
  · exact k
  · exact putGap_keeps (by simp [writeProducer, writeInternal, setRing]) k

theorem ringSet_keeps {s0 t0 : State} {base : Addr} {n : Nat} (h : Keeps s0 t0) : Keeps s0 (ringSet base n t0).2 := by
  unfold ringSet
  split
  · exact h
  · rename_i q
    split
    · exact h
    · refine defineRing_keeps ?_ h
      constructor
      · show 16 ≤ n; by_contra c; exact q (.inl (by omega))
      · show n ≤ 4096; by_contra c; exact q (.inr (.inl (by omega)))

theorem cmdReportRingSet_keeps {s0 t0 : State} {p : Params} (h : Keeps s0 t0) : Keeps s0 (cmdReportRingSet p t0).2 := by
  unfold cmdReportRingSet
  split
  · exact h
  · split
    · exact h.ringSet fun _ d e => by cases e
    · exact ringSet_keeps h

theorem service_keeps {s0 t0 : State} {i : ServiceIx} {f : Service → Service}
    (k : (t0.service i).schedule.length ≤ Config.scheduleMax → (f (t0.service i)).schedule.length ≤ Config.scheduleMax)
    (h : Keeps s0 t0) : Keeps s0 (t0.modService i f) := h.inner (Inner.service .refl i f k)

theorem defineService_keeps {s0 t0 : State} {i : ServiceIx} {w : Window} {cue : Option Pid} {comps : List Component}
    (h : Keeps s0 t0) : Keeps s0 (defineService i w cue comps t0).2 := by
  refine Keeps.inner ?_ (recomputeOne_inner .refl)
  exact service_keeps (fun _ => Nat.zero_le _) h

theorem defineChecked_keeps {s0 t0 : State} {i : ServiceIx} {p : Params} {cue : Option Pid} (h : Keeps s0 t0) :
    Keeps s0 (defineChecked i p cue t0).2 := by
  unfold defineChecked
  try dsimp only
  repeat' split
  all_goals repeat first
    | with_reducible exact h
    | with_reducible apply refuse_keeps
    | with_reducible apply defineService_keeps
    | exact h.trans ⟨id, id, id, id, id, id, id, id, id⟩

theorem cmdServiceDefine_keeps {s0 t0 : State} {p : Params} (h : Keeps s0 t0) :
    Keeps s0 (cmdServiceDefine p t0).2 := by
  unfold cmdServiceDefine
  try dsimp only
  repeat' split
  all_goals repeat first
    | with_reducible exact h
    | with_reducible apply refuse_keeps
    | with_reducible apply defineChecked_keeps
    | exact h.trans ⟨id, id, id, id, id, id, id, id, id⟩

theorem orphanEntries_keeps {s0 t0 : State} {i : ServiceIx} (h : Keeps s0 t0) :
    Keeps s0 (orphanEntries i t0) := by
  unfold orphanEntries
  try dsimp only
  all_goals repeat first
    | with_reducible exact h
    | exact h.trans ⟨id, id, id, id, id, id, id, id, id⟩

theorem removeService_keeps {s0 t0 : State} {i : ServiceIx} (h : Keeps s0 t0) : Keeps s0 (removeService i t0) := by
  unfold removeService
  refine orphanEntries_keeps (service_keeps (fun _ => Nat.zero_le _) ?_)
  exact (h.inner (clearSlots_inner (clearSchedule_inner .refl))).inner (Inner.offer .refl _)

theorem cmdServiceRemove_keeps {s0 t0 : State} {p : Params} (h : Keeps s0 t0) :
    Keeps s0 (cmdServiceRemove p t0).2 := by
  unfold cmdServiceRemove
  try dsimp only
  repeat' split
  all_goals repeat first
    | with_reducible exact h
    | with_reducible apply done_keeps
    | with_reducible apply refuse_keeps
    | with_reducible apply removeService_keeps
    | exact h.trans ⟨id, id, id, id, id, id, id, id, id⟩

theorem cmdComponentSet_keeps {s0 t0 : State} {p : Params} (h : Keeps s0 t0) : Keeps s0 (cmdComponentSet p t0).2 := by
  unfold cmdComponentSet
  repeat' split
  any_goals exact h
  exact done_keeps (service_keeps id h)

theorem setOptions_keeps {s0 t0 : State} {i : ServiceIx} {p : Params} {cue : Option Pid} (h : Keeps s0 t0) :
    Keeps s0 (setOptions i p cue t0).2 := by
  unfold setOptions
  try dsimp only
  repeat' split
  all_goals repeat first
    | with_reducible exact h
    | with_reducible apply done_keeps
    | (with_reducible refine Keeps.inner ?_ (recomputeOne_inner .refl))
    | ((with_reducible refine Keeps.inner ?_ (Inner.record .refl _ _ ?_)); rotate_left; (intro _; rfl))
    | exact h.trans ⟨id, id, id, id, id, id, id, id, id⟩

theorem cmdServiceOptions_keeps {s0 t0 : State} {p : Params} (h : Keeps s0 t0) :
    Keeps s0 (cmdServiceOptions p t0).2 := by
  unfold cmdServiceOptions
  try dsimp only
  repeat' split
  all_goals repeat first
    | with_reducible exact h
    | with_reducible apply refuse_keeps
    | with_reducible apply setOptions_keeps
    | exact h.trans ⟨id, id, id, id, id, id, id, id, id⟩

theorem holdMask_keeps {s0 t0 : State} {mask : BitVec 48} (h : Keeps s0 t0) : Keeps s0 (holdMask mask t0) := by
  refine foldl_keeps (fun t i k => ?_) _ h
  dsimp only
  split
  · exact k.inner (setHeld_inner .refl)
  · exact k

theorem cmdForceNetwork_keeps {s0 t0 : State} {p : Params} (h : Keeps s0 t0) :
    Keeps s0 (cmdForceNetwork p t0).2 := by
  unfold cmdForceNetwork
  try dsimp only
  all_goals repeat first
    | with_reducible exact h
    | with_reducible apply done_keeps
    | with_reducible apply holdMask_keeps
    | exact h.trans ⟨id, id, id, id, id, id, id, id, id⟩

theorem releaseHeld_keeps {s0 t0 : State} {i : ServiceIx} {cause : HeldCause} (h : Keeps s0 t0) :
    Keeps s0 (releaseHeld i cause t0) := by
  unfold releaseHeld
  try dsimp only
  all_goals repeat first
    | with_reducible exact h
    | (with_reducible refine Keeps.inner ?_ (Inner.offer .refl _))
    | ((with_reducible refine Keeps.inner ?_ (Inner.record .refl _ _ ?_)); rotate_left; (intro _; rfl))
    | exact h.trans ⟨id, id, id, id, id, id, id, id, id⟩

theorem cmdReleaseService_keeps {s0 t0 : State} {p : Params} (h : Keeps s0 t0) :
    Keeps s0 (cmdReleaseService p t0).2 := by
  unfold cmdReleaseService
  try dsimp only
  repeat' split
  all_goals repeat first
    | with_reducible exact h
    | with_reducible apply done_keeps
    | with_reducible apply refuse_keeps
    | with_reducible apply releaseHeld_keeps
    | exact h.trans ⟨id, id, id, id, id, id, id, id, id⟩

theorem beginRead_keeps {s0 t0 : State} {work : Work} {addr : Addr} (h : Keeps s0 t0) :
    Keeps s0 (beginRead work addr t0) := by
  unfold beginRead
  try dsimp only
  all_goals repeat first
    | with_reducible exact h
    | with_reducible apply handRead_keeps
    | exact h.trans ⟨id, id, id, id, id, id, id, id, id⟩

theorem source_keeps {s0 t0 : State} {k : SourceIx} {f : Source → Source}
    (p : FillOk (t0.source k) → FillOk (f (t0.source k))) (h : Keeps s0 t0) : Keeps s0 (t0.modSource k f) :=
  h.inner (Inner.source .refl k f p)

theorem defineStream_keeps {s0 t0 : State} {k : SourceIx} {w : Window} {minFill : Nat} (p : 0 < w.slots) (h : Keeps s0 t0) :
    Keeps s0 (defineStream k w minFill t0).2 := by
  unfold defineStream
  split
  · exact h
  · split
    · exact h
    · refine done_keeps (source_keeps (fun _ c e _ => ?_) h)
      cases (Option.some.inj e : ({ mode := .stream, window := w } : SourceConfig) = c)
      exact ⟨p, Nat.zero_le _, p, Nat.zero_mod _⟩

theorem defineLoop_keeps {s0 t0 : State} {k : SourceIx} {w : Window} (h : Keeps s0 t0) :
    Keeps s0 (defineLoop k w t0).2 := by
  unfold defineLoop
  try dsimp only
  repeat' split
  all_goals try dsimp only
  all_goals repeat first
    | with_reducible exact h
    | with_reducible apply refuse_keeps
    | with_reducible apply beginRead_keeps
    | exact h.trans ⟨id, id, id, id, id, id, id, id, id⟩

theorem pWindow_slots {p : Params} {least : Nat} {w : Window} (e : pWindow p least = some w) : least ≤ w.slots := by
  unfold pWindow at e
  split at e
  · dsimp only at e
    split at e
    · rename_i q
      cases e
      simp only [Bool.and_eq_true, decide_eq_true_eq] at q
      exact q.1.1.2
    · cases e
  · cases e

theorem defineSource_keeps {s0 t0 : State} {k : SourceIx} {p : Params} (h : Keeps s0 t0) :
    Keeps s0 (defineSource k p t0).2 := by
  unfold defineSource
  split
  · exact h
  · split
    · rename_i w e
      exact defineStream_keeps (Nat.lt_of_lt_of_le (by omega) (pWindow_slots e)) h
    · exact h
  · split
    · exact defineLoop_keeps h
    · exact h

theorem cmdSourceDefine_keeps {s0 t0 : State} {p : Params} (h : Keeps s0 t0) :
    Keeps s0 (cmdSourceDefine p t0).2 := by
  unfold cmdSourceDefine
  try dsimp only
  repeat' split
  all_goals repeat first
    | with_reducible exact h
    | with_reducible apply refuse_keeps
    | with_reducible apply defineSource_keeps
    | exact h.trans ⟨id, id, id, id, id, id, id, id, id⟩

theorem startChecked_keeps {s0 t0 : State} {k : SourceIx} {w : Window} {slot : List Byte} (h : Keeps s0 t0) :
    Keeps s0 (startChecked k w slot t0).2 := by
  unfold startChecked
  split
  · refine source_keeps (f := fun _ => Source.fresh .loop w 0) (fun _ c e m => ?_) h
    cases (Option.some.inj e : ({ mode := .loop, window := w } : SourceConfig) = c)
    cases m
  · exact h

theorem cmdSourceRemove_keeps {s0 t0 : State} {p : Params} (h : Keeps s0 t0) : Keeps s0 (cmdSourceRemove p t0).2 := by
  unfold cmdSourceRemove
  repeat' split
  any_goals exact h
  exact done_keeps (source_keeps (f := fun _ => Source.free) (fun _ c e _ => by cases e) h)

theorem cmdSourceFlush_keeps {s0 t0 : State} {p : Params} (h : Keeps s0 t0) : Keeps s0 (cmdSourceFlush p t0).2 := by
  unfold cmdSourceFlush
  repeat' split
  any_goals exact h
  exact source_keeps flushed_fillOk h

theorem setAvail_keeps {s0 t0 : State} {i : ServiceIx} {a : AvailIx} {b : Option Binding} (h : Keeps s0 t0) :
    Keeps s0 (setAvail i a b t0).2 := by
  unfold setAvail
  try dsimp only
  repeat' split
  all_goals repeat first
    | with_reducible exact h
    | with_reducible apply done_keeps
    | ((with_reducible refine Keeps.inner ?_ (Inner.record .refl _ _ ?_)); rotate_left; (intro _; rfl))
    | exact h.trans ⟨id, id, id, id, id, id, id, id, id⟩

theorem bindChecked_keeps {s0 t0 : State} {i : ServiceIx} {a : AvailIx} {k : SourceIx} {p : Params} (h : Keeps s0 t0) :
    Keeps s0 (bindChecked i a k p t0).2 := by
  unfold bindChecked
  try dsimp only
  repeat' split
  all_goals repeat first
    | with_reducible exact h
    | with_reducible apply refuse_keeps
    | with_reducible apply setAvail_keeps
    | exact h.trans ⟨id, id, id, id, id, id, id, id, id⟩

theorem cmdAvailBind_keeps {s0 t0 : State} {p : Params} (h : Keeps s0 t0) :
    Keeps s0 (cmdAvailBind p t0).2 := by
  unfold cmdAvailBind
  try dsimp only
  repeat' split
  all_goals repeat first
    | with_reducible exact h
    | with_reducible apply refuse_keeps
    | with_reducible apply bindChecked_keeps
    | exact h.trans ⟨id, id, id, id, id, id, id, id, id⟩

theorem cmdAvailUnbind_keeps {s0 t0 : State} {p : Params} (h : Keeps s0 t0) :
    Keeps s0 (cmdAvailUnbind p t0).2 := by
  unfold cmdAvailUnbind
  try dsimp only
  repeat' split
  all_goals repeat first
    | with_reducible exact h
    | with_reducible apply refuse_keeps
    | with_reducible apply setAvail_keeps
    | exact h.trans ⟨id, id, id, id, id, id, id, id, id⟩

theorem cmdBreakInsert_keeps {s0 t0 : State} {p : Params} (h : Keeps s0 t0) :
    Keeps s0 (cmdBreakInsert p t0).2 := by
  unfold cmdBreakInsert
  try dsimp only
  repeat' split
  all_goals repeat first
    | with_reducible exact h
    | with_reducible apply refuse_keeps
    | with_reducible apply answer_keeps
    | (with_reducible refine Keeps.inner ?_ (takeOut_inner .refl))
    | exact h.trans ⟨id, id, id, id, id, id, id, id, id⟩

theorem cmdBreakReturn_keeps {s0 t0 : State} {p : Params} (h : Keeps s0 t0) :
    Keeps s0 (cmdBreakReturn p t0).2 := by
  unfold cmdBreakReturn
  try dsimp only
  repeat' split
  all_goals repeat first
    | with_reducible exact h
    | with_reducible apply refuse_keeps
    | with_reducible apply answer_keeps
    | (with_reducible refine Keeps.inner ?_ (takeIn_inner .refl))
    | exact h.trans ⟨id, id, id, id, id, id, id, id, id⟩

theorem cmdBreakCancel_keeps {s0 t0 : State} {p : Params} (h : Keeps s0 t0) :
    Keeps s0 (cmdBreakCancel p t0).2 := by
  unfold cmdBreakCancel
  try dsimp only
  repeat' split
  all_goals repeat first
    | with_reducible exact h
    | with_reducible apply refuse_keeps
    | with_reducible apply answer_keeps
    | (with_reducible refine Keeps.inner ?_ (takeCancel_inner .refl))
    | exact h.trans ⟨id, id, id, id, id, id, id, id, id⟩

theorem endNow_keeps {s0 t0 : State} {i : ServiceIx} {e : BreakEntry} (h : Keeps s0 t0) :
    Keeps s0 (endNow i e t0).2 := by
  unfold endNow
  try dsimp only
  all_goals repeat first
    | with_reducible exact h
    | with_reducible apply done_keeps
    | (with_reducible refine Keeps.inner ?_ (leaveBreak_inner .refl))
    | exact h.trans ⟨id, id, id, id, id, id, id, id, id⟩

theorem cmdBreakEndNow_keeps {s0 t0 : State} {p : Params} (h : Keeps s0 t0) :
    Keeps s0 (cmdBreakEndNow p t0).2 := by
  unfold cmdBreakEndNow
  try dsimp only
  repeat' split
  all_goals repeat first
    | with_reducible exact h
    | with_reducible apply refuse_keeps
    | with_reducible apply endNow_keeps
    | exact h.trans ⟨id, id, id, id, id, id, id, id, id⟩

theorem setSlot_keeps {s0 t0 : State} {i : ServiceIx} {l : SlotLetter} {g : Service → Option LocalProg}
    (h : Keeps s0 t0) : Keeps s0 (t0.modService i fun v => v.setSlot l (g v)) :=
  h.inner (Inner.record .refl _ _ fun v => setSlot_schedule v l _)

theorem loadSlot_keeps {s0 t0 : State} {i : ServiceIx} {l : SlotLetter} {q : LocalProg} (h : Keeps s0 t0) :
    Keeps s0 (loadSlot i l q t0) := (setSlot_keeps h).inner (armSlot_inner .refl)

theorem applyLoad_keeps {s0 t0 : State} {i : ServiceIx} {l : SlotLetter} {q : LocalProg} (h : Keeps s0 t0) :
    Keeps s0 (applyLoad i l q t0) := by
  unfold applyLoad
  try dsimp only
  repeat' split
  all_goals repeat first
    | with_reducible exact h
    | with_reducible apply loadSlot_keeps
    | (with_reducible refine Keeps.inner ?_ (detach_inner .refl))
    | (with_reducible refine Keeps.inner ?_ (disarm_inner .refl))
    | (with_reducible refine Keeps.inner ?_ (modSlot_inner .refl))
    | exact h.trans ⟨id, id, id, id, id, id, id, id, id⟩

theorem loadChosen_keeps {s0 t0 : State} {i : ServiceIx} {sel : Selector} {q : LocalProg} (h : Keeps s0 t0) :
    Keeps s0 (loadChosen i sel q t0).2 := by
  unfold loadChosen
  try dsimp only
  repeat' split
  all_goals repeat first
    | with_reducible exact h
    | with_reducible apply done_keeps
    | with_reducible apply refuse_keeps
    | with_reducible apply applyLoad_keeps
    | exact h.trans ⟨id, id, id, id, id, id, id, id, id⟩

theorem loadChecked_keeps {s0 t0 : State} {i : ServiceIx} {sel : Selector} {k : SourceIx} {p : Params} (h : Keeps s0 t0) :
    Keeps s0 (loadChecked i sel k p t0).2 := by
  unfold loadChecked
  try dsimp only
  repeat' split
  all_goals repeat first
    | with_reducible exact h
    | with_reducible apply refuse_keeps
    | with_reducible apply loadChosen_keeps
    | exact h.trans ⟨id, id, id, id, id, id, id, id, id⟩

theorem cmdLocalLoad_keeps {s0 t0 : State} {p : Params} (h : Keeps s0 t0) :
    Keeps s0 (cmdLocalLoad p t0).2 := by
  unfold cmdLocalLoad
  try dsimp only
  repeat' split
  all_goals repeat first
    | with_reducible exact h
    | with_reducible apply refuse_keeps
    | with_reducible apply loadChecked_keeps
    | exact h.trans ⟨id, id, id, id, id, id, id, id, id⟩

theorem cmdLocalCancel_keeps {s0 t0 : State} {p : Params} (h : Keeps s0 t0) :
    Keeps s0 (cmdLocalCancel p t0).2 := by
  unfold cmdLocalCancel
  try dsimp only
  repeat' split
  all_goals repeat first
    | with_reducible exact h
    | with_reducible apply done_keeps
    | with_reducible apply refuse_keeps
    | (with_reducible refine Keeps.inner ?_ (leaveSlot_inner .refl))
    | exact h.trans ⟨id, id, id, id, id, id, id, id, id⟩

theorem cmdAlertGroupSet_keeps {s0 t0 : State} {p : Params} (h : Keeps s0 t0) :
    Keeps s0 (cmdAlertGroupSet p t0).2 := by
  unfold cmdAlertGroupSet
  try dsimp only
  repeat' split
  all_goals repeat first
    | with_reducible exact h
    | with_reducible apply done_keeps
    | with_reducible apply refuse_keeps
    | exact h.trans ⟨id, id, id, id, id, id, id, id, id⟩

theorem cmdAlertStart_keeps {s0 t0 : State} {p : Params} (h : Keeps s0 t0) :
    Keeps s0 (cmdAlertStart p t0).2 := by
  unfold cmdAlertStart
  try dsimp only
  all_goals repeat first
    | with_reducible exact h
    | with_reducible apply answer_keeps
    | (with_reducible refine Keeps.inner ?_ (requestActivation_inner .refl))
    | exact h.trans ⟨id, id, id, id, id, id, id, id, id⟩

theorem endSlot_keeps {s0 t0 : State} {k : AlertIx} (h : Keeps s0 t0) :
    Keeps s0 (endSlot k t0).2 := by
  unfold endSlot
  try dsimp only
  repeat' split
  all_goals repeat first
    | with_reducible exact h
    | with_reducible apply done_keeps
    | with_reducible apply refuse_keeps
    | (with_reducible refine Keeps.inner ?_ (endAlert_inner .refl))
    | exact h.trans ⟨id, id, id, id, id, id, id, id, id⟩

theorem endGroup_keeps {s0 t0 : State} {g : GroupIx} (h : Keeps s0 t0) :
    Keeps s0 (endGroup g t0).2 := by
  unfold endGroup
  try dsimp only
  repeat' split
  all_goals repeat first
    | with_reducible exact h
    | with_reducible apply refuse_keeps
    | with_reducible apply endSlot_keeps
    | exact h.trans ⟨id, id, id, id, id, id, id, id, id⟩

theorem cmdAlertEnd_keeps {s0 t0 : State} {p : Params} (h : Keeps s0 t0) :
    Keeps s0 (cmdAlertEnd p t0).2 := by
  unfold cmdAlertEnd
  try dsimp only
  repeat' split
  all_goals repeat first
    | with_reducible exact h
    | with_reducible apply refuse_keeps
    | with_reducible apply endSlot_keeps
    | with_reducible apply endGroup_keeps
    | exact h.trans ⟨id, id, id, id, id, id, id, id, id⟩

theorem cmdAlertOverlayLoad_keeps {s0 t0 : State} {p : Params} (h : Keeps s0 t0) :
    Keeps s0 (cmdAlertOverlayLoad p t0).2 := by
  unfold cmdAlertOverlayLoad
  try dsimp only
  repeat' split
  all_goals try dsimp only
  all_goals repeat first
    | with_reducible exact h
    | with_reducible apply refuse_keeps
    | with_reducible apply beginRead_keeps
    | exact h.trans ⟨id, id, id, id, id, id, id, id, id⟩

theorem overlayLoaded_keeps {s0 t0 : State} {g : GroupIx} {slot : List Byte} (h : Keeps s0 t0) :
    Keeps s0 (overlayLoaded g slot t0).2 := by
  unfold overlayLoaded
  try dsimp only
  repeat' split
  all_goals try dsimp only
  all_goals repeat first
    | with_reducible exact h
    | with_reducible apply done_keeps
    | exact h.trans ⟨id, id, id, id, id, id, id, id, id⟩

theorem cmdLinkSet_keeps {s0 t0 : State} {p : Params} (h : Keeps s0 t0) :
    Keeps s0 (cmdLinkSet p t0).2 := by
  unfold cmdLinkSet
  try dsimp only
  repeat' split
  all_goals repeat first
    | with_reducible exact h
    | with_reducible apply done_keeps
    | with_reducible apply refuse_keeps
    | exact h.trans ⟨id, id, id, id, id, id, id, id, id⟩

theorem runCommand_keeps {s0 t0 : State} {q : QueueEntry} (h : Keeps s0 t0) :
    Keeps s0 (runCommand q t0).2 := by
  unfold runCommand
  try dsimp only
  repeat' split
  all_goals repeat first
    | with_reducible exact h
    | with_reducible apply refuse_keeps
    | with_reducible apply cmdEnable_keeps
    | with_reducible apply cmdDisable_keeps
    | with_reducible apply cmdRestart_keeps
    | with_reducible apply cmdStatusSnapshot_keeps
    | with_reducible apply cmdRequesterRoleSet_keeps
    | with_reducible apply cmdErrorPolicy_keeps
    | with_reducible apply cmdErrorClear_keeps
    | with_reducible apply cmdResume_keeps
    | with_reducible apply cmdReportRingSet_keeps
    | with_reducible apply cmdServiceDefine_keeps
    | with_reducible apply cmdServiceRemove_keeps
    | with_reducible apply cmdComponentSet_keeps
    | with_reducible apply cmdServiceOptions_keeps
    | with_reducible apply cmdForceNetwork_keeps
    | with_reducible apply cmdReleaseService_keeps
    | with_reducible apply cmdSourceDefine_keeps
    | with_reducible apply cmdSourceRemove_keeps
    | with_reducible apply cmdSourceFlush_keeps
    | with_reducible apply cmdAvailBind_keeps
    | with_reducible apply cmdAvailUnbind_keeps
    | with_reducible apply cmdBreakInsert_keeps
    | with_reducible apply cmdBreakReturn_keeps
    | with_reducible apply cmdBreakCancel_keeps
    | with_reducible apply cmdBreakEndNow_keeps
    | with_reducible apply cmdLocalLoad_keeps
    | with_reducible apply cmdLocalCancel_keeps
    | with_reducible apply cmdAlertGroupSet_keeps
    | with_reducible apply cmdAlertStart_keeps
    | with_reducible apply cmdAlertEnd_keeps
    | with_reducible apply cmdAlertOverlayLoad_keeps
    | with_reducible apply cmdLinkSet_keeps
    | exact h.trans ⟨id, id, id, id, id, id, id, id, id⟩

theorem runCommand_keeps' {s0 t0 u0 : State} {q : QueueEntry} {a0 : Progress}
    (eq0 : runCommand q t0 = (a0, u0)) (h : Keeps s0 t0) : Keeps s0 u0 := by
  have k := runCommand_keeps h (q := q)
  rwa [eq0] at k

theorem runQueue_keeps {s0 : State} (n : Nat) {t0 : State} (h : Keeps s0 t0) : Keeps s0 (runQueue n t0) := by
  induction n generalizing t0 with
  | zero => exact h
  | succ n ih =>
    unfold runQueue
    split
    · exact h
    · split
      · rename_i e
        exact ih (complete_keeps (runCommand_keeps' e h))
      · rename_i e
        exact runCommand_keeps' e h
      · rename_i e
        exact runCommand_keeps' e h

theorem runAll_keeps {s0 t0 : State} (h : Keeps s0 t0) : Keeps s0 (runAll t0) := runQueue_keeps _ h

theorem runIfIdle_keeps {s0 t0 before : State} (h : Keeps s0 t0) : Keeps s0 (runIfIdle before t0) := by
  unfold runIfIdle
  split
  · exact runAll_keeps h
  · exact h

theorem completeWork_keeps {s0 t0 : State} {r : Reply} (h : Keeps s0 t0) : Keeps s0 (completeWork r t0) := by
  unfold completeWork
  split
  · exact (runAll_keeps (complete_keeps h)).inner (settle_inner .refl)
  · exact h.inner (settle_inner .refl)

theorem captureParams_keeps {s0 t0 : State} {c : CellCommand} (h : Keeps s0 t0) :
    Keeps s0 (captureParams c t0) := by
  unfold captureParams
  try dsimp only
  all_goals repeat first
    | with_reducible exact h
    | with_reducible apply modCell_keeps
    | exact h.trans ⟨id, id, id, id, id, id, id, id, id⟩

theorem takeCommand_keeps {s0 t0 : State} {code : Byte} {now : Stamp} {c : CellCommand} (h : Keeps s0 t0) :
    Keeps s0 (takeCommand code now c t0) := by
  unfold takeCommand
  refine Keeps.inner (runIfIdle_keeps (submit_keeps (captureParams_keeps ?_))) (settle_inner .refl)
  exact h.trans ⟨id, id, id, id, id, id, id, id, id⟩

theorem fetchReserved_keeps {s0 t0 : State} {x : EntryIx} {v : Verdict} (h : Keeps s0 t0) :
    Keeps s0 (fetchReserved x v t0) := by
  unfold fetchReserved
  try dsimp only
  repeat' split
  all_goals repeat first
    | with_reducible exact h
    | with_reducible apply handRead_keeps
    | exact h.trans ⟨id, id, id, id, id, id, id, id, id⟩

theorem orders_keeps {s0 t0 : State} (q : Vector (BitVec 8) 48) (w : Vector (List EntryIx) 48) (h : Keeps s0 t0) :
    Keeps s0 { t0 with sequence := q, rewriteOrder := w } := h.trans ⟨id, id, id, id, id, id, id, id, id⟩

theorem enterRewriteOrder_keeps {s0 t0 : State} {x : EntryIx} {i : ServiceIx} {e : RttEntry} {slot : List Byte}
    {boundary : Bool} {v : Verdict} (h : Keeps s0 t0) : Keeps s0 (enterRewriteOrder x i e slot boundary v t0) := by
  unfold enterRewriteOrder
  refine fetchReserved_keeps (orders_keeps _ _ (setEntry_keeps (h.inner (Inner.record .refl _ _ fun _ => rfl))))

theorem classifyUnused_keeps {s0 t0 : State} {x : EntryIx} {e : RttEntry} {slot : List Byte} (h : Keeps s0 t0) :
    Keeps s0 (classifyUnused x e slot t0) := by
  unfold classifyUnused
  try dsimp only
  all_goals repeat first
    | with_reducible exact h
    | with_reducible apply setEntry_keeps
    | exact h.trans ⟨id, id, id, id, id, id, id, id, id⟩

theorem classifyPacket_inner {s0 t0 : State} {r : ReadInfo} {slot : List Byte} (h : Inner s0 t0) :
    Inner s0 (classifyPacket r slot t0).2.2 := by
  have hc : Inner s0 (if (t0.service r.service).leadStart slot && t0.mode != .passive
      then consult r.service (slotStamp slot) t0 else (false, t0)).2 := by
    split
    · exact consult_inner h
    · exact h
  unfold classifyPacket
  revert hc
  generalize (if (t0.service r.service).leadStart slot && t0.mode != .passive
      then consult r.service (slotStamp slot) t0 else (false, t0)) = c
  intro hc
  dsimp only
  split
  · exact decidePacket_inner hc
  · exact hc

theorem classifySlot_inner {s0 t0 : State} {r : ReadInfo} {slot : List Byte} (h : Inner s0 t0) :
    Inner s0 (classifySlot r slot t0).2.2 := by
  unfold classifySlot
  split
  · exact classifyPacket_inner h
  · exact h.raise _

theorem classify_keeps {s0 t0 : State} {x : EntryIx} {e : RttEntry} {i : ServiceIx} {slot : List Byte} (h : Keeps s0 t0) :
    Keeps s0 (classify x e i slot t0) := by
  unfold classify
  split
  · exact enterRewriteOrder_keeps (h.inner (classifySlot_inner .refl))
  · exact classifyUnused_keeps h

theorem leaveOrder_keeps {s0 t0 : State} {x : EntryIx} {i : ServiceIx} (h : Keeps s0 t0) :
    Keeps s0 (leaveOrder x i t0) := by
  unfold leaveOrder
  try dsimp only
  all_goals repeat first
    | with_reducible exact h
    | exact h.trans ⟨id, id, id, id, id, id, id, id, id⟩

theorem rewriteEntry_keeps {s0 t0 : State} {x : EntryIx} {e : RttEntry} {i : ServiceIx} (h : Keeps s0 t0) :
    Keeps s0 (rewriteEntry x e i t0) := by
  unfold rewriteEntry
  try dsimp only
  all_goals repeat first
    | with_reducible exact h
    | with_reducible apply setEntry_keeps
    | with_reducible apply leaveOrder_keeps
    | (with_reducible refine Keeps.inner ?_ (rewriteBytes_inner .refl))
    | exact h.trans ⟨id, id, id, id, id, id, id, id, id⟩

theorem takeConsumer_keeps {s0 t0 : State} {value : BitVec 32} (h : Keeps s0 t0) : Keeps s0 (takeConsumer value t0) := by
  unfold takeConsumer
  split
  · rename_i d e
    split
    · rename_i p
      refine h.ringSet fun b d' e' => ?_
      have ed : d = d' := Option.some.inj (e.symm.trans e')
      subst ed
      obtain ⟨x, y, z, _⟩ := b d e
      exact ⟨x, y, z, p⟩
    · exact h
  · exact h

theorem offerConsumer_keeps {s0 t0 : State} {p : Part} {bytes : List LaneByte} (h : Keeps s0 t0) :
    Keeps s0 (offerConsumer p bytes t0) := by
  unfold offerConsumer
  try dsimp only
  repeat' split
  all_goals repeat first
    | with_reducible exact h
    | with_reducible apply takeConsumer_keeps
    | exact h.trans ⟨id, id, id, id, id, id, id, id, id⟩

theorem captureCells_keeps {s0 t0 : State} {p : Part} {bytes : List LaneByte} (h : Keeps s0 t0) :
    Keeps s0 (captureCells p bytes t0) := foldl_keeps (fun _ _ k => modCell_keeps k) _ h

theorem submitCells_keeps {s0 t0 : State} {q : RequesterId} {p : Part} {bytes : List LaneByte} (h : Keeps s0 t0) :
    Keeps s0 (submitCells q p bytes t0) := by
  refine foldl_keeps (fun t c k => ?_) _ h
  split
  · exact submit_keeps k
  · exact k

theorem controlWrite_keeps {s0 t0 : State} {q : RequesterId} {p : Part} {bytes : List LaneByte} (h : Keeps s0 t0) :
    Keeps s0 (controlWrite q p bytes t0) := by
  unfold controlWrite
  try dsimp only
  all_goals repeat first
    | with_reducible exact h
    | with_reducible apply offerConsumer_keeps
    | with_reducible apply captureCells_keeps
    | with_reducible apply submitCells_keeps
    | exact h.trans ⟨id, id, id, id, id, id, id, id, id⟩

theorem watch_keeps {s0 t0 : State} {role : Role} {q : RequesterId} {bytes : List LaneByte} {o : Offer} (h : Keeps s0 t0) :
    Keeps s0 (watch role q bytes o t0) := by
  unfold watch
  try dsimp only
  repeat' split
  all_goals repeat first
    | with_reducible exact h
    | with_reducible apply controlWrite_keeps
    | (with_reducible refine Keeps.inner ?_ (sourceTrackerWrite_inner .refl))
    | (with_reducible refine Keeps.inner ?_ (ingestWrite_inner .refl))
    | (with_reducible refine Keeps.inner ?_ (Inner.raise .refl _))
    | exact h.trans ⟨id, id, id, id, id, id, id, id, id⟩

theorem takeWrite_keeps {s0 t0 : State} {w : PortWrite} (h : Keeps s0 t0) : Keeps s0 (takeWrite w t0) := by
  unfold takeWrite
  exact foldl_keeps (fun _ _ k => watch_keeps k) _ (handWrite_keeps h)

theorem raiseUnaligned_keeps {s0 t0 : State} {role : Role} {kind : ReadKind} {r : PortRead} (h : Keeps s0 t0) :
    Keeps s0 (raiseUnaligned role kind r t0) := by
  unfold raiseUnaligned
  try dsimp only
  repeat' split
  all_goals repeat first
    | with_reducible exact h
    | (with_reducible refine Keeps.inner ?_ (Inner.raise .refl _))
    | exact h.trans ⟨id, id, id, id, id, id, id, id, id⟩

theorem allocate_keeps {s0 t0 : State} {x : EntryIx} {role : Role} {kind : ReadKind} {r : PortRead} (h : Keeps s0 t0) :
    Keeps s0 (allocate x role kind r t0) := by
  unfold allocate
  try dsimp only
  all_goals repeat first
    | with_reducible exact h
    | with_reducible apply handRead_keeps
    | with_reducible apply setEntry_keeps
    | exact h.trans ⟨id, id, id, id, id, id, id, id, id⟩

theorem takeRead_keeps {s0 t0 : State} {x : EntryIx} {r : PortRead} (h : Keeps s0 t0) :
    Keeps s0 (takeRead x r t0) := by
  unfold takeRead
  try dsimp only
  all_goals repeat first
    | with_reducible exact h
    | with_reducible apply raiseUnaligned_keeps
    | with_reducible apply allocate_keeps
    | exact h.trans ⟨id, id, id, id, id, id, id, id, id⟩

theorem arriveRead_keeps {s0 t0 : State} {r : PortRead} (h : Keeps s0 t0) :
    Keeps s0 (arriveRead r t0) := by
  unfold arriveRead
  try dsimp only
  repeat' split
  all_goals repeat first
    | with_reducible exact h
    | with_reducible apply takeRead_keeps
    | exact h.trans ⟨id, id, id, id, id, id, id, id, id⟩

theorem giveEntry_keeps {s0 t0 : State} {x : EntryIx} (h : Keeps s0 t0) :
    Keeps s0 (giveEntry x t0) := by
  unfold giveEntry
  try dsimp only
  repeat' split
  all_goals repeat first
    | with_reducible exact h
    | with_reducible apply takeRead_keeps
    | exact h.trans ⟨id, id, id, id, id, id, id, id, id⟩

theorem completeEntry_keeps {s0 t0 : State} {x : EntryIx} {q : RequesterId} {e : RttEntry} (h : Keeps s0 t0) :
    Keeps s0 (completeEntry x q e t0) := by
  unfold completeEntry
  try dsimp only
  all_goals repeat first
    | with_reducible exact h
    | with_reducible apply emit_keeps
    | with_reducible apply setEntry_keeps
    | with_reducible apply giveEntry_keeps
    | exact h.trans ⟨id, id, id, id, id, id, id, id, id⟩

theorem issueWaiting_keeps {s0 t0 : State} (h : Keeps s0 t0) : Keeps s0 (issueWaiting t0) := by
  unfold issueWaiting
  split
  · split
    · rename_i p
      exact issueWrites_keeps (issueRead_keeps p h) ⟨_, rfl⟩
    · exact h
  · exact issueWrites_keeps h ⟨_, rfl⟩
  · exact h

theorem answerPlain_keeps {s0 t0 : State} {x : EntryIx} {e : RttEntry} {status : ReadStatus} {data : List Byte} (h : Keeps s0 t0) :
    Keeps s0 (answerPlain x e status data t0) := by
  unfold answerPlain
  try dsimp only
  all_goals repeat first
    | with_reducible exact h
    | with_reducible apply matched_keeps
    | with_reducible apply setEntry_keeps
    | exact h.trans ⟨id, id, id, id, id, id, id, id, id⟩

theorem answerError_keeps {s0 t0 : State} {x : EntryIx} {e : RttEntry} (h : Keeps s0 t0) :
    Keeps s0 (answerError x e t0) := by
  unfold answerError
  try dsimp only
  all_goals repeat first
    | with_reducible exact h
    | with_reducible apply matched_keeps
    | with_reducible apply setEntry_keeps
    | (with_reducible refine Keeps.inner ?_ (Inner.raise .refl _))
    | exact h.trans ⟨id, id, id, id, id, id, id, id, id⟩

theorem answerFetch_keeps {s0 t0 : State} {x : EntryIx} {e : RttEntry} {data : SlotData} (h : Keeps s0 t0) :
    Keeps s0 (answerFetch x e data t0) := by
  unfold answerFetch
  try dsimp only
  all_goals repeat first
    | with_reducible exact h
    | with_reducible apply matched_keeps
    | with_reducible apply setEntry_keeps
    | exact h.trans ⟨id, id, id, id, id, id, id, id, id⟩

theorem fetchError_keeps {s0 t0 : State} {x : EntryIx} {e : RttEntry} (h : Keeps s0 t0) :
    Keeps s0 (fetchError x e t0) := by
  unfold fetchError
  try dsimp only
  all_goals repeat first
    | with_reducible exact h
    | with_reducible apply matched_keeps
    | with_reducible apply setEntry_keeps
    | (with_reducible refine Keeps.inner ?_ (Inner.raise .refl _))
    | exact h.trans ⟨id, id, id, id, id, id, id, id, id⟩

theorem orphanReads_keeps {s0 t0 : State} {whose : ReadOwner → Bool} (h : Keeps s0 t0) : Keeps s0 (orphanReads whose t0) := by
  refine h.trans ⟨fun b => ?_, id, id, id, id, id, id, id, id⟩
  unfold ReadsBounded orphanReads at *
  simpa using b

theorem dropFromOrder_keeps {s0 t0 : State} {x : EntryIx} {e : RttEntry} (h : Keeps s0 t0) :
    Keeps s0 (dropFromOrder x e t0) := by
  unfold dropFromOrder
  try dsimp only
  repeat' split
  all_goals repeat first
    | with_reducible exact h
    | with_reducible apply leaveOrder_keeps
    | exact h.trans ⟨id, id, id, id, id, id, id, id, id⟩

theorem timeOutEntry_keeps {s0 t0 : State} {x : EntryIx} {e : RttEntry} {addr : Addr} (h : Keeps s0 t0) :
    Keeps s0 (timeOutEntry x e addr t0) := by
  unfold timeOutEntry
  try dsimp only
  all_goals repeat first
    | with_reducible exact h
    | with_reducible apply setEntry_keeps
    | with_reducible apply orphanReads_keeps
    | with_reducible apply dropFromOrder_keeps
    | (with_reducible refine Keeps.inner ?_ (Inner.raise .refl _))
    | exact h.trans ⟨id, id, id, id, id, id, id, id, id⟩

theorem answerStartCheck_keeps {s0 t0 : State} {k : SourceIx} {w : Window} {status : ReadStatus} {slot : List Byte} (h : Keeps s0 t0) :
    Keeps s0 (answerStartCheck k w status slot t0) := by
  unfold answerStartCheck
  try dsimp only
  repeat' split
  all_goals repeat first
    | with_reducible exact h
    | with_reducible apply matched_keeps
    | with_reducible apply startChecked_keeps
    | with_reducible apply completeWork_keeps
    | exact h.trans ⟨id, id, id, id, id, id, id, id, id⟩

theorem answerOverlayLoad_keeps {s0 t0 : State} {g : GroupIx} {status : ReadStatus} {slot : List Byte} (h : Keeps s0 t0) :
    Keeps s0 (answerOverlayLoad g status slot t0) := by
  unfold answerOverlayLoad
  try dsimp only
  repeat' split
  all_goals repeat first
    | with_reducible exact h
    | with_reducible apply matched_keeps
    | with_reducible apply overlayLoaded_keeps
    | with_reducible apply completeWork_keeps
    | exact h.trans ⟨id, id, id, id, id, id, id, id, id⟩

theorem timeOutCommand_keeps {s0 t0 : State} {addr : Addr} (h : Keeps s0 t0) :
    Keeps s0 (timeOutCommand addr t0) := by
  unfold timeOutCommand
  try dsimp only
  all_goals repeat first
    | with_reducible exact h
    | with_reducible apply completeWork_keeps
    | with_reducible apply orphanReads_keeps
    | (with_reducible refine Keeps.inner ?_ (Inner.raise .refl _))
    | exact h.trans ⟨id, id, id, id, id, id, id, id, id⟩

theorem finishSnapshot_keeps {s0 t0 : State} {dest : Addr} {record : List Byte} {handed : Nat} (h : Keeps s0 t0) :
    Keeps s0 (finishSnapshot dest record handed t0) := by
  unfold finishSnapshot
  try dsimp only
  all_goals repeat first
    | with_reducible exact h
    | with_reducible apply writeBeats_keeps
    | with_reducible apply done_keeps
    | with_reducible apply completeWork_keeps
    | exact h.trans ⟨id, id, id, id, id, id, id, id, id⟩

theorem setFrame_keeps {s0 t0 : State} {f : Option Frame} (h : Keeps s0 t0) :
    Keeps s0 (State.setFrame t0 f) := by
  unfold State.setFrame
  try dsimp only
  all_goals repeat first
    | with_reducible exact h
    | exact h.trans ⟨id, id, id, id, id, id, id, id, id⟩

theorem receiveIn_keeps {s0 t0 : State} {f : Frame} {b : Byte} (h : Keeps s0 t0) :
    Keeps s0 (receiveIn f b t0) := emit_keeps (setFrame_keeps h)

theorem receiveByte_keeps {s0 t0 : State} {b : Byte} (h : Keeps s0 t0) :
    Keeps s0 (receiveByte b t0) := by
  unfold receiveByte
  split
  · exact receiveIn_keeps h
  · exact emit_keeps h

theorem discardFrame_keeps {s0 t0 : State} {f : Frame} (h : Keeps s0 t0) :
    Keeps s0 (discardFrame f t0) := by
  unfold discardFrame
  try dsimp only
  repeat' split
  all_goals repeat first
    | with_reducible exact h
    | with_reducible apply setFrame_keeps
    | (with_reducible refine Keeps.inner ?_ (Inner.raise .refl _))
    | exact h.trans ⟨id, id, id, id, id, id, id, id, id⟩

theorem armEffect_keeps {s0 t0 : State} {f : Frame} (h : Keeps s0 t0) :
    Keeps s0 (armEffect f t0) := by
  unfold armEffect
  try dsimp only
  repeat' split
  all_goals repeat first
    | with_reducible exact h
    | exact h.trans ⟨id, id, id, id, id, id, id, id, id⟩

theorem clearEffect_keeps {s0 t0 : State} (h : Keeps s0 t0) :
    Keeps s0 (clearEffect t0) := by
  unfold clearEffect
  try dsimp only
  all_goals repeat first
    | with_reducible exact h
    | exact h.trans ⟨id, id, id, id, id, id, id, id, id⟩

theorem goReport_keeps {s0 t0 : State} {a : PendingArm} {r : Activation} (h : Keeps s0 t0) :
    Keeps s0 (goReport a r t0) := by
  unfold goReport
  try dsimp only
  repeat' split
  all_goals repeat first
    | with_reducible exact h
    | (with_reducible refine Keeps.inner ?_ (Inner.offer .refl _))
    | exact h.trans ⟨id, id, id, id, id, id, id, id, id⟩

theorem goEffect_keeps {s0 t0 : State} (h : Keeps s0 t0) :
    Keeps s0 (goEffect t0) := by
  unfold goEffect
  try dsimp only
  repeat' split
  all_goals repeat first
    | with_reducible exact h
    | with_reducible apply clearEffect_keeps
    | with_reducible apply goReport_keeps
    | (with_reducible refine Keeps.inner ?_ (requestActivation_inner .refl))
    | (with_reducible refine Keeps.inner ?_ (Inner.offer .refl _))
    | exact h.trans ⟨id, id, id, id, id, id, id, id, id⟩

theorem endRefused_keeps {s0 t0 : State} {group : Byte} (h : Keeps s0 t0) :
    Keeps s0 (endRefused group t0) := by
  unfold endRefused
  try dsimp only
  all_goals repeat first
    | with_reducible exact h
    | (with_reducible refine Keeps.inner ?_ (Inner.offer .refl _))
    | exact h.trans ⟨id, id, id, id, id, id, id, id, id⟩

theorem endEffect_keeps {s0 t0 : State} {f : Frame} (h : Keeps s0 t0) :
    Keeps s0 (endEffect f t0) := by
  unfold endEffect
  try dsimp only
  repeat' split
  all_goals repeat first
    | with_reducible exact h
    | with_reducible apply endRefused_keeps
    | (with_reducible refine Keeps.inner ?_ (endAlert_inner .refl))
    | exact h.trans ⟨id, id, id, id, id, id, id, id, id⟩

theorem keepaliveEffect_keeps {s0 t0 : State} (h : Keeps s0 t0) :
    Keeps s0 (keepaliveEffect t0) := by
  unfold keepaliveEffect
  try dsimp only
  repeat' split
  all_goals repeat first
    | with_reducible exact h
    | (with_reducible refine Keeps.inner ?_ (Inner.offer .refl _))
    | exact h.trans ⟨id, id, id, id, id, id, id, id, id⟩

theorem frameEffect_keeps {s0 t0 : State} {f : Frame} (h : Keeps s0 t0) :
    Keeps s0 (frameEffect f t0) := by
  unfold frameEffect
  try dsimp only
  repeat' split
  all_goals repeat first
    | with_reducible exact h
    | with_reducible apply armEffect_keeps
    | with_reducible apply clearEffect_keeps
    | with_reducible apply goEffect_keeps
    | with_reducible apply endEffect_keeps
    | with_reducible apply keepaliveEffect_keeps
    | exact h.trans ⟨id, id, id, id, id, id, id, id, id⟩

theorem endFrame_keeps {s0 t0 : State} {f : Frame} (h : Keeps s0 t0) :
    Keeps s0 (endFrame f t0) := by
  unfold endFrame
  try dsimp only
  repeat' split
  all_goals repeat first
    | with_reducible exact h
    | with_reducible apply complete_keeps
    | with_reducible apply setFrame_keeps
    | with_reducible apply discardFrame_keeps
    | with_reducible apply frameEffect_keeps
    | exact h.trans ⟨id, id, id, id, id, id, id, id, id⟩

theorem sendStatus_keeps {s0 t0 : State} {f : Frame} {sample : Byte} (h : Keeps s0 t0) :
    Keeps s0 (sendStatus f sample t0) := by
  unfold sendStatus
  try dsimp only
  repeat' split
  all_goals repeat first
    | with_reducible exact h
    | with_reducible apply emit_keeps
    | with_reducible apply setFrame_keeps
    | exact h.trans ⟨id, id, id, id, id, id, id, id, id⟩

theorem readStatus_keeps {s0 t0 : State} (h : Keeps s0 t0) :
    Keeps s0 (readStatus t0) := by
  unfold readStatus
  try dsimp only
  repeat' split
  all_goals repeat first
    | with_reducible exact h
    | with_reducible apply sendStatus_keeps
    | exact h.trans ⟨id, id, id, id, id, id, id, id, id⟩

theorem loseLink_keeps {s0 t0 : State} {seconds : Nat} (h : Keeps s0 t0) :
    Keeps s0 (loseLink seconds t0) := by
  unfold loseLink
  try dsimp only
  all_goals repeat first
    | with_reducible exact h
    | (with_reducible refine Keeps.inner ?_ (Inner.offer .refl _))
    | (with_reducible refine Keeps.inner ?_ (Inner.raise .refl _))
    | exact h.trans ⟨id, id, id, id, id, id, id, id, id⟩

theorem nextPeriod_keeps {s0 t0 : State} (h : Keeps s0 t0) :
    Keeps s0 (nextPeriod t0) := by
  unfold nextPeriod
  try dsimp only
  all_goals repeat first
    | with_reducible exact h
    | exact h.trans ⟨id, id, id, id, id, id, id, id, id⟩

theorem expirePeriod_keeps {s0 t0 : State} {p : Period} (h : Keeps s0 t0) :
    Keeps s0 (expirePeriod p t0) := by
  unfold expirePeriod
  try dsimp only
  repeat' split
  all_goals repeat first
    | with_reducible exact h
    | with_reducible apply loseLink_keeps
    | with_reducible apply nextPeriod_keeps
    | exact h.trans ⟨id, id, id, id, id, id, id, id, id⟩

theorem checkOwner_keeps {s0 t0 : State} {o : InsOwner} (h : Keeps s0 t0) : Keeps s0 (checkOwner o t0) :=
  h.inner (checkOwner_inner .refl)

theorem expireChannel_keeps {s0 t0 : State} {c : Channel} (h : Keeps s0 t0) : Keeps s0 (expireChannel c t0) := by
  refine checkOwner_keeps (h.trans ⟨id, id, fun b => ?_, id, id, id, id, id, id⟩)
  unfold ChannelsBounded at *
  simp only [List.length_tail]
  omega

theorem staleBreak_keeps {s0 t0 : State} {i : ServiceIx} {e : BreakEntry} (h : Keeps s0 t0) :
    Keeps s0 (staleBreak i e t0) := by
  unfold staleBreak
  try dsimp only
  repeat' split
  all_goals repeat first
    | with_reducible exact h
    | (with_reducible refine Keeps.inner ?_ (leaveBreak_inner .refl))
    | exact h.trans ⟨id, id, id, id, id, id, id, id, id⟩

theorem staleSlot_keeps {s0 t0 : State} {i : ServiceIx} {l : SlotLetter} {p : LocalProg} (h : Keeps s0 t0) :
    Keeps s0 (staleSlot i l p t0) := by
  unfold staleSlot
  try dsimp only
  repeat' split
  all_goals repeat first
    | with_reducible exact h
    | (with_reducible refine Keeps.inner ?_ (leaveSlot_inner .refl))
    | exact h.trans ⟨id, id, id, id, id, id, id, id, id⟩

theorem departStale_keeps {s0 t0 : State} {o : InsOwner} (h : Keeps s0 t0) :
    Keeps s0 (departStale o t0) := by
  unfold departStale
  try dsimp only
  repeat' split
  all_goals repeat first
    | with_reducible exact h
    | with_reducible apply staleBreak_keeps
    | with_reducible apply staleSlot_keeps
    | exact h.trans ⟨id, id, id, id, id, id, id, id, id⟩

theorem at_keeps {s0 t0 : State} (now : Stamp) (h : Keeps s0 t0) : Keeps s0 (t0.at now) :=
  h.trans ⟨id, id, id, id, id, id, id, id, id⟩

theorem settle_keeps {s0 t0 : State} (h : Keeps s0 t0) : Keeps s0 (settle t0) := h.inner (settle_inner .refl)

theorem poweredOn_keeps {s0 t0 : State} {now : Stamp} {straps : BitVec 16} (h : Keeps s0 t0) :
    Keeps s0 (poweredOn now straps t0) := reset_keeps h (.inl rfl) rfl rfl rfl rfl rfl rfl rfl (.inl rfl)

theorem startCondition_keeps {s0 t0 : State} (h : Keeps s0 t0) : Keeps s0 (startCondition t0) := by
  unfold startCondition
  split
  · exact setFrame_keeps (settle_keeps (endFrame_keeps h))
  · exact setFrame_keeps h

/-- The outcome of a row keeps the invariants: its next state does, and a fault has none. -/
def NextKeeps (s : State) (o : Host.Outcome State Fault Refusal) : Prop := ∀ t, o = .next t → Keeps s t

theorem NextKeeps.intro {s t : State} (h : Keeps s t) : NextKeeps s (.next t) := fun _ e => Host.Outcome.next.inj e ▸ h

theorem NextKeeps.fault {s : State} {f : Fault} : NextKeeps s (.fault f) := fun _ e => by cases e

theorem commandRow_keeps {code : Byte} {now : Stamp} {c : CellCommand} {s : State} :
    NextKeeps s (.next (takeCommand code now c s)) := .intro (takeCommand_keeps (.refl s))

theorem execPowerOnReset_keeps {now : Stamp} {straps : BitVec 16} {s : State} : NextKeeps s (execPowerOnReset now straps s) := by
  unfold execPowerOnReset
  try dsimp only
  all_goals try refine .intro ?_
  all_goals repeat first
    | with_reducible exact .fault
    | with_reducible exact at_keeps _ (.refl _)
    | with_reducible apply poweredOn_keeps
    | with_reducible exact .refl _

theorem execWriteTaken_keeps {now : Stamp} {w : PortWrite} {s : State} : NextKeeps s (execWriteTaken now w s) := by
  unfold execWriteTaken
  try dsimp only
  repeat' split
  all_goals try refine .intro ?_
  all_goals repeat first
    | with_reducible exact .fault
    | with_reducible exact at_keeps _ (.refl _)
    | with_reducible apply settle_keeps
    | with_reducible apply takeWrite_keeps
    | with_reducible apply runIfIdle_keeps

theorem execConsumerIndexWrite_keeps {now : Stamp} {value : BitVec 32} {s : State} : NextKeeps s (execConsumerIndexWrite now value s) := by
  unfold execConsumerIndexWrite
  try dsimp only
  all_goals try refine .intro ?_
  all_goals repeat first
    | with_reducible exact .fault
    | with_reducible exact at_keeps _ (.refl _)
    | with_reducible apply takeConsumer_keeps

theorem execReadTaken_keeps {now : Stamp} {r : PortRead} {s : State} : NextKeeps s (execReadTaken now r s) := by
  unfold execReadTaken
  try dsimp only
  repeat' split
  all_goals try refine .intro ?_
  all_goals repeat first
    | with_reducible exact .fault
    | with_reducible exact at_keeps _ (.refl _)
    | with_reducible apply settle_keeps
    | with_reducible apply arriveRead_keeps

theorem execReadIssue_keeps {now : Stamp} {s : State} : NextKeeps s (execReadIssue now s) := by
  unfold execReadIssue
  try dsimp only
  all_goals try refine .intro ?_
  all_goals repeat first
    | with_reducible exact .fault
    | with_reducible exact at_keeps _ (.refl _)
    | with_reducible apply issueWaiting_keeps

theorem execPlainReadAnswer_keeps {now : Stamp} {status : ReadStatus} {data : List Byte} {s : State} : NextKeeps s (execPlainReadAnswer now status data s) := by
  unfold execPlainReadAnswer
  try dsimp only
  repeat' split
  all_goals try refine .intro ?_
  all_goals repeat first
    | with_reducible exact .fault
    | with_reducible exact at_keeps _ (.refl _)
    | with_reducible apply answerPlain_keeps

theorem execClassification_keeps {now : Stamp} {data : SlotData} {s : State} : NextKeeps s (execClassification now data s) := by
  unfold execClassification
  try dsimp only
  repeat' split
  all_goals try refine .intro ?_
  all_goals repeat first
    | with_reducible exact .fault
    | with_reducible exact at_keeps _ (.refl _)
    | with_reducible apply settle_keeps
    | with_reducible apply classify_keeps
    | with_reducible apply matched_keeps

theorem execNetworkReadError_keeps {now : Stamp} {s : State} : NextKeeps s (execNetworkReadError now s) := by
  unfold execNetworkReadError
  try dsimp only
  repeat' split
  all_goals try refine .intro ?_
  all_goals repeat first
    | with_reducible exact .fault
    | with_reducible exact at_keeps _ (.refl _)
    | with_reducible apply settle_keeps
    | with_reducible apply answerError_keeps

theorem execSourceFetchAnswer_keeps {now : Stamp} {data : SlotData} {s : State} : NextKeeps s (execSourceFetchAnswer now data s) := by
  unfold execSourceFetchAnswer
  try dsimp only
  repeat' split
  all_goals try refine .intro ?_
  all_goals repeat first
    | with_reducible exact .fault
    | with_reducible exact at_keeps _ (.refl _)
    | with_reducible apply answerFetch_keeps

theorem execSourceFetchError_keeps {now : Stamp} {s : State} : NextKeeps s (execSourceFetchError now s) := by
  unfold execSourceFetchError
  try dsimp only
  repeat' split
  all_goals try refine .intro ?_
  all_goals repeat first
    | with_reducible exact .fault
    | with_reducible exact at_keeps _ (.refl _)
    | with_reducible apply settle_keeps
    | with_reducible apply fetchError_keeps

theorem execRewrite_keeps {now : Stamp} {x : EntryIx} {s : State} : NextKeeps s (execRewrite now x s) := by
  unfold execRewrite
  try dsimp only
  repeat' split
  all_goals try refine .intro ?_
  all_goals repeat first
    | with_reducible exact .fault
    | with_reducible exact at_keeps _ (.refl _)
    | with_reducible apply settle_keeps
    | with_reducible apply rewriteEntry_keeps

theorem execCompletion_keeps {now : Stamp} {q : RequesterId} {s : State} : NextKeeps s (execCompletion now q s) := by
  unfold execCompletion
  try dsimp only
  repeat' split
  all_goals try refine .intro ?_
  all_goals repeat first
    | with_reducible exact .fault
    | with_reducible exact at_keeps _ (.refl _)
    | with_reducible apply settle_keeps
    | with_reducible apply completeEntry_keeps

theorem execReadDeadlineExpiry_keeps {now : Stamp} {x : EntryIx} {s : State} : NextKeeps s (execReadDeadlineExpiry now x s) := by
  unfold execReadDeadlineExpiry
  try dsimp only
  repeat' split
  all_goals try refine .intro ?_
  all_goals repeat first
    | with_reducible exact .fault
    | with_reducible exact at_keeps _ (.refl _)
    | with_reducible apply settle_keeps
    | with_reducible apply timeOutEntry_keeps

theorem execOrphanAnswer_keeps {now : Stamp} {s : State} : NextKeeps s (execOrphanAnswer now s) := by
  unfold execOrphanAnswer
  try dsimp only
  repeat' split
  all_goals try refine .intro ?_
  all_goals repeat first
    | with_reducible exact .fault
    | with_reducible exact at_keeps _ (.refl _)
    | with_reducible apply matched_keeps

theorem execStartCheckAnswer_keeps {now : Stamp} {status : ReadStatus} {data : SlotData} {s : State} : NextKeeps s (execStartCheckAnswer now status data s) := by
  unfold execStartCheckAnswer
  try dsimp only
  repeat' split
  all_goals try refine .intro ?_
  all_goals repeat first
    | with_reducible exact .fault
    | with_reducible exact at_keeps _ (.refl _)
    | with_reducible apply answerStartCheck_keeps

theorem execOverlayLoadAnswer_keeps {now : Stamp} {status : ReadStatus} {data : SlotData} {s : State} : NextKeeps s (execOverlayLoadAnswer now status data s) := by
  unfold execOverlayLoadAnswer
  try dsimp only
  repeat' split
  all_goals try refine .intro ?_
  all_goals repeat first
    | with_reducible exact .fault
    | with_reducible exact at_keeps _ (.refl _)
    | with_reducible apply answerOverlayLoad_keeps

theorem execInternalReadExpiry_keeps {now : Stamp} {s : State} : NextKeeps s (execInternalReadExpiry now s) := by
  unfold execInternalReadExpiry
  try dsimp only
  repeat' split
  all_goals try refine .intro ?_
  all_goals repeat first
    | with_reducible exact .fault
    | with_reducible exact at_keeps _ (.refl _)
    | with_reducible apply timeOutCommand_keeps

theorem execSnapshotWriteComplete_keeps {now : Stamp} {s : State} : NextKeeps s (execSnapshotWriteComplete now s) := by
  unfold execSnapshotWriteComplete
  try dsimp only
  repeat' split
  all_goals try refine .intro ?_
  all_goals repeat first
    | with_reducible exact .fault
    | with_reducible exact at_keeps _ (.refl _)
    | with_reducible apply finishSnapshot_keeps

theorem execChannelExpiry_keeps {now : Stamp} {s : State} : NextKeeps s (execChannelExpiry now s) := by
  unfold execChannelExpiry
  try dsimp only
  repeat' split
  all_goals try refine .intro ?_
  all_goals repeat first
    | with_reducible exact .fault
    | with_reducible exact at_keeps _ (.refl _)
    | with_reducible apply settle_keeps
    | with_reducible apply expireChannel_keeps

theorem execStaleStampDeparture_keeps {now : Stamp} {o : InsOwner} {s : State} : NextKeeps s (execStaleStampDeparture now o s) := by
  unfold execStaleStampDeparture
  try dsimp only
  all_goals try refine .intro ?_
  all_goals repeat first
    | with_reducible exact .fault
    | with_reducible exact at_keeps _ (.refl _)
    | with_reducible apply settle_keeps
    | with_reducible apply departStale_keeps

theorem execMaximumDurationExpiry_keeps {now : Stamp} {k : AlertIx} {s : State} : NextKeeps s (execMaximumDurationExpiry now k s) := by
  unfold execMaximumDurationExpiry
  try dsimp only
  repeat' split
  all_goals try refine .intro ?_
  all_goals repeat first
    | with_reducible exact .fault
    | with_reducible exact at_keeps _ (.refl _)
    | with_reducible apply settle_keeps
    | with_reducible refine Keeps.inner ?_ (endAlert_inner .refl)

theorem execRecoveryTimerExpiry_keeps {now : Stamp} {s : State} : NextKeeps s (execRecoveryTimerExpiry now s) := by
  unfold execRecoveryTimerExpiry
  try dsimp only
  repeat' split
  all_goals try refine .intro ?_
  all_goals repeat first
    | with_reducible exact .fault
    | with_reducible exact at_keeps _ (.refl _)
    | with_reducible apply settle_keeps
    | with_reducible refine Keeps.inner ?_ (leaveBypass_inner .refl)

theorem execPeriodTimerExpiry_keeps {now : Stamp} {s : State} : NextKeeps s (execPeriodTimerExpiry now s) := by
  unfold execPeriodTimerExpiry
  try dsimp only
  repeat' split
  all_goals try refine .intro ?_
  all_goals repeat first
    | with_reducible exact .fault
    | with_reducible exact at_keeps _ (.refl _)
    | with_reducible apply settle_keeps
    | with_reducible apply expirePeriod_keeps

theorem execArmFrame_keeps {now : Stamp} {s : State} : NextKeeps s (execArmFrame now s) := by
  unfold execArmFrame
  try dsimp only
  repeat' split
  all_goals try refine .intro ?_
  all_goals repeat first
    | with_reducible exact .fault
    | with_reducible exact at_keeps _ (.refl _)
    | with_reducible apply setFrame_keeps
    | with_reducible apply armEffect_keeps

theorem execGoFrame_keeps {now : Stamp} {s : State} : NextKeeps s (execGoFrame now s) := by
  unfold execGoFrame
  try dsimp only
  repeat' split
  all_goals try refine .intro ?_
  all_goals repeat first
    | with_reducible exact .fault
    | with_reducible exact at_keeps _ (.refl _)
    | with_reducible apply settle_keeps
    | with_reducible apply setFrame_keeps
    | with_reducible apply goEffect_keeps

theorem execEndFrame_keeps {now : Stamp} {s : State} : NextKeeps s (execEndFrame now s) := by
  unfold execEndFrame
  try dsimp only
  repeat' split
  all_goals try refine .intro ?_
  all_goals repeat first
    | with_reducible exact .fault
    | with_reducible exact at_keeps _ (.refl _)
    | with_reducible apply settle_keeps
    | with_reducible apply setFrame_keeps
    | with_reducible apply endEffect_keeps

theorem execKeepaliveFrame_keeps {now : Stamp} {s : State} : NextKeeps s (execKeepaliveFrame now s) := by
  unfold execKeepaliveFrame
  try dsimp only
  repeat' split
  all_goals try refine .intro ?_
  all_goals repeat first
    | with_reducible exact .fault
    | with_reducible exact at_keeps _ (.refl _)
    | with_reducible apply settle_keeps
    | with_reducible apply setFrame_keeps
    | with_reducible apply keepaliveEffect_keeps

theorem execClearFrame_keeps {now : Stamp} {s : State} : NextKeeps s (execClearFrame now s) := by
  unfold execClearFrame
  try dsimp only
  repeat' split
  all_goals try refine .intro ?_
  all_goals repeat first
    | with_reducible exact .fault
    | with_reducible exact at_keeps _ (.refl _)
    | with_reducible apply setFrame_keeps
    | with_reducible apply clearEffect_keeps

theorem execStatusRead_keeps {now : Stamp} {s : State} : NextKeeps s (execStatusRead now s) := by
  unfold execStatusRead
  try dsimp only
  repeat' split
  all_goals try refine .intro ?_
  all_goals repeat first
    | with_reducible exact .fault
    | with_reducible exact at_keeps _ (.refl _)
    | with_reducible apply receiveIn_keeps
    | with_reducible apply readStatus_keeps

theorem execFrameDiscard_keeps {now : Stamp} {s : State} : NextKeeps s (execFrameDiscard now s) := by
  unfold execFrameDiscard
  try dsimp only
  repeat' split
  all_goals try refine .intro ?_
  all_goals repeat first
    | with_reducible exact .fault
    | with_reducible exact at_keeps _ (.refl _)
    | with_reducible apply settle_keeps
    | with_reducible apply endFrame_keeps

theorem execUnknownCommand_keeps {now : Stamp} {code : Byte} {c : CellCommand} {s : State} : NextKeeps s (execUnknownCommand now code c s) := by
  unfold execUnknownCommand
  try dsimp only
  repeat' split
  all_goals try refine .intro ?_
  all_goals repeat first
    | with_reducible exact .fault
    | with_reducible exact takeCommand_keeps (.refl _)

theorem execLinkByteReceived_keeps {now : Stamp} {start : Bool} {b : Byte} {s : State} : NextKeeps s (execLinkByteReceived now start b s) := by
  refine .intro (receiveByte_keeps ?_)
  split
  · exact startCondition_keeps (at_keeps _ (.refl _))
  · exact at_keeps _ (.refl _)

/-- Every next state of a row keeps each of the invariants. -/
theorem exec_keeps (i : Instr) (s : State) : NextKeeps s (exec i s) := by
  cases i with
  | powerOnReset => exact execPowerOnReset_keeps
  | writeTaken => exact execWriteTaken_keeps
  | consumerIndexWrite => exact execConsumerIndexWrite_keeps
  | readTaken => exact execReadTaken_keeps
  | readIssue => exact execReadIssue_keeps
  | plainReadAnswer => exact execPlainReadAnswer_keeps
  | classification => exact execClassification_keeps
  | networkReadError => exact execNetworkReadError_keeps
  | sourceFetchAnswer => exact execSourceFetchAnswer_keeps
  | sourceFetchError => exact execSourceFetchError_keeps
  | rewrite => exact execRewrite_keeps
  | completion => exact execCompletion_keeps
  | readDeadlineExpiry => exact execReadDeadlineExpiry_keeps
  | orphanAnswer => exact execOrphanAnswer_keeps
  | startCheckAnswer => exact execStartCheckAnswer_keeps
  | overlayLoadAnswer => exact execOverlayLoadAnswer_keeps
  | internalReadExpiry => exact execInternalReadExpiry_keeps
  | snapshotWriteComplete => exact execSnapshotWriteComplete_keeps
  | channelExpiry => exact execChannelExpiry_keeps
  | staleStampDeparture => exact execStaleStampDeparture_keeps
  | maximumDurationExpiry => exact execMaximumDurationExpiry_keeps
  | recoveryTimerExpiry => exact execRecoveryTimerExpiry_keeps
  | periodTimerExpiry => exact execPeriodTimerExpiry_keeps
  | armFrame => exact execArmFrame_keeps
  | goFrame => exact execGoFrame_keeps
  | endFrame => exact execEndFrame_keeps
  | keepaliveFrame => exact execKeepaliveFrame_keeps
  | clearFrame => exact execClearFrame_keeps
  | statusRead => exact execStatusRead_keeps
  | frameDiscard => exact execFrameDiscard_keeps
  | enable => exact commandRow_keeps
  | disable => exact commandRow_keeps
  | restart => exact commandRow_keeps
  | statusSnapshot => exact commandRow_keeps
  | requesterRoleSet => exact commandRow_keeps
  | serviceDefine => exact commandRow_keeps
  | serviceRemove => exact commandRow_keeps
  | componentSet => exact commandRow_keeps
  | serviceOptions => exact commandRow_keeps
  | forceNetwork => exact commandRow_keeps
  | releaseService => exact commandRow_keeps
  | sourceDefine => exact commandRow_keeps
  | sourceRemove => exact commandRow_keeps
  | sourceFlush => exact commandRow_keeps
  | availBind => exact commandRow_keeps
  | availUnbind => exact commandRow_keeps
  | breakInsert => exact commandRow_keeps
  | breakReturn => exact commandRow_keeps
  | breakCancel => exact commandRow_keeps
  | breakEndNow => exact commandRow_keeps
  | localLoad => exact commandRow_keeps
  | localCancel => exact commandRow_keeps
  | alertGroupSet => exact commandRow_keeps
  | alertStart => exact commandRow_keeps
  | alertEnd => exact commandRow_keeps
  | alertOverlayLoad => exact commandRow_keeps
  | linkSet => exact commandRow_keeps
  | errorPolicy => exact commandRow_keeps
  | errorClear => exact commandRow_keeps
  | resume => exact commandRow_keeps
  | reportRingSet => exact commandRow_keeps
  | unknownCommand => exact execUnknownCommand_keeps
  | linkByteReceived => exact execLinkByteReceived_keeps

end Sys2Proof.Machine
end

