-- ==== Sys2Proof/Laws/Owners.lean ====
section
/-! SUPPORT. Disarming, leaving and finding the owners of insertions, said once. -/

namespace Sys2Proof.Machine

/-- An owner disarmed twice is disarmed once (R92). -/
@[simp] theorem disarm_disarm (o : InsOwner) (s : State) : disarm o (disarm o s) = disarm o s := by
  simp [disarm, List.filter_filter]

@[simp] theorem disarm_service (o : InsOwner) (s : State) (i : ServiceIx) : (disarm o s).service i = s.service i := rfl

@[simp] theorem disarm_source (o : InsOwner) (s : State) (k : SourceIx) : (disarm o s).source k = s.source k := rfl

/-- Leaving disarms by itself: an entry disarmed before it leaves, leaves as if it had not been (R85). -/
theorem leaveBreak_disarm {i : ServiceIx} {ev : EventId} {e : BreakEntry} {s : State}
    (h : (s.service i).findEntry ev = some e) (how : BreakLeave) :
    leaveBreak i ev how (disarm (.brk i ev) s) = leaveBreak i ev how s := by
  simp only [leaveBreak, disarm_service, h, disarm_disarm]

/-- The same of a local slot (R120). -/
theorem leaveSlot_disarm {i : ServiceIx} {l : SlotLetter} {p : LocalProg} {s : State} (h : (s.service i).slot l = some p)
    (how : SlotLeave) : leaveSlot i l how (disarm (.loc i l) s) = leaveSlot i l how s := by
  simp only [leaveSlot, disarm_service, h, disarm_disarm]

/-- The entry found for an event ID has that event ID. -/
theorem findEntry_event {v : Service} {ev : EventId} {e : BreakEntry} (h : v.findEntry ev = some e) : e.event = ev := by
  simpa using List.find?_some h

/-- An entry changed by a function that keeps event IDs is found changed. -/
theorem find_mapEntry {ev : EventId} {f : BreakEntry → BreakEntry} (hf : ∀ y, (f y).event = y.event) {e : BreakEntry} :
    ∀ {l : List BreakEntry}, (l.find? fun y => y.event == ev) = some e →
      ((mapEntry ev f l).find? fun y => y.event == ev) = some (f e)
  | [], h => nomatch h
  | a :: r, h => by
    unfold mapEntry
    rw [List.map_cons, List.find?_cons]
    rw [List.find?_cons] at h
    cases k : a.event == ev with
    | true =>
      rw [k] at h
      cases h
      simp [hf, k]
    | false =>
      rw [k] at h
      simp only [k, Bool.false_eq_true, if_false]
      exact find_mapEntry hf h

/-- The same in a state. -/
theorem findEntry_modEntry {i : ServiceIx} {ev : EventId} {f : BreakEntry → BreakEntry} {e : BreakEntry} {s : State}
    (hf : ∀ y, (f y).event = y.event) (h : (s.service i).findEntry ev = some e) :
    ((s.modEntry i ev f).service i).findEntry ev = some (f e) := by
  have k : (s.modEntry i ev f).service i = { s.service i with schedule := mapEntry ev f (s.service i).schedule } := by
    simp only [State.modEntry, State.service, modService_services, vget_vset, if_true]
  rw [k]
  exact find_mapEntry hf h

end Sys2Proof.Machine
end

