-- ==== Sys2Proof/Laws/PerInstr.lean ====
section
/-! SUPPORT. What holds of every row, one lemma for each constructor. -/

namespace Sys2Proof.Laws.RowCode

open Sys2Proof Sys2Proof.Machine

/-- The row is UNKNOWN_COMMAND. -/
def isUnknown : Instr → Bool
  | .unknownCommand _ _ _ => true
  | _ => false

/-- A well-formed row that stands for a command carries a code of the table of section 10.4, but for UNKNOWN_COMMAND, which
carries none of them (R158). -/
def Statement (i : Instr) : Prop :=
  ∀ code c, commandOf i = some (code, c) → i.wellFormed = true → unknownCode code = isUnknown i

theorem powerOnReset (now : Stamp) (straps : BitVec 16) :
    Statement (.powerOnReset now straps) := fun _ _ h _ => by cases h

theorem writeTaken (now : Stamp) (w : PortWrite) :
    Statement (.writeTaken now w) := fun _ _ h _ => by cases h

theorem consumerIndexWrite (now : Stamp) (value : BitVec 32) :
    Statement (.consumerIndexWrite now value) := fun _ _ h _ => by cases h

theorem readTaken (now : Stamp) (r : PortRead) :
    Statement (.readTaken now r) := fun _ _ h _ => by cases h

theorem readIssue (now : Stamp) :
    Statement (.readIssue now) := fun _ _ h _ => by cases h

theorem plainReadAnswer (now : Stamp) (status : ReadStatus) (data : List Byte) :
    Statement (.plainReadAnswer now status data) := fun _ _ h _ => by cases h

theorem classification (now : Stamp) (data : SlotData) :
    Statement (.classification now data) := fun _ _ h _ => by cases h

theorem networkReadError (now : Stamp) :
    Statement (.networkReadError now) := fun _ _ h _ => by cases h

theorem sourceFetchAnswer (now : Stamp) (data : SlotData) :
    Statement (.sourceFetchAnswer now data) := fun _ _ h _ => by cases h

theorem sourceFetchError (now : Stamp) :
    Statement (.sourceFetchError now) := fun _ _ h _ => by cases h

theorem rewrite (now : Stamp) (entry : EntryIx) :
    Statement (.rewrite now entry) := fun _ _ h _ => by cases h

theorem completion (now : Stamp) (requester : RequesterId) :
    Statement (.completion now requester) := fun _ _ h _ => by cases h

theorem readDeadlineExpiry (now : Stamp) (entry : EntryIx) :
    Statement (.readDeadlineExpiry now entry) := fun _ _ h _ => by cases h

theorem orphanAnswer (now : Stamp) :
    Statement (.orphanAnswer now) := fun _ _ h _ => by cases h

theorem startCheckAnswer (now : Stamp) (status : ReadStatus) (data : SlotData) :
    Statement (.startCheckAnswer now status data) := fun _ _ h _ => by cases h

theorem overlayLoadAnswer (now : Stamp) (status : ReadStatus) (data : SlotData) :
    Statement (.overlayLoadAnswer now status data) := fun _ _ h _ => by cases h

theorem internalReadExpiry (now : Stamp) :
    Statement (.internalReadExpiry now) := fun _ _ h _ => by cases h

theorem snapshotWriteComplete (now : Stamp) :
    Statement (.snapshotWriteComplete now) := fun _ _ h _ => by cases h

theorem channelExpiry (now : Stamp) :
    Statement (.channelExpiry now) := fun _ _ h _ => by cases h

theorem staleStampDeparture (now : Stamp) (owner : InsOwner) :
    Statement (.staleStampDeparture now owner) := fun _ _ h _ => by cases h

theorem maximumDurationExpiry (now : Stamp) (slot : AlertIx) :
    Statement (.maximumDurationExpiry now slot) := fun _ _ h _ => by cases h

theorem recoveryTimerExpiry (now : Stamp) :
    Statement (.recoveryTimerExpiry now) := fun _ _ h _ => by cases h

theorem periodTimerExpiry (now : Stamp) :
    Statement (.periodTimerExpiry now) := fun _ _ h _ => by cases h

theorem armFrame (now : Stamp) :
    Statement (.armFrame now) := fun _ _ h _ => by cases h

theorem goFrame (now : Stamp) :
    Statement (.goFrame now) := fun _ _ h _ => by cases h

theorem endFrame (now : Stamp) :
    Statement (.endFrame now) := fun _ _ h _ => by cases h

theorem keepaliveFrame (now : Stamp) :
    Statement (.keepaliveFrame now) := fun _ _ h _ => by cases h

theorem clearFrame (now : Stamp) :
    Statement (.clearFrame now) := fun _ _ h _ => by cases h

theorem statusRead (now : Stamp) :
    Statement (.statusRead now) := fun _ _ h _ => by cases h

theorem frameDiscard (now : Stamp) :
    Statement (.frameDiscard now) := fun _ _ h _ => by cases h

theorem enable (now : Stamp) (c : CellCommand) :
    Statement (.enable now c) := fun _ _ h _ => by cases h; rfl

theorem disable (now : Stamp) (c : CellCommand) :
    Statement (.disable now c) := fun _ _ h _ => by cases h; rfl

theorem restart (now : Stamp) (c : CellCommand) :
    Statement (.restart now c) := fun _ _ h _ => by cases h; rfl

theorem statusSnapshot (now : Stamp) (c : CellCommand) :
    Statement (.statusSnapshot now c) := fun _ _ h _ => by cases h; rfl

theorem requesterRoleSet (now : Stamp) (c : CellCommand) :
    Statement (.requesterRoleSet now c) := fun _ _ h _ => by cases h; rfl

theorem serviceDefine (now : Stamp) (c : CellCommand) :
    Statement (.serviceDefine now c) := fun _ _ h _ => by cases h; rfl

theorem serviceRemove (now : Stamp) (c : CellCommand) :
    Statement (.serviceRemove now c) := fun _ _ h _ => by cases h; rfl

theorem componentSet (now : Stamp) (c : CellCommand) :
    Statement (.componentSet now c) := fun _ _ h _ => by cases h; rfl

theorem serviceOptions (now : Stamp) (c : CellCommand) :
    Statement (.serviceOptions now c) := fun _ _ h _ => by cases h; rfl

theorem forceNetwork (now : Stamp) (c : CellCommand) :
    Statement (.forceNetwork now c) := fun _ _ h _ => by cases h; rfl

theorem releaseService (now : Stamp) (c : CellCommand) :
    Statement (.releaseService now c) := fun _ _ h _ => by cases h; rfl

theorem sourceDefine (now : Stamp) (c : CellCommand) :
    Statement (.sourceDefine now c) := fun _ _ h _ => by cases h; rfl

theorem sourceRemove (now : Stamp) (c : CellCommand) :
    Statement (.sourceRemove now c) := fun _ _ h _ => by cases h; rfl

theorem sourceFlush (now : Stamp) (c : CellCommand) :
    Statement (.sourceFlush now c) := fun _ _ h _ => by cases h; rfl

theorem availBind (now : Stamp) (c : CellCommand) :
    Statement (.availBind now c) := fun _ _ h _ => by cases h; rfl

theorem availUnbind (now : Stamp) (c : CellCommand) :
    Statement (.availUnbind now c) := fun _ _ h _ => by cases h; rfl

theorem breakInsert (now : Stamp) (c : CellCommand) :
    Statement (.breakInsert now c) := fun _ _ h _ => by cases h; rfl

theorem breakReturn (now : Stamp) (c : CellCommand) :
    Statement (.breakReturn now c) := fun _ _ h _ => by cases h; rfl

theorem breakCancel (now : Stamp) (c : CellCommand) :
    Statement (.breakCancel now c) := fun _ _ h _ => by cases h; rfl

theorem breakEndNow (now : Stamp) (c : CellCommand) :
    Statement (.breakEndNow now c) := fun _ _ h _ => by cases h; rfl

theorem localLoad (now : Stamp) (c : CellCommand) :
    Statement (.localLoad now c) := fun _ _ h _ => by cases h; rfl

theorem localCancel (now : Stamp) (c : CellCommand) :
    Statement (.localCancel now c) := fun _ _ h _ => by cases h; rfl

theorem alertGroupSet (now : Stamp) (c : CellCommand) :
    Statement (.alertGroupSet now c) := fun _ _ h _ => by cases h; rfl

theorem alertStart (now : Stamp) (c : CellCommand) :
    Statement (.alertStart now c) := fun _ _ h _ => by cases h; rfl

theorem alertEnd (now : Stamp) (c : CellCommand) :
    Statement (.alertEnd now c) := fun _ _ h _ => by cases h; rfl

theorem alertOverlayLoad (now : Stamp) (c : CellCommand) :
    Statement (.alertOverlayLoad now c) := fun _ _ h _ => by cases h; rfl

theorem linkSet (now : Stamp) (c : CellCommand) :
    Statement (.linkSet now c) := fun _ _ h _ => by cases h; rfl

theorem errorPolicy (now : Stamp) (c : CellCommand) :
    Statement (.errorPolicy now c) := fun _ _ h _ => by cases h; rfl

theorem errorClear (now : Stamp) (c : CellCommand) :
    Statement (.errorClear now c) := fun _ _ h _ => by cases h; rfl

theorem resume (now : Stamp) (c : CellCommand) :
    Statement (.resume now c) := fun _ _ h _ => by cases h; rfl

theorem reportRingSet (now : Stamp) (c : CellCommand) :
    Statement (.reportRingSet now c) := fun _ _ h _ => by cases h; rfl

theorem unknownCommand (now : Stamp) (code : Byte) (c : CellCommand) :
    Statement (.unknownCommand now code c) := fun _ _ h w => by cases h; exact w

theorem linkByteReceived (now : Stamp) (start : Bool) (byte : Byte) :
    Statement (.linkByteReceived now start byte) := fun _ _ h _ => by cases h

end Sys2Proof.Laws.RowCode
end

