-- ==== Sys2Proof/Laws/Quiet.lean ====
section
/-! SUPPORT. The operations of the inner blocks that raise no error: they reach what they reach by inner updates, and while
REPORT-OVERFLOW has severity NOTICE they put off no action. -/

namespace Sys2Proof.Machine

/-- Reached by inner updates that put off no action. -/
structure Quiet (s t : State) : Prop where
  inner : Inner s t
  put : Calm s → t.deferred = s.deferred

theorem Inner.calm {s t : State} (h : Inner s t) (c : Calm s) : Calm t := by
  have e := congrArg (fun v => (vget v ErrorKind.reportOverflow.ix).2) h.policies
  simp only [vget_map] at e
  exact e.trans c

theorem Quiet.calm {s t : State} (h : Quiet s t) (c : Calm s) : Calm t := h.inner.calm c

@[refl] theorem Quiet.refl {s : State} : Quiet s s := ⟨.refl, fun _ => rfl⟩

theorem Quiet.trans {s t u : State} (h : Quiet s t) (k : Quiet t u) : Quiet s u :=
  ⟨h.inner.trans k.inner, fun c => (k.put (h.calm c)).trans (h.put c)⟩

theorem Quiet.offer {s t : State} (h : Quiet s t) (r : Report) : Quiet s (Machine.offer r t) :=
  ⟨h.inner.offer r, fun c => (offer_deferred r (h.calm c)).trans (h.put c)⟩

theorem Quiet.service {s t : State} (h : Quiet s t) (i : ServiceIx) (f : Service → Service)
    (k : (t.service i).schedule.length ≤ Config.scheduleMax →
      (f (t.service i)).schedule.length ≤ Config.scheduleMax) : Quiet s (t.modService i f) :=
  ⟨h.inner.service i f k, h.put⟩

theorem Quiet.record {s t : State} (h : Quiet s t) (i : ServiceIx) (f : Service → Service)
    (k : ∀ v, (f v).schedule = v.schedule) : Quiet s (t.modService i f) := ⟨h.inner.record i f k, h.put⟩

theorem Quiet.source {s t : State} (h : Quiet s t) (k : SourceIx) (f : Source → Source)
    (p : FillOk (t.source k) → FillOk (f (t.source k))) : Quiet s (t.modSource k f) := ⟨h.inner.source k f p, h.put⟩

theorem Quiet.alert {s t : State} (h : Quiet s t) (k : AlertIx) (a : Option Alert) : Quiet s (t.setAlert k a) :=
  ⟨h.inner.alert k a, h.put⟩

theorem Quiet.channels {s t : State} (h : Quiet s t) (b : List Channel)
    (p : t.bank.length ≤ Config.channelMax → b.length ≤ Config.channelMax) : Quiet s { t with bank := b } :=
  ⟨h.inner.channels b p, h.put⟩

theorem Quiet.count {s t : State} (h : Quiet s t) (n : BitVec 32) : Quiet s { t with activations := n } :=
  ⟨h.inner.count n, h.put⟩

theorem Quiet.part {s t : State} (h : Quiet s t) (f : ModeControl → ModeControl) : Quiet s (t.modMode f) :=
  ⟨h.inner.part f, h.put⟩

theorem attach_quiet {s0 t0 : State} {src : SourceIx} {o : InsOwner} (h : Quiet s0 t0) :
    Quiet s0 (attach src o t0).2 := by
  unfold attach
  split
  · exact h.source _ _ (attachTo_fillOk o)
  · exact h

theorem attach_quiet' {s0 t0 u0 : State} {src : SourceIx} {o : InsOwner} {a0 : AttachAnswer}
    (e : attach src o t0 = (a0, u0)) (h : Quiet s0 t0) : Quiet s0 u0 := by
  have k := attach_quiet h (src := src) (o := o)
  rwa [e] at k

theorem detach_quiet {s0 t0 : State} {src : SourceIx} {o : InsOwner} (h : Quiet s0 t0) :
    Quiet s0 (detach src o t0) := by
  unfold detach
  split
  · apply Quiet.offer
    apply h.source
    exact flushed_fillOk
  · exact h

theorem reserve_quiet {s0 t0 : State} {src : SourceIx} (h : Quiet s0 t0) : Quiet s0 (reserve src t0).2 := by
  unfold reserve
  split
  · exact h
  · rename_i c e
    split
    · dsimp only
      apply h.source
      exact id
    · split
      · dsimp only
        apply h.source
        exact id
      · rename_i p
        exact h.source _ _ fun k => taken_fillOk e (by simpa using p) k

theorem reserve_quiet' {s0 t0 u0 : State} {src : SourceIx} {a0 : Option Addr} (e : reserve src t0 = (a0, u0))
    (h : Quiet s0 t0) : Quiet s0 u0 := by
  have k := reserve_quiet h (src := src)
  rwa [e] at k

theorem disarm_quiet {s0 t0 : State} {o : InsOwner} (h : Quiet s0 t0) : Quiet s0 (disarm o t0) :=
  h.channels _ fun b => (List.length_filter_le _ _).trans b

theorem armChannel_quiet {s0 t0 : State} {moment : Stamp} {o : InsOwner} (p : armAnswer moment t0 = .armed)
    (h : Quiet s0 t0) : Quiet s0 (armChannel moment o t0) := by
  refine h.channels _ fun _ => ?_
  rw [insertChannel_length]
  unfold armAnswer at p
  split at p
  · cases p
  · split at p
    · assumption
    · cases p

theorem modEntry_quiet {s0 t0 : State} {i : ServiceIx} {ev : EventId} {f : BreakEntry → BreakEntry} (h : Quiet s0 t0) :
    Quiet s0 (t0.modEntry i ev f) :=
  h.service _ _ fun b => by simpa [mapEntry] using b

theorem endActive_quiet {s0 t0 : State} {i : ServiceIx} {e : BreakEntry} {how : BreakLeave} (h : Quiet s0 t0) :
    Quiet s0 (endActive i e how t0) := by
  unfold endActive
  split
  · exact (modEntry_quiet h).record _ _ fun _ => rfl
  · exact h

theorem detachEntry_quiet {s0 t0 : State} {i : ServiceIx} {e : BreakEntry} (h : Quiet s0 t0) :
    Quiet s0 (detachEntry i e t0) := by
  unfold detachEntry
  try dsimp only
  repeat' split
  all_goals repeat first
    | with_reducible exact h
    | with_reducible apply detach_quiet

theorem dropEntry_quiet {s0 t0 : State} {i : ServiceIx} {ev : EventId} (h : Quiet s0 t0) :
    Quiet s0 (dropEntry i ev t0) :=
  h.service _ _ fun b => (List.length_filter_le _ _).trans b

theorem leaveBreak_quiet {s0 t0 : State} {i : ServiceIx} {ev : EventId} {how : BreakLeave} (h : Quiet s0 t0) :
    Quiet s0 (leaveBreak i ev how t0) := by
  unfold leaveBreak
  split
  · exact h
  · exact dropEntry_quiet (detachEntry_quiet ((endActive_quiet (disarm_quiet h)).offer _))

theorem endActiveBreak_quiet {s0 t0 : State} {i : ServiceIx} {cause : Cause} {actualIn : Stamp} (h : Quiet s0 t0) :
    Quiet s0 (endActiveBreak i cause actualIn t0) := by
  unfold endActiveBreak
  try dsimp only
  repeat' split
  all_goals repeat first
    | with_reducible exact h
    | with_reducible apply leaveBreak_quiet

theorem resolveEntry_quiet {s0 t0 : State} {i : ServiceIx} {e : BreakEntry} (h : Quiet s0 t0) :
    Quiet s0 (resolveEntry i e t0).2 := by
  unfold resolveEntry
  try dsimp only
  repeat' split
  all_goals try dsimp only
  all_goals repeat first
    | with_reducible exact h
    | with_reducible apply attach_quiet
    | with_reducible refine attach_quiet' (by assumption) ?_
    | with_reducible apply modEntry_quiet

theorem resolveEntry_quiet' {s0 t0 u0 : State} {i : ServiceIx} {e : BreakEntry} {a0 : Resolution}
    (eq0 : resolveEntry i e t0 = (a0, u0)) (h : Quiet s0 t0) : Quiet s0 u0 := by
  have k := resolveEntry_quiet h (i := i) (e := e)
  rwa [eq0] at k

theorem checkEntry_quiet {s0 t0 : State} {i : ServiceIx} {e : BreakEntry} (h : Quiet s0 t0) :
    Quiet s0 (checkEntry i e t0) := by
  unfold checkEntry
  try dsimp only
  repeat' split
  all_goals repeat first
    | with_reducible exact h
    | with_reducible apply modEntry_quiet
    | with_reducible apply resolveEntry_quiet
    | with_reducible refine resolveEntry_quiet' (by assumption) ?_
    | with_reducible apply Quiet.offer

theorem checkBreak_quiet {s0 t0 : State} {i : ServiceIx} {ev : EventId} (h : Quiet s0 t0) :
    Quiet s0 (checkBreak i ev t0) := by
  unfold checkBreak
  try dsimp only
  repeat' split
  all_goals repeat first
    | with_reducible exact h
    | with_reducible apply checkEntry_quiet

theorem replaceOut_quiet {s0 t0 : State} {i : ServiceIx} {o : OutRequest} {e x : BreakEntry}
    (p : (t0.service i).findEntry o.event = some x) (h : Quiet s0 t0) : Quiet s0 (replaceOut i o e t0) := by
  refine h.service _ _ fun b => ?_
  show (placeEntry _ _).length ≤ _
  rw [placeEntry_length]
  exact (filter_event_length p).trans b

theorem offerUpdated_quiet {s0 t0 : State} {i : ServiceIx} {ev : EventId} (h : Quiet s0 t0) :
    Quiet s0 (offerUpdated i ev t0) := by
  unfold offerUpdated
  try dsimp only
  repeat' split
  all_goals repeat first
    | with_reducible exact h
    | with_reducible apply Quiet.offer

theorem takeIn_quiet {s0 t0 : State} {i : ServiceIx} {ev : EventId} {stamp : Stamp} (h : Quiet s0 t0) :
    Quiet s0 (takeIn i ev stamp t0).2 := by
  unfold takeIn
  try dsimp only
  repeat' split
  all_goals try dsimp only
  all_goals repeat first
    | with_reducible exact h
    | with_reducible apply modEntry_quiet

theorem takeIn_quiet' {s0 t0 u0 : State} {i : ServiceIx} {ev : EventId} {stamp : Stamp} {a0 : InOutcome}
    (eq0 : takeIn i ev stamp t0 = (a0, u0)) (h : Quiet s0 t0) : Quiet s0 u0 := by
  have k := takeIn_quiet h (i := i) (ev := ev) (stamp := stamp)
  rwa [eq0] at k

theorem takeCancel_quiet {s0 t0 : State} {i : ServiceIx} {ev : EventId} (h : Quiet s0 t0) :
    Quiet s0 (takeCancel i ev t0).2 := by
  unfold takeCancel
  try dsimp only
  repeat' split
  all_goals try dsimp only
  all_goals repeat first
    | with_reducible exact h
    | with_reducible apply leaveBreak_quiet

theorem takeCancel_quiet' {s0 t0 u0 : State} {i : ServiceIx} {ev : EventId} {a0 : CancelOutcome}
    (eq0 : takeCancel i ev t0 = (a0, u0)) (h : Quiet s0 t0) : Quiet s0 u0 := by
  have k := takeCancel_quiet h (i := i) (ev := ev)
  rwa [eq0] at k

/-- A fold of a function that keeps `Quiet` keeps it. -/
theorem foldl_quiet {α : Type} {s0 : State} {f : State → α → State} (k : ∀ t a, Quiet s0 t → Quiet s0 (f t a)) (l : List α)
    {t0 : State} (h : Quiet s0 t0) : Quiet s0 (l.foldl f t0) := by
  induction l generalizing t0 with
  | nil => exact h
  | cons a r ih => exact ih (k t0 a h)

/-- An event applied to every service keeps `Quiet` when it does so for one. -/
theorem forServices_quiet {s0 t0 : State} {f : ServiceIx → State → State} (k : ∀ t i, Quiet s0 t → Quiet s0 (f i t))
    (h : Quiet s0 t0) : Quiet s0 (forServices f t0) := foldl_quiet (fun t a => k t a) _ h

theorem clearSchedule_quiet {s0 t0 : State} {i : ServiceIx} {cause : Cause} (h : Quiet s0 t0) :
    Quiet s0 (clearSchedule i cause t0) := by
  refine foldl_quiet (fun t ev k => ?_) _ h
  split
  · split
    · exact leaveBreak_quiet k
    · exact leaveBreak_quiet k
  · exact k

theorem bypassReady_quiet {s0 t0 : State} {i : ServiceIx} {e : BreakEntry} (h : Quiet s0 t0) :
    Quiet s0 (bypassReady i e t0) := by
  unfold bypassReady
  try dsimp only
  all_goals repeat first
    | with_reducible exact h
    | with_reducible apply modEntry_quiet
    | with_reducible apply detachEntry_quiet
    | with_reducible apply Quiet.offer

theorem bypassSchedule_quiet {s0 t0 : State} {i : ServiceIx} (h : Quiet s0 t0) : Quiet s0 (bypassSchedule i t0) := by
  refine foldl_quiet (fun t ev k => ?_) _ h
  split
  · split
    · exact leaveBreak_quiet k
    · split
      · exact bypassReady_quiet k
      · exact k
  · exact k

theorem modSlot_quiet {s0 t0 : State} {i : ServiceIx} {l : SlotLetter} {f : LocalProg → LocalProg} (h : Quiet s0 t0) :
    Quiet s0 (t0.modSlot i l f) := h.record _ _ fun v => setSlot_schedule v l _

theorem endRunning_quiet {s0 t0 : State} {i : ServiceIx} {l : SlotLetter} {p : LocalProg} {how : SlotLeave}
    (h : Quiet s0 t0) : Quiet s0 (endRunning i l p how t0) := by
  unfold endRunning
  split
  · exact (modSlot_quiet h).record _ _ fun _ => rfl
  · exact h

theorem emptySlot_quiet {s0 t0 : State} {i : ServiceIx} {l : SlotLetter} (h : Quiet s0 t0) :
    Quiet s0 (emptySlot i l t0) := h.record _ _ fun v => setSlot_schedule v l _

theorem leaveSlot_quiet {s0 t0 : State} {i : ServiceIx} {l : SlotLetter} {how : SlotLeave} (h : Quiet s0 t0) :
    Quiet s0 (leaveSlot i l how t0) := by
  unfold leaveSlot
  try dsimp only
  repeat' split
  all_goals repeat first
    | with_reducible exact h
    | with_reducible apply detach_quiet
    | with_reducible apply disarm_quiet
    | with_reducible apply endRunning_quiet
    | with_reducible apply emptySlot_quiet
    | with_reducible apply Quiet.offer

theorem endRunningSlot_quiet {s0 t0 : State} {i : ServiceIx} {cause : Cause} {actualEnd : Stamp} (h : Quiet s0 t0) :
    Quiet s0 (endRunningSlot i cause actualEnd t0) := by
  unfold endRunningSlot
  try dsimp only
  repeat' split
  all_goals repeat first
    | with_reducible exact h
    | with_reducible apply leaveSlot_quiet

theorem checkLoaded_quiet {s0 t0 : State} {i : ServiceIx} {l : SlotLetter} {p : LocalProg} (h : Quiet s0 t0) :
    Quiet s0 (checkLoaded i l p t0) := by
  unfold checkLoaded
  try dsimp only
  repeat' split
  all_goals repeat first
    | with_reducible exact h
    | with_reducible apply attach_quiet
    | with_reducible refine attach_quiet' (by assumption) ?_
    | with_reducible apply modSlot_quiet
    | with_reducible apply Quiet.offer

theorem checkSlot_quiet {s0 t0 : State} {i : ServiceIx} {l : SlotLetter} (h : Quiet s0 t0) :
    Quiet s0 (checkSlot i l t0) := by
  unfold checkSlot
  try dsimp only
  repeat' split
  all_goals repeat first
    | with_reducible exact h
    | with_reducible apply checkLoaded_quiet

theorem checkOwner_quiet {s0 t0 : State} {o : InsOwner} (h : Quiet s0 t0) :
    Quiet s0 (checkOwner o t0) := by
  unfold checkOwner
  try dsimp only
  repeat' split
  all_goals repeat first
    | with_reducible exact h
    | with_reducible apply checkBreak_quiet
    | with_reducible apply checkSlot_quiet

theorem localEndAt_quiet {s0 t0 : State} {i : ServiceIx} {t : Stamp} (h : Quiet s0 t0) :
    Quiet s0 (localEndAt i t t0).2 := by
  unfold localEndAt
  try dsimp only
  repeat' split
  all_goals try dsimp only
  all_goals repeat first
    | with_reducible exact h
    | with_reducible apply leaveSlot_quiet

theorem resolveSlot_quiet {s0 t0 : State} {i : ServiceIx} {l : SlotLetter} {p : LocalProg} (h : Quiet s0 t0) :
    Quiet s0 (resolveSlot i l p t0).2 := by
  unfold resolveSlot
  try dsimp only
  repeat' split
  all_goals try dsimp only
  all_goals repeat first
    | with_reducible exact h
    | with_reducible apply attach_quiet
    | with_reducible refine attach_quiet' (by assumption) ?_
    | with_reducible apply disarm_quiet

theorem resolveSlot_quiet' {s0 t0 u0 : State} {i : ServiceIx} {l : SlotLetter} {p : LocalProg} {a0 : Option Cause}
    (eq0 : resolveSlot i l p t0 = (a0, u0)) (h : Quiet s0 t0) : Quiet s0 u0 := by
  have k := resolveSlot_quiet h (i := i) (l := l) (p := p)
  rwa [eq0] at k

theorem startSlot_quiet {s0 t0 : State} {i : ServiceIx} {l : SlotLetter} {p : LocalProg} {t : Stamp} (h : Quiet s0 t0) :
    Quiet s0 (startSlot i l p t t0) := by
  unfold startSlot
  try dsimp only
  all_goals repeat first
    | with_reducible exact h
    | with_reducible apply disarm_quiet
    | with_reducible apply endActiveBreak_quiet
    | with_reducible apply modSlot_quiet
    | ((with_reducible apply Quiet.record); rotate_left; (intro _; rfl))
    | with_reducible apply Quiet.offer

theorem examineSlot_quiet {s0 t0 : State} {i : ServiceIx} {t : Stamp} (h : Quiet s0 t0) :
    Quiet s0 (examineSlot i t t0).2 := by
  unfold examineSlot
  try dsimp only
  repeat' split
  all_goals try dsimp only
  all_goals repeat first
    | with_reducible exact h
    | with_reducible apply leaveSlot_quiet
    | with_reducible apply resolveSlot_quiet
    | with_reducible refine resolveSlot_quiet' (by assumption) ?_
    | with_reducible apply startSlot_quiet

theorem examineSlot_quiet' {s0 t0 u0 : State} {i : ServiceIx} {t : Stamp} {a0 : SlotExam}
    (eq0 : examineSlot i t t0 = (a0, u0)) (h : Quiet s0 t0) : Quiet s0 u0 := by
  have k := examineSlot_quiet h (i := i) (t := t)
  rwa [eq0] at k

theorem localStartAt_quiet {s0 t0 : State} {i : ServiceIx} {t : Stamp} (h : Quiet s0 t0) :
    Quiet s0 (localStartAt i t t0).2 := by
  unfold localStartAt
  try dsimp only
  repeat' split
  all_goals try dsimp only
  all_goals repeat first
    | with_reducible exact h
    | with_reducible apply examineSlot_quiet
    | with_reducible refine examineSlot_quiet' (by assumption) ?_

theorem localSteps_quiet {s0 t0 : State} {i : ServiceIx} {t : Stamp} (h : Quiet s0 t0) :
    Quiet s0 (localSteps i t t0).2 := localStartAt_quiet (localEndAt_quiet h)

theorem clearSlots_quiet {s0 t0 : State} {i : ServiceIx} {cause : Cause} (h : Quiet s0 t0) :
    Quiet s0 (clearSlots i cause t0) := foldl_quiet (fun _ _ k => leaveSlot_quiet k) _ h

theorem bypassReadySlot_quiet {s0 t0 : State} {i : ServiceIx} {l : SlotLetter} {p : LocalProg} (h : Quiet s0 t0) :
    Quiet s0 (bypassReadySlot i l p t0) := by
  unfold bypassReadySlot
  try dsimp only
  all_goals repeat first
    | with_reducible exact h
    | with_reducible apply detach_quiet
    | with_reducible apply modSlot_quiet
    | with_reducible apply Quiet.offer

theorem bypassSlots_quiet {s0 t0 : State} {i : ServiceIx} (h : Quiet s0 t0) : Quiet s0 (bypassSlots i t0) := by
  refine foldl_quiet (fun t ev k => ?_) _ h
  split
  · split
    · exact leaveSlot_quiet k
    · split
      · exact bypassReadySlot_quiet k
      · exact k
  · exact k

theorem recompute_quiet {s0 t0 : State} {i : ServiceIx} (h : Quiet s0 t0) :
    Quiet s0 (recompute i t0) := by
  unfold recompute
  try dsimp only
  repeat' split
  all_goals repeat first
    | with_reducible exact h
    | ((with_reducible apply Quiet.record); rotate_left; (intro _; rfl))

theorem recomputeAll_quiet {s0 t0 : State} (h : Quiet s0 t0) : Quiet s0 (recomputeAll t0) := by
  refine forServices_quiet (fun t i k => ?_) h
  split
  · exact recompute_quiet k
  · exact k

theorem preempt_quiet {s0 t0 before : State} (h : Quiet s0 t0) : Quiet s0 (preempt before t0) := by
  refine forServices_quiet (fun t i k => ?_) h
  split
  · exact endActiveBreak_quiet k
  · exact k

theorem recomputeOne_quiet {s0 t0 : State} {i : ServiceIx} (h : Quiet s0 t0) :
    Quiet s0 (recomputeOne i t0) := by
  unfold recomputeOne
  try dsimp only
  all_goals repeat first
    | with_reducible exact h
    | with_reducible apply recompute_quiet
    | with_reducible apply preempt_quiet

theorem changeUsers_quiet {s0 t0 : State} {f : Nat → Nat} {g : AlertGroup} (h : Quiet s0 t0) :
    Quiet s0 (changeUsers f g t0) := foldl_quiet (fun _ _ k => k.source _ _ fun p => p) _ h

theorem activate_quiet {s0 t0 : State} {k : AlertIx} {g : GroupIx} {level : Nat} {origin : AlertOrigin}
    (h : Quiet s0 t0) : Quiet s0 (activate k g level origin t0) := by
  unfold activate
  exact preempt_quiet ((recomputeAll_quiet (changeUsers_quiet ((h.alert _ _).count _))).offer _)

theorem raiseAlert_quiet {s0 t0 : State} {k : AlertIx} {a : Alert} {level : Nat} (h : Quiet s0 t0) :
    Quiet s0 (raiseAlert k a level t0) := by
  unfold raiseAlert
  exact preempt_quiet ((recomputeAll_quiet (h.alert _ _)).offer _)

theorem activateGroup_quiet {s0 t0 : State} {g : GroupIx} {level : Nat} {origin : AlertOrigin} (h : Quiet s0 t0) :
    Quiet s0 (activateGroup g level origin t0).2 := by
  unfold activateGroup
  try dsimp only
  repeat' split
  all_goals try dsimp only
  all_goals repeat first
    | with_reducible exact h
    | with_reducible apply activate_quiet

theorem activateOrRaise_quiet {s0 t0 : State} {g : GroupIx} {level : Nat} {origin : AlertOrigin} (h : Quiet s0 t0) :
    Quiet s0 (activateOrRaise g level origin t0).2 := by
  unfold activateOrRaise
  try dsimp only
  repeat' split
  all_goals try dsimp only
  all_goals repeat first
    | with_reducible exact h
    | with_reducible apply raiseAlert_quiet
    | with_reducible apply activateGroup_quiet

theorem requestActivation_quiet {s0 t0 : State} {r : ActivationRequest} (h : Quiet s0 t0) :
    Quiet s0 (requestActivation r t0).2 := by
  unfold requestActivation
  try dsimp only
  repeat' split
  all_goals try dsimp only
  all_goals repeat first
    | with_reducible exact h
    | with_reducible apply activateOrRaise_quiet

theorem endAlert_quiet {s0 t0 : State} {k : AlertIx} {cause : Cause} (h : Quiet s0 t0) :
    Quiet s0 (endAlert k cause t0) := by
  unfold endAlert
  split
  · exact h
  · exact preempt_quiet (recomputeAll_quiet ((changeUsers_quiet (h.offer _)).alert _ _))

theorem endAllAlerts_quiet {s0 t0 : State} {cause : Cause} (h : Quiet s0 t0) : Quiet s0 (endAllAlerts cause t0) :=
  forServices_quiet (fun _ _ k => k.record _ _ fun _ => rfl) (foldl_quiet (fun _ _ k => endAlert_quiet k) _ h)

theorem holdEnds_quiet {s0 t0 : State} {i : ServiceIx} (h : Quiet s0 t0) : Quiet s0 (holdEnds i t0) := by
  unfold holdEnds
  apply Quiet.record
  · exact endRunningSlot_quiet (endActiveBreak_quiet h)
  · exact fun _ => rfl

theorem setHeld_quiet {s0 t0 : State} {i : ServiceIx} {cause : HeldCause} (h : Quiet s0 t0) :
    Quiet s0 (setHeld i cause t0) := by
  unfold setHeld
  dsimp only
  split
  · apply h.record
    exact fun _ => rfl
  · apply holdEnds_quiet
    apply Quiet.offer
    apply h.record
    exact fun _ => rfl

theorem resetComponents_quiet {s0 t0 : State} (h : Quiet s0 t0) : Quiet s0 (resetComponents t0) :=
  forServices_quiet (fun _ _ k => k.record _ _ fun _ => rfl) h

theorem startRecovery_quiet {s0 t0 : State} (h : Quiet s0 t0) : Quiet s0 (startRecovery t0) := h.part _

theorem bypassMode_quiet {s0 t0 : State} {kind : ErrorKind} (h : Quiet s0 t0) : Quiet s0 (bypassMode kind t0) :=
  (h.part _).offer _

theorem bypassServices_quiet {s0 t0 : State} (h : Quiet s0 t0) : Quiet s0 (bypassServices t0) := by
  refine forServices_quiet (fun t i k => ?_) h
  split
  · exact bypassSlots_quiet (bypassSchedule_quiet k)
  · exact k

theorem enterBypass_quiet {s0 t0 : State} {kind : ErrorKind} (h : Quiet s0 t0) : Quiet s0 (enterBypass kind t0) := by
  unfold enterBypass
  have k := resetComponents_quiet (endAllAlerts_quiet (cause := .bypass) (bypassServices_quiet (bypassMode_quiet (kind := kind) h)))
  dsimp only
  split
  · exact k
  · exact startRecovery_quiet k

theorem fatalAction_quiet {s0 t0 : State} {kind : ErrorKind} (h : Quiet s0 t0) :
    Quiet s0 (fatalAction kind t0) := by
  unfold fatalAction
  try dsimp only
  repeat' split
  all_goals repeat first
    | with_reducible exact h
    | with_reducible apply startRecovery_quiet
    | with_reducible apply enterBypass_quiet

theorem leaveBypass_quiet {s0 t0 : State} {cause : Cause} (h : Quiet s0 t0) : Quiet s0 (leaveBypass cause t0) := by
  unfold leaveBypass
  apply Quiet.part
  apply Quiet.offer
  exact h.part _

theorem runAction_quiet {s0 t0 : State} {d : Deferred} (h : Quiet s0 t0) :
    Quiet s0 (runAction d t0) := by
  unfold runAction
  try dsimp only
  repeat' split
  all_goals repeat first
    | with_reducible exact h
    | with_reducible apply setHeld_quiet
    | with_reducible apply fatalAction_quiet

theorem breakReturnAt_quiet {s0 t0 : State} {i : ServiceIx} {t : Stamp} (h : Quiet s0 t0) :
    Quiet s0 (breakReturnAt i t t0).2 := by
  unfold breakReturnAt
  try dsimp only
  repeat' split
  all_goals try dsimp only
  all_goals repeat first
    | with_reducible exact h
    | with_reducible apply leaveBreak_quiet

theorem supersede_quiet {s0 t0 : State} {i : ServiceIx} {t : Stamp} {evs : List EventId} (h : Quiet s0 t0) :
    Quiet s0 (supersede i t evs t0) := foldl_quiet (fun _ _ k => leaveBreak_quiet k) _ h

theorem settleSource_quiet {s0 t0 : State} {i : ServiceIx} {e : BreakEntry} (h : Quiet s0 t0) :
    Quiet s0 (settleSource i e t0).2 := by
  unfold settleSource
  try dsimp only
  repeat' split
  all_goals try dsimp only
  all_goals repeat first
    | with_reducible exact h
    | with_reducible apply disarm_quiet
    | with_reducible apply resolveEntry_quiet

theorem settleSource_quiet' {s0 t0 u0 : State} {i : ServiceIx} {e : BreakEntry} {a0 : Option Cause}
    (eq0 : settleSource i e t0 = (a0, u0)) (h : Quiet s0 t0) : Quiet s0 u0 := by
  have k := settleSource_quiet h (i := i) (e := e)
  rwa [eq0] at k

theorem offerStarted_quiet {s0 t0 : State} {i : ServiceIx} {ev : EventId} (h : Quiet s0 t0) :
    Quiet s0 (offerStarted i ev t0) := by
  unfold offerStarted
  try dsimp only
  repeat' split
  all_goals repeat first
    | with_reducible exact h
    | with_reducible apply Quiet.offer

theorem startBreak_quiet {s0 t0 : State} {i : ServiceIx} {ev : EventId} {t : Stamp} (h : Quiet s0 t0) :
    Quiet s0 (startBreak i ev t t0) := by
  unfold startBreak
  try dsimp only
  all_goals repeat first
    | with_reducible exact h
    | with_reducible apply disarm_quiet
    | with_reducible apply modEntry_quiet
    | with_reducible apply endActiveBreak_quiet
    | with_reducible apply offerStarted_quiet
    | ((with_reducible apply Quiet.record); rotate_left; (intro _; rfl))

theorem examineCandidate_quiet {s0 t0 : State} {i : ServiceIx} {e : BreakEntry} {t : Stamp} (h : Quiet s0 t0) :
    Quiet s0 (examineCandidate i e t t0).2 := by
  unfold examineCandidate
  try dsimp only
  repeat' split
  all_goals try dsimp only
  all_goals repeat first
    | with_reducible exact h
    | with_reducible apply leaveBreak_quiet
    | with_reducible apply settleSource_quiet
    | with_reducible refine settleSource_quiet' (by assumption) ?_
    | with_reducible apply startBreak_quiet

theorem breakStartAt_quiet {s0 t0 : State} {i : ServiceIx} {t : Stamp} (h : Quiet s0 t0) :
    Quiet s0 (breakStartAt i t t0).2 := by
  unfold breakStartAt
  try dsimp only
  repeat' split
  all_goals try dsimp only
  all_goals repeat first
    | with_reducible exact h
    | with_reducible apply supersede_quiet
    | with_reducible apply examineCandidate_quiet

theorem consult_quiet {s0 t0 : State} {i : ServiceIx} {t : Stamp} (h : Quiet s0 t0) : Quiet s0 (consult i t t0).2 :=
  breakStartAt_quiet (breakReturnAt_quiet (localSteps_quiet h))

theorem drawAlert_quiet {s0 t0 : State} {r : ReadInfo} {n : Nat} {c : Component} (h : Quiet s0 t0) :
    Quiet s0 (drawAlert r n c t0).2 := by
  unfold drawAlert
  split
  · dsimp only
    apply h.record
    exact fun _ => rfl
  · exact h

theorem decideNull_quiet {s0 t0 : State} {r : ReadInfo} (h : Quiet s0 t0) :
    Quiet s0 (decideNull r t0).2 := by
  unfold decideNull
  try dsimp only
  repeat' split
  all_goals try dsimp only
  all_goals repeat first
    | with_reducible exact h
    | ((with_reducible apply Quiet.record); rotate_left; (intro _; rfl))

theorem update_quiet {s0 t0 : State} {j : Job} {f : Service → Service} (h : Quiet s0 t0)
    (k : ∀ v, (f v).schedule = v.schedule) : Quiet s0 (j.update f t0) := by
  unfold Job.update
  split
  · exact h.record _ _ k
  · exact h

theorem relabel_quiet {s0 t0 : State} {j : Job} {target : Option Nat} (h : Quiet s0 t0) :
    Quiet s0 (relabel j target t0) := by
  unfold relabel
  try dsimp only
  repeat' split
  all_goals repeat first
    | with_reducible exact h
    | ((with_reducible apply update_quiet); rotate_left; (intro _; rfl))

theorem emitNull_quiet {s0 t0 : State} {j : Job} (h : Quiet s0 t0) :
    Quiet s0 (emitNull j t0).2 := by
  unfold emitNull
  try dsimp only
  all_goals repeat first
    | with_reducible exact h
    | with_reducible apply relabel_quiet
    | ((with_reducible apply update_quiet); rotate_left; (intro _; rfl))

theorem passManaged_quiet {s0 t0 : State} {j : Job} {n : Nat} {c : Component} {packet : List Byte} (h : Quiet s0 t0) :
    Quiet s0 (passManaged j n c packet t0).2 := by
  unfold passManaged
  try dsimp only
  all_goals repeat first
    | with_reducible exact h
    | with_reducible apply relabel_quiet
    | ((with_reducible apply Quiet.record); rotate_left; (intro _; rfl))

theorem rewritePass_quiet {s0 t0 : State} {j : Job} {network : List Byte} (h : Quiet s0 t0) :
    Quiet s0 (rewritePass j network t0).2 := by
  unfold rewritePass
  try dsimp only
  repeat' split
  all_goals try dsimp only
  all_goals repeat first
    | with_reducible exact h
    | with_reducible apply relabel_quiet
    | with_reducible apply passManaged_quiet

theorem rewriteOverlay_quiet {s0 t0 : State} {j : Job} {packet : List Byte} (h : Quiet s0 t0) :
    Quiet s0 (rewriteOverlay j packet t0).2 := by
  unfold rewriteOverlay
  try dsimp only
  repeat' split
  all_goals try dsimp only
  all_goals repeat first
    | with_reducible exact h
    | with_reducible apply relabel_quiet
    | ((with_reducible apply Quiet.record); rotate_left; (intro _; rfl))

end Sys2Proof.Machine
end

