-- ==== Sys2Proof/Laws/Rows.lean ====
section
/-! SUPPORT. What a row of the table comes to, said once for all the command rows. -/

namespace Sys2Proof.Machine

/-- A command row is the Command Unit taking its command (log 4). -/
theorem exec_commandOf {s : State} {i : Instr} {code : Byte} {c : CellCommand} (h : commandOf i = some (code, c))
    (w : i.wellFormed = true) : exec i s = .next (takeCommand code i.now c s) := by
  cases i <;> first | (cases h; done) | (cases h; rfl) | skip
  cases h
  show execUnknownCommand _ _ _ _ = _
  unfold execUnknownCommand
  rw [if_pos (show unknownCode code = true from w)]
  rfl

end Sys2Proof.Machine
end

