-- ==== Sys2Proof/Laws/Windows.lean ====
section
/-! SUPPORT. The Window Decoder, said once: the part of a transaction in a region, and a part acted on by itself. -/

namespace Sys2Proof.Machine

/-- The part of a transaction in a region, the three ways it can lie there (R22, R26). -/
theorem regionPart_eq_some {base size : Nat} {a : Addr} {n : Nat} {p : Part} (hb : base < 2 ^ 36) :
    regionPart base size a n = some p ↔ LiesIn base size a n p := by
  have ha := a.isLt
  unfold regionPart LiesIn
  dsimp only
  by_cases h1 : base ≤ a.toNat ∧ a.toNat < base + size
  · simp only [h1.1, h1.2, decide_true, Bool.and_self, if_true, Option.some.injEq, true_and]
    constructor
    · intro h; left; exact h.symm
    · rintro (h | ⟨_, h, _⟩ | ⟨_, h, _⟩)
      · exact h.symm
      · omega
      · omega
  · have : (decide (base ≤ a.toNat) && decide (a.toNat < base + size)) = false := by
      simpa using fun h => by have := h1; omega
    rw [this]
    simp only [Bool.false_eq_true, if_false]
    constructor
    · intro h
      right
      split at h
      · rename_i k
        simp only [Bool.and_eq_true, decide_eq_true_eq] at k
        cases h
        by_cases h2 : a.toNat < base
        · left
          have : (base + 2 ^ 36 - a.toNat) % 2 ^ 36 = base - a.toNat := by omega
          rw [this] at k ⊢
          exact ⟨k.2, h2, k.1, rfl⟩
        · right
          have : (base + 2 ^ 36 - a.toNat) % 2 ^ 36 = base + 2 ^ 36 - a.toNat := by omega
          rw [this] at k ⊢
          exact ⟨k.2, by omega, k.1, rfl⟩
      · cases h
    · rintro (⟨h, k, _⟩ | ⟨h, k, l, rfl⟩ | ⟨h, k, l, rfl⟩)
      · exact absurd ⟨h, k⟩ h1
      · have : (base + 2 ^ 36 - a.toNat) % 2 ^ 36 = base - a.toNat := by omega
        rw [this, if_pos (by simpa using ⟨l, h⟩)]
      · have : (base + 2 ^ 36 - a.toNat) % 2 ^ 36 = base + 2 ^ 36 - a.toNat := by omega
        rw [this, if_pos (by simpa using ⟨l, h⟩)]

/-- The bytes of a part, and that part as a write of its own, are the same (R26). -/
theorem part_of_alone (p : Part) (bytes : List LaneByte) :
    Part.of { p with off := 0 } ((bytes.drop p.off).take p.len) = p.of bytes := by
  simp [Part.of]

/-- The same of the byte at an offset of the control region. -/
theorem laneAt_alone (base : Nat) (p : Part) (bytes : List LaneByte) (o : Nat) :
    laneAt base { p with off := 0 } ((bytes.drop p.off).take p.len) o = laneAt base p bytes o := by
  unfold laneAt
  dsimp only
  split
  · rw [List.getElem?_take, if_pos (by omega), List.getElem?_drop, Nat.zero_add]
  · rfl

/-- The same of a field of the control region. -/
theorem wholeField_alone (base : Nat) (p : Part) (bytes : List LaneByte) (o n : Nat) :
    wholeField base { p with off := 0 } ((bytes.drop p.off).take p.len) o n = wholeField base p bytes o n := by
  simp only [wholeField, laneAt_alone]

/-- The same of the shadow a cell captures. -/
theorem capturedShadow_alone (base : Nat) (p : Part) (bytes : List LaneByte) (c : CellIx) (x : Params) :
    capturedShadow base { p with off := 0 } ((bytes.drop p.off).take p.len) c x = capturedShadow base p bytes c x := by
  simp only [capturedShadow, laneAt_alone]

end Sys2Proof.Machine
end

