-- ==== Sys2Proof/Tests/Slice0.lean ====
section
/-! SUPPORT. The model's own tests: ill-formed terms refused, small runs of rows, and for every statement of
Certificates/Slice0 a state and operands that meet its hypotheses, clause by clause. -/

namespace Sys2Proof.Tests

open Sys2Proof Sys2Proof.Machine

/-! ### Builders -/

def params (l : List Byte) : Params := Vector.ofFn fun k => l.getD k.val 0

/-- A command from requester 0 through the last cell. -/
def cmd (l : List Byte) : CellCommand where
  requester := 0
  cell := 15
  tag := 9
  params := params l

def slotData (l : List Byte) : SlotData := Vector.ofFn fun k => l.getD k.val 0

/-- A slot: packet bytes 0 to 3, a payload of zeros, and a stamp of 90 000. -/
def slotOf (b1 b2 b3 : Byte) : List Byte := [0x47, b1, b2, b3] ++ zeros 184 ++ beBytes 4 90000

def video : Component := Component.fresh 0x100 .video true true
def audio : Component := Component.fresh 0x101 .audio false false
def netWin : Window := { base := 0x10000, slots := 16 }
def ringWin : Window := { base := 0x20000, slots := 8 }
def loopWin : Window := { base := 0x30000, slots := 4 }
def svc : Service := { Service.unused with window := some netWin, cuePid := some 0x200, comps := [video, audio] }
def ring : Source := { Source.free with config := some { mode := .stream, window := ringWin }, minFill := 1 }
def loop : Source := { Source.free with config := some { mode := .loop, window := loopWin } }
def binding : Binding := { source := 0, replaceSet := 1, remap := [{ pid := 0x50, comp := 0 }] }

def group : AlertGroup :=
  { AlertGroup.undefined with defined := true, mask := 1, audio := some 1, overlayPid := some 0x300, maxDuration := 60 }

/-- An ACTIVE part with the control region at the top of memory, service 0, source 0 a STREAM and source 1 a LOOP ring,
group 0, and requesters 1 to 3 INGEST, PLAYER and OUTPUT. -/
def on : State :=
  { State.reset with
    straps := 0xFFFF
    now := 90000
    modeControl := { ModeControl.initial with mode := .active }
    roles := vset (vset (vset initialRoles 1 .ingest) 2 .player) 3 .output
    services := vset State.reset.services 0 svc
    sources := vset (vset State.reset.sources 0 ring) 1 loop
    groups := vset State.reset.groups 0 group }

def inMode (m : Mode) (s : State) : State := { s with modeControl := { s.modeControl with mode := m } }
def withService (f : Service → Service) (s : State) : State := s.modService 0 f
def withSource (f : Source → Source) (s : State) : State := s.modSource 0 f
def withLink (f : Link → Link) (s : State) : State := { s with link := f s.link }

def entry : BreakEntry where
  event := 7
  intake := 0
  avail := 0
  splice := 90000
  duration := none
  ret := none
  state := .scheduled
  binding := none
  actualOut := none
  actualIn := none
  pcrOffset := none
  underruns := 0

def readyEntry : BreakEntry := { entry with state := .ready, binding := some binding }
def activeEntry : BreakEntry := { readyEntry with state := .active, actualOut := some 80000 }

def prog : LocalProg where
  state := .loaded
  source := 0
  start := 90000
  stop := 180000
  remap := [{ pid := 0x50, comp := 0 }]
  actualStart := none
  actualEnd := none
  pcrOffset := none
  underruns := 0

def runningProg : LocalProg := { prog with state := .running, actualStart := some 85000 }

def slotRead : RttEntry := RttEntry.taken .output (.slot 0) { requester := 3, addr := 0x10000, beats := 12 }
def plainRead : RttEntry := RttEntry.taken .other .plain { requester := 5, addr := 0x40000, beats := 1 }

/-- The state with an entry in place 0, first in its requester's completion order, and its read on the list. -/
def reading (e : RttEntry) (o : ReadOwner) (s : State) : State :=
  { s with
    rtt := vset s.rtt 0 (some e)
    completionOrder := vset s.completionOrder e.requester [0]
    outstanding := [{ read := { owner := o, addr := e.addr, beats := e.beats }, deadline := some 90000 }] }

def alert : Alert where
  group := 0
  level := 1
  origin := .control
  number := 0
  start := 90000
  deadline := 5490000

/-- The queue entry of a command in progress. -/
def queued : QueueEntry := entryOf 0x18 (cmd [])

def nextState (o : Host.Outcome State Fault Refusal) : Option State :=
  match o with
  | .next t => some t
  | .fault _ | .refused _ => none

/-- What a row's next state shows; none when there is no next state. -/
def shows {α : Type} (o : Host.Outcome State Fault Refusal) (f : State → α) : Option α := (nextState o).map f

/-! ### Ill-formed terms are refused -/

def enabled (n : Nat) : List LaneByte := List.replicate n { data := 0, enable := true }

/-! A kernel check that waits for the ones before it holds a thread, and too many waiting at once end the run. A type
declaration waits for every check above it, so an empty type stands before each ten tests. -/

inductive TestsBelow1

theorem test_write_of_no_beat_refused : (Instr.writeTaken 0 { requester := 0, addr := 0, bytes := [] }).wellFormed = false := by
  decide +kernel
theorem test_write_of_part_of_a_beat_refused :
    (Instr.writeTaken 0 { requester := 0, addr := 0, bytes := enabled 17 }).wellFormed = false := by decide +kernel
theorem test_write_of_17_beats_refused :
    (Instr.writeTaken 0 { requester := 0, addr := 0, bytes := enabled 272 }).wellFormed = false := by decide +kernel
theorem test_write_of_16_beats_accepted :
    (Instr.writeTaken 0 { requester := 0, addr := 0, bytes := enabled 256 }).wellFormed = true := by decide +kernel
theorem test_read_of_no_beat_refused :
    (Instr.readTaken 0 { requester := 0, addr := 0, beats := 0 }).wellFormed = false := by decide
theorem test_read_of_17_beats_refused :
    (Instr.readTaken 0 { requester := 0, addr := 0, beats := 17 }).wellFormed = false := by decide
theorem test_answer_of_part_of_a_beat_refused :
    (Instr.plainReadAnswer 0 .ok (zeros 15)).wellFormed = false := by decide
theorem test_answer_of_no_beat_refused : (Instr.plainReadAnswer 0 .ok []).wellFormed = false := by decide
theorem test_answer_of_17_beats_refused : (Instr.plainReadAnswer 0 .ok (zeros 272)).wellFormed = false := by
  decide +kernel
theorem test_known_code_refused : (Instr.unknownCommand 0 0x43 (cmd [])).wellFormed = false := by decide +kernel

inductive TestsBelow2

theorem test_unknown_code_accepted : (Instr.unknownCommand 0 0x16 (cmd [])).wellFormed = true := by decide +kernel
theorem test_ill_formed_read_faults :
    exec (.readTaken 0 { requester := 0, addr := 0, beats := 0 }) State.reset = .fault .illFormed := rfl

/-! ### Small runs -/

theorem test_table_gives_no_word : decodeTableWord 8 0 = none := rfl

theorem test_enable_activates :
    shows (exec (.enable 5 (cmd [0, 10])) State.reset) (fun t => (t.mode, t.intake.length)) = some (.active, 0) := by
  decide +kernel

theorem test_enable_write_back :
    shows (exec (.enable 5 (cmd [0, 10])) State.reset) (·.emitted.getLast?) =
      some (some (.memWrite true 0x7C0 (enabledBytes ([1, 9, 2, 0, 0, 0, 0, 1] ++ zeros 8)))) := by decide +kernel

theorem test_command_outside_passive_refused :
    shows (exec (.enable 5 (cmd [0, 10])) (inMode .bypass on)) (fun t => (t.mode, t.emitted.getLast?)) =
      some (.bypass, some (writeBackOf 1 (cmd [0, 10]) (.refused .mode) on)) := by decide +kernel

theorem test_service_define :
    shows (exec (.serviceDefine 5 (cmd ([3, 1, 0xFF, 0xFF, 0, 0, 8, 0, 0, 0, 0, 16] ++ zeros 4 ++ [1, 0, 0x31]))) on)
      (fun t => ((t.service 3).window, (t.service 3).comps)) = some (some { base := 0x80000, slots := 16 }, [video]) := by
  decide +kernel

theorem test_stream_source_defined :
    shows (exec (.sourceDefine 5 (cmd [2, 1, 0, 0, 0, 0, 8, 0, 0, 0, 0, 8, 0, 0, 3])) on)
      (fun t => ((t.source 2).config, (t.source 2).minFill)) =
      some (some { mode := .stream, window := { base := 0x80000, slots := 8 } }, 3) := by decide +kernel

theorem test_cue_out_inserts_break :
    shows (exec (.breakInsert 90000 (cmd ([0, 1] ++ [0, 0, 0, 7] ++ beBytes 4 900000 ++ zeros 4 ++ [2, 0])))
      (withService (fun v => { v with preRoll := 1000 }) on)) (fun t => ((t.service 0).schedule.map (·.splice), t.bank)) =
      some ([900000], [{ deadline := 810000, owner := .brk 0 7 }]) := by decide +kernel

theorem test_break_starts_and_draws :
    shows (exec (.classification 90000 (slotData (slotOf 0x41 0x00 0x10)))
      (reading slotRead (.network 0) (withSource (fun r => { r with fill := 2, writeIx := 2 })
        (withService (fun v => { v with schedule := [readyEntry] }) on))))
      (fun t => ((t.entry 0).map fun e => (e.decision, e.reserved, e.boundary), (t.service 0).mode, (t.source 0).fill)) =
      some (some (some .substituteBreak, some { source := 0, addr := 0x20000 }, true), .brk, 1) := by decide +kernel

inductive TestsBelow3

theorem test_network_packet_passes :
    shows (exec (.classification 90000 (slotData (slotOf 0x01 0x00 0x10))) (reading slotRead (.network 0) on))
      (fun t => ((t.entry 0).bind (·.decision), (t.service 0).classified, vget t.rewriteOrder 0)) =
      some (some .pass, 1, [0]) := by decide +kernel

theorem test_read_timeout_enters_bypass :
    shows (exec (.readDeadlineExpiry 90000 0) (reading slotRead (.network 0) on))
      (fun t => (t.mode, t.modeControl.timer, (t.entry 0).map (·.status), t.outstanding.map (·.read.owner))) =
      some (.bypass, some 990000, some .error, [.orphan]) := by decide +kernel

/-- The kind and subkind of each report record the part has written. -/
def reportKinds (s : State) : List (Byte × Byte) :=
  s.emitted.filterMap fun e =>
    match e with
    | .memWrite true _ bytes =>
      let record := bytes.map (·.data)
      if record.length = 32 then some (byteAt record 0, byteAt record 1) else none
    | _ => none

/-- A command's read times out with an ALERT START behind it: the alert starts in ACTIVE, the part then enters BYPASS, and
the alert ends (R158, R165, R169). -/
theorem test_action_waits_for_the_next_command :
    shows (exec (.internalReadExpiry 90000) { reading plainRead .command on with
        work := some (.startCheck 2 loopWin)
        intake := [queued, entryOf 0x31 (cmd [0, 3])]
        ring := { defn := some { base := 0x500000, count := 64 }, producer := 0, consumer := 0, dropped := 0,
                  overflow := false } })
      (fun t => (t.mode, t.intake, reportKinds t))
      = some (.bypass, [],
        [(ReportKind.error.code, 18), (ReportKind.alert.code, Subkind.started.code), (ReportKind.mode.code, 2),
         (ReportKind.alert.code, Subkind.ended.code)]) := by decide +kernel

theorem test_alert_start_gives_owner :
    shows (exec (.alertStart 90000 (cmd [0, 2])) on)
      (fun t => ((t.service 0).owner, (t.service 0).comps.map (·.alert), (t.source 1).alertUsers)) =
      some (some 0, [.none, .pending], 1) := by decide +kernel

theorem test_status_byte_read :
    shows (exec (.statusRead 5) (withLink (fun l => { l with enabled := true }) State.reset)) (·.emitted) =
      some [.linkAck, .linkSend (linkStatusByte State.reset)] := by decide +kernel

theorem test_bad_command_byte_naked :
    shows (exec (.linkByteReceived 5 true 0x06) (withLink (fun l => { l with enabled := true }) State.reset)) (·.emitted) =
      some [.linkNak] := by decide +kernel

/-! ### The statements' hypotheses are met -/

/-- Idle and Calm, checked. -/
def ready (c : CellCommand) (s : State) : Bool :=
  s.intake.isEmpty && !(vget s.cells c.cell).busy && s.deferred.isEmpty
    && decide ((s.kindLog .reportOverflow).severity = .notice)

theorem ready_idle {c : CellCommand} {s : State} (h : ready c s = true) : Idle c s ∧ Calm s := by
  simp only [ready, Bool.and_eq_true, List.isEmpty_iff, Bool.not_eq_true', decide_eq_true_eq] at h
  exact ⟨⟨h.1.1.1, h.1.1.2, h.1.2⟩, h.2⟩

theorem witness_StepTakesFrontCommand :
    { on with pending := [.readIssue 5] }.pending = [.readIssue 5] ∧ on.pending = [] := ⟨rfl, rfl⟩

theorem witness_RowsCompleteExactlyWhenWellFormed :
    (Instr.readTaken 0 { requester := 0, addr := 0, beats := 16 }).wellFormed = true
      ∧ (Instr.readTaken 0 { requester := 0, addr := 0, beats := 17 }).wellFormed = false := by decide

theorem witness_ResetsPutEveryBlockInResetState : Idle (cmd []) on := (ready_idle (by decide +kernel)).1

/-- Every table full, and a step. -/
def full : State :=
  { on with
    pending := [.readIssue 0]
    outstanding := List.replicate 48 { read := { owner := .orphan, addr := 0, beats := 1 }, deadline := none }
    issueQueue := [.read { owner := .command, addr := 0, beats := 12 }, .write true 0 []]
    intake := List.replicate 8 queued
    bank := List.replicate 64 { deadline := 0, owner := .brk 0 7 }
    services := Vector.replicate 48 { svc with schedule := List.replicate 4 entry }
    sources := Vector.replicate 32 { ring with fill := 8 }
    ring := { defn := some { base := 0, count := 4096 }, producer := 4095, consumer := 0, dropped := 1, overflow := true } }

inductive TestsBelow4

theorem witness_StepKeepsTableBounds :
    ReadsBounded full ∧ QueueBounded full ∧ ChannelsBounded full ∧ SchedulesBounded full
      ∧ ReadWaitsFirst full ∧ ∃ t, step full = .next t := by
  refine ⟨Nat.le_refl _, Nat.le_refl _, Nat.le_refl _, ?_, ?_, _, rfl⟩
  case refine_2 => intro w e; cases e; rfl
  intro i
  show (vget (Vector.replicate 48 { svc with schedule := List.replicate 4 entry }) i).schedule.length ≤ 4
  simp [vget, svc]

theorem witness_StepKeepsControlEntry : ControlEntry full ∧ ∃ t, step full = .next t := ⟨rfl, _, rfl⟩

theorem witness_StepKeepsRingIndexesInRange : RingOk full.ring ∧ ∃ t, step full = .next t := by
  refine ⟨?_, _, rfl⟩
  intro d e
  cases e
  decide

theorem witness_StepKeepsFillsInOrder : FillsOk full ∧ ∃ t, step full = .next t := by
  refine ⟨?_, _, rfl⟩
  intro k c e _
  have h : full.source k = { ring with fill := 8 } := by
    show vget (Vector.replicate 32 _) k = _
    simp [vget]
  rw [h] at e ⊢
  cases e
  decide

theorem witness_StepKeepsTimeoutFatal : TimeoutFatal full ∧ ∃ t, step full = .next t := ⟨⟨rfl, rfl⟩, _, rfl⟩

/-- A write of a slot by a requester. -/
def slotWrite (q : RequesterId) (a : Addr) (slot : List Byte) : PortWrite where
  requester := q
  addr := a
  bytes := enabledBytes slot

theorem witness_WritesPassUnchanged :
    (slotWrite 1 0x50000 (zeros 16)).wf = true ∧ on.deferred = [] ∧ on.offers .ingest 0x50000 16 = []
      ∧ (slotWrite 1 0xFFFF00FF0 (zeros 16)).wf = true ∧ vget on.roles 1 = .ingest
      ∧ on.offers .ingest 0xFFFF00FF0 16 =
        [{ region := .control, part := { off := 0, addr := 0xFFFF00FF0, len := 16 } }] := by decide +kernel

/-- Services 0 and 1 with windows that meet, and service 2 with one from address 0. -/
def neighbours : State :=
  { on with
    services := vset (vset on.services 1 { svc with window := some { base := 0x10C00, slots := 16 } }) 2
      { svc with window := some { base := 0, slots := 16 } } }

/-- A write from the last beat of one window into the next, the window's first and last byte, and one past each; a write
that passes 2^36 − 1. -/
theorem witness_Writes_meet_windows :
    neighbours.offers .ingest 0x10BF0 256 =
        [{ region := .svc 0, part := { off := 0, addr := 0x10BF0, len := 16 } },
         { region := .svc 1, part := { off := 16, addr := 0x10C00, len := 240 } }]
      ∧ on.offers .ingest 0xFFFF 1 = [] ∧ on.offers .ingest 0x10C00 1 = []
      ∧ on.offers .ingest 0x10000 1 = [{ region := .svc 0, part := { off := 0, addr := 0x10000, len := 1 } }]
      ∧ on.offers .ingest 0x10BFF 1 = [{ region := .svc 0, part := { off := 0, addr := 0x10BFF, len := 1 } }]
      ∧ neighbours.offers .ingest 0xFFFFFFFF0 32 =
        [{ region := .svc 2, part := { off := 16, addr := 0, len := 16 } }]
      ∧ on.offers .player 0x205F0 32 = [{ region := .src 0, part := { off := 0, addr := 0x205F0, len := 16 } }]
      ∧ on.offers .ingest 0x20000 16 = [] ∧ on.offers .player 0x30000 16 = [] ∧ on.offers .output 0x10000 192 = []
      ∧ on.offers .other 0xFFFEFFFF0 32 =
        [{ region := .control, part := { off := 16, addr := 0xFFFF00000, len := 16 } }] := by decide +kernel

theorem witness_LiesIn :
    LiesIn 0x10000 3072 0x10BFF 1 { off := 0, addr := 0x10BFF, len := 1 }
      ∧ LiesIn 0x10000 3072 0xFFFF 256 { off := 1, addr := 0x10000, len := 255 }
      ∧ LiesIn 0 3072 0xFFFFFFFF0 256 { off := 16, addr := 0, len := 240 }
      ∧ ∀ p, ¬LiesIn 0x10000 3072 0x10C00 256 p := by
  refine ⟨by unfold LiesIn; decide, by unfold LiesIn; decide, by unfold LiesIn; decide, ?_⟩
  rintro p (⟨_, h, _⟩ | ⟨_, h, _⟩ | ⟨_, _, h, _⟩) <;> revert h <;> decide

theorem witness_PlayerSlotWriteFillsRing :
    (slotWrite 2 0x20000 (slotOf 0 0 0)).bytes.length = 192
      ∧ (slotWrite 2 0x20000 (slotOf 0 0 0)).bytes.all (·.enable) = true ∧ on.deferred = []
      ∧ vget on.roles 2 = .player ∧ (on.source 0).config = some { mode := .stream, window := ringWin }
      ∧ ringWin.slotAt 0x20000 = some 0
      ∧ on.offers .player 0x20000 192 =
        [{ region := .src 0, part := { off := 0, addr := 0x20000, len := 192 } }]
      ∧ (0 = (on.source 0).writeIx ∧ (on.source 0).fill < ringWin.slots)
      ∧ (let s := withSource (fun r => { r with fill := 8 }) on;
        0 = (s.source 0).writeIx ∧ ringWin.slots ≤ (s.source 0).fill ∧ (s.source 0).overrunRun = false)
      ∧ (let s := withSource (fun r => { r with fill := 8, overrunRun := true }) on;
        0 = (s.source 0).writeIx ∧ ringWin.slots ≤ (s.source 0).fill ∧ (s.source 0).overrunRun = true)
      ∧ 0 ≠ ((withSource (fun r => { r with writeIx := 7 }) on).source 0).writeIx := by decide +kernel

/-- A cue message in a start packet on PID 0x200: an OUT, with its check sum. -/
def cueSlot : List Byte :=
  let m : List Byte := [0xC5, 1, 0, 0, 0, 7] ++ beBytes 4 900000 ++ zeros 4 ++ [2, 0]
  [0x47, 0x42, 0x00, 0x10] ++ m ++ beBytes 2 (cueSum m) ++ zeros 166 ++ beBytes 4 90000

def badCueSlot : List Byte := cueSlot.set 20 0xEE

/-- A cue of event 7 with its check sum, behind an adaptation field of a length when there is one. -/
def cueOf (adaptation : Option Nat) (kind avail flags : Byte) : List Byte :=
  let m : List Byte := [0xC5, kind, 0, 0, 0, 7] ++ beBytes 4 900000 ++ beBytes 4 270000 ++ [avail, flags]
  let l : List Byte :=
    (match adaptation with
      | none => [0x47, 0x42, 0x00, 0x10]
      | some n => [0x47, 0x42, 0x00, 0x30, BitVec.ofNat 8 n] ++ List.replicate n 0xFF) ++ m ++ beBytes 2 (cueSum m)
  l ++ zeros (188 - l.length) ++ beBytes 4 90000

/-- What a slot's cue message is, read at the place the statement reads it. -/
def cueAt (slot : List Byte) : List Byte := slot.drop (if hasAdaptation slot then 5 + (byteAt slot 4).toNat else 4)

/-- The statement's conditions of a good check field, and of room for the message. -/
def cueGood (slot : List Byte) : Bool :=
  hasPayload slot && (!hasAdaptation slot || (byteAt slot 4).toNat ≤ 165) && byteAt (cueAt slot) 0 == 0xC5
    && fieldAt (cueAt slot) 16 2 == (((cueAt slot).take 16).foldl (fun n b => n + b.toNat) 0) % 65536

theorem witness_IngestWriteTracksClockAndCapturesCue :
    (slotWrite 1 0x10000 cueSlot).wf = true ∧ on.deferred = [] ∧ vget on.roles 1 = .ingest
      ∧ (on.service 0).window = some netWin
      ∧ on.offers .ingest 0x10000 192 = [{ region := .svc 0, part := { off := 0, addr := 0x10000, len := 192 } }]
      ∧ (enabledBytes cueSlot).length = 192 ∧ (enabledBytes cueSlot).all (·.enable) = true
      ∧ (netWin.slotAt 0x10000).isSome = true ∧ goodSync cueSlot = true ∧ goodSync (cueSlot.set 0 0) = false
      ∧ on.mode ≠ .passive ∧ (on.service 0).cuePid = some (packetPid cueSlot) ∧ startFlag cueSlot = true
      ∧ packetPid (slotOf 0x01 0x00 0x10) ≠ 0x200 := by decide +kernel

inductive TestsBelow5

/-- Each check of a cue failed by itself, at its boundary, and each type that passes. -/
theorem witness_IngestWrite_of_a_cue :
    hasPayload (cueSlot.set 3 0x20) = false
      ∧ (hasAdaptation (cueSlot.set 3 0x30) = true ∧ 165 < (byteAt ((cueSlot.set 3 0x30).set 4 166) 4).toNat)
      ∧ byteAt (cueAt (cueSlot.set 4 0xC4)) 0 ≠ 0xC5
      ∧ (byteAt (cueAt badCueSlot) 0 = 0xC5 ∧ cueGood badCueSlot = false)
      ∧ (cueGood (cueOf none 4 2 0) = true ∧ 3 < (byteAt (cueAt (cueOf none 4 2 0)) 1).toNat)
      ∧ (cueGood (cueOf none 0 2 0) = true ∧ (byteAt (cueAt (cueOf none 0 2 0)) 1).toNat = 0)
      ∧ (cueGood (cueOf none 3 16 0) = true ∧ 15 < (byteAt (cueAt (cueOf none 3 16 0)) 14).toNat)
      ∧ (cueGood (cueOf (some 165) 1 15 1) = true ∧ (byteAt (cueAt (cueOf (some 165) 1 15 1)) 1).toNat = 1
        ∧ (byteAt (cueAt (cueOf (some 165) 1 15 1)) 14).toNat = (15 : AvailIx).val)
      ∧ (cueGood (cueOf none 2 0 0) = true ∧ (byteAt (cueAt (cueOf none 2 0 0)) 1).toNat = 2)
      ∧ (cueGood (cueOf none 3 0 0xFE) = true ∧ (byteAt (cueAt (cueOf none 3 0 0xFE)) 1).toNat = 3) := by decide +kernel

/-- An OUT, an IN or a CANCEL of event 7, by the schedule it finds. -/
theorem witness_Cue_requests_find_their_entry :
    (({ svc with schedule := [activeEntry] }).findEntry 7 = some activeEntry ∧ activeEntry.state = .active)
      ∧ (let v := { svc with schedule := List.replicate 4 { entry with event := 8 } };
        v.findEntry 7 = none ∧ 4 ≤ v.schedule.length)
      ∧ (svc.findEntry 7 = none ∧ svc.schedule.length < 4)
      ∧ (before (71999 : Stamp) (90000 - BitVec.ofNat 32 (svc.lateWindow * 90)) = true
        ∧ before (72000 : Stamp) (90000 - BitVec.ofNat 32 (svc.lateWindow * 90)) = false
        ∧ farAfter (72000 : Stamp) 90000 = false ∧ farAfter (90000 + 0x40000000 : Stamp) 90000 = true)
      ∧ (({ svc with schedule := [readyEntry] }).findEntry 7 = some readyEntry ∧ readyEntry.state ≠ .active
        ∧ readyEntry.state = .ready ∧ readyEntry.avail = 0)
      ∧ (({ svc with schedule := [entry] }).findEntry 7 = some entry ∧ entry.state ≠ .ready ∧ entry.ret = none)
      ∧ before (89999 : Stamp) 90000 = true ∧ before (90000 : Stamp) 90000 = false := by decide +kernel

theorem witness_IngestWrite_of_part_of_a_slot :
    (slotWrite 1 0x10010 (zeros 16)).wf = true ∧ (zeros 16).length ≠ 192
      ∧ on.offers .ingest 0x10010 16 = [{ region := .svc 0, part := { off := 0, addr := 0x10010, len := 16 } }] := by
  decide +kernel

theorem witness_ConsumerIndexTakenBelowCount :
    full.ring.defn = some { base := 0, count := 4096 } ∧ (4095 : BitVec 32).toNat < 4096
      ∧ 4096 ≤ (4096 : BitVec 32).toNat ∧ on.ring.defn = none := by decide +kernel

theorem witness_SubmissionRunsItsCommand :
    commandOf (.enable 5 (cmd [0, 10])) = some (0x01, cmd [0, 10])
      ∧ (Instr.enable 5 (cmd [0, 10])).wellFormed = true ∧ Idle (cmd [0, 10]) on
      ∧ vget on.roles (cmd [0, 10]).requester = .control :=
  ⟨rfl, rfl, (ready_idle (by decide +kernel)).1, by decide +kernel⟩

/-- The part with the last cell busy. -/
def busyCell : State := { on with cells := vset on.cells 15 { shadow := params [], busy := true } }

theorem witness_CommandIsTakenByCellAndQueue :
    commandOf (.resume 5 (cmd [])) = some (0x42, cmd []) ∧ (Instr.resume 5 (cmd [])).wellFormed = true
      ∧ busyCell.deferred = [] ∧ (vget busyCell.cells 15).busy = true
      ∧ full.deferred = [] ∧ (vget full.cells 15).busy = false ∧ 8 ≤ full.intake.length
      ∧ (let s : State := { on with intake := List.replicate 7 queued };
        s.deferred = [] ∧ (vget s.cells 15).busy = false ∧ s.intake ≠ [] ∧ s.intake.length < 8)
      ∧ on.deferred = [] ∧ (vget on.cells 15).busy = false ∧ on.intake = [] := by decide +kernel

/-- Three commands queued: each way a command comes to stand, once at the head. -/
theorem witness_Command_at_the_head :
    (let q (code : Byte) (l : List Byte) : List QueueEntry := [entryOf code (cmd l), queued];
      (∃ t, ({ on with intake := q 0x42 [] }).intake = entryOf 0x42 (cmd []) :: [queued]
          ∧ runCommand (entryOf 0x42 (cmd [])) { on with intake := q 0x42 [] } = (.answered (.refused .mode), t))
        ∧ (∃ t, runCommand (entryOf 0x04 (cmd [3, 0, 0, 0, 0, 0, 8, 0, 0]))
            { on with intake := q 0x04 [3, 0, 0, 0, 0, 0, 8, 0, 0] } = (.working, t))
        ∧ (∃ t, runCommand (entryOf 0x03 (cmd [])) { on with intake := q 0x03 [] } = (.gone, t))) :=
  ⟨⟨_, rfl, rfl⟩, ⟨_, rfl⟩, _, rfl⟩

theorem witness_RefusedCommandsChangeNothingElse :
    runCommand (entryOf 0x42 (cmd [])) on = (.answered (.refused .mode), on) ∧ unknownCode 0x16 = true
      ∧ unknownCode 0xFF = true ∧ Idle (cmd []) on :=
  ⟨rfl, by decide +kernel, by decide +kernel, (ready_idle (by decide +kernel)).1⟩

/-- Every RTT entry taken. -/
def noEntry : State := { on with rtt := Vector.replicate 32 (some plainRead) }

theorem witness_ReadTakesFreeEntryOrWaits :
    (PortRead.wf { requester := 3, addr := 0x10000, beats := 12 }) = true ∧ on.deferred = [] ∧ on.waitingReads = []
      ∧ on.freeEntry = some 0 ∧ on.readKind .output { requester := 3, addr := 0x10000, beats := 12 } = .slot 0
      ∧ PortRead.wf { requester := 3, addr := 0x10010, beats := 1 } = true ∧ vget on.roles 3 = .output
      ∧ on.readKind .output { requester := 3, addr := 0x10010, beats := 1 } = .plain
      ∧ on.touchedService { requester := 3, addr := 0x10010, beats := 1 } = some 0
      ∧ noEntry.deferred = [] ∧ noEntry.freeEntry = none := by decide +kernel

/-- The last slot of a window and the address past it, a read of part of a slot, and reads that straddle one window's end or
two windows. -/
theorem witness_Reads_meet_windows :
    on.readKind .output { requester := 3, addr := 0x10B40, beats := 12 } = .slot 0
      ∧ on.readKind .output { requester := 3, addr := 0x10C00, beats := 12 } = .plain
      ∧ on.readKind .output { requester := 3, addr := 0x10000, beats := 11 } = .plain
      ∧ on.readKind .output { requester := 3, addr := 0x10010, beats := 12 } = .plain
      ∧ on.readKind .ingest { requester := 1, addr := 0x10000, beats := 12 } = .plain
      ∧ neighbours.readKind .output { requester := 3, addr := 0x10C00, beats := 12 } = .slot 1
      ∧ neighbours.touchedService { requester := 3, addr := 0x10BF0, beats := 2 } = some 0
      ∧ on.touchedService { requester := 3, addr := 0xFFF0, beats := 2 } = some 0
      ∧ on.touchedService { requester := 3, addr := 0xFFF0, beats := 1 } = none
      ∧ on.touchedService { requester := 3, addr := 0x10C00, beats := 16 } = none := by decide +kernel

inductive TestsBelow6

theorem witness_CompletionFreesEntryInOrder :
    (let s := reading { plainRead with phase := .ready } (.network 0) on;
      s.deferred = [] ∧ vget s.completionOrder 5 = [0] ∧ s.entry 0 = some { plainRead with phase := .ready }
        ∧ s.waitingReads = [])
      ∧ { on with waitingReads := [{ requester := 3, addr := 0, beats := 1 }] }.waitingReads ≠ []
      ∧ on.completable 5 = none := by decide +kernel

theorem witness_WaitingReadIsIssuedInOrder :
    (let s : State := { full with outstanding := full.outstanding.tail };
      s.issueQueue = [.read { owner := .command, addr := 0, beats := 12 }, .write true 0 []] ∧ s.outstanding.length < 48)
      ∧ (full.issueQueue.head?.map MemTransaction.isWrite = some false ∧ 48 ≤ full.outstanding.length)
      ∧ full.issueQueue ≠ [] ∧ on.issueQueue = [] ∧ on.outstanding.length < 48
      ∧ { on with outstanding := full.outstanding }.issueQueue = [] := by decide +kernel

theorem witness_PlainAndOrphanAnswersMatchOldestRead :
    (let s := reading plainRead (.network 0) on;
      s.outstanding = [{ read := { owner := .network 0, addr := 0x40000, beats := 1 }, deadline := some 90000 }]
        ∧ s.entry 0 = some plainRead ∧ plainRead.kind = .plain ∧ answerWf (zeros 16) = true
        ∧ (zeros 16).length = 16 * plainRead.beats)
      ∧ (reading plainRead .orphan on).outstanding.map (·.read.owner) = [.orphan] := by decide +kernel

/-- The part classifying a packet for service 0. -/
def classifying (f : Service → Service) : State := reading slotRead (.network 0) (withService f on)

def lowPacket : List Byte := slotOf 0x01 0x00 0x10
def startPacket : List Byte := slotOf 0x41 0x00 0x10

theorem witness_Classification_of_a_service :
    (let s := classifying id;
      s.outstanding = [{ read := { owner := .network 0, addr := 0x10000, beats := 12 }, deadline := some 90000 }]
        ∧ s.entry 0 = some slotRead ∧ slotRead.kind = .slot 0 ∧ s.deferred = [] ∧ (s.service 0).window ≠ none
        ∧ slotRead.stale = false)
      ∧ (let e : RttEntry := { slotRead with stale := true };
        (reading e (.network 0) on).entry 0 = some e ∧ e.kind = .slot 0 ∧ e.stale = true)
      ∧ ((slotData lowPacket).toList = lowPacket ∧ (slotData startPacket).toList = startPacket) := by decide +kernel

theorem witness_ClassificationLetsPacketsPass :
    ((classifying fun _ => Service.unused).service 0).window = none
      ∧ (inMode .passive (classifying id)).mode = .passive ∧ goodSync startPacket = true
      ∧ (inMode .bypass (classifying id)).mode = .bypass ∧ svc.leadStart lowPacket = false
      ∧ (compIndex (packetPid (slotOf 0x00 0x50 0x10)) svc.comps = none ∧ packetPid (slotOf 0x00 0x50 0x10) ≠ nullPid)
      ∧ (compIndex (packetPid (slotOf 0x1F 0xFF 0x10)) svc.comps = none ∧ on.overlayOf 0 = none)
      ∧ (compIndex (packetPid lowPacket) svc.comps = some 0 ∧ svc.comp 0 = some video ∧ video.alert = .none
        ∧ svc.mode = .network)
      ∧ goodSync (lowPacket.set 0 0) = false := by decide +kernel

/-- Service 0 under an ACTIVE break from a source. -/
def onBreak (k : SourceIx) (limit : Nat) (v : Service) : Service :=
  { v with mode := .brk, underrunLimit := limit,
           schedule := [{ activeEntry with binding := some { binding with source := k } }] }

/-- Service 0 under a local programme. -/
def onLocal (v : Service) : Service := { v with mode := .loc, slotA := some runningProg }

/-- Service 0 under an alert whose audio has been taken. -/
def alerted : State :=
  { withService (fun v => { v with owner := some 0, comps := [video, { audio with alert := .taken, cursor := 3 }] }) on with
    alerts := vset on.alerts 0 (some alert) }

theorem witness_ClassificationDrawsFromInsertion :
    goodSync lowPacket = true ∧ on.mode = .active ∧ svc.leadStart lowPacket = false
      ∧ compIndex (packetPid lowPacket) svc.comps = some 0
      ∧ (let v := onBreak 0 1 svc;
        v.mode = .brk ∧ v.activeHead = some activeEntry ∧ activeEntry.binding = some binding
          ∧ binding.replaceSet.getLsbD 0 = true ∧ v.comp 0 = some video ∧ video.alert ≠ .taken
          ∧ (video.alert = .pending → startFlag lowPacket = false)
          ∧ v.underrunLimit ≤ stickyIncUnderrun activeEntry.underruns)
      ∧ stickyIncUnderrun activeEntry.underruns < (onBreak 0 2 svc).underrunLimit
      ∧ (on.source 0).config = some { mode := .stream, window := ringWin } ∧ (on.source 0).fill = 0
      ∧ ((withSource (fun r => { r with fill := 1, readIx := 7 }) on).source 0).fill ≠ 0
      ∧ (on.source 1).config = some { mode := .loop, window := loopWin }
      ∧ (onLocal svc).mode = .loc ∧ (onLocal svc).running = some (.a, runningProg)
      ∧ (let v := alerted.service 0;
        v.comp 1 = some { audio with alert := .taken, cursor := 3 }
          ∧ compIndex (packetPid (slotOf 0x01 0x01 0x10)) v.comps = some 1
          ∧ alerted.alertSource 0 .audio = some (1, loopWin))
      ∧ ((onBreak 0 1 svc).comp 1 = some audio ∧ audio.alert ≠ .taken ∧ binding.replaceSet.getLsbD 1 = false)
      ∧ (let d : Verdict := { plainVerdict .substituteBreak with reserved := some { source := 0, addr := 0x20000 } };
        d.reserved = some { source := 0, addr := 0x20000 } ∧ (plainVerdict .pass).reserved = none)
      ∧ (takenSet (alerted.service 0).comps = 2
        ∧ takenSet (List.replicate 8 { audio with alert := .taken }) = 0xFF) := by
  decide +kernel

/-- A network null, and service 0 under an alert whose overlay packet takes every third one. -/
def netNull : List Byte := slotOf 0x1F 0xFF 0x10
def overlaying (count : BitVec 8) : State :=
  { withService (fun v => { v with overlayNulls := count }) alerted with
    groups := vset on.groups 0 { group with store := some (lowPacket.take 188), cadence := 3 } }

/-- A local programme from the LOOP source, one from an empty STREAM ring below its underrun limit and at it; a network null
at the cadence and below it. -/
theorem witness_ClassificationDraws_for_local_and_overlay :
    (let p : LocalProg := { runningProg with source := 1 };
      ({ onLocal svc with slotA := some p }).running = some (.a, p)
        ∧ (on.source p.source).config = some { mode := .loop, window := loopWin })
      ∧ stickyIncUnderrun runningProg.underruns < ({ onLocal svc with underrunLimit := 2 }).underrunLimit
      ∧ ({ onLocal svc with underrunLimit := 1 }).underrunLimit ≤ stickyIncUnderrun runningProg.underruns
      ∧ (on.source runningProg.source).fill = 0
      ∧ (goodSync netNull = true ∧ packetPid netNull = 0x1FFF
        ∧ compIndex (packetPid netNull) (alerted.service 0).comps = none ∧ (alerted.service 0).owner = some 0
        ∧ alerted.alert 0 = some alert)
      ∧ (((overlaying 2).group alert.group).overlayPid = some 0x300
        ∧ ((overlaying 2).group alert.group).store = some (lowPacket.take 188)
        ∧ (((overlaying 2).service 0).overlayNulls + 1).toNat = ((overlaying 2).group alert.group).cadence
        ∧ (((overlaying 1).service 0).overlayNulls + 1).toNat ≠ ((overlaying 1).group alert.group).cadence) := by
  decide +kernel

/-- The slot of an audio packet with the start flag. -/
def audioStart : List Byte := slotOf 0x41 0x01 0x10

/-- Service 0 under an alert whose audio, or whose lead component, is waiting for its start packet. -/
theorem witness_ClassificationTakesPendingAlert :
    (let s := withService (fun v => { v with owner := some 0, comps := [video, { audio with alert := .pending }] }) alerted;
      let v := s.service 0;
      v.comp 1 = some { audio with alert := .pending } ∧ compIndex (packetPid audioStart) v.comps = some 1
        ∧ v.leadStart audioStart = false ∧ startFlag audioStart = true ∧ goodSync audioStart = true
        ∧ s.alertSource 0 .audio = some (1, loopWin))
      ∧ (let s := withService (fun v =>
            { v with owner := some 0, comps := [{ audio with lead := true, alert := .pending }] }) alerted;
        let v := s.service 0;
        v.leadStart audioStart = true ∧ v.schedule = [] ∧ v.slotA = none ∧ v.slotB = none
          ∧ v.comp 0 = some { audio with lead := true, alert := .pending } ∧ startFlag audioStart = true
          ∧ s.alertSource 0 .audio = some (1, loopWin)) := by decide +kernel

theorem witness_DueBreakStartsAtLeadStartPacket :
    (let s := withSource (fun r => { r with fill := 1 })
        (classifying fun v => { v with schedule := [{ readyEntry with splice := 72000 }] });
      let v := s.service 0;
      s.mode = .active ∧ s.deferred = [] ∧ v.window ≠ none ∧ v.held = none ∧ v.mode = .network
        ∧ s.preempting 0 = false ∧ v.slotA = none ∧ v.slotB = none ∧ goodSync startPacket = true
        ∧ v.leadStart startPacket = true ∧ compIndex (packetPid startPacket) v.comps = some 0
        ∧ v.comp 0 = some video ∧ video.alert = .none ∧ v.schedule = [{ readyEntry with splice := 72000 }]
        ∧ (s.source 0).isEmpty = false ∧ (s.source 0).defined = true
        ∧ slotStamp startPacket = 90000 ∧ later (72000 : Stamp) 90000 = false
        ∧ later (90000 : Stamp) (72000 + msTicks v.lateWindow) = false
        ∧ { readyEntry with splice := 72000 }.returnsBy 90000 = false) := by decide +kernel

theorem witness_DueBreakStarts_calm : Calm (classifying id) := (ready_idle (c := cmd []) (by decide +kernel)).2

inductive TestsBelow7

/-- A break whose return stamp has come, before an entry that waits; a local programme whose end stamp has come; a READY one
that is due. The packet is stamped 90 000. -/
theorem witness_Insertions_at_a_lead_start_packet :
    (let b : BreakEntry := { activeEntry with ret := some { stamp := 90000, origin := .cueIn } };
      let y : BreakEntry := { entry with event := 8, splice := 90001 };
      b.state = .active ∧ b.ret = some { stamp := 90000, origin := .cueIn } ∧ atOrAfter (90000 : Stamp) 90000 = true
        ∧ y.state ≠ .active ∧ later y.splice 90000 = true ∧ y.event ≠ b.event)
      ∧ (let p : LocalProg := { runningProg with stop := 90000 };
        let v : Service := { svc with mode := .loc, slotA := some p };
        v.current = .a ∧ v.slot .a = some p ∧ p.state = .running ∧ v.slot (otherLetter .a) = none
          ∧ atOrAfter (90000 : Stamp) p.stop = true)
      ∧ (let p : LocalProg := { prog with state := .ready, start := 72000 };
        let v : Service := { svc with slotA := some p };
        v.current = .a ∧ v.slot .a = some p ∧ v.held = none ∧ later p.start 90000 = false
          ∧ later (90000 : Stamp) (p.start + msTicks v.lateWindow) = false ∧ atOrAfter (90000 : Stamp) p.stop = false)
      ∧ (on.source 0).config = some { mode := .stream, window := ringWin }
      ∧ ((withSource (fun r => { r with fill := 1 }) on).source 0).fill ≠ 0 := by decide +kernel

/-- A lead start packet in BYPASS, with nothing of the service running. -/
theorem witness_LeadStart_in_bypass :
    let s := inMode .bypass (classifying fun v => { v with schedule := [entry], slotA := some prog });
    s.mode = .bypass ∧ (s.service 0).leadStart startPacket = true ∧ (s.service 0).activeHead = none
      ∧ (s.service 0).running = none ∧ (s.service 0).window ≠ none ∧ s.entry 0 = some slotRead := by decide +kernel

/-- The steps of the local slots at stamp 90 000: a programme that runs on, a slot that waits, one for each cause of R122 at
its boundary, a READY one, and one resolved with each answer. -/
theorem witness_LeadStart_local_steps :
    atOrAfter (90000 : Stamp) 90001 = false ∧ later (90001 : Stamp) 90000 = true ∧ svc.slot svc.current = none
      ∧ (let v := { svc with slotA := some prog };
        v.slot v.current = some prog ∧ prog.state ≠ .running ∧ later prog.start 90000 = false
          ∧ later (90000 : Stamp) (prog.start + BitVec.ofNat 32 (v.lateWindow * 90)) = false
          ∧ atOrAfter (90000 : Stamp) prog.stop = false ∧ v.held = none ∧ on.mode ≠ .bypass ∧ on.mode = .active
          ∧ prog.state ≠ .ready)
      ∧ (inMode .bypass on).mode = .bypass ∧ ({ svc with held := some .control }).held ≠ none
      ∧ later (90000 : Stamp) ((71999 : Stamp) + BitVec.ofNat 32 (svc.lateWindow * 90)) = true
      ∧ later (90000 : Stamp) ((72000 : Stamp) + BitVec.ofNat 32 (svc.lateWindow * 90)) = false
      ∧ atOrAfter (90000 : Stamp) 90000 = true
      ∧ (on.source 5).defined = false ∧ (on.source 0).defined = true ∧ (on.source 0).attachment = none
      ∧ InsOwner.brk 0 7 ≠ .loc 0 .a
      ∧ (let s := withService (fun v => { v with slotA := some { prog with state := .ready } }) on;
        (examineSlot 0 90000 s).1 = .started ∧ (examineSlot 0 89999 s).1 = .waits ∧ (examineSlot 0 180000 s).1 = .missed) := by
  decide +kernel

/-- A stamp exactly 2^31 ticks from the packet's is not later, so the slot and the entry are due; one tick on it is later,
and they wait (R99, R122). -/
theorem test_due_at_the_half_turn :
    (let s := withService (fun v => { v with schedule := [entry], slotA := some { prog with state := .ready } }) on;
      (examineSlot 0 0x80015F90 s).1 = .missed ∧ (examineSlot 0 0x80015F91 s).1 = .waits
        ∧ (s.service 0).dueEvents 0x80015F90 = [7] ∧ (s.service 0).dueEvents 0x80015F91 = []) := by decide +kernel

/-- The break's steps at stamp 90 000: a return that has not come, no due entry and two, each cause of R100 at its boundary,
a READY candidate with a full and an empty ring, and one resolved with each answer. -/
theorem witness_LeadStart_break_steps :
    (let h : BreakEntry := { activeEntry with ret := some { stamp := 90001, origin := .duration } };
      ({ svc with schedule := [h] }).activeHead = some h ∧ atOrAfter (90000 : Stamp) 90001 = false)
      ∧ svc.dueEvents 90000 = [] ∧ ({ svc with schedule := [entry, { entry with event := 8 }] }).dueEvents 90000 = [7] ++ [8]
      ∧ (let s := withService (fun v => { v with schedule := [entry, { entry with event := 8 }] }) on;
        ((leaveBreak 0 7 (.missed .superseded 90000) s).service 0).findEntry 8 = some { entry with event := 8 })
      ∧ (on.mode ≠ .bypass ∧ svc.held = none ∧ svc.mode ≠ .loc ∧ (onLocal svc).mode = .loc
        ∧ on.ownerGroup svc.owner = none
        ∧ (let s := { alerted with groups := vset on.groups 0 { group with preempt := true } };
          (s.ownerGroup (s.service 0).owner).map (·.preempt) = some true))
      ∧ (later (90000 : Stamp) (71999 + BitVec.ofNat 32 (svc.lateWindow * 90)) = true
        ∧ later (90000 : Stamp) (entry.splice + BitVec.ofNat 32 (svc.lateWindow * 90)) = false ∧ entry.ret = none)
      ∧ (({ svc with schedule := [activeEntry, { readyEntry with event := 8 }] }).findEntry 8 =
          some { readyEntry with event := 8 }
        ∧ readyEntry.state = .ready ∧ readyEntry.binding = some binding ∧ activeEntry.event ≠ 8)
      ∧ ((on.source binding.source).isEmpty = true
        ∧ ((withSource (fun r => { r with fill := 1 }) on).source binding.source).isEmpty = false)
      ∧ (entry.state ≠ .ready ∧ on.mode = .active ∧ vget svc.avails entry.avail = none
        ∧ vget (vset svc.avails 0 (some binding)) entry.avail = some binding ∧ InsOwner.brk 0 8 ≠ .brk 0 7) := by
  decide +kernel

def fetching : RttEntry := { slotRead with phase := .awaitSource, reserved := some { source := 0, addr := 0x20000 } }

theorem witness_SlotAnswersMoveEntries :
    (let s := reading slotRead (.network 0) on;
      s.outstanding.map (·.read.owner) = [.network 0] ∧ s.entry 0 = some slotRead ∧ slotRead.kind = .slot 0)
      ∧ (let s := reading fetching (.fetch 0) on;
        s.outstanding.map (·.read.owner) = [.fetch 0] ∧ s.entry 0 = some fetching ∧ fetching.kind = .slot 0
          ∧ fetching.reserved = some { source := 0, addr := 0x20000 }) := by decide +kernel

/-- The part with entry 0 in its turn. -/
def inTurn (e : RttEntry) (s : State) : State :=
  { s with rtt := vset s.rtt 0 (some e), rewriteOrder := vset s.rewriteOrder 0 [0] }

def decided (d : Decision) (network : List Byte) : RttEntry :=
  { slotRead with phase := .awaitTurn, decision := some d, sequence := some 0, network := network }

theorem witness_RewritePassesAndStuffs :
    (let e := decided .pass (slotOf 0x00 0x50 0x10);
      (inTurn e on).rewritable 0 = some (e, 0) ∧ e.network.length = 192 ∧ e.stale = false
        ∧ (on.service 0).window ≠ none ∧ (inTurn e on).deferred = []
        ∧ compIndex (packetPid (e.network.take 188)) svc.comps = none)
      ∧ goodSync ((lowPacket.set 0 0).take 188) = false
      ∧ (let e := decided .pass lowPacket;
        (inTurn e on).rewritable 0 = some (e, 0) ∧ e.network.length = 192 ∧ goodSync (e.network.take 188) = true
          ∧ compIndex (packetPid (e.network.take 188)) svc.comps = some 0 ∧ svc.comp 0 = some video)
      ∧ (let e := decided .stuffNull lowPacket;
        (inTurn e on).rewritable 0 = some (e, 0) ∧ e.decision = some .stuffNull)
      ∧ (let e : RttEntry := { decided .overlay lowPacket with overlay := lowPacket.take 188, boundary := true };
        (inTurn e on).rewritable 0 = some (e, 0) ∧ e.overlay.length = 188 ∧ e.stale = false)
      ∧ (let e : RttEntry := { decided .pass lowPacket with stale := true };
        (inTurn e on).rewritable 0 = some (e, 0) ∧ e.network.length = 192 ∧ e.stale = true) := by decide +kernel

/-- A substituted entry whose packet has come. -/
def fetched (d : Decision) (set : Option (BitVec 8)) : RttEntry :=
  { decided d lowPacket with
    fetched := slotOf 0x00 0x50 0x15
    insRef := some (.brk 7 0)
    binding := some { remap := binding.remap, replaceSet := set } }

theorem witness_RewriteSubstitutesMappedPacket :
    (let e := fetched .substituteBreak (some 1);
      let packet := e.fetched.take 188;
      (inTurn e on).rewritable 0 = some (e, 0) ∧ (on.service 0).window ≠ none ∧ e.stale = false
        ∧ e.sourceFailed = false ∧ e.fetched.length = 192 ∧ (inTurn e on).deferred = []
        ∧ e.decision = some .substituteBreak ∧ e.insRef = some (.brk 7 0)
        ∧ e.binding = some { remap := binding.remap, replaceSet := some 1 } ∧ goodSync packet = true
        ∧ packetPid packet ≠ nullPid ∧ carriesPcr packet = false
        ∧ binding.remap.find? (fun q => q.pid == packetPid packet) = some { pid := 0x50, comp := 0 }
        ∧ svc.comp 0 = some video ∧ 0 < svc.comps.length ∧ (1 : BitVec 8).getLsbD 0 = true
        ∧ e.snapshot.getLsbD 0 = false ∧ (on.service 0).offsetHome (.brk 7 0) = .nowhere)
      ∧ (fetched .substituteLocal none).decision = some .substituteLocal := by decide +kernel

/-- A source packet with a PCR: an adaptation field of seven bytes whose flags show it, its base 7. -/
def pcrSlot : List Byte := [0x47, 0x00, 0x50, 0x35, 7, 0x10, 0, 0, 0, 3, 0x80, 0] ++ zeros 180

/-- Service 0 after a break: its reference and an offset in the trailing record, or in the break's own entry; with or
without a clock track. -/
theorem witness_Rewrite_of_a_packet_with_a_PCR :
    carriesPcr (pcrSlot.take 188) = true ∧ pcrSlot.length = 192
      ∧ ({ svc with trailing := some { ref := .brk 7 0, pcrOffset := some 5 } }.offsetHome (.brk 7 0) = .trailing
        ∧ { svc with trailing := some { ref := .brk 7 0, pcrOffset := some 5 } }.offsetAt .trailing = some 5)
      ∧ ((onBreak 0 1 svc).offsetHome (.brk 7 0) = .entry 7 ∧ (onBreak 0 1 svc).offsetAt (.entry 7) = none
        ∧ (onBreak 0 1 svc).track = none)
      ∧ { onBreak 0 1 svc with track := some { base := 9, stamp := 80000 } }.track = some { base := 9, stamp := 80000 } := by
  decide +kernel

/-- The packets a rewrite turns into nulls, an alert's packet, and an entry of a service that has gone. -/
theorem witness_Rewrite_of_other_packets :
    ({ fetched .substituteBreak (some 1) with sourceFailed := true }).sourceFailed = true
      ∧ packetPid ((slotOf 0x1F 0xFF 0x10).take 188) = nullPid ∧ goodSync ((slotOf 0x1F 0xFF 0x10).take 188) = true
      ∧ goodSync ((lowPacket.set 0 0).take 188) = false ∧ fetching.reserved = some { source := 0, addr := 0x20000 }
      ∧ binding.remap.find? (fun q => q.pid == packetPid (lowPacket.take 188)) = none
      ∧ svc.comps.length ≤ 7 ∧ (2 : BitVec 8).getLsbD 0 = false ∧ (1 : BitVec 8).getLsbD 0 = true
      ∧ (let e := fetched .substituteAlert none;
        (inTurn e on).rewritable 0 = some (e, 0) ∧ compIndex (packetPid e.network) svc.comps = some 0
          ∧ carriesPcr (e.fetched.take 188) = false)
      ∧ (let e : RttEntry := { fetched .substituteBreak (some 1) with stale := true };
        (inTurn e on).rewritable 0 = some (e, 0) ∧ e.stale = true)
      ∧ (inTurn (fetched .substituteAlert none) (withService (fun _ => Service.unused) on)).rewritable 0 =
        some (fetched .substituteAlert none, 0) := by decide +kernel

inductive TestsBelow8

theorem witness_TimedOutReadsEndWithReadTimeout :
    ((reading slotRead (.network 0) on).timedOut (ReadOwner.isOf 0) 90000).isSome = true
      ∧ (reading slotRead (.network 0) on).entry 0 = some slotRead ∧ slotRead.kind = .slot 0
      ∧ ((reading fetching (.fetch 0) on).timedOut (ReadOwner.isOf 0) 90000).isSome = true
      ∧ ((reading plainRead (.network 0) on).timedOut (ReadOwner.isOf 0) 90000).isSome = true
      ∧ (reading plainRead (.network 0) on).entry 0 = some plainRead ∧ plainRead.kind = .plain
      ∧ (let s := { reading plainRead .command on with intake := [queued, queued] };
        (s.timedOut ReadOwner.isCommand 90000).isSome = true ∧ s.intake = queued :: [queued]) := by decide +kernel

theorem witness_ReadTimeoutTakesActivePartToBypass :
    let s := reading slotRead (.network 0) on;
    (s.timedOut (ReadOwner.isOf 0) 90000).isSome = true ∧ s.entry 0 = some slotRead ∧ s.mode = .active
      ∧ TimeoutFatal s ∧ Calm s ∧ s.deferred = [] :=
  ⟨by decide +kernel, by decide +kernel, rfl, ⟨rfl, rfl⟩, rfl, rfl⟩

/-- SOURCE DEFINE of source 2 as a LOOP of 4 slots. -/
def loopDefine : List Byte := [2, 2, 0, 0, 0, 0, 8, 0, 0, 0, 0, 4]

/-- A command's read on the list. -/
def commandRead (w : Work) : State := { reading plainRead .command on with work := some w, intake := [queued, queued] }

theorem witness_LoopSourceDefinedByItsStartCheck :
    ready (cmd loopDefine) on = true ∧ pIndex 32 (params loopDefine) 0 = some 2 ∧ (on.source 2).config = none
      ∧ pByte (params loopDefine) 1 = 2 ∧ pWindow (params loopDefine) 4 = some { base := 0x80000, slots := 4 }
      ∧ on.windowClash { base := 0x80000, slots := 4 } = false
      ∧ (let s := commandRead (.startCheck 2 loopWin);
        s.outstanding.map (·.read.owner) = [.command] ∧ s.work = some (.startCheck 2 loopWin)
          ∧ s.intake = queued :: [queued])
      ∧ (goodSync startPacket = true ∧ startFlag startPacket = true) ∧ startFlag lowPacket = false := by decide +kernel

/-- ALERT OVERLAY LOAD of group 0. -/
def overlayLoad : List Byte := [0, 0, 0, 0, 0, 0, 8, 0, 0]

theorem witness_OverlayStoreLoadedByItsRead :
    ready (cmd overlayLoad) on = true ∧ pIndex 8 (params overlayLoad) 0 = some 0
      ∧ pAddr (params overlayLoad) 4 = some 0x80000 ∧ (0x80000 : Addr).toNat % 16 = 0
      ∧ (0x80000 : Addr).toNat + 192 ≤ 2 ^ 36 ∧ (on.group 0).defined = true ∧ (on.group 0).overlayPid ≠ none
      ∧ (let s := commandRead (.overlayLoad 0);
        s.outstanding.map (·.read.owner) = [.command] ∧ s.work = some (.overlayLoad 0) ∧ s.intake = queued :: [queued])
      ∧ goodSync startPacket = true ∧ goodSync (startPacket.set 0 0) = false := by decide +kernel

/-- STATUS SNAPSHOT of the part. -/
def snapshot : List Byte := [3, 0, 0, 0, 0, 0, 8, 0, 0]

theorem witness_SnapshotIsWrittenWholeInOrder :
    ready (cmd snapshot) on = true
      ∧ (snapshotRecord (pByte (params snapshot) 0) (params snapshot) (takenState 0x04 5 (cmd snapshot) on)).isSome = true
      ∧ pAddr (params snapshot) 4 = some 0x80000 ∧ (0x80000 : Addr).toNat % 16 = 0
      ∧ (0x80000 : Addr).toNat + 256 ≤ 2 ^ 36 ∧ on.snapshotClash 0x80000 = false
      ∧ (let s := commandRead (.snapshot 0x80000 (zeros 256) 16);
        s.work = some (.snapshot 0x80000 (zeros 256) 16) ∧ s.intake = queued :: [queued])
      ∧ pIndex 48 (params [1, 47]) 1 = some 47 ∧ pIndex 32 (params [2, 31]) 1 = some 31 := by decide +kernel

/-- Service 0 with a break SCHEDULED on a channel. -/
def scheduled (bound : Bool) : State :=
  { withService (fun v =>
      { v with schedule := [entry], avails := if bound then vset v.avails 0 (some binding) else v.avails }) on with
    bank := [{ deadline := 90000, owner := .brk 0 7 }] }

theorem witness_ChannelExpiryRunsPreRollCheck :
    (scheduled true).deferred = [] ∧ before (89999 : Stamp) 90000 = true ∧ atOrAfter (90000 : Stamp) 90000 = true
      ∧ ((scheduled true).service 0).findEntry 7 = some entry ∧ entry.state = .scheduled
      ∧ vget ((scheduled true).service 0).avails 0 = some binding ∧ (scheduled true).mode = .active
      ∧ ((scheduled true).source 0).defined = true ∧ ((scheduled true).source 0).attachment = none
      ∧ vget ((scheduled false).service 0).avails 0 = none
      ∧ (let s := { withService (fun v => { v with slotA := some prog }) on with
            bank := [{ deadline := 90000, owner := .loc 0 .a }] };
        (s.service 0).slot .a = some prog ∧ prog.state = .loaded ∧ s.mode = .active)
      ∧ (((withSource (fun _ => Source.free) (scheduled true)).source binding.source).defined = false
        ∧ (withSource (fun _ => Source.free) (scheduled true)).mode = .active)
      ∧ (let s := withSource (fun r => { r with attachment := some (.brk 1 7) }) (scheduled true);
        (s.source binding.source).attachment = some (.brk 1 7) ∧ InsOwner.brk 1 7 ≠ .brk 0 7
          ∧ InsOwner.brk 1 7 ≠ .loc 0 .a)
      ∧ (inMode .bypass (scheduled true)).mode ≠ .active := by decide +kernel

theorem witness_ChannelExpiry_calm : Calm (scheduled true) := rfl

theorem witness_StaleStampsMakeOwnersDepart :
    farAfter (0x40015F90 : Stamp) entry.splice = true ∧ ((scheduled true).service 0).findEntry 7 = some entry
      ∧ entry.state ≠ .active
      ∧ (let e := { activeEntry with ret := some { stamp := 90000, origin := .cueIn } };
        ({ svc with schedule := [e] }.findEntry 7 = some e ∧ e.state = .active
          ∧ farAfter (0x40015F90 : Stamp) 90000 = true))
      ∧ ({ svc with slotA := some prog }.slot .a = some prog ∧ prog.state ≠ .running
        ∧ farAfter (0x40015F90 : Stamp) prog.start = true)
      ∧ ((onLocal svc).slot .a = some runningProg ∧ runningProg.state = .running
        ∧ farAfter (0x4002BF20 : Stamp) runningProg.stop = true) := by decide +kernel

theorem witness_LeavingOwnersAreRemoved :
    ((scheduled true).service 0).findEntry 7 = some entry ∧ entry.state ≠ .active
      ∧ (onBreak 0 1 svc).findEntry 7 = some activeEntry ∧ activeEntry.state = .active
      ∧ activeEntry.binding = some binding ∧ (onLocal svc).slot .a = some runningProg ∧ runningProg.state = .running
      ∧ prog.state ≠ .running := by decide +kernel

theorem witness_PreRollIsArmedCheckedOrUntimed :
    ((scheduled true).service 0).findEntry 7 = some entry
      ∧ later (entry.splice - BitVec.ofNat 32 (2000 * 90)) 90000 = false ∧ entry.state = .scheduled
      ∧ later ((270001 : Stamp) - BitVec.ofNat 32 (2000 * 90)) 90000 = true
      ∧ (full.bank.tail).length < 64 ∧ 64 ≤ full.bank.length := by decide +kernel

/-- The link enabled with a frame in hand. -/
def framed (bytes : List Byte) (s : State) : State :=
  withLink (fun l => { l with enabled := true, frame := some { Frame.begun with bytes := bytes } }) s

def armed (s : State) : State := withLink (fun l => { l with arm := some { group := 0, level := 3 } }) s
def alerting (s : State) : State := { s with alerts := vset s.alerts 0 (some alert) }

inductive TestsBelow9

theorem witness_ActivationStartsOrRaisesAlert :
    ready (cmd [0, 3]) on = true ∧ (on.group 0).defined = true ∧ (pByte (params [0, 3]) 0).toNat = 0
      ∧ (pByte (params [0, 3]) 1).toNat = 3
      ∧ (on.mode = .active ∧ on.slotOfGroup 0 = none ∧ (on.group 0).sourceCheck on = none ∧ on.freeAlert = some 0)
      ∧ (let s := armed (framed [0x02] on);
        (s.completeFrame 0x02).isSome = true ∧ s.link.arm = some { group := 0, level := 3 } ∧ s.slotOfGroup 0 = none
          ∧ s.freeAlert = some 0)
      ∧ ((alerting on).slotOfGroup 0 = some 0 ∧ (alerting on).alert 0 = some alert ∧ alert.level < 3)
      ∧ ((framed [0x02] on).completeFrame 0x02).isSome = true ∧ (framed [0x02] on).link.arm = none
      ∧ (inMode .bypass (armed (framed [0x02] on))).mode ≠ .active
      ∧ (withLink id (framed [0x02] State.reset)).link.arm = none
      ∧ ((framed [0x02] State.reset).completeFrame 0x02).isSome = true := by decide +kernel

/-- Three alerts that cover service 0: the middle one of the highest level, of two of that level the one activated first,
with the numbers counted on from 0xFFFFFFF0. -/
theorem witness_Activation_gives_the_owner :
    (let a (level : Nat) (number : BitVec 32) : Alert := { alert with level := level, number := number };
      ((on.service 0).exempt = false ∧ (on.group alert.group).mask.getLsbD 0 = true)
        ∧ (a 1 0xFFFFFFF1).level < (a 2 0xFFFFFFF5).level
        ∧ ((a 2 3).level = (a 2 0xFFFFFFF5).level
          ∧ ((a 2 0xFFFFFFF5).number - 0xFFFFFFF0).toNat < ((a 2 3).number - 0xFFFFFFF0).toNat
          ∧ ((a 2 3).number - 0xFFFFFFF0).toNat < 2 ^ 31)
        ∧ ({ on with alerts := #v[some (a 1 0xFFFFFFF1), some (a 2 0xFFFFFFF5), none, some (a 2 3)] }).ownerOf 0 = some 1)
      ∧ ({ svc with exempt := true }).exempt = true ∧ on.alert 0 = none := by decide +kernel

/-- A group with a LOOP slate that preempts, and one whose sources are FREE or STREAM. -/
def slateGroup : AlertGroup := { group with slate := some 1, preempt := true }
def sourcing (audio slate : SourceIx) : State :=
  { on with groups := vset on.groups 0 { group with audio := some audio, slate := some slate } }

/-- Every alert slot ACTIVE, for groups 4 to 7. -/
def noAlert : State :=
  { on with alerts := #v[some { alert with group := 4 }, some { alert with group := 5 }, some { alert with group := 6 },
      some { alert with group := 7 }] }

theorem witness_Activation_checks :
    ready (cmd [0, 3]) (inMode .bypass on) = true ∧ (inMode .bypass on).mode ≠ .active
      ∧ (ready (cmd [0, 1]) (alerting on) = true ∧ (alerting on).mode = .active ∧ 1 ≤ alert.level)
      ∧ ((sourcing 2 1).group 0).sourceCheck (sourcing 2 1) = some .notDefined
      ∧ ((sourcing 1 0).group 0).sourceCheck (sourcing 1 0) = some .badParam
      ∧ ((sourcing 1 1).group 0).sourceCheck (sourcing 1 1) = none
      ∧ ((on.source 2).config = none ∧ (on.source 0).isLoop = false ∧ (on.source 1).isLoop = true)
      ∧ (noAlert.slotOfGroup 0 = none ∧ (noAlert.group 0).sourceCheck noAlert = none ∧ noAlert.freeAlert = none)
      ∧ (noAlert.slotOfGroup 7 = some 3 ∧ (alerting on).freeAlert = some 1)
      ∧ (let s := armed (framed [0x02] (alerting on));
        s.slotOfGroup 0 = some 0 ∧ (s.completeFrame 0x02).isSome = true ∧ s.mode = .active
          ∧ s.link.arm = some { group := 0, level := 3 } ∧ alert.level < 3) := by decide +kernel

/-- Each kind of component in each alert state under a group with and without a slate source, and under none. -/
theorem witness_Components_under_an_owner :
    (let comps : List Component := [.audio, .video, .data].flatMap fun k =>
        [AlertState.none, .pending, .taken].map fun a => { audio with kind := k, alert := a, cursor := 3 };
      let seen (g : Option AlertGroup) : List (AlertState × Nat) :=
        (({ svc with comps := comps, overlayNulls := 9 }).giveOwner (some 2) g).comps.map fun c : Component => (c.alert, c.cursor);
      seen (some slateGroup) =
          [(.pending, 0), (.pending, 0), (.taken, 0), (.pending, 0), (.pending, 0), (.taken, 0), (.none, 3), (.none, 3),
           (.none, 3)]
        ∧ (seen (some group)).drop 3 = List.replicate 6 (.none, 3) ∧ seen none = List.replicate 9 (.none, 3))
      ∧ (on.ownerOf 0 = (on.service 0).owner ∧ (alerting on).ownerOf 0 = some 0 ∧ (on.service 0).owner ≠ some 0)
      ∧ ((withService (fun v => { v with owner := some 0 }) on).ownerOf 0 = none
        ∧ ((withService (fun v => { v with owner := some 0 }) on).service 0).owner ≠ none)
      ∧ (on.service 0).window ≠ none ∧ (on.service 47).window = none := by decide +kernel

/-- An alert that preempts takes service 0, whose break is ACTIVE: the break ends. -/
theorem witness_Preemption :
    (let s := { withService (fun v => { onBreak 0 1 v with schedule := [activeEntry] }) on with
        groups := vset on.groups 0 slateGroup };
      let t := recompute 0 (alerting s);
      (t.service 0).owner = some 0 ∧ (s.service 0).owner = none ∧ (t.group 0).preempt = true
        ∧ (t.service 0).activeHead = some activeEntry ∧ ((preempt s t).service 0).schedule = []) := by decide +kernel

theorem witness_AlertsEndAndFreeTheirSlot :
    (alerting on).alert 0 = some alert ∧ ready (cmd [1, 0]) (alerting on) = true
      ∧ atOrAfter (5490000 : Stamp) alert.deadline = true ∧ before (5489999 : Stamp) alert.deadline = true
      ∧ pIndex 4 (params [1, 0]) 1 = some 0 ∧ pByte (params [1, 0]) 0 = 1
      ∧ pIndex 8 (params [2, 0]) 1 = some 0 ∧ pByte (params [2, 0]) 0 = 2 ∧ (alerting on).slotOfGroup 0 = some 0
      ∧ ((framed [0x03, 0] (alerting on)).completeFrame 0x03).isSome = true
      ∧ ((framed [0x03, 7] (alerting on)).completeFrame 0x03).isSome = true
      ∧ (framed [0x03, 7] (alerting on)).slotOfGroup 7 = none
      ∧ ((framed [0x03, 7] on).completeFrame 0x03).isSome = true ∧ on.alert 0 = none
      ∧ (group.audio = some 1 ∧ group.slate ≠ some 1 ∧ slateGroup.audio = slateGroup.slate ∧ group.audio ≠ some 31) := by
  decide +kernel

theorem witness_ArmAndClearSetPendingArm :
    (framed [0x01, 7, 3] on).completeFrame 0x01 = some { Frame.begun with bytes := [0x01, 7, 3] }
      ∧ ((framed [0x05] on).completeFrame 0x05).isSome = true := by decide +kernel

theorem witness_WatchdogLosesAndRegainsLink :
    (let s := framed [0x04] on; (s.completeFrame 0x04).isSome = true ∧ s.link.lost = false ∧ s.deferred = [])
      ∧ (let s := withLink (fun l => { l with lost := true, lostStamp := some 80000 }) (framed [0x04] on);
        (s.completeFrame 0x04).isSome = true ∧ s.link.lost = true ∧ s.link.lostStamp = some 80000)
      ∧ (let s := withLink (fun l => { l with period := some { expiry := 90000, seconds := 1 } }) on;
        s.link.period = some { expiry := 90000, seconds := 1 } ∧ atOrAfter (90000 : Stamp) 90000 = true
          ∧ before (89999 : Stamp) 90000 = true ∧ s.link.mark = false ∧ s.link.lost = false)
      ∧ (withLink (fun l => { l with mark := true }) on).link.mark = true := by decide +kernel

theorem witness_Watchdog_calm : Calm (framed [0x04] on) := rfl

theorem witness_LinkAnswersBytesAndStatusReads :
    on.link.frame = none ∧ (framed [] on).link.enabled = true
      ∧ (framed [0x04] on).link.frame = some { Frame.begun with bytes := [0x04] } ∧ (framed [0x04] on).deferred = []
      ∧ (let f := { Frame.begun with bytes := [0x80], sent := 1 };
        f.complete (framed [] on).link = false ∧ f.statusDone (framed [] on).link = true)
      ∧ (let f := { Frame.begun with bytes := [0x80], sent := 2 };
        f.complete (framed [] on).link = false ∧ f.statusDone (framed [] on).link = false ∧ f.nakedDisabled = false)
      ∧ ({ Frame.begun with bytes := [0x04] }).complete (framed [0x04] on).link = true
      ∧ (Frame.begun.complete on.link = false ∧ Frame.begun.statusDone on.link = false ∧ on.link.enabled = false)
      ∧ (withLink (fun l => { l with enabled := true }) on).link.frame = none
      ∧ ({ Frame.begun with bytes := [0x80], sample := some 0x10 }).bytes ≠ []
      ∧ (framed [0x04] on).link.frame.bind (·.sample) = none := by decide +kernel

inductive TestsBelow10

theorem witness_EnableActivatesPassivePart :
    ready (cmd [1, 60]) on = true ∧ (pByte (params [1, 60]) 0).toNat ≤ 1 ∧ 1 ≤ (pByte (params [1, 60]) 1).toNat
      ∧ (pByte (params [1, 60]) 1).toNat ≤ 60 ∧ (inMode .passive on).mode = .passive ∧ on.mode = .active
      ∧ (inMode .bypass on).mode = .bypass ∧ ¬(pByte (params [2, 60]) 0).toNat ≤ 1
      ∧ ¬(1 ≤ (pByte (params [0, 0]) 1).toNat) ∧ ¬((pByte (params [0, 61]) 1).toNat ≤ 60) := by decide +kernel

theorem witness_DisableEmptiesPartToPassive :
    ready (cmd []) on = true ∧ on.mode ≠ .passive ∧ (inMode .passive on).mode = .passive := by decide +kernel

/-- The part in BYPASS since a stamp. -/
def bypassed : State :=
  { on with modeControl := { on.modeControl with mode := .bypass, bypassStamp := some 80000, timer := some 90000 } }

theorem witness_RecoveryAndResumeReturnToActive :
    ready (cmd []) bypassed = true ∧ bypassed.modeControl.bypassStamp = some 80000
      ∧ bypassed.modeControl.timer = some 90000 ∧ atOrAfter (90000 : Stamp) 90000 = true
      ∧ before (89999 : Stamp) 90000 = true ∧ bypassed.mode = .bypass
      ∧ on.modeControl.timer = none ∧ on.modeControl.bypassStamp = none ∧ on.mode ≠ .bypass ∧ ready (cmd []) on = true := by
  decide +kernel

theorem witness_RoleSetWritesOneEntry :
    ready (cmd [63, 5]) on = true ∧ (pByte (params [63, 5]) 0).toNat = 63 ∧ (63 : RequesterId) ≠ 0
      ∧ roleOfCode (pByte (params [63, 5]) 1) = some .other ∧ 63 < (pByte (params [64, 1]) 0).toNat
      ∧ roleOfCode (pByte (params [1, 6]) 1) = none ∧ pByte (params [0, 1]) 0 = 0 := by decide +kernel

theorem witness_ErrorPolicySetsKind :
    ready (cmd [22, 1, 3]) on = true ∧ (pByte (params [22, 1, 3]) 0).toNat = 21 + 1
      ∧ (21 : Fin 22) ≠ ErrorKind.readTimeout.ix ∧ (pByte (params [22, 1, 3]) 1).toNat ≤ 1
      ∧ severityOfCode (pByte (params [22, 1, 3]) 2) = some .fatal ∧ (pByte (params [0, 1, 3]) 0).toNat = 0
      ∧ 22 < (pByte (params [23, 1, 3]) 0).toNat ∧ 1 < (pByte (params [1, 2, 3]) 1).toNat
      ∧ severityOfCode (pByte (params [1, 1, 4]) 2) = none ∧ (pByte (params [18, 0, 3]) 0).toNat = 18 := by
  decide +kernel

theorem witness_ErrorClearClearsNamedKinds :
    ready (cmd [0, 0x40, 0, 2, 1]) on = true ∧ (pByte (params [0, 0x40, 0, 2, 1]) 4).toNat = 1
      ∧ (pByte (params [0, 0, 0, 2, 0]) 4).toNat = 0 ∧ 1 < (pByte (params [0, 0, 0, 0, 2]) 4).toNat := by decide +kernel

/-- REPORT RING SET of a record count at 0x80000. -/
def ringSetParams (hi lo : Byte) : List Byte := [0, 0, 0, 0, 0, 0, 8, 0, 0, hi, lo]

theorem witness_RingSetDefinesOrUndefinesRing :
    ready (cmd (ringSetParams 0 16)) on = true ∧ pAddr (params (ringSetParams 0 16)) 4 = some 0x80000
      ∧ pField (params (ringSetParams 0 0)) 9 2 = 0 ∧ pField (params (ringSetParams 0 16)) 9 2 = 16
      ∧ (0x80000 : Addr).toNat % 32 = 0 ∧ (0x80000 : Addr).toNat + 32 * 4096 ≤ 2 ^ 36
      ∧ (on.meetsService 0x80000 512 || on.meetsSource 0x80000 512 || on.meetsControl controlSize 0x80000 512) = false
      ∧ on.ring.dropped = 0 ∧ full.ring.dropped ≠ 0
      ∧ pField (params (ringSetParams 0 15)) 9 2 = 15 ∧ pField (params (ringSetParams 0x10 0x01)) 9 2 = 4097
      ∧ on.meetsService 0x10000 512 = true := by decide +kernel

/-- A report ring of 16 records with some in use. -/
def reporting (producer : Nat) (dropped : BitVec 32) (overflow : Bool) : State :=
  { on with ring := { defn := some { base := 0x80000, count := 16 }, producer := producer, consumer := 0,
                      dropped := dropped, overflow := overflow } }

theorem witness_ReportsAndErrorsAreLogged :
    on.ring.defn = none ∧ (reporting 14 0 false).ring.defn = some { base := 0x80000, count := 16 }
      ∧ 1 ≤ 16 - 1 - (14 + 16 - 0) % 16 ∧ (reporting 13 1 false).ring.dropped ≠ 0 ∧ 2 ≤ 16 - 1 - (13 + 16 - 0) % 16
      ∧ 16 - 1 - (15 + 16 - 0) % 16 = 0 ∧ (reporting 15 0 true).ring.overflow = true
      ∧ (reporting 15 0 false).ring.overflow = false ∧ 16 - 1 - (14 + 16 - 0) % 16 < 2
      ∧ ErrorKind.readTimeout ≠ .reportOverflow ∧ (on.kindLog .readTimeout).severity = .fatal
      ∧ (on.kindLog .networkFormat).severity = .service ∧ (on.kindLog .readTimeout).masked = false
      ∧ on.firstError = none := by decide +kernel

/-- A masked kind, and an error of each action: a notice, a service's that is DEFINED, is not, or is not named, a fatal one. -/
theorem witness_Errors_and_their_actions :
    ((on.modKind ErrorKind.cueCheck.ix fun l => { l with masked := true }).kindLog .cueCheck).masked = true
      ∧ (on.kindLog .cueCheck).severity = .notice ∧ (on.kindLog .networkFormat).masked = false
      ∧ ((on.service 0).window ≠ none ∧ (on.service 47).window = none)
      ∧ (on.kindLog .reportOverflow).severity = .notice
      ∧ ({ on with deferred := [.hold (some 0), .fatal .readTimeout] }).deferred ≠ [] ∧ on.deferred = []
      ∧ (on.service 0).held = none ∧ ({ svc with held := some .control }).held ≠ none
      ∧ on.mode = .active ∧ (inMode .passive on).mode = .passive ∧ (inMode .bypass on).mode = .bypass
      ∧ on.modeControl.timer = none ∧ ({ on.modeControl with timer := some 7 }).timer ≠ none := by decide +kernel

/-- SERVICE DEFINE or COMPONENT SET of a service with one component, at 0x80000. -/
def defineParams (i : Byte) : List Byte :=
  [i, 1, 0x02, 0x00, 0, 0, 8, 0, 0, 0, 0, 16, 0, 0, 0, 0, 1, 0, 0x31]

theorem witness_ServiceDefineMakesFreshService :
    ready (cmd (defineParams 47)) on = true ∧ pIndex 48 (params (defineParams 47)) 0 = some 47
      ∧ (on.service 47).window = none ∧ pOptPid (params (defineParams 47)) 2 ≠ .malformed
      ∧ pComponents (params (defineParams 47)) (some 0x200) = some [video]
      ∧ pWindow (params (defineParams 47)) 16 = some { base := 0x80000, slots := 16 }
      ∧ on.windowClash { base := 0x80000, slots := 16 } = false := by decide +kernel

inductive TestsBelow11

theorem witness_ServiceRemoveLeavesUnusedRecord :
    ready (cmd [0]) on = true ∧ pIndex 48 (params [0]) 0 = some 0 ∧ (on.service 0).window ≠ none
      ∧ pIndex 48 (params [47]) 0 = some 47 ∧ (on.service 47).window = none := by decide +kernel

/-- SERVICE OPTIONS of service 0. -/
def optionParams (exempt limit : Byte) : List Byte := [0, exempt, 0x02, 0x00, 0x75, 0x30, 0x13, 0x88, limit]

theorem witness_ComponentSetAndOptionsReplaceFields :
    ready (cmd (defineParams 0)) on = true ∧ pIndex 48 (params (defineParams 0)) 0 = some 0
      ∧ (on.service 0).window ≠ none ∧ (on.service 0).mode = .network ∧ (on.service 0).owner = none
      ∧ pComponents (params (defineParams 0)) (on.service 0).cuePid = some [video]
      ∧ (onBreak 0 1 svc).mode ≠ .network ∧ (alerted.service 0).owner ≠ none
      ∧ pIndex 48 (params (optionParams 0 1)) 0 = some 0 ∧ pField (params (optionParams 0 1)) 4 2 = 30000
      ∧ pField (params (optionParams 0 1)) 6 2 = 5000 ∧ 1 ≤ (pByte (params (optionParams 0 1)) 8).toNat
      ∧ pOptPid (params (optionParams 0 1)) 2 = .present 0x200
      ∧ (∀ d ∈ (on.service 0).comps, some d.pid ≠ some 0x200)
      ∧ (pByte (params (optionParams 0 1)) 1).getLsbD 0 = false
      ∧ (pByte (params (optionParams 1 1)) 1).getLsbD 0 = true ∧ (on.service 0).exempt = false
      ∧ ¬(1 ≤ (pByte (params (optionParams 0 0)) 8).toNat) := by decide +kernel

theorem witness_ForceNetworkHoldsMaskedServices : ready (cmd [0, 0, 0, 0, 0, 1]) (alerting on) = true := by decide +kernel

theorem witness_ReleaseServiceClearsHeldFlag :
    ready (cmd [0]) on = true ∧ (pByte (params [0]) 0).toNat = 0
      ∧ ((withService (fun v => { v with held := some .error }) on).service 0).held = some .error
      ∧ (on.service 0).window ≠ none ∧ (on.service 0).held = none ∧ (pByte (params [47]) 0).toNat = 47
      ∧ (on.service 47).window = none ∧ 47 < (pByte (params [48]) 0).toNat := by decide +kernel

/-- SOURCE DEFINE of source 31 as a STREAM of 8 slots with minimum fill 8. -/
def streamDefine : List Byte := [31, 1, 0, 0, 0, 0, 8, 0, 0, 0, 0, 8, 0, 0, 8]

theorem witness_SourceCommandsSetRecord :
    ready (cmd streamDefine) on = true ∧ pIndex 32 (params streamDefine) 0 = some 31
      ∧ (on.source 31).config = none ∧ pByte (params streamDefine) 1 = 1
      ∧ pWindow (params streamDefine) 8 = some { base := 0x80000, slots := 8 } ∧ pField (params streamDefine) 12 3 ≤ 8
      ∧ on.windowClash { base := 0x80000, slots := 8 } = false
      ∧ pIndex 32 (params [0]) 0 = some 0 ∧ (on.source 0).config ≠ none ∧ (on.source 0).attachment = none
      ∧ (on.source 0).alertUsers = 0 ∧ (on.source 0).isStream = true ∧ (on.source 1).isLoop = true
      ∧ ((withSource (fun r => { r with attachment := some (.brk 0 7) }) on).source 0).attachment ≠ none := by
  decide +kernel

/-- AVAIL BIND of service 0, avail 15, source 0, component 0, one pair. -/
def bindParams : List Byte := [0, 15, 0, 1, 1, 0, 0, 0, 0, 0, 0, 0, 0, 0, 0, 0, 0, 0x50, 0]

theorem witness_AvailBindReplacesBinding :
    ready (cmd bindParams) on = true ∧ pIndex 48 (params bindParams) 0 = some 0
      ∧ pIndex 16 (params bindParams) 1 = some 15 ∧ pIndex 32 (params bindParams) 2 = some 0
      ∧ (on.service 0).window ≠ none ∧ (on.source 0).config ≠ none ∧ pByte (params bindParams) 3 ≠ 0
      ∧ (∀ n : Fin 8, (pByte (params bindParams) 3).getLsbD n = true → n < (on.service 0).comps.length)
      ∧ pPairs (params bindParams) (inReplaceSet (pByte (params bindParams) 3)) = some binding.remap := by decide +kernel

theorem witness_AvailUnbindClearsBinding :
    ready (cmd [0, 15]) on = true ∧ (pByte (params [0, 15]) 0).toNat = 0 ∧ (pByte (params [0, 15]) 1).toNat = 15
      ∧ (on.service 0).window ≠ none ∧ 47 < (pByte (params [48, 15]) 0).toNat
      ∧ 15 < (pByte (params [0, 16]) 1).toNat ∧ (pByte (params [47, 15]) 0).toNat = 47
      ∧ (on.service 47).window = none := by decide +kernel

/-- A break command of service 0 with event 7, a stamp, avail 15. -/
def breakParams (stamp : Nat) : List Byte := [0, 1, 0, 0, 0, 7] ++ beBytes 4 stamp ++ zeros 4 ++ [15, 0]

theorem witness_BreakInsertAndReturnWriteSchedule :
    ready (cmd (breakParams 270001)) on = true ∧ pIndex 48 (params (breakParams 270001)) 0 = some 0
      ∧ pIndex 16 (params (breakParams 270001)) 14 = some 15 ∧ on.mode ≠ .passive ∧ (on.service 0).window ≠ none
      ∧ pWord (params (breakParams 270001)) 2 = 7 ∧ pWord (params (breakParams 270001)) 6 = 270001
      ∧ svc.findEntry 7 = none ∧ svc.schedule.length < 4
      ∧ later ((270001 : Stamp) - BitVec.ofNat 32 (2000 * 90)) 90000 = true ∧ on.bank.length < 64
      ∧ later ((270000 : Stamp) - BitVec.ofNat 32 (2000 * 90)) 90000 = false
      ∧ before (72000 : Stamp) (90000 - BitVec.ofNat 32 (200 * 90)) = false
      ∧ before (71999 : Stamp) (90000 - BitVec.ofNat 32 (200 * 90)) = true
      ∧ ((full.service 0).findEntry 8 = none ∧ 4 ≤ (full.service 0).schedule.length)
      ∧ ((onBreak 0 1 svc).findEntry 7 = some activeEntry ∧ activeEntry.state = .active ∧ activeEntry.ret = none)
      ∧ before (89999 : Stamp) 90000 = true ∧ atOrAfter (90000 : Stamp) 90000 = true
      ∧ ({ svc with schedule := [entry] }.findEntry 7 = some entry ∧ entry.state ≠ .active ∧ entry.state ≠ .ready)
      ∧ ({ svc with schedule := [{ readyEntry with avail := 15 }] }.findEntry 7 = some { readyEntry with avail := 15 }
        ∧ readyEntry.state = .ready ∧ readyEntry.avail ≠ 15)
      ∧ (ready (cmd (breakParams 270001)) { on with bank := full.bank } = true
        ∧ 64 ≤ ({ on with bank := full.bank }).bank.length) := by decide +kernel

/-- LOCAL CANCEL of slot A of service 0 with a start stamp of 90 000. -/
def localCancel : List Byte := [0, 1, 0, 0, 0, 0] ++ beBytes 4 90000

theorem witness_CancelCommandsMakeOwnersLeave :
    ready (cmd (breakParams 0)) on = true ∧ pIndex 48 (params (breakParams 0)) 0 = some 0
      ∧ (pByte (params (breakParams 0)) 14).toNat < 16 ∧ { svc with schedule := [entry] }.findEntry 7 = some entry
      ∧ entry.state ≠ .active ∧ (onBreak 0 1 svc).findEntry 7 = some activeEntry ∧ svc.findEntry 7 = none
      ∧ on.mode ≠ .passive ∧ (onBreak 0 1 svc).activeHead = some activeEntry ∧ activeEntry.event = 7
      ∧ activeEntry.actualOut = some 80000 ∧ svc.activeHead = none
      ∧ letterOfCode (pByte (params localCancel) 1) = some .a ∧ pWord (params localCancel) 6 = 90000
      ∧ (onLocal svc).slot .a = some runningProg ∧ runningProg.start = 90000 ∧ runningProg.state = .running
      ∧ { svc with slotA := some prog }.slot .a = some prog ∧ prog.state ≠ .running ∧ svc.slot .a = none := by
  decide +kernel

/-- LOCAL LOAD of service 0 from source 0 with a selector and a start stamp, one pair. -/
def loadParams (sel : Byte) (start : Nat) : List Byte :=
  [0, sel, 0, 0, 1, 0] ++ beBytes 4 start ++ beBytes 4 (start + 90000) ++ [0, 0, 0, 0x50, 0]

/-- Service 0 with a local programme in slot A. -/
def loaded (s : SlotState) : Service := { svc with slotA := some { prog with state := s } }

theorem witness_LocalLoadFillsChosenSlot :
    ready (cmd (loadParams 0 270001)) on = true ∧ pIndex 48 (params (loadParams 0 270001)) 0 = some 0
      ∧ pIndex 32 (params (loadParams 0 270001)) 2 = some 0
      ∧ selectorOfCode (pByte (params (loadParams 0 270001)) 1) = some .nextFree
      ∧ pPairs (params (loadParams 0 270001)) (fun n => decide (n.val < svc.comps.length)) = some binding.remap
      ∧ on.mode ≠ .passive ∧ (on.service 0).window ≠ none ∧ (on.source 0).config ≠ none
      ∧ stampsOk 270001 360001 90000 = true ∧ stampsOk 270000 360000 90000 = true
      ∧ (chooseSlot svc .nextFree).toOption = some .a ∧ slotOrderOk svc .a 270001 360001 = true ∧ svc.slot .a = none
      ∧ later ((270001 : Stamp) - BitVec.ofNat 32 (2000 * 90)) 90000 = true ∧ on.bank.length < 64
      ∧ later ((270000 : Stamp) - BitVec.ofNat 32 (2000 * 90)) 90000 = false
      ∧ selectorOfCode (pByte (params (loadParams 1 270001)) 1) = some (.reload .a)
      ∧ (chooseSlot (loaded .ready) (.reload .a)).toOption = some .a
      ∧ (loaded .ready).slot .a = some { prog with state := .ready } ∧ prog.source = 0 ∧ prog.source ≠ 1
      ∧ (chooseSlot (loaded .loaded) (.reload .a)).toOption = some .a ∧ prog.state ≠ .ready
      ∧ 64 ≤ ({ on with bank := full.bank }).bank.length := by decide +kernel

inductive TestsBelow12

/-- LOCAL LOADs that fail a check of R117, one for each, and the ends of each range. -/
theorem witness_LocalLoad_checks :
    (let both (v : Service) : Service :=
        { v with slotA := some prog, slotB := some { prog with start := 180000, stop := 270000 } };
      (svc.slot svc.current = none ∧ (loaded .loaded).slot .a ≠ none ∧ (loaded .loaded).slot .b = none
        ∧ (both svc).slot .a ≠ none ∧ (both svc).slot .b ≠ none)
        ∧ (chooseSlot (both svc) .nextFree matches .error .full)
        ∧ (chooseSlot svc (.reload .b) matches .error .notDefined)
        ∧ (chooseSlot (loaded .running) (.reload .a) matches .error .busy)
        ∧ ((loaded .loaded).current = .a ∧ slotOrderOk (loaded .loaded) .b 180000 270000 = true
          ∧ slotOrderOk (loaded .loaded) .b 179999 270000 = false)
        ∧ (slotOrderOk (both svc) .a 90000 180000 = true ∧ slotOrderOk (both svc) .a 90000 180001 = false))
      ∧ (inMode .passive on).mode = .passive ∧ (on.service 47).window = none ∧ (on.source 31).config = none
      ∧ (pPairs (params [0, 0, 0, 0, 0]) fun _ => true) = none
      ∧ stampsOk 5 5 0 = false ∧ stampsOk 5 6 0 = true ∧ stampsOk 1 0x80000000 0x7FFFFFFF = true
      ∧ stampsOk 0 0x80000000 0x7FFFFFFF = false ∧ stampsOk 0 5 5 = false ∧ stampsOk 0 0x3FFFFFFF 0 = true
      ∧ stampsOk 0 0x40000000 0 = false
      ∧ pIndex 48 (params [48]) 0 = none ∧ pIndex 32 (params [0, 0, 32]) 2 = none
      ∧ 2 < (pByte (params [0, 3]) 1).toNat := by decide +kernel

/-- ALERT GROUP SET of group 7 with audio source 1. -/
def groupParams : List Byte := [7, 1, 0xFF, 1, 0xFF, 0xFF, 0, 0, 0, 60, 0, 0, 0, 0, 0, 0, 0, 0, 0, 0, 0, 1]

theorem witness_GroupAndLinkSettingsAreReplaced :
    ready (cmd groupParams) on = true
      ∧ (let p := params groupParams;
        (pByte p 0).toNat = 7 ∧ (pByte p 1).toNat = 1 ∧ pByte p 2 = 0xFF ∧ 1 ≤ (pByte p 3).toNat
          ∧ 1 ≤ pField p 8 2 ∧ pField p 8 2 ≤ 7200 ∧ pField p 4 2 = 0xFFFF ∧ pField p 16 6 = 1)
      ∧ (∀ k, on.alert k = none) ∧ (alerting on).alert 0 = some alert ∧ alert.group = 0
      ∧ (pByte (params (groupParams.set 0 0)) 0).toNat = 0
      ∧ (on.source 1).config = some { mode := .loop, window := loopWin } ∧ (on.source 0).config ≠ none
      ∧ (on.source 31).config = none ∧ (pByte (params (groupParams.set 2 31)) 2).toNat = 31
      ∧ pField (params ((groupParams.set 4 0x1F).set 5 0xFE)) 4 2 = 0x1FFE
      ∧ pField (params ((groupParams.set 4 0x1F).set 5 0xFF)) 4 2 = 0x1FFF
      ∧ pField (params ((groupParams.set 8 0x1C).set 9 0x20)) 8 2 = 7200
      ∧ pField (params ((groupParams.set 8 0x1C).set 9 0x21)) 8 2 = 7201 ∧ pField (params (groupParams.set 9 0)) 8 2 = 0
      ∧ (pByte (params (groupParams.set 3 0)) 3).toNat = 0 ∧ 7 < (pByte (params (groupParams.set 0 8)) 0).toNat
      ∧ 31 < (pByte (params (groupParams.set 1 32)) 1).toNat ∧ 31 < (pByte (params (groupParams.set 2 32)) 2).toNat
      ∧ pByte (params (groupParams.set 2 32)) 2 ≠ 0xFF
      ∧ pByte (params [1, 60]) 0 = 1 ∧ (pByte (params [1, 60]) 1).toNat ≤ 60 ∧ on.link.enabled = false
      ∧ ((framed [] on).link.enabled = true ∧ (framed [] on).link.period = none ∧ (pByte (params [1, 60]) 1).toNat ≠ 0)
      ∧ (pByte (params [1, 0]) 1).toNat = 0 ∧ pByte (params [0, 60]) 0 = 0 ∧ 1 < (pByte (params [2, 0]) 0).toNat
      ∧ 60 < (pByte (params [1, 61]) 1).toNat := by decide +kernel

end Sys2Proof.Tests
end

