-- ==== Sys2Proof/Proofs/ReleaseService.lean ====
section
/-! PROOF. A command row answered by an idle Command Unit, said once for all rows, and RELEASE SERVICE (R20). -/

namespace Sys2Proof.Machine

/-! ### Index parameters (R177) -/

/-- The parameter byte that is an index of the table reads as that index. -/
theorem pIndex_of_toNat_eq {n : Nat} {p : Params} {k : Nat} {i : Fin n} (h : (pByte p k).toNat = i.val) :
    pIndex n p k = some i := by
  have hlt : (pByte p k).toNat < n := h ▸ i.isLt
  rw [pIndex, dif_pos hlt]
  exact congrArg some (Fin.ext h)

/-- A parameter byte past the table's end is no index of it. -/
theorem pIndex_of_le {n : Nat} {p : Params} {k : Nat} (h : n ≤ (pByte p k).toNat) : pIndex n p k = none := by
  rw [pIndex, dif_neg (Nat.not_lt.mpr h)]

/-! ### DEFINED services -/

theorem Service.defined_of_window {v : Service} (h : v.window ≠ none) : v.defined = true :=
  Option.isSome_iff_ne_none.mpr h

theorem Service.not_defined_of_window {v : Service} (h : v.window = none) : v.defined = false := by
  rw [Service.defined, h, Option.isSome_none]

/-! ### The state in which a command executes -/

@[simp] theorem takenState_service (code : Byte) (now : Stamp) (c : CellCommand) (s : State) (i : ServiceIx) :
    (takenState code now c s).service i = s.service i := rfl

/-- A command taken by an idle Command Unit begins with no action put off. -/
theorem Idle.takenState_deferred {c : CellCommand} {s : State} (h : Idle c s) (code : Byte) (now : Stamp) :
    (takenState code now c s).deferred = [] := by
  obtain ⟨_, _, hdeferred⟩ := h
  exact hdeferred

/-- Taking a command leaves the Error Log's policies as they are. -/
theorem takenState_calm {code : Byte} {now : Stamp} {c : CellCommand} {s : State} (h : Calm s) :
    Calm (takenState code now c s) := h

/-! ### A command row that is answered -/

/-- A command row that an idle Command Unit answers with an effect that puts no action off (R156 to R158, log 4). -/
theorem exec_afterReply {x : Instr} {code : Byte} {c : CellCommand} {r : Reply} {f : State → State} {s : State}
    (hx : commandOf x = some (code, c)) (hw : x.wellFormed = true) (hi : Idle c s)
    (hrun : runCommand (entryOf code c) (takenState code x.now c s) = (.answered r, f (takenState code x.now c s)))
    (hd : (f (takenState code x.now c s)).deferred = []) :
    exec x s = .next (afterReply code x.now c r f s) := by
  rw [exec_commandOf hx hw, takeCommand_effect hi hrun hd]

/-- A command row that an idle Command Unit answers with no effect, refused or done. -/
theorem exec_afterReply_id {x : Instr} {code : Byte} {c : CellCommand} {r : Reply} {s : State}
    (hx : commandOf x = some (code, c)) (hw : x.wellFormed = true) (hi : Idle c s)
    (hrun : runCommand (entryOf code c) (takenState code x.now c s) = (.answered r, takenState code x.now c s)) :
    exec x s = .next (afterReply code x.now c r id s) :=
  exec_afterReply hx hw hi hrun (hi.takenState_deferred code x.now)

/-! ### RELEASE SERVICE, one lemma for each answer (R20) -/

theorem cmdReleaseService_held {p : Params} {i : ServiceIx} {cause : HeldCause} {s : State}
    (hp : (pByte p 0).toNat = i.val) (hw : (s.service i).window ≠ none) (hh : (s.service i).held = some cause) :
    cmdReleaseService p s = done 1 (releaseHeld i cause s) := by
  simp [cmdReleaseService, pIndex_of_toNat_eq hp, Service.defined_of_window hw, hh]

theorem cmdReleaseService_clear {p : Params} {i : ServiceIx} {s : State}
    (hp : (pByte p 0).toNat = i.val) (hw : (s.service i).window ≠ none) (hh : (s.service i).held = none) :
    cmdReleaseService p s = done 0 s := by
  simp [cmdReleaseService, pIndex_of_toNat_eq hp, Service.defined_of_window hw, hh]

theorem cmdReleaseService_unused {p : Params} {i : ServiceIx} {s : State}
    (hp : (pByte p 0).toNat = i.val) (hw : (s.service i).window = none) :
    cmdReleaseService p s = refuse .notDefined s := by
  simp [cmdReleaseService, pIndex_of_toNat_eq hp, Service.not_defined_of_window hw]

theorem cmdReleaseService_badIndex {p : Params} {s : State} (hp : 47 < (pByte p 0).toNat) :
    cmdReleaseService p s = refuse .badParam s := by
  simp [cmdReleaseService, pIndex_of_le hp]

/-- Clearing a held flag puts no action off while REPORT-OVERFLOW is a NOTICE: its one report puts none off. -/
theorem releaseHeld_deferred {i : ServiceIx} {cause : HeldCause} {s : State} (h : Calm s) :
    (releaseHeld i cause s).deferred = s.deferred :=
  offer_deferred _ (s := s.modService i fun v => { v with held := none }) h

/-! ### RELEASE SERVICE, the row -/

/-- On a held service the row clears the flag and writes SERVICE RELEASED with the cause that was held (R20, R21). -/
theorem exec_releaseService_held {now : Stamp} {c : CellCommand} {i : ServiceIx} {cause : HeldCause} {s : State}
    (hi : Idle c s) (hc : Calm s) (hp : (pByte c.params 0).toNat = i.val) (hw : (s.service i).window ≠ none)
    (hh : (s.service i).held = some cause) :
    exec (.releaseService now c) s = .next (afterReply 0x15 now c (.done 1) (releaseHeld i cause) s) := by
  have hdeferred : (releaseHeld i cause (takenState 0x15 now c s)).deferred = [] := by
    rw [releaseHeld_deferred (takenState_calm hc), hi.takenState_deferred]
  exact exec_afterReply (x := .releaseService now c) rfl rfl hi (cmdReleaseService_held hp hw hh) hdeferred

/-- An answer of RELEASE SERVICE that changes nothing, as the row. -/
theorem exec_releaseService_unchanged {now : Stamp} {c : CellCommand} {r : Reply} {s : State} (hi : Idle c s)
    (hrun : cmdReleaseService c.params (takenState 0x15 now c s) = (.answered r, takenState 0x15 now c s)) :
    exec (.releaseService now c) s = .next (afterReply 0x15 now c r id s) :=
  exec_afterReply_id (x := .releaseService now c) rfl rfl hi hrun

/-- Settles O53, one row lemma for each answer that R20 gives. -/
theorem releaseServiceClearsHeldFlag : Obligations.ReleaseServiceClearsHeldFlag := by
  intro now c s hi
  refine ⟨fun i cause hp hw hh hc => ?held, fun i hp hw hh => ?clear, fun i hp hw => ?unused, fun hp => ?badIndex⟩
  case held =>
    -- The command executes at the stamp `now`, on the services of `s`: the stated effect is `releaseHeld` there.
    exact exec_releaseService_held hi hc hp hw hh
  case clear => exact exec_releaseService_unchanged hi (cmdReleaseService_clear hp hw hh)
  case unused => exact exec_releaseService_unchanged hi (cmdReleaseService_unused hp hw)
  case badIndex => exact exec_releaseService_unchanged hi (cmdReleaseService_badIndex hp)

end Sys2Proof.Machine
end

