-- ==== Sys2Proof/Proofs/RoleSet.lean ====
section
/-! PROOF. REQUESTER ROLE SET writes one entry of the Requester Role Map or is refused BAD-PARAM (R24, R25). -/

namespace Sys2Proof.Machine

/-! ### REQUESTER ROLE SET, one lemma for each answer (R25) -/

/-- The entry takes the new role: the ID is of the map and not 0, and the code is a role. -/
theorem cmdRequesterRoleSet_written {p : Params} {q : RequesterId} {role : Role} {s : State}
    (hp : (pByte p 0).toNat = q.val) (hq : q ≠ 0) (hr : roleOfCode (pByte p 1) = some role) :
    cmdRequesterRoleSet p s = done 0 { s with roles := vset s.roles q role } := by
  have hval : q.val ≠ 0 := Fin.val_ne_zero_iff.mpr hq
  simp [cmdRequesterRoleSet, pIndex_of_toNat_eq hp, hr, hval]

theorem cmdRequesterRoleSet_badIndex {p : Params} {s : State} (hp : 63 < (pByte p 0).toNat) :
    cmdRequesterRoleSet p s = refuse .badParam s := by
  simp [cmdRequesterRoleSet, pIndex_of_le hp]

theorem cmdRequesterRoleSet_badRole {p : Params} {s : State} (hr : roleOfCode (pByte p 1) = none) :
    cmdRequesterRoleSet p s = refuse .badParam s := by
  simp [cmdRequesterRoleSet, hr]

/-- Entry 0 stays CONTROL: ID 0 is refused whatever the role code is. -/
theorem cmdRequesterRoleSet_zero {p : Params} {s : State} (hp : pByte p 0 = 0) :
    cmdRequesterRoleSet p s = refuse .badParam s := by
  have hix : pIndex 64 p 0 = some 0 := pIndex_of_toNat_eq (by rw [hp]; rfl)
  cases hr : roleOfCode (pByte p 1) with
  | none => exact cmdRequesterRoleSet_badRole hr
  | some role => simp [cmdRequesterRoleSet, hix, hr]

/-! ### REQUESTER ROLE SET, the row -/

/-- The row whose command is accepted: the write of the map puts no action off. -/
theorem exec_requesterRoleSet_written {now : Stamp} {c : CellCommand} {q : RequesterId} {role : Role} {s : State}
    (hi : Idle c s) (hp : (pByte c.params 0).toNat = q.val) (hq : q ≠ 0)
    (hr : roleOfCode (pByte c.params 1) = some role) :
    exec (.requesterRoleSet now c) s =
      .next (afterReply 0x05 now c (.done 0) (fun u => { u with roles := vset u.roles q role }) s) :=
  exec_afterReply (x := .requesterRoleSet now c) (f := fun u => { u with roles := vset u.roles q role }) rfl rfl hi
    (cmdRequesterRoleSet_written hp hq hr) (hi.takenState_deferred 0x05 now)

/-- The row whose command is refused leaves the map as it is. -/
theorem exec_requesterRoleSet_refused {now : Stamp} {c : CellCommand} {s : State} (hi : Idle c s)
    (hrun : ∀ u, cmdRequesterRoleSet c.params u = refuse .badParam u) :
    exec (.requesterRoleSet now c) s = .next (afterReply 0x05 now c (.refused .badParam) id s) :=
  exec_afterReply_id (x := .requesterRoleSet now c) rfl rfl hi (hrun _)

/-- Settles O44, by the row accepted and the row refused for each of the three reasons of R25. -/
theorem roleSetWritesOneEntry : Obligations.RoleSetWritesOneEntry := by
  intro now c s hi
  refine ⟨fun q role hp hq hr => exec_requesterRoleSet_written hi hp hq hr, fun hbad => ?refused⟩
  case refused =>
    refine exec_requesterRoleSet_refused hi fun u => ?_
    obtain hp | hr | hp := hbad
    · exact cmdRequesterRoleSet_badIndex hp
    · exact cmdRequesterRoleSet_badRole hr
    · exact cmdRequesterRoleSet_zero hp

end Sys2Proof.Machine
end

