-- ==== Sys2Proof/Proofs/AvailUnbind.lean ====
section
/-! PROOF. AVAIL UNBIND leaves one avail of one service unbound, or is refused BAD-PARAM or NOT-DEFINED (R75). -/

namespace Sys2Proof.Machine

/-! ### Setting an avail (R74, R75) -/

/-- The result word of a set avail is 0 exactly when the avail was unbound before. -/
theorem setAvail_eq (i : ServiceIx) (a : AvailIx) (b : Option Binding) (s : State) :
    setAvail i a b s = done (if vget (s.service i).avails a = none then 0 else 1)
      (s.modService i fun v => { v with avails := vset v.avails a b }) := by
  rw [setAvail]
  cases vget (s.service i).avails a with
  | none => rfl
  | some _ => rfl

/-! ### AVAIL UNBIND, one lemma for each answer (R75) -/

theorem cmdAvailUnbind_unbinds {p : Params} {i : ServiceIx} {a : AvailIx} {s : State}
    (hp : (pByte p 0).toNat = i.val) (ha : (pByte p 1).toNat = a.val) (hw : (s.service i).window ≠ none) :
    cmdAvailUnbind p s = setAvail i a none s := by
  simp [cmdAvailUnbind, pIndex_of_toNat_eq hp, pIndex_of_toNat_eq ha, Service.defined_of_window hw]

theorem cmdAvailUnbind_unused {p : Params} {i : ServiceIx} {a : AvailIx} {s : State}
    (hp : (pByte p 0).toNat = i.val) (ha : (pByte p 1).toNat = a.val) (hw : (s.service i).window = none) :
    cmdAvailUnbind p s = refuse .notDefined s := by
  simp [cmdAvailUnbind, pIndex_of_toNat_eq hp, pIndex_of_toNat_eq ha, Service.not_defined_of_window hw]

theorem cmdAvailUnbind_badService {p : Params} {s : State} (hp : 47 < (pByte p 0).toNat) :
    cmdAvailUnbind p s = refuse .badParam s := by
  simp [cmdAvailUnbind, pIndex_of_le hp]

/-- An avail past the table is refused BAD-PARAM whatever the service is. -/
theorem cmdAvailUnbind_badAvail {p : Params} {s : State} (ha : 15 < (pByte p 1).toNat) :
    cmdAvailUnbind p s = refuse .badParam s := by
  simp [cmdAvailUnbind, pIndex_of_le ha]

/-! ### AVAIL UNBIND, the row -/

/-- On a DEFINED service the row clears the one avail of the one service: it raises nothing, so no action is put off. -/
theorem exec_availUnbind_unbinds {now : Stamp} {c : CellCommand} {i : ServiceIx} {a : AvailIx} {s : State}
    (hi : Idle c s) (hp : (pByte c.params 0).toNat = i.val) (ha : (pByte c.params 1).toNat = a.val)
    (hw : (s.service i).window ≠ none) :
    exec (.availUnbind now c) s = .next (afterReply 0x21 now c
      (.done (if vget (s.service i).avails a = none then 0 else 1))
      (fun u => u.modService i fun v => { v with avails := vset v.avails a none }) s) := by
  have hrun := (cmdAvailUnbind_unbinds (s := takenState 0x21 now c s) hp ha hw).trans (setAvail_eq ..)
  exact exec_afterReply (x := .availUnbind now c) rfl rfl hi hrun (hi.takenState_deferred 0x21 now)

/-- The row whose command is refused leaves every binding as it is. -/
theorem exec_availUnbind_refused {now : Stamp} {c : CellCommand} {code : RefusalCode} {s : State} (hi : Idle c s)
    (hrun : cmdAvailUnbind c.params (takenState 0x21 now c s) = refuse code (takenState 0x21 now c s)) :
    exec (.availUnbind now c) s = .next (afterReply 0x21 now c (.refused code) id s) :=
  exec_afterReply_id (x := .availUnbind now c) rfl rfl hi hrun

/-- Settles O56, by the row that unbinds and the row refused for each of the two codes of R75. -/
theorem availUnbindClearsBinding : Obligations.AvailUnbindClearsBinding := by
  intro now c s hi
  refine ⟨fun i a hp ha hw => ?unbinds, fun hbad => ?badParam, fun i a hp ha hw => ?unused⟩
  case unbinds =>
    -- Taking the command leaves the services as they are: the stated record is the one `modService` writes.
    exact exec_availUnbind_unbinds hi hp ha hw
  case badParam =>
    refine exec_availUnbind_refused hi ?_
    obtain hp | ha := hbad
    · exact cmdAvailUnbind_badService hp
    · exact cmdAvailUnbind_badAvail ha
  case unused => exact exec_availUnbind_refused hi (cmdAvailUnbind_unused hp ha hw)

end Sys2Proof.Machine
end

