-- ==== Sys2Proof/Proofs/ConsumerIndex.lean ====
section
/-! PROOF. A consumer index handed over is taken below N of a defined ring, and ignored otherwise (R173). -/

namespace Sys2Proof.Machine

/-! ### Taking a consumer index (R173) -/

theorem takeConsumer_of_lt {value : BitVec 32} {d : RingDef} {s : State} (hd : s.ring.defn = some d)
    (hv : value.toNat < d.count) :
    takeConsumer value s = { s with ring := { s.ring with consumer := value.toNat } } := by
  simp only [takeConsumer, hd, if_pos hv]

/-- With no ring defined, or a value that is not below its record count, nothing is taken. -/
theorem takeConsumer_of_le {value : BitVec 32} {s : State}
    (h : ∀ d, s.ring.defn = some d → d.count ≤ value.toNat) : takeConsumer value s = s := by
  cases hd : s.ring.defn with
  | none => simp only [takeConsumer, hd]
  | some d => simp only [takeConsumer, hd, if_neg (Nat.not_lt.mpr (h d hd))]

/-! ### The row -/

/-- CONSUMER_INDEX_WRITE is the hand-over to the Report Writer alone (log 5). -/
theorem exec_consumerIndexWrite (now : Stamp) (value : BitVec 32) (s : State) :
    exec (.consumerIndexWrite now value) s = .next (takeConsumer value (s.at now)) := rfl

/-- Settles O13, by the index taken and the index ignored: the stamp leaves the ring as it is. -/
theorem consumerIndexTakenBelowCount : Obligations.ConsumerIndexTakenBelowCount := by
  intro now value s
  refine ⟨fun d hd hv => ?taken, fun h => ?ignored⟩
  case taken =>
    have hd' : (s.at now).ring.defn = some d := hd
    rw [exec_consumerIndexWrite, takeConsumer_of_lt hd' hv]
    rfl
  case ignored =>
    have h' : ∀ d, (s.at now).ring.defn = some d → d.count ≤ value.toNat := h
    rw [exec_consumerIndexWrite, takeConsumer_of_le h']
    rfl

end Sys2Proof.Machine
end

