-- ==== Sys2Proof/Proofs/CompletedCommand.lean ====
section
/-! PROOF. What the completion of a command leaves in the state, said once for all commands (R158). -/

namespace Sys2Proof.Machine

/-! ### What a completion leaves as it is -/

/-- A write-back is one write handed to the memory port. -/
theorem writeBack_reported (cell : CellIx) (code tag : Byte) (r : Reply) (s : State) :
    Reported s (writeBack cell code tag r s) := (Reported.refl s).writeInternal _ _

/-- A completion changes the Command Unit and what the write-back has handed over, and nothing else. -/
theorem complete_eq (q : QueueEntry) (r : Reply) (s : State) :
    complete q r s = { s with
      emitted := (writeBack q.cell q.code q.tag r s).emitted
      issueQueue := (writeBack q.cell q.code q.tag r s).issueQueue
      cells := vset s.cells q.cell { vget s.cells q.cell with busy := false }
      intake := s.intake.tail
      work := none } := by
  rw [complete, writeBack, writeInternal, handWrite_eq]
  rfl

theorem complete_samePath (q : QueueEntry) (r : Reply) (s : State) : SamePath s (complete q r s) := by
  have hfollow : WritesFollow s (complete q r s) := (writeBack_reported q.cell q.code q.tag r s).follow
  rw [complete_eq] at hfollow ⊢
  exact ⟨rfl, rfl, rfl, rfl, rfl, hfollow, rfl⟩

/-- The write-back is what a completion hands over last. -/
theorem lastHanded_complete (q : QueueEntry) (r : Reply) (s : State) :
    lastHanded (complete q r s)
      = some (.memWrite true (s.cellAddr q.cell) (enabledBytes (writeBackBytes q.code q.tag r))) :=
  handWrite_last ..

/-! ### A command answered -/

/-- The command that executes alone in the queue is answered by its completion: its effect has left the straps, the
cells and the queue alone and has put no action off. -/
theorem complete_answered {code : Byte} {c : CellCommand} {r : Reply} {s u : State} (hstraps : u.straps = s.straps)
    (hcells : u.cells = vset s.cells c.cell { shadow := c.params, busy := true })
    (hintake : u.intake = [entryOf code c]) (hdeferred : u.deferred = []) :
    Answered code c r s (complete (entryOf code c) r u) := by
  refine ⟨?handed, ?cells, ?intake, rfl, ?deferred⟩
  case handed =>
    rw [lastHanded_complete]
    simp only [writeBackOf, entryOf, State.cellAddr, State.strapBase, hstraps]
  case cells =>
    rw [complete_eq]
    simp [hcells, entryOf]
  case intake => rw [complete_intake, hintake, List.tail_cons]
  case deferred => rw [complete_deferred, hdeferred]

end Sys2Proof.Machine
end

