-- ==== Sys2Proof/Proofs/ErrorClear.lean ====
section
/-! PROOF. ERROR CLEAR clears the kinds its mask names and, when asked, the first-error record (R167). -/

namespace Sys2Proof.Machine

/-! ### Clearing the named kinds -/

/-- One kind's record in the Error Log cleared: policy and severity stay (R167). -/
def KindLog.cleared (l : KindLog) : KindLog := { l with status := false, counter := 0 }

@[simp] theorem KindLog.cleared_cleared (l : KindLog) : l.cleared.cleared = l.cleared := rfl

/-- One kind treated as the mask says: the step of `clearKinds`. -/
def clearNamed (mask : BitVec 32) (t : State) (k : Fin 22) : State :=
  if namedKind mask k then t.modKind k KindLog.cleared else t

theorem clearKinds_eq_foldl (mask : BitVec 32) (s : State) :
    clearKinds mask s = allKinds.foldl (clearNamed mask) s := rfl

/-- Treating a kind writes the Error Log's records only. -/
theorem clearNamed_eq (mask : BitVec 32) (t : State) (k : Fin 22) :
    clearNamed mask t k = { t with kinds := (clearNamed mask t k).kinds } := by
  unfold clearNamed
  split <;> rfl

theorem vget_clearNamed (mask : BitVec 32) (t : State) (k j : Fin 22) :
    vget (clearNamed mask t k).kinds j
      = if j = k ∧ namedKind mask j then (vget t.kinds j).cleared else vget t.kinds j := by
  unfold clearNamed
  by_cases hjk : j = k
  · subst hjk
    by_cases hj : namedKind mask j <;> simp [hj]
  · by_cases hk : namedKind mask k <;> simp [hk, hjk, vget_vset_ne]

theorem foldl_clearNamed_eq (mask : BitVec 32) (ks : List (Fin 22)) (s : State) :
    ks.foldl (clearNamed mask) s = { s with kinds := (ks.foldl (clearNamed mask) s).kinds } := by
  induction ks generalizing s with
  | nil => rfl
  | cons k ks ih => rw [List.foldl_cons, ih, clearNamed_eq]

/-- A kind that comes up twice is cleared as one that comes up once: clearing is idempotent. -/
theorem vget_foldl_clearNamed (mask : BitVec 32) (ks : List (Fin 22)) (s : State) (j : Fin 22) :
    vget (ks.foldl (clearNamed mask) s).kinds j
      = if j ∈ ks ∧ namedKind mask j then (vget s.kinds j).cleared else vget s.kinds j := by
  induction ks generalizing s with
  | nil => simp
  | cons k ks ih =>
    rw [List.foldl_cons, ih, vget_clearNamed]
    by_cases hj : namedKind mask j
    · by_cases hk : j = k
      · subst hk
        simp [hj]
      · simp [hj, hk]
    · simp [hj]

/-- Clearing the named kinds writes the Error Log's records only. -/
theorem clearKinds_eq (mask : BitVec 32) (s : State) :
    clearKinds mask s = { s with kinds := (clearKinds mask s).kinds } := foldl_clearNamed_eq mask allKinds s

theorem vget_clearKinds (mask : BitVec 32) (s : State) (k : Fin 22) :
    vget (clearKinds mask s).kinds k
      = if namedKind mask k then (vget s.kinds k).cleared else vget s.kinds k := by
  have hk : k ∈ allKinds := List.mem_finRange k
  rw [clearKinds_eq_foldl, vget_foldl_clearNamed]
  simp only [hk, true_and]

/-! ### ERROR CLEAR, one lemma for each answer (R167) -/

/-- What ERROR CLEAR with a legal record flag does: the named kinds cleared and, with flag 1, the first-error record. -/
def errorCleared (p : Params) (s : State) : State :=
  { s with
    kinds := (clearKinds (pWord p 0) s).kinds
    firstError := if (pByte p 4).toNat = 1 then none else s.firstError
    multiple := if (pByte p 4).toNat = 1 then false else s.multiple }

/-- The statuses counted are those before the clear. -/
theorem cmdErrorClear_done {p : Params} {s : State} (hflag : (pByte p 4).toNat ≤ 1) :
    cmdErrorClear p s = done (BitVec.ofNat 32 (s.namedStatuses (pWord p 0))) (errorCleared p s) := by
  rw [cmdErrorClear, if_neg (Nat.not_lt.mpr hflag), clearKinds_eq]
  by_cases hone : (pByte p 4).toNat = 1 <;> simp [errorCleared, hone]

theorem cmdErrorClear_badFlag {p : Params} {s : State} (hflag : 1 < (pByte p 4).toNat) :
    cmdErrorClear p s = refuse .badParam s := by
  rw [cmdErrorClear, if_pos hflag]

/-! ### ERROR CLEAR, the row -/

/-- The row with a legal record flag: clearing raises nothing, so no action is put off. -/
theorem exec_errorClear_done {now : Stamp} {c : CellCommand} {s : State} (hi : Idle c s)
    (hflag : (pByte c.params 4).toNat ≤ 1) :
    exec (.errorClear now c) s = .next (afterReply 0x41 now c
      (.done (BitVec.ofNat 32 (s.namedStatuses (pWord c.params 0)))) (errorCleared c.params) s) :=
  exec_afterReply (x := .errorClear now c) rfl rfl hi (cmdErrorClear_done hflag) (hi.takenState_deferred 0x41 now)

theorem exec_errorClear_badFlag {now : Stamp} {c : CellCommand} {s : State} (hi : Idle c s)
    (hflag : 1 < (pByte c.params 4).toNat) :
    exec (.errorClear now c) s = .next (afterReply 0x41 now c (.refused .badParam) id s) :=
  exec_afterReply_id (x := .errorClear now c) rfl rfl hi (cmdErrorClear_badFlag hflag)

/-- The state ERROR CLEAR leaves: the completion's frame over the fields the clear writes. -/
theorem afterReply_errorCleared (now : Stamp) (c : CellCommand) (r : Reply) (s : State) :
    let t := afterReply 0x41 now c r (errorCleared c.params) s
    t.kinds = (clearKinds (pWord c.params 0) (takenState 0x41 now c s)).kinds
      ∧ t.firstError = (if (pByte c.params 4).toNat = 1 then none else s.firstError)
      ∧ t.multiple = (if (pByte c.params 4).toNat = 1 then false else s.multiple)
      ∧ t.modeControl = s.modeControl ∧ t.ring = s.ring ∧ SameSchedule s t ∧ SameAlerts s t ∧ SameFixed s t := by
  intro t
  have ht : t = _ := complete_eq (entryOf 0x41 c) r (errorCleared c.params (takenState 0x41 now c s))
  rw [ht]
  exact ⟨rfl, rfl, rfl, rfl, rfl, ⟨rfl, rfl, rfl⟩, ⟨rfl, rfl, rfl, rfl⟩, ⟨rfl, rfl, rfl, rfl⟩⟩

/-- Settles O46, by the row that clears and the row refused for its record flag. -/
theorem errorClearClearsNamedKinds : Obligations.ErrorClearClearsNamedKinds := by
  intro now c s hi
  refine ⟨fun hflag => ⟨_, exec_errorClear_done hi hflag, ?cleared⟩, fun hflag => exec_errorClear_badFlag hi hflag⟩
  case cleared =>
    obtain ⟨hkinds, hfirst, hmultiple, hmode, hring, hschedule, halerts, hfixed⟩ := afterReply_errorCleared now c
      (.done (BitVec.ofNat 32 (s.namedStatuses (pWord c.params 0)))) s
    refine ⟨complete_answered rfl rfl rfl (hi.takenState_deferred 0x41 now), fun k => ?_, hfirst, hmultiple, hmode,
      hring, hschedule, halerts, complete_samePath .., hfixed⟩
    -- The mask bit of the statement is `namedKind`, and taking the command leaves the Error Log as it is.
    rw [hkinds, vget_clearKinds]
    rfl

end Sys2Proof.Machine
end

