-- ==== Sys2Proof/Proofs/Steps.lean ====
section
/-! PROOF. What every step keeps (the invariants of Safety), what a step takes, and which rows complete. -/

namespace Sys2Proof.Machine

/-! ### One step -/

/-- A step is one row on the rest of the queue. -/
theorem step_of_cons {s : State} {i : Instr} {rest : List Instr} (h : s.pending = i :: rest) :
    step s = exec i { s with pending := rest } := by
  rw [step, h]

/-- On an empty queue the part idles (log 2). -/
theorem step_of_nil {s : State} (h : s.pending = []) : step s = .next s := by
  rw [step, h]

/-- Settles O1, by the two equations of a step. -/
theorem stepTakesFrontCommand : Obligations.StepTakesFrontCommand :=
  ⟨fun _ _ _ => step_of_cons, fun _ => step_of_nil⟩

/-! ### The invariants -/

/-- Taking the front command off the queue leaves every field the invariants speak of. -/
theorem pending_keeps (s : State) (rest : List Instr) : Keeps s { s with pending := rest } :=
  ⟨id, id, id, id, id, id, id, id, id⟩

/-- Every step keeps each of the invariants: an idle step changes nothing, any other is a row. -/
theorem step_keeps {s t : State} (h : step s = .next t) : Keeps s t := by
  cases hq : s.pending with
  | nil =>
    rw [step_of_nil hq] at h
    cases h
    exact .refl s
  | cons i rest =>
    rw [step_of_cons hq] at h
    exact (pending_keeps s rest).trans (exec_keeps i _ t h)

/-- Settles O5, from the table bounds among the invariants of `step_keeps`. -/
theorem stepKeepsTableBounds : Obligations.StepKeepsTableBounds := by
  intro s t hreads hqueue hchannels hschedules h
  have k := step_keeps h
  exact ⟨k.reads hreads, k.queue hqueue, k.channels hchannels, k.schedules hschedules, k.first⟩

/-- Settles O6. -/
theorem stepKeepsControlEntry : Obligations.StepKeepsControlEntry := fun _ _ hc h => (step_keeps h).control hc

/-- Settles O7. -/
theorem stepKeepsRingIndexesInRange : Obligations.StepKeepsRingIndexesInRange := fun _ _ hr h => (step_keeps h).ring hr

/-- Settles O8. -/
theorem stepKeepsFillsInOrder : Obligations.StepKeepsFillsInOrder := fun _ _ hf h => (step_keeps h).fills hf

/-- Settles O9. -/
theorem stepKeepsTimeoutFatal : Obligations.StepKeepsTimeoutFatal := fun _ _ hf h => (step_keeps h).timeout hf

/-! ### Completion -/

/-- Every row is guarded by the well-formedness of its operands and by nothing else (log 28): the four rows whose operands
are checked say so, and the operands of any other are well-formed by their types. -/
theorem exec_guarded (i : Instr) (s : State) :
    ∃ t, exec i s = if i.wellFormed then .next t else .fault .illFormed := by
  cases i <;> exact ⟨_, rfl⟩

/-- Settles O2, from the guard every row has. -/
theorem rowsCompleteExactlyWhenWellFormed : Obligations.RowsCompleteExactlyWhenWellFormed := by
  intro i s
  obtain ⟨t, h⟩ := exec_guarded i s
  exact ⟨fun hw => ⟨t, by rw [h, if_pos hw]⟩, fun hw => by rw [h, hw]; rfl⟩

end Sys2Proof.Machine
end

