-- ==== Sys2Proof/Proofs/Resets.lean ====
section
/-! PROOF. The reset state (R3, R24, R44, R129, R132, R146, R156, R164, R168, R172), power-on reset (R41) and RESTART
(R162). -/

namespace Sys2Proof.Machine

/-! ### The tables of the reset state -/

@[simp] theorem reset_service (i : ServiceIx) : State.reset.service i = Service.unused := vget_replicate _ i

@[simp] theorem reset_source (k : SourceIx) : State.reset.source k = Source.free := vget_replicate _ k

theorem reset_role (q : RequesterId) : vget State.reset.roles q = if q = 0 then .control else .other := by
  show vget (vset (Vector.replicate 64 Role.other) 0 Role.control) q = _
  rw [vget_vset, vget_replicate]

/-- A kind is reported, its status clear and its counter 0, whatever its default severity (R164). -/
theorem reset_kind (k : Fin 22) :
    (vget State.reset.kinds k).masked = false ∧ (vget State.reset.kinds k).status = false
      ∧ (vget State.reset.kinds k).counter = 0 := by
  have h : ∃ severity, vget State.reset.kinds k = KindLog.initial severity := by
    show ∃ severity, vget initialKinds k = _
    simp only [initialKinds, vget_vset, vget_replicate]
    repeat' split
    all_goals exact ⟨_, rfl⟩
  obtain ⟨severity, h⟩ := h
  rw [h]
  exact ⟨rfl, rfl, rfl⟩

theorem reset_cell (c : CellIx) :
    (vget State.reset.cells c).busy = false ∧ (vget State.reset.cells c).shadow.toList = zeros 48 := by
  have h : vget State.reset.cells c = { shadow := Vector.replicate 48 0, busy := false } := vget_replicate _ c
  rw [h]
  exact ⟨rfl, Vector.toList_replicate⟩

/-! ### The invariants -/

theorem reset_schedulesBounded : SchedulesBounded State.reset := by
  intro i
  rw [reset_service]
  exact Nat.zero_le _

/-- A ring that is not defined has no indexes to bound. -/
theorem reset_ringOk : RingOk State.reset.ring := by
  intro d hd
  cases hd

/-- A FREE source is not a STREAM source. -/
theorem reset_fillsOk : FillsOk State.reset := by
  intro k c hc
  rw [reset_source] at hc
  cases hc

/-- Settles O3: the tables by their reset records, the other fields by the reset state itself. -/
theorem resetStateMeetsInvariants : Obligations.ResetStateMeetsInvariants := by
  refine ⟨reset_role 0, Nat.zero_le _, ?readWaits, Nat.zero_le _, Nat.zero_le _, reset_schedulesBounded, reset_ringOk,
    reset_fillsOk, ⟨rfl, rfl⟩, rfl, rfl, rfl, rfl, rfl, reset_service, reset_source, reset_role, vget_replicate _,
    vget_replicate _, fun i => ⟨vget_replicate _ i, vget_replicate _ i⟩, rfl, rfl, rfl, rfl, vget_replicate _,
    vget_replicate _, rfl, rfl, reset_cell, rfl, rfl, rfl, rfl, rfl, rfl, reset_kind⟩
  case readWaits =>
    intro w hw
    cases hw

/-! ### RESTART -/

/-- Taking a command leaves the memory port as it is, so a write is handed over as without the command. -/
theorem handWrite_takenState_emitted (i : Bool) (a : Addr) (bs : List LaneByte) (code : Byte) (now : Stamp)
    (c : CellCommand) (s : State) :
    (handWrite i a bs (takenState code now c s)).emitted = (handWrite i a bs s).emitted := by
  by_cases hq : s.issueQueue.isEmpty <;> simp [handWrite, takenState, hq]

theorem handWrite_takenState_issueQueue (i : Bool) (a : Addr) (bs : List LaneByte) (code : Byte) (now : Stamp)
    (c : CellCommand) (s : State) :
    (handWrite i a bs (takenState code now c s)).issueQueue = (handWrite i a bs s).issueQueue := by
  by_cases hq : s.issueQueue.isEmpty <;> simp [handWrite, takenState, hq]

/-- The mark a SLOT entry of a service that has become UNUSED gets (R8; log 13). -/
theorem RttEntry.orphaned_eq (e : RttEntry) :
    e.orphaned = if e.kind = .plain then e else { e with stale := true } := by
  simp [RttEntry.orphaned]

/-- What RESTART leaves when the Command Unit has taken it on `s`: no action of the old state is left to settle. -/
theorem exec_restart {now : Stamp} {c : CellCommand} {s : State} (hi : Idle c s) :
    exec (.restart now c) s =
      .next (restarted (writeBack c.cell 0x03 c.tag (.done 0) (takenState 0x03 now c s))) := by
  rw [exec_commandOf (i := .restart now c) rfl rfl]
  refine congrArg _ ((takeCommand_gone hi rfl).trans (settle_nil rfl))

/-- Settles O4: power-on reset by its definition, RESTART by the state it leaves after its write-back. -/
theorem resetsPutEveryBlockInResetState : Obligations.ResetsPutEveryBlockInResetState := by
  refine ⟨fun now straps s => rfl, fun now c s hi => ?restart⟩
  case restart =>
    dsimp only
    rw [exec_restart hi, writeBack, writeInternal]
    simp only [restarted, handWrite_takenState_emitted, handWrite_takenState_issueQueue, handWrite_pending,
      handWrite_freeIndex, handWrite_now, handWrite_straps, handWrite_rtt, handWrite_completionOrder,
      handWrite_rewriteOrder, handWrite_sequence, handWrite_waitingReads, handWrite_outstanding, funext RttEntry.orphaned_eq]
    rfl

end Sys2Proof.Machine
end

