-- ==== Sys2Proof/Proofs/MemoryReads.lean ====
section
/-! PROOF. What the memory port issues (R23), whose answer comes next (R23, R32 to R36, R40), and the completion of an entry
at the card port (R37). -/

namespace Sys2Proof.Machine

/-! ### Handing over -/

theorem handWrite_waits (isInternal : Bool) (addr : Addr) (bytes : List LaneByte) {s : State}
    (h : s.issueQueue ≠ []) : handWrite isInternal addr bytes s =
      { s with issueQueue := s.issueQueue ++ [.write isInternal addr bytes] } := by
  rw [handWrite, if_neg (by rwa [List.isEmpty_iff])]

theorem roomToIssue_of_lt {s : State} (h : s.outstanding.length < 48) : s.roomToIssue = true := decide_eq_true h

theorem roomToIssue_of_le {s : State} (h : 48 ≤ s.outstanding.length) : s.roomToIssue = false :=
  decide_eq_false (Nat.not_lt.mpr h)

/-- A read is issued at once when nothing waits and the list has room (R23). -/
theorem handRead_issued (r : MemRead) {s : State} (hq : s.issueQueue = []) (hr : s.outstanding.length < 48) :
    handRead r s = issueRead r s := by
  rw [handRead, hq, roomToIssue_of_lt hr]
  rfl

theorem handRead_waits (r : MemRead) {s : State} (h : s.issueQueue ≠ [] ∨ 48 ≤ s.outstanding.length) :
    handRead r s = { s with issueQueue := s.issueQueue ++ [.read r] } := by
  obtain hq | hr := h
  · rw [handRead, List.isEmpty_eq_false_iff.mpr hq]
    rfl
  · rw [handRead, roomToIssue_of_le hr, Bool.and_false]
    rfl

/-! ### READ_ISSUE (R23) -/

theorem issueWaiting_read {r : MemRead} {rest : List MemTransaction} {s : State} (hq : s.issueQueue = .read r :: rest)
    (hr : s.outstanding.length < 48) :
    issueWaiting s = issueWrites (issueRead r { s with issueQueue := rest }) := by
  simp only [issueWaiting, hq, roomToIssue_of_lt hr, if_true]

/-- With nothing waiting, or with a read first and no room for it, nothing is issued. -/
theorem issueWaiting_idle {s : State} (hw : ReadWaitsFirst s) (h : s.issueQueue = [] ∨ 48 ≤ s.outstanding.length) :
    issueWaiting s = s := by
  cases hq : s.issueQueue with
  | nil => simp only [issueWaiting, hq]
  | cons x rest =>
    have hread : x.isWrite = false := hw x (by rw [hq]; rfl)
    have hroom : s.roomToIssue = false := roomToIssue_of_le (h.resolve_left (by rw [hq]; exact List.cons_ne_nil _ _))
    cases x with
    | read r => simp only [issueWaiting, hq, hroom, Bool.false_eq_true, if_false]
    | write i a bs => cases hread

theorem exec_readIssue_read {now : Stamp} {r : MemRead} {rest : List MemTransaction} {s : State}
    (hq : s.issueQueue = .read r :: rest) (hr : s.outstanding.length < 48) :
    exec (.readIssue now) s = .next { s with
      now := now
      issueQueue := rest.dropWhile MemTransaction.isWrite
      outstanding := s.outstanding ++ [{ read := r, deadline := some (now + 45) }]
      emitted := s.emitted ++ .memRead r.owner.isInternal r.addr r.beats ::
        (rest.takeWhile MemTransaction.isWrite).map MemTransaction.event } := by
  show Host.Outcome.next (issueWaiting (s.at now)) = _
  rw [issueWaiting_read (s := s.at now) hq hr]
  simp [issueWrites, issueRead, State.at, Config.readDeadlineTicks]

/-- Settles O19: the row by what stands first, a hand-over by whether it waits. -/
theorem waitingReadIsIssuedInOrder : Obligations.WaitingReadIsIssuedInOrder := by
  intro now s
  refine ⟨fun r rest hq hr => exec_readIssue_read hq hr, fun hw h => ?idle,
    fun i a bs => ⟨fun hq => handWrite_nil i a bs hq, fun hq => handWrite_waits i a bs hq⟩,
    fun r => ⟨fun hq hr => handRead_issued r hq hr, fun h => handRead_waits r h⟩⟩
  case idle => exact congrArg Host.Outcome.next (issueWaiting_idle (s := s.at now) hw h)

/-! ### Whose answer comes next (R23) -/

/-- The next answer is matched to the read that stands first on the list. -/
theorem oldestOwner_of_cons {s : State} {o : IssuedRead} {rest : List IssuedRead} (h : s.outstanding = o :: rest) :
    s.oldestOwner = some o.read.owner := by
  rw [State.oldestOwner, State.oldestRead, h]
  rfl

theorem matched_of_cons {s : State} {o : IssuedRead} {rest : List IssuedRead} (h : s.outstanding = o :: rest) :
    s.matched = { s with outstanding := rest } := by
  rw [State.matched, h]
  rfl

theorem awaitedPlain_of_network {s : State} {o : IssuedRead} {rest : List IssuedRead} {x : EntryIx} {e : RttEntry}
    (h : s.outstanding = o :: rest) (ho : o.read.owner = .network x) (he : s.entry x = some e) (hk : e.kind = .plain) :
    s.awaitedPlain = some (x, e) := by
  simp [State.awaitedPlain, oldestOwner_of_cons h, ho, he, hk]

theorem awaitedSlot_of_network {s : State} {o : IssuedRead} {rest : List IssuedRead} {x : EntryIx} {e : RttEntry}
    {i : ServiceIx} (h : s.outstanding = o :: rest) (ho : o.read.owner = .network x) (he : s.entry x = some e)
    (hk : e.kind = .slot i) : s.awaitedSlot = some (x, e, i) := by
  simp [State.awaitedSlot, oldestOwner_of_cons h, ho, he, hk]

theorem awaitedFetch_of_fetch {s : State} {o : IssuedRead} {rest : List IssuedRead} {x : EntryIx} {e : RttEntry}
    (h : s.outstanding = o :: rest) (ho : o.read.owner = .fetch x) (he : s.entry x = some e) :
    s.awaitedFetch = some (x, e) := by
  simp [State.awaitedFetch, oldestOwner_of_cons h, ho, he]

/-! ### The answers (R32 to R36, R40) -/

theorem exec_plainReadAnswer {now : Stamp} {status : ReadStatus} {data : List Byte} {x : EntryIx} {e : RttEntry}
    {s : State} (hw : answerWf data = true) (hx : s.awaitedPlain = some (x, e)) (hn : data.length = 16 * e.beats) :
    exec (.plainReadAnswer now status data) s = .next (answerPlain x e status data (s.at now)) := by
  simp [exec, execPlainReadAnswer, hw, hx, hn]

theorem exec_orphanAnswer {now : Stamp} {s : State} (h : s.oldestOwner = some .orphan) :
    exec (.orphanAnswer now) s = .next (s.at now).matched := by
  simp [exec, execOrphanAnswer, State.awaitsOrphan, h]

/-- Settles O20, by the answer matched to a PLAIN entry and the one matched to an orphan. -/
theorem plainAndOrphanAnswersMatchOldestRead : Obligations.PlainAndOrphanAnswersMatchOldestRead := by
  intro now o rest s h
  have hmatched : (s.at now).matched = { s.at now with outstanding := rest } := matched_of_cons h
  refine ⟨fun x e status data ho he hk hw hn => ?plain, fun ho => ?orphan⟩
  case plain =>
    rw [exec_plainReadAnswer hw (awaitedPlain_of_network h ho he hk) hn, answerPlain, hmatched]
    rfl
  case orphan =>
    rw [exec_orphanAnswer (by rw [oldestOwner_of_cons h, ho]), hmatched]
    rfl

theorem exec_networkReadError {now : Stamp} {x : EntryIx} {e : RttEntry} {i : ServiceIx} {s : State}
    (h : s.awaitedSlot = some (x, e, i)) :
    exec (.networkReadError now) s = .next (settle (answerError x e (s.at now))) := by
  simp [exec, execNetworkReadError, h]

theorem exec_sourceFetchAnswer {now : Stamp} {data : SlotData} {x : EntryIx} {e : RttEntry} {s : State}
    (h : s.awaitedFetch = some (x, e)) :
    exec (.sourceFetchAnswer now data) s = .next (answerFetch x e data (s.at now)) := by
  simp [exec, execSourceFetchAnswer, h]

theorem exec_sourceFetchError {now : Stamp} {x : EntryIx} {e : RttEntry} {s : State}
    (h : s.awaitedFetch = some (x, e)) :
    exec (.sourceFetchError now) s = .next (settle (fetchError x e (s.at now))) := by
  simp [exec, execSourceFetchError, h]

/-- DOWNSTREAM-ERROR of a SLOT entry names its service (R35, R36). -/
theorem downstreamEvent_slot {e : RttEntry} {i : ServiceIx} (hk : e.kind = .slot i) (a : Addr)
    (p : Option (List Byte)) :
    downstreamEvent e a p
      = { kind := .downstreamError, service := some i, requester := some e.requester, addr := some a, packet := p } := by
  simp [downstreamEvent, hk]

/-- Settles O24, by the three answers of a SLOT entry. -/
theorem slotAnswersMoveEntries : Obligations.SlotAnswersMoveEntries := by
  intro now o rest x e i s h he hk
  have hmatched : (s.at now).matched = { s.at now with outstanding := rest } := matched_of_cons h
  refine ⟨fun ho => ?networkError, fun data ho => ?fetched, fun r ho hr => ?fetchError⟩
  case networkError =>
    rw [exec_networkReadError (awaitedSlot_of_network h ho he hk), answerError, downstreamEvent_slot hk, hmatched]
    rfl
  case fetched =>
    rw [exec_sourceFetchAnswer (awaitedFetch_of_fetch h ho he), answerFetch, hmatched]
    rfl
  case fetchError =>
    rw [exec_sourceFetchError (awaitedFetch_of_fetch h ho he), fetchError, downstreamEvent_slot hk, hmatched, hr]
    rfl

/-! ### Completion (R37) -/

theorem completable_of_ready {s : State} {q : RequesterId} {x : EntryIx} {rest : List EntryIx} {e : RttEntry}
    (ho : vget s.completionOrder q = x :: rest) (he : s.entry x = some e) (hp : e.phase = .ready) :
    s.completable q = some (x, e) := by
  simp [State.completable, ho, he, hp]

theorem exec_completion_some {now : Stamp} {q : RequesterId} {x : EntryIx} {e : RttEntry} {s : State}
    (h : s.completable q = some (x, e)) :
    exec (.completion now q) s = .next (settle (completeEntry x q e (s.at now))) := by
  simp [exec, execCompletion, h]

theorem exec_completion_none {now : Stamp} {q : RequesterId} {s : State} (h : s.completable q = none) :
    exec (.completion now q) s = .next (s.at now) := by
  simp [exec, execCompletion, h]

/-- Settles O18: the freed entry goes to the read that has waited longest, if one has. -/
theorem completionFreesEntryInOrder : Obligations.CompletionFreesEntryInOrder := by
  intro now q s hd
  refine ⟨fun x rest e ho he hp => ?ready, fun h => exec_completion_none h⟩
  case ready =>
    dsimp only
    rw [exec_completion_some (completable_of_ready ho he hp)]
    have htail : (vget s.completionOrder q).tail = rest := by rw [ho]; rfl
    refine ⟨fun hw => ?none, fun r more hw => ?some⟩
    case none => simp [completeEntry, giveEntry, State.at, State.emit, State.setEntry, htail, hw, hd]
    case some => simp [completeEntry, giveEntry, State.at, State.emit, State.setEntry, htail, hw]

end Sys2Proof.Machine
end

