-- ==== Sys2Proof/Proofs/Windows.lean ====
section
/-! PROOF. The Window Decoder's offers (R22, R26, R27) and the reads it classifies (R24, R29 to R31). -/

namespace Sys2Proof.Machine

/-! ### The order of the offers (log 17) -/

/-- Putting an offer in its place is the ordered insertion by where the parts begin. -/
theorem insertOffer_eq_orderedInsert (o : Offer) (l : List Offer) :
    insertOffer o l = l.orderedInsert (fun x y => x.part.off ≤ y.part.off) o := by
  induction l with
  | nil => rfl
  | cons x r ih => rw [insertOffer, List.orderedInsert_cons, ih]

theorem foldr_insertOffer_eq_insertionSort (l : List Offer) :
    l.foldr insertOffer [] = l.insertionSort (fun x y => x.part.off ≤ y.part.off) := by
  induction l with
  | nil => rfl
  | cons x r ih => rw [List.foldr_cons, ih, insertOffer_eq_orderedInsert, List.insertionSort_cons]

theorem foldr_insertOffer_perm (l : List Offer) : (l.foldr insertOffer []).Perm l := by
  rw [foldr_insertOffer_eq_insertionSort]
  exact List.perm_insertionSort _ l

theorem foldr_insertOffer_pairwise (l : List Offer) :
    (l.foldr insertOffer []).Pairwise fun x y => x.part.off ≤ y.part.off := by
  rw [foldr_insertOffer_eq_insertionSort]
  have : Std.Total fun x y : Offer => x.part.off ≤ y.part.off := ⟨fun x y => Nat.le_total _ _⟩
  have : IsTrans Offer fun x y => x.part.off ≤ y.part.off := ⟨fun _ _ _ => Nat.le_trans⟩
  exact List.pairwise_insertionSort _ l

/-! ### The offers of each kind of region (R27) -/

theorem window_part_eq_some {w : Window} {a : Addr} {n : Nat} {p : Part} :
    w.part a n = some p ↔ LiesIn w.base.toNat (192 * w.slots) a n p := regionPart_eq_some w.base.isLt

theorem strapBase_toNat (s : State) : s.strapBase.toNat = s.straps.toNat * 2 ^ 20 := by
  show (s.straps ++ (0 : BitVec 20)).toNat = _
  rw [BitVec.toNat_append]
  simp [Nat.shiftLeft_eq]

theorem mem_serviceOffers {s : State} {a : Addr} {n : Nat} {o : Offer} :
    o ∈ s.serviceOffers a n ↔ ∃ i win, (s.service i).window = some win
      ∧ LiesIn win.base.toNat (192 * win.slots) a n o.part ∧ o.region = .svc i := by
  simp only [State.serviceOffers, List.mem_filterMap, allServices, List.mem_finRange, true_and,
    Option.bind_eq_some_iff, Option.map_eq_some_iff, window_part_eq_some]
  refine exists_congr fun i => exists_congr fun win => and_congr_right fun _ => ?_
  constructor
  · rintro ⟨p, hp, rfl⟩
    exact ⟨hp, rfl⟩
  · rintro ⟨hp, hr⟩
    exact ⟨o.part, hp, by rw [← hr]⟩

theorem mem_sourceOffers {s : State} {a : Addr} {n : Nat} {o : Offer} :
    o ∈ s.sourceOffers a n ↔ ∃ k win, (s.source k).config = some { mode := .stream, window := win }
      ∧ LiesIn win.base.toNat (192 * win.slots) a n o.part ∧ o.region = .src k := by
  simp only [State.sourceOffers, List.mem_filterMap, allSources, List.mem_finRange, true_and,
    Option.bind_eq_some_iff]
  refine exists_congr fun k => ?_
  constructor
  · rintro ⟨⟨mode, win⟩, hc, h⟩
    cases mode with
    | loop => simp at h
    | stream =>
      simp only [beq_self_eq_true, if_true, Option.map_eq_some_iff, window_part_eq_some] at h
      obtain ⟨p, hp, rfl⟩ := h
      exact ⟨win, hc, hp, rfl⟩
  · rintro ⟨win, hc, hp, hr⟩
    refine ⟨_, hc, ?_⟩
    simp only [beq_self_eq_true, if_true, Option.map_eq_some_iff, window_part_eq_some]
    exact ⟨o.part, hp, by rw [← hr]⟩

theorem mem_controlOffer {s : State} {a : Addr} {n : Nat} {o : Offer} :
    o ∈ s.controlOffer a n ↔ LiesIn (s.straps.toNat * 2 ^ 20) 4096 a n o.part ∧ o.region = .control := by
  have hbase : s.straps.toNat * 2 ^ 20 < 2 ^ 36 := strapBase_toNat s ▸ s.strapBase.isLt
  simp only [State.controlOffer, Option.mem_toList, Option.map_eq_some_iff, strapBase_toNat, controlSize,
    regionPart_eq_some hbase]
  constructor
  · rintro ⟨p, hp, rfl⟩
    exact ⟨hp, rfl⟩
  · rintro ⟨hp, hr⟩
    exact ⟨o.part, hp, by rw [← hr]⟩

/-- The offers to the watcher of a requester's role, before they are put in order (R27). -/
def State.roleOffers (s : State) (role : Role) (a : Addr) (n : Nat) : List Offer :=
  match role with
  | .ingest => s.serviceOffers a n
  | .player => s.sourceOffers a n
  | .control | .output | .other => []

theorem offers_eq (s : State) (role : Role) (a : Addr) (n : Nat) :
    s.offers role a n = (s.roleOffers role a n ++ s.controlOffer a n).foldr insertOffer [] := by
  cases role <;> rfl

theorem mem_offers {s : State} {role : Role} {a : Addr} {n : Nat} {o : Offer} :
    o ∈ s.offers role a n ↔ o ∈ s.roleOffers role a n ∨ o ∈ s.controlOffer a n := by
  rw [offers_eq, (foldr_insertOffer_perm _).mem_iff, List.mem_append]

theorem mem_roleOffers_region {s : State} {role : Role} {a : Addr} {n : Nat} {o : Offer}
    (h : o ∈ s.roleOffers role a n) : o.region ≠ .control := by
  cases role with
  | ingest =>
    obtain ⟨i, win, -, -, hr⟩ := mem_serviceOffers.mp h
    simp [hr]
  | player =>
    obtain ⟨k, win, -, -, hr⟩ := mem_sourceOffers.mp h
    simp [hr]
  | control => cases h
  | output => cases h
  | other => cases h

/-! ### No region twice -/

/-- Offers made one to an index, each to the region of its index, are to distinct regions. -/
theorem filterMap_region_nodup {α : Type} {f : α → Option Offer} {r : α → Watched} (hr : Function.Injective r)
    (hf : ∀ i o, f i = some o → o.region = r i) {l : List α} (hl : l.Nodup) :
    ((l.filterMap f).map (·.region)).Nodup := by
  rw [List.map_filterMap]
  refine hl.filterMap fun i j x hi hj => hr ?_
  obtain ⟨o, ho, rfl⟩ := Option.map_eq_some_iff.mp (Option.mem_def.mp hi)
  obtain ⟨o', ho', hx⟩ := Option.map_eq_some_iff.mp (Option.mem_def.mp hj)
  rw [← hf i o ho, ← hf j o' ho', hx]

theorem serviceOffers_nodup (s : State) (a : Addr) (n : Nat) : ((s.serviceOffers a n).map (·.region)).Nodup := by
  refine filterMap_region_nodup (r := Watched.svc) (fun _ _ => Watched.svc.inj) (fun i o h => ?_)
    (List.nodup_finRange 48)
  obtain ⟨w, -, h⟩ := Option.bind_eq_some_iff.mp h
  obtain ⟨p, -, rfl⟩ := Option.map_eq_some_iff.mp h
  rfl

theorem sourceOffers_nodup (s : State) (a : Addr) (n : Nat) : ((s.sourceOffers a n).map (·.region)).Nodup := by
  refine filterMap_region_nodup (r := Watched.src) (fun _ _ => Watched.src.inj) (fun k o h => ?_)
    (List.nodup_finRange 32)
  obtain ⟨c, -, h⟩ := Option.bind_eq_some_iff.mp h
  split at h
  · obtain ⟨p, -, rfl⟩ := Option.map_eq_some_iff.mp h
    rfl
  · cases h

theorem controlOffer_nodup (s : State) (a : Addr) (n : Nat) : ((s.controlOffer a n).map (·.region)).Nodup := by
  rw [State.controlOffer]
  cases regionPart s.strapBase.toNat controlSize a n <;> simp

theorem roleOffers_nodup (s : State) (role : Role) (a : Addr) (n : Nat) :
    ((s.roleOffers role a n).map (·.region)).Nodup := by
  cases role with
  | ingest => exact serviceOffers_nodup s a n
  | player => exact sourceOffers_nodup s a n
  | control => exact List.nodup_nil
  | output => exact List.nodup_nil
  | other => exact List.nodup_nil

theorem offers_nodup (s : State) (role : Role) (a : Addr) (n : Nat) :
    ((s.offers role a n).map (·.region)).Nodup := by
  rw [offers_eq, ((foldr_insertOffer_perm _).map _).nodup_iff, List.map_append, List.nodup_append']
  refine ⟨roleOffers_nodup s role a n, controlOffer_nodup s a n, fun r hr hc => ?_⟩
  obtain ⟨o, ho, rfl⟩ := List.mem_map.mp hr
  obtain ⟨o', ho', h⟩ := List.mem_map.mp hc
  exact mem_roleOffers_region ho (h.symm.trans (mem_controlOffer.mp ho').2)

theorem offers_pairwise (s : State) (role : Role) (a : Addr) (n : Nat) :
    ((s.offers role a n).map (·.part.off)).Pairwise (· ≤ ·) := by
  rw [offers_eq]
  exact List.pairwise_map.mpr (foldr_insertOffer_pairwise _)

/-! ### Each kind of region, as the statement speaks of it -/

theorem offered_service {s : State} {role : Role} {a : Addr} {n : Nat} {i : ServiceIx} {p : Part} :
    { region := .svc i, part := p } ∈ s.offers role a n ↔ role = .ingest ∧ ∃ win, (s.service i).window = some win
      ∧ LiesIn win.base.toNat (192 * win.slots) a n p := by
  rw [mem_offers, mem_controlOffer]
  cases role <;> simp [State.roleOffers, mem_serviceOffers, mem_sourceOffers]

theorem offered_source {s : State} {role : Role} {a : Addr} {n : Nat} {k : SourceIx} {p : Part} :
    { region := .src k, part := p } ∈ s.offers role a n ↔ role = .player
      ∧ ∃ win, (s.source k).config = some { mode := .stream, window := win }
        ∧ LiesIn win.base.toNat (192 * win.slots) a n p := by
  rw [mem_offers, mem_controlOffer]
  cases role <;> simp [State.roleOffers, mem_serviceOffers, mem_sourceOffers]

theorem offered_control {s : State} {role : Role} {a : Addr} {n : Nat} {p : Part} :
    { region := .control, part := p } ∈ s.offers role a n ↔ LiesIn (s.straps.toNat * 2 ^ 20) 4096 a n p := by
  rw [mem_offers, mem_controlOffer]
  constructor
  · rintro (h | ⟨h, -⟩)
    · exact absurd rfl (mem_roleOffers_region h)
    · exact h
  · exact fun h => .inr ⟨h, rfl⟩

/-! ### A watcher acts on its part alone (R26) -/

theorem ingestWrite_alone (i : ServiceIx) (q : RequesterId) (p : Part) (bytes : List LaneByte) (s : State) :
    ingestWrite i q { p with off := 0 } ((bytes.drop p.off).take p.len) s = ingestWrite i q p bytes s := by
  simp only [ingestWrite, wholeSlot, part_of_alone]

theorem sourceTrackerWrite_alone (k : SourceIx) (q : RequesterId) (p : Part) (bytes : List LaneByte) (s : State) :
    sourceTrackerWrite k q { p with off := 0 } ((bytes.drop p.off).take p.len) s = sourceTrackerWrite k q p bytes s := by
  simp only [sourceTrackerWrite, wholeSlot, part_of_alone]

theorem touchedCells_alone (base : Nat) (p : Part) : touchedCells base { p with off := 0 } = touchedCells base p := rfl

theorem controlWrite_alone (q : RequesterId) (p : Part) (bytes : List LaneByte) (s : State) :
    controlWrite q { p with off := 0 } ((bytes.drop p.off).take p.len) s = controlWrite q p bytes s := by
  simp only [controlWrite, offerConsumer, captureCells, submitCells, submissionIn, wholeField_alone,
    capturedShadow_alone, touchedCells_alone]

theorem watch_alone (role : Role) (q : RequesterId) (bytes : List LaneByte) (o : Offer) (t : State) :
    watch role q bytes o t
      = watch role q ((bytes.drop o.part.off).take o.part.len) { o with part := { o.part with off := 0 } } t := by
  obtain ⟨region, p⟩ := o
  cases region with
  | svc i => exact (ingestWrite_alone i q p bytes t).symm
  | src k => exact (sourceTrackerWrite_alone k q p bytes t).symm
  | control =>
    simp only [watch, controlWrite_alone]
    rfl

/-! ### WRITE_TAKEN (R22) -/

/-- No watcher but CONTROL's reaches the Command Unit. -/
theorem watch_inner {s0 t : State} {role : Role} (q : RequesterId) (bytes : List LaneByte) (o : Offer)
    (hr : role ≠ .control) (h : Inner s0 t) : Inner s0 (watch role q bytes o t) := by
  unfold watch
  split
  · exact ingestWrite_inner h
  · exact sourceTrackerWrite_inner h
  · rw [if_neg (by simpa using hr)]
    exact h.raise _

theorem exec_writeTaken_of_wf {now : Stamp} {w : PortWrite} (s : State) (hw : w.wf = true) :
    exec (.writeTaken now w) s = .next (settle (runIfIdle (s.at now) (takeWrite w (s.at now)))) := if_pos hw

/-- A write of a role other than CONTROL: the write goes to the memory port, the watchers act, and no command begins. -/
theorem exec_writeTaken {now : Stamp} {w : PortWrite} {s : State} (hw : w.wf = true)
    (hr : vget s.roles w.requester ≠ .control) :
    exec (.writeTaken now w) s = .next (settle ((s.offers (vget s.roles w.requester) w.addr w.bytes.length).foldl
      (fun t o => watch (vget s.roles w.requester) w.requester w.bytes o t)
      (handWrite false w.addr w.bytes { s with now := now }))) := by
  have hinner : Inner (handWrite false w.addr w.bytes (s.at now)) (takeWrite w (s.at now)) :=
    foldl_inner (fun t o h => watch_inner _ _ o hr h) _ .refl
  have hrun : runIfIdle (s.at now) (takeWrite w (s.at now)) = takeWrite w (s.at now) :=
    runIfIdle_kept hinner (handWrite_intake ..)
  rw [exec_writeTaken_of_wf s hw, hrun]
  rfl

/-- A write that lies in no watched region does nothing else, whatever the requester's role. -/
theorem exec_writeTaken_unwatched {now : Stamp} {w : PortWrite} {s : State} (hw : w.wf = true) (hd : s.deferred = [])
    (ho : s.offers (vget s.roles w.requester) w.addr w.bytes.length = []) :
    exec (.writeTaken now w) s = .next (handWrite false w.addr w.bytes { s with now := now }) := by
  have htake : takeWrite w (s.at now) = handWrite false w.addr w.bytes (s.at now) := by
    have ho' : (s.at now).offers (vget (s.at now).roles w.requester) w.addr w.bytes.length = [] := ho
    rw [takeWrite, ho']
    rfl
  have hrun : runIfIdle (s.at now) (takeWrite w (s.at now)) = takeWrite w (s.at now) :=
    runIfIdle_kept .refl (by rw [htake, handWrite_intake])
  rw [exec_writeTaken_of_wf s hw, hrun, htake]
  exact congrArg _ (settle_nil ((handWrite_deferred ..).trans hd))

/-- Settles O10: the row by its offers, a watcher by its part alone, and the offers by what each region meets. -/
theorem writesPassUnchanged : Obligations.WritesPassUnchanged := by
  refine ⟨fun now w s hw hd => ⟨exec_writeTaken_unwatched hw hd, fun p hr ho => ?intrusion, exec_writeTaken hw⟩,
    watch_alone, fun role a n s _ _ => ⟨fun i p => offered_service, fun k p => offered_source, fun p => offered_control,
      offers_nodup s role a n, offers_pairwise s role a n⟩⟩
  case intrusion =>
    rw [exec_writeTaken hw hr, ho]
    simp only [List.foldl_cons, List.foldl_nil, watch]
    rw [if_neg (by simpa using hr)]
    rfl

end Sys2Proof.Machine
end

