-- ==== Sys2Proof/Proofs/CardReads.lean ====
section
/-! PROOF. A card-port read: what it is (R29), and the entry it takes or its wait (R24, R30, R31). -/

namespace Sys2Proof.Machine

/-! ### Slot boundaries (R1) -/

/-- An address is a slot boundary of a window, from its first slot to its last. -/
theorem slotAt_isSome {w : Window} {a : Addr} :
    (w.slotAt a).isSome = true ↔ ∃ n, n < w.slots ∧ a.toNat = w.base.toNat + 192 * n := by
  have hcond : (w.slotAt a).isSome = true
      ↔ w.base.toNat ≤ a.toNat ∧ a.toNat - w.base.toNat < w.bytes ∧ (a.toNat - w.base.toNat) % 192 = 0 := by
    simp [Window.slotAt, and_assoc]
  rw [hcond, Window.bytes]
  constructor
  · rintro ⟨hle, hlt, hmod⟩
    exact ⟨(a.toNat - w.base.toNat) / 192, by omega, by omega⟩
  · rintro ⟨n, hn, ha⟩
    omega

/-! ### The first of a table (log 9) -/

/-- The search through a table's indexes finds the least one that satisfies the predicate. -/
theorem find?_finRange_of_least {n : Nat} {p : Fin n → Bool} {i : Fin n} (hi : p i = true)
    (hless : ∀ j, j < i → p j = false) : (List.finRange n).find? p = some i := by
  rw [List.find?_eq_some_iff_getElem]
  refine ⟨hi, i.val, by simp, by simp, fun j hj => ?_⟩
  simpa using hless ⟨j, hj.trans i.isLt⟩ hj

/-! ### SLOT and PLAIN (R29) -/

/-- The read starts on a slot boundary of a service's window. -/
def State.startsSlot (s : State) (r : PortRead) (i : ServiceIx) : Bool :=
  match (s.service i).window with
  | some w => (w.slotAt r.addr).isSome
  | none => false

theorem startsSlot_iff {s : State} {r : PortRead} {i : ServiceIx} :
    s.startsSlot r i = true ↔ ∃ win n, (s.service i).window = some win ∧ n < win.slots
      ∧ r.addr.toNat = win.base.toNat + 192 * n := by
  rw [State.startsSlot]
  cases hw : (s.service i).window with
  | none => simp
  | some w => simp [slotAt_isSome]

theorem wholeSlotService_of_beats {s : State} {r : PortRead} (h : r.beats = 12) :
    s.wholeSlotService r = allServices.find? (s.startsSlot r) := by
  rw [State.wholeSlotService, if_pos (by simpa using h)]
  rfl

theorem wholeSlotService_of_ne {s : State} {r : PortRead} (h : r.beats ≠ 12) : s.wholeSlotService r = none := by
  rw [State.wholeSlotService, if_neg (by simpa using h)]

theorem wholeSlotService_none {s : State} {r : PortRead} (h : ∀ i, r.beats = 12 → s.startsSlot r i = false) :
    s.wholeSlotService r = none := by
  by_cases hb : r.beats = 12
  · rw [wholeSlotService_of_beats hb, List.find?_eq_none]
    intro i _
    simp [h i hb]
  · exact wholeSlotService_of_ne hb

theorem readKind_of_role {s : State} {role : Role} (r : PortRead) (h : role ≠ .output) : s.readKind role r = .plain := by
  rw [State.readKind, if_neg (by simpa using h)]

theorem readKind_of_none {s : State} {role : Role} {r : PortRead} (h : s.wholeSlotService r = none) :
    s.readKind role r = .plain := by
  rw [State.readKind, h]
  split <;> rfl

theorem readKind_of_some {s : State} {r : PortRead} {i : ServiceIx} (h : s.wholeSlotService r = some i) :
    s.readKind .output r = .slot i := by
  rw [State.readKind, h]
  rfl

/-! ### The service a read touches (R29, log 40) -/

/-- The first offer in byte order begins no later than any other. -/
theorem touchedService_eq_none {s : State} {r : PortRead} (h : s.serviceOffers r.addr (16 * r.beats) = []) :
    s.touchedService r = none := by
  rw [State.touchedService, h]
  rfl

/-- The service touched is the one of an offer that begins strictly before those of every other service. -/
theorem touchedService_eq_some {s : State} {r : PortRead} {i : ServiceIx} {p : Part}
    (hp : { region := .svc i, part := p } ∈ s.serviceOffers r.addr (16 * r.beats))
    (hfirst : ∀ j q, j ≠ i → { region := .svc j, part := q } ∈ s.serviceOffers r.addr (16 * r.beats) → p.off < q.off) :
    s.touchedService r = some i := by
  have hperm := foldr_insertOffer_perm (s.serviceOffers r.addr (16 * r.beats))
  have hsorted := foldr_insertOffer_pairwise (s.serviceOffers r.addr (16 * r.beats))
  rw [State.touchedService]
  cases hl : (s.serviceOffers r.addr (16 * r.beats)).foldr insertOffer [] with
  | nil =>
    rw [hl] at hperm
    cases hperm.symm.subset hp
  | cons o rest =>
    rw [hl] at hperm hsorted
    obtain ⟨j, win, hwin, hlies, hregion⟩ := mem_serviceOffers.mp (hperm.subset List.mem_cons_self)
    have hj : j = i := by
      by_contra hne
      have ho : { region := .svc j, part := o.part } ∈ s.serviceOffers r.addr (16 * r.beats) :=
        mem_serviceOffers.mpr ⟨j, win, hwin, hlies, rfl⟩
      have hlt := hfirst j o.part hne ho
      obtain he | hm := List.mem_cons.mp (hperm.symm.subset hp)
      · rw [← he] at hlt
        exact absurd hlt (lt_irrefl _)
      · exact absurd ((List.pairwise_cons.mp hsorted).1 _ hm) (Nat.not_le.mpr hlt)
    simp only [hregion, hj]

/-- An offer to a service's watcher is a part of the read in its window. -/
theorem svc_mem_serviceOffers {s : State} {a : Addr} {n : Nat} {i : ServiceIx} {p : Part} :
    { region := .svc i, part := p } ∈ s.serviceOffers a n ↔ ∃ win, (s.service i).window = some win
      ∧ LiesIn win.base.toNat (192 * win.slots) a n p := by
  simp [mem_serviceOffers]

/-! ### READ_TAKEN (R30, R31) -/

/-- The state once a read has been taken into an entry and handed to the memory port (R30). -/
theorem allocate_eq (x : EntryIx) (role : Role) (kind : ReadKind) (r : PortRead) (s : State) :
    allocate x role kind r s = handRead { owner := .network x, addr := r.addr, beats := r.beats }
      { s with
        rtt := vset s.rtt x (some (RttEntry.taken role kind r))
        completionOrder := vset s.completionOrder r.requester (vget s.completionOrder r.requester ++ [x]) } := rfl

theorem touchedService_congr {s t : State} (h : t.services = s.services) (r : PortRead) :
    t.touchedService r = s.touchedService r := by
  simp only [State.touchedService, State.serviceOffers, State.service, h]

theorem touchedService_allocate (x : EntryIx) (role : Role) (kind : ReadKind) (r : PortRead) (s : State) :
    (allocate x role kind r s).touchedService r = s.touchedService r :=
  touchedService_congr (by rw [allocate_eq, handRead_services]) r

theorem raiseUnaligned_quiet {role : Role} {kind : ReadKind} {r : PortRead} {s : State}
    (h : role ≠ .output ∨ kind ≠ .plain ∨ s.touchedService r = none) : raiseUnaligned role kind r s = s := by
  unfold raiseUnaligned
  split
  next hc =>
    obtain ⟨hrole, hkind⟩ : role = .output ∧ kind = .plain := by simpa using hc
    rw [(h.resolve_left (not_not_intro hrole)).resolve_left (not_not_intro hkind)]
  next => rfl

theorem raiseUnaligned_raises {r : PortRead} {s : State} {i : ServiceIx} (h : s.touchedService r = some i) :
    raiseUnaligned .output .plain r s = raise
      { kind := .unalignedRead, service := some i, requester := some r.requester, addr := some r.addr } s := by
  simp [raiseUnaligned, h]

theorem arriveRead_taken {s : State} {x : EntryIx} {r : PortRead} (hw : s.waitingReads = [])
    (hx : s.freeEntry = some x) : arriveRead r s = takeRead x r s := by
  simp only [arriveRead, hw, hx]

theorem arriveRead_waits {s : State} {r : PortRead} (h : s.waitingReads ≠ [] ∨ s.freeEntry = none) :
    arriveRead r s = { s with waitingReads := s.waitingReads ++ [r] } := by
  unfold arriveRead
  split
  next x hw hx => exact absurd h (by simp [hw, hx])
  next => rfl

theorem exec_readTaken {now : Stamp} {r : PortRead} (s : State) (hw : r.wf = true) :
    exec (.readTaken now r) s = .next (settle (arriveRead r (s.at now))) := if_pos hw

/-- Settles O17: the row by whether the read is taken, and what a read is by the windows it lies in. -/
theorem readTakesFreeEntryOrWaits : Obligations.ReadTakesFreeEntryOrWaits := by
  constructor
  · intro now r s hw hd role kind took
    have htook (x : EntryIx) : allocate x role kind r (s.at now) = took x := allocate_eq x role kind r (s.at now)
    have hdeferred (x : EntryIx) : (took x).deferred = [] := (handRead_deferred ..).trans hd
    have htouched (x : EntryIx) : (took x).touchedService r = s.touchedService r := by
      rw [← htook, touchedService_allocate]
      exact touchedService_congr rfl r
    have htake (x : EntryIx) : takeRead x r (s.at now) = raiseUnaligned role kind r (took x) :=
      congrArg (raiseUnaligned role kind r) (htook x)
    refine ⟨fun x hwait hx hq => ?quiet, fun x i hwait hx hrole hkind hi => ?unaligned, fun h => ?waits⟩
    case quiet =>
      rw [exec_readTaken s hw, arriveRead_taken (s := s.at now) hwait hx, htake,
        raiseUnaligned_quiet (by rwa [htouched]), settle_nil (hdeferred x)]
    case unaligned =>
      rw [exec_readTaken s hw, arriveRead_taken (s := s.at now) hwait hx, htake, hrole, hkind,
        raiseUnaligned_raises ((htouched x).trans hi)]
    case waits =>
      rw [exec_readTaken s hw, arriveRead_waits (s := s.at now) h]
      exact congrArg _ (settle_nil hd)
  · intro role r s hw whole lies
    have hstarts (i : ServiceIx) : whole i ↔ r.beats = 12 ∧ s.startsSlot r i = true :=
      and_congr_right fun _ => startsSlot_iff.symm
    have hlies (i : ServiceIx) (p : Part) :
        { region := .svc i, part := p } ∈ s.serviceOffers r.addr (16 * r.beats) ↔ lies i p := svc_mem_serviceOffers
    refine ⟨readKind_of_role r, fun h => ?noWhole, fun i hrole hi hless => ?whole, fun h => ?untouched,
      fun i p hp hfirst => ?touched⟩
    case noWhole =>
      refine readKind_of_none (wholeSlotService_none fun i hb => ?_)
      exact Bool.eq_false_iff.mpr fun hs => h i ((hstarts i).mpr ⟨hb, hs⟩)
    case whole =>
      obtain ⟨hb, hs⟩ := (hstarts i).mp hi
      subst hrole
      refine readKind_of_some ((wholeSlotService_of_beats hb).trans (find?_finRange_of_least hs fun j hj => ?_))
      exact Bool.eq_false_iff.mpr fun hsj => hless j hj ((hstarts j).mpr ⟨hb, hsj⟩)
    case untouched =>
      refine touchedService_eq_none (List.eq_nil_iff_forall_not_mem.mpr fun o ho => ?_)
      obtain ⟨i, win, hwin, hp, -⟩ := mem_serviceOffers.mp ho
      exact h i o.part ⟨win, hwin, hp⟩
    case touched =>
      exact touchedService_eq_some ((hlies i p).mpr hp) fun j q hj hq => hfirst j q hj ((hlies j q).mp hq)

end Sys2Proof.Machine
end

