-- ==== Sys2Proof/Proofs/Commands.lean ====
section
/-! PROOF. What a command can come to (R158, R159, R162), and how the Command Unit takes it and runs its queue (R157, R158,
R165). -/

namespace Sys2Proof.Machine

/-! ### What a command comes to -/

/-- What executing a command in a state can come to: refused, it has changed nothing; done, it has left the Intake Queue
alone; or it takes time, or is gone with the queue it stood in (R158, R159, R162). -/
inductive Executed (s : State) : Progress × State → Prop
  | refused (code : RefusalCode) : Executed s (refuse code s)
  | done (word : BitVec 32) {t : State} (h : t.intake = s.intake) : Executed s (done word t)
  | working (t : State) : Executed s (.working, t)
  | gone (t : State) : Executed s (.gone, t)

theorem Executed.of_refused {s t : State} {code : RefusalCode} (h : Executed s (.answered (.refused code), t)) :
    t = s := by
  cases h with
  | refused => rfl

theorem Executed.intake {s t : State} {r : Reply} (h : Executed s (.answered r, t)) : t.intake = s.intake := by
  cases h with
  | refused => rfl
  | done _ h => exact h

/-- A command done by the operations of the inner blocks. -/
theorem Executed.inner {s t : State} (word : BitVec 32) (h : Inner s t) : Executed s (Machine.done word t) :=
  .done word h.kept.intake

/-! ### The part-wide commands -/

theorem cmdEnable_executed (p : Params) (s : State) : Executed s (cmdEnable p s) := by
  unfold cmdEnable enablePart
  dsimp only
  repeat' split
  · exact .refused _
  · exact .refused _
  · exact .done _ (offer_intake ..)
  · exact .done _ rfl

theorem disableServices_inner (s : State) : Inner s (disableServices s) := by
  refine forServices_inner (fun t i h => ?_) .refl
  split
  · exact clearSlots_inner (clearSchedule_inner h)
  · exact h

theorem disableMode_inner {s t : State} (h : Inner s t) : Inner s (disableMode t) := (h.part _).offer _

theorem cmdDisable_executed (s : State) : Executed s (cmdDisable s) := by
  unfold cmdDisable
  split
  · exact .refused _
  · exact .inner _ (disableMode_inner (resetComponents_inner (endAllAlerts_inner (disableServices_inner s))))

theorem cmdStatusSnapshot_executed (p : Params) (s : State) : Executed s (cmdStatusSnapshot p s) := by
  unfold cmdStatusSnapshot
  repeat' split
  · exact .refused _
  · exact .refused _
  · exact .working _
  · exact .refused _

theorem cmdRequesterRoleSet_executed (p : Params) (s : State) : Executed s (cmdRequesterRoleSet p s) := by
  unfold cmdRequesterRoleSet
  repeat' split
  · exact .refused _
  · exact .done _ rfl
  · exact .refused _

theorem cmdErrorPolicy_executed (p : Params) (s : State) : Executed s (cmdErrorPolicy p s) := by
  unfold cmdErrorPolicy
  repeat' split
  · exact .refused _
  · exact .done _ rfl
  · exact .refused _

theorem cmdErrorClear_executed (p : Params) (s : State) : Executed s (cmdErrorClear p s) := by
  obtain hflag | hflag := Nat.lt_or_ge 1 (pByte p 4).toNat
  · rw [cmdErrorClear_badFlag hflag]
    exact .refused _
  · rw [cmdErrorClear_done hflag]
    exact .done _ rfl

theorem cmdResume_executed (s : State) : Executed s (cmdResume s) := by
  unfold cmdResume
  split
  · exact .inner _ (leaveBypass_inner .refl)
  · exact .refused _

theorem writeProducer_intake (v : Nat) (s : State) : (writeProducer v s).intake = s.intake := handWrite_intake ..

theorem putGap_intake (d : RingDef) (s : State) : (putGap d s).intake = s.intake :=
  ((Reported.refl s).putGap d).intake

theorem cmdReportRingSet_executed (p : Params) (s : State) : Executed s (cmdReportRingSet p s) := by
  unfold cmdReportRingSet ringSet defineRing
  dsimp only
  repeat' split
  · exact .refused _
  · exact .done _ rfl
  · exact .refused _
  · exact .refused _
  · exact .done _ (writeProducer_intake ..)
  · exact .done _ ((putGap_intake ..).trans (writeProducer_intake ..))

/-! ### The service commands -/

theorem cmdServiceDefine_executed (p : Params) (s : State) : Executed s (cmdServiceDefine p s) := by
  unfold cmdServiceDefine defineChecked defineService
  repeat' split
  · exact .refused _
  · exact .refused _
  · exact .refused _
  · exact .refused _
  · exact .inner _ (recomputeOne_inner (Inner.service .refl _ _ fun _ => Nat.zero_le _))
  · exact .refused _

theorem removeService_intake (i : ServiceIx) (s : State) : (removeService i s).intake = s.intake := by
  have hcleared : Inner s (clearSlots i .removed (clearSchedule i .removed s)) :=
    clearSlots_inner (clearSchedule_inner .refl)
  exact (hcleared.offer _).kept.intake

theorem cmdServiceRemove_executed (p : Params) (s : State) : Executed s (cmdServiceRemove p s) := by
  unfold cmdServiceRemove
  repeat' split
  · exact .refused _
  · exact .done _ (removeService_intake ..)
  · exact .refused _

theorem cmdComponentSet_executed (p : Params) (s : State) : Executed s (cmdComponentSet p s) := by
  unfold cmdComponentSet
  repeat' split
  · exact .refused _
  · exact .refused _
  · exact .refused _
  · exact .refused _
  · exact .done _ rfl
  · exact .refused _

theorem setOptions_executed (i : ServiceIx) (p : Params) (cue : Option Pid) (s : State) :
    Executed s (setOptions i p cue s) := by
  unfold setOptions
  dsimp only
  have hset : Inner s (s.modService i fun v => v.withOptions p cue) := Inner.record .refl i _ fun v => rfl
  split
  · exact .inner _ hset
  · exact .inner _ (recomputeOne_inner hset)

theorem cmdServiceOptions_executed (p : Params) (s : State) : Executed s (cmdServiceOptions p s) := by
  unfold cmdServiceOptions
  repeat' split
  · exact .refused _
  · exact .refused _
  · exact .refused _
  · exact .refused _
  · exact setOptions_executed ..

theorem holdMask_inner (mask : BitVec 48) (s : State) : Inner s (holdMask mask s) := by
  refine forServices_inner (fun t i h => ?_) .refl
  split
  · exact setHeld_inner h
  · exact h

theorem cmdForceNetwork_executed (p : Params) (s : State) : Executed s (cmdForceNetwork p s) :=
  .inner _ (holdMask_inner _ s)

theorem cmdReleaseService_executed (p : Params) (s : State) : Executed s (cmdReleaseService p s) := by
  unfold cmdReleaseService
  repeat' split
  · exact .refused _
  · exact .refused _
  · exact .done _ (offer_intake ..)
  · exact .done _ rfl

/-! ### The source commands -/

theorem defineStream_executed (k : SourceIx) (w : Window) (minFill : Nat) (s : State) :
    Executed s (defineStream k w minFill s) := by
  unfold defineStream
  repeat' split
  · exact .refused _
  · exact .refused _
  · exact .done _ rfl

theorem defineLoop_executed (k : SourceIx) (w : Window) (s : State) : Executed s (defineLoop k w s) := by
  unfold defineLoop
  split
  · exact .refused _
  · exact .working _

theorem cmdSourceDefine_executed (p : Params) (s : State) : Executed s (cmdSourceDefine p s) := by
  unfold cmdSourceDefine defineSource
  repeat' split
  · exact .refused _
  · exact .refused _
  · exact .refused _
  · exact defineStream_executed ..
  · exact .refused _
  · exact defineLoop_executed ..
  · exact .refused _

theorem cmdSourceRemove_executed (p : Params) (s : State) : Executed s (cmdSourceRemove p s) := by
  unfold cmdSourceRemove
  repeat' split
  · exact .refused _
  · exact .refused _
  · exact .refused _
  · exact .refused _
  · exact .done _ rfl

theorem cmdSourceFlush_executed (p : Params) (s : State) : Executed s (cmdSourceFlush p s) := by
  unfold cmdSourceFlush
  repeat' split
  · exact .refused _
  · exact .refused _
  · exact .refused _
  · exact .refused _
  · exact .done _ rfl

/-! ### The avail and break commands -/

theorem setAvail_executed (i : ServiceIx) (a : AvailIx) (b : Option Binding) (s : State) :
    Executed s (setAvail i a b s) := .done _ rfl

theorem bindChecked_executed (i : ServiceIx) (a : AvailIx) (k : SourceIx) (p : Params) (s : State) :
    Executed s (bindChecked i a k p s) := by
  unfold bindChecked
  repeat' split
  · exact .refused _
  · exact .refused _
  · exact setAvail_executed ..
  · exact .refused _

theorem cmdAvailBind_executed (p : Params) (s : State) : Executed s (cmdAvailBind p s) := by
  unfold cmdAvailBind
  repeat' split
  · exact .refused _
  · exact .refused _
  · exact bindChecked_executed ..
  · exact .refused _

theorem cmdAvailUnbind_executed (p : Params) (s : State) : Executed s (cmdAvailUnbind p s) := by
  unfold cmdAvailUnbind
  repeat' split
  · exact setAvail_executed ..
  · exact .refused _
  · exact .refused _

/-- An OUT request that is refused has changed nothing (R81). -/
theorem takeOut_executed (i : ServiceIx) (o : OutRequest) (s : State) :
    Executed s (answer (takeOut i o s).1.reply (takeOut i o s).2) := by
  have hinner : Inner s (takeOut i o s).2 := takeOut_inner .refl
  revert hinner
  unfold takeOut updateOut
  dsimp only
  repeat' split
  · exact fun _ => .refused _
  · exact fun h => .inner _ h
  · exact fun h => .inner _ h
  · exact fun _ => .refused _
  · exact fun h => .inner _ h
  · exact fun h => .inner _ h

theorem cmdBreakInsert_executed (p : Params) (s : State) : Executed s (cmdBreakInsert p s) := by
  unfold cmdBreakInsert
  repeat' split
  · exact .refused _
  · exact .refused _
  · exact takeOut_executed ..
  · exact .refused _

/-- An IN request that matches nothing has changed nothing (R83). -/
theorem takeIn_executed (i : ServiceIx) (ev : EventId) (stamp : Stamp) (s : State) :
    Executed s (answer (takeIn i ev stamp s).1.reply (takeIn i ev stamp s).2) := by
  unfold takeIn
  repeat' split
  · exact .refused _
  · exact .done _ rfl
  · exact .done _ rfl

theorem cmdBreakReturn_executed (p : Params) (s : State) : Executed s (cmdBreakReturn p s) := by
  unfold cmdBreakReturn
  repeat' split
  · exact .refused _
  · exact .refused _
  · exact takeIn_executed ..
  · exact .refused _

/-- A CANCEL request that matches nothing has changed nothing (R84). -/
theorem takeCancel_executed (i : ServiceIx) (ev : EventId) (s : State) :
    Executed s (answer (takeCancel i ev s).1.reply (takeCancel i ev s).2) := by
  unfold takeCancel
  repeat' split
  · exact .refused _
  · exact .inner _ (leaveBreak_inner .refl)
  · exact .inner _ (leaveBreak_inner .refl)

theorem cmdBreakCancel_executed (p : Params) (s : State) : Executed s (cmdBreakCancel p s) := by
  unfold cmdBreakCancel
  repeat' split
  · exact .refused _
  · exact takeCancel_executed ..
  · exact .refused _

theorem cmdBreakEndNow_executed (p : Params) (s : State) : Executed s (cmdBreakEndNow p s) := by
  unfold cmdBreakEndNow endNow
  repeat' split
  · exact .refused _
  · exact .refused _
  · exact .refused _
  · exact .inner _ (leaveBreak_inner .refl)
  · exact .refused _
  · exact .refused _

/-! ### The local programme commands -/

theorem loadSlot_inner {s t : State} (i : ServiceIx) (l : SlotLetter) (q : LocalProg) (h : Inner s t) :
    Inner s (loadSlot i l q t) := armSlot_inner (h.record i _ fun v => setSlot_schedule v l _)

theorem applyLoad_inner (i : ServiceIx) (l : SlotLetter) (q : LocalProg) (s : State) : Inner s (applyLoad i l q s) := by
  unfold applyLoad
  repeat' split
  · exact loadSlot_inner _ _ _ .refl
  · exact modSlot_inner .refl
  · exact loadSlot_inner _ _ _ (detach_inner .refl)
  · exact loadSlot_inner _ _ _ (disarm_inner .refl)

theorem loadChosen_executed (i : ServiceIx) (sel : Selector) (q : LocalProg) (s : State) :
    Executed s (loadChosen i sel q s) := by
  unfold loadChosen
  repeat' split
  · exact .refused _
  · exact .inner _ (applyLoad_inner ..)
  · exact .refused _

theorem cmdLocalLoad_executed (p : Params) (s : State) : Executed s (cmdLocalLoad p s) := by
  unfold cmdLocalLoad loadChecked
  repeat' split
  · exact .refused _
  · exact .refused _
  · exact .refused _
  · exact .refused _
  · exact loadChosen_executed ..
  · exact .refused _
  · exact .refused _

theorem cmdLocalCancel_executed (p : Params) (s : State) : Executed s (cmdLocalCancel p s) := by
  unfold cmdLocalCancel
  repeat' split
  · exact .refused _
  · exact .refused _
  · exact .refused _
  · exact .inner _ (leaveSlot_inner .refl)
  · exact .inner _ (leaveSlot_inner .refl)
  · exact .refused _

/-! ### The alert and link commands -/

theorem cmdAlertGroupSet_executed (p : Params) (s : State) : Executed s (cmdAlertGroupSet p s) := by
  unfold cmdAlertGroupSet
  repeat' split
  · exact .refused _
  · exact .refused _
  · exact .done _ rfl
  · exact .done _ rfl
  · exact .refused _

/-- An activation request that is refused has changed nothing (R133). -/
theorem requestActivation_executed (r : ActivationRequest) (s : State) :
    Executed s (answer (requestActivation r s).1.reply (requestActivation r s).2) := by
  have hinner : Inner s (requestActivation r s).2 := requestActivation_inner .refl
  revert hinner
  unfold requestActivation activateOrRaise activateGroup
  repeat' split
  · exact fun _ => .refused _
  · exact fun _ => .refused _
  · exact fun h => .inner _ h
  · exact fun _ => .refused _
  · exact fun _ => .refused _
  · exact fun _ => .refused _
  · exact fun h => .inner _ h
  · exact fun _ => .refused _
  · exact fun _ => .refused _
  · exact fun _ => .refused _

theorem cmdAlertStart_executed (p : Params) (s : State) : Executed s (cmdAlertStart p s) :=
  requestActivation_executed _ s

theorem endSlot_executed (k : AlertIx) (s : State) : Executed s (endSlot k s) := by
  unfold endSlot
  split
  · exact .inner _ (endAlert_inner .refl)
  · exact .refused _

theorem cmdAlertEnd_executed (p : Params) (s : State) : Executed s (cmdAlertEnd p s) := by
  unfold cmdAlertEnd endGroup
  repeat' split
  · exact endSlot_executed ..
  · exact .refused _
  · exact endSlot_executed ..
  · exact .refused _
  · exact .refused _
  · exact .refused _

theorem cmdAlertOverlayLoad_executed (p : Params) (s : State) : Executed s (cmdAlertOverlayLoad p s) := by
  unfold cmdAlertOverlayLoad
  repeat' split
  · exact .refused _
  · exact .refused _
  · exact .refused _
  · exact .working _
  · exact .refused _

theorem cmdLinkSet_executed (p : Params) (s : State) : Executed s (cmdLinkSet p s) := by
  unfold cmdLinkSet
  split
  · exact .refused _
  · exact .done _ rfl

/-! ### Any command -/

theorem runCommand_executed (q : QueueEntry) (s : State) : Executed s (runCommand q s) := by
  unfold runCommand
  split
  · exact cmdEnable_executed ..
  · exact cmdDisable_executed ..
  · exact .gone _
  · exact cmdStatusSnapshot_executed ..
  · exact cmdRequesterRoleSet_executed ..
  · exact cmdServiceDefine_executed ..
  · exact cmdServiceRemove_executed ..
  · exact cmdComponentSet_executed ..
  · exact cmdServiceOptions_executed ..
  · exact cmdForceNetwork_executed ..
  · exact cmdReleaseService_executed ..
  · exact cmdSourceDefine_executed ..
  · exact cmdSourceRemove_executed ..
  · exact cmdSourceFlush_executed ..
  · exact cmdAvailBind_executed ..
  · exact cmdAvailUnbind_executed ..
  · exact cmdBreakInsert_executed ..
  · exact cmdBreakReturn_executed ..
  · exact cmdBreakCancel_executed ..
  · exact cmdBreakEndNow_executed ..
  · exact cmdLocalLoad_executed ..
  · exact cmdLocalCancel_executed ..
  · exact cmdAlertGroupSet_executed ..
  · exact cmdAlertStart_executed ..
  · exact cmdAlertEnd_executed ..
  · exact cmdAlertOverlayLoad_executed ..
  · exact cmdLinkSet_executed ..
  · exact cmdErrorPolicy_executed ..
  · exact cmdErrorClear_executed ..
  · exact cmdResume_executed ..
  · exact cmdReportRingSet_executed ..
  · exact .refused _

/-- A code the table does not have is refused BAD-COMMAND (R158). -/
theorem runCommand_unknown {q : QueueEntry} (h : unknownCode q.code = true) (s : State) :
    runCommand q s = refuse .badCommand s := by
  have hmem : ∀ n ∈ knownCodes, q.code.toNat ≠ n := by
    intro n hn heq
    simp only [unknownCode, Bool.not_eq_true', List.contains_eq_mem, decide_eq_false_iff_not] at h
    exact h (heq ▸ hn)
  unfold runCommand
  split
  case h_32 => rfl
  all_goals exact absurd ‹q.code.toNat = _› (hmem _ (by decide))

/-! ### The Intake Queue (R158) -/

theorem runAll_nil {s : State} (h : s.intake = []) : runAll s = s := by
  rw [runAll, h]
  rfl

theorem runAll_cons {s : State} {q : QueueEntry} {more : List QueueEntry} (h : s.intake = q :: more) :
    runAll s = runQueue (more.length + 1) s := by
  rw [runAll, h, List.length_cons]

/-- A command answered leaves the others behind it, and the queue runs on (R158). -/
theorem runAll_answered {s t : State} {q : QueueEntry} {more : List QueueEntry} {r : Reply} (h : s.intake = q :: more)
    (hr : runCommand q s = (.answered r, t)) : runAll s = runAll (complete q r t) := by
  have hintake : t.intake = s.intake := (hr ▸ runCommand_executed q s).intake
  have hmore : (complete q r t).intake = more := by rw [complete_intake, hintake, h, List.tail_cons]
  simp only [runAll_cons h, runQueue, h, hr]
  rw [runAll, hmore]

theorem runAll_working {s t : State} {q : QueueEntry} {more : List QueueEntry} (h : s.intake = q :: more)
    (hr : runCommand q s = (.working, t)) : runAll s = t := by
  simp only [runAll_cons h, runQueue, h, hr]

theorem runAll_gone {s t : State} {q : QueueEntry} {more : List QueueEntry} (h : s.intake = q :: more)
    (hr : runCommand q s = (.gone, t)) : runAll s = t := by
  simp only [runAll_cons h, runQueue, h, hr]

/-! ### Taking a command (R156, R157) -/

/-- The submission a command's row stands for. -/
def submissionOf (code : Byte) (c : CellCommand) : Submission where
  cell := c.cell
  requester := c.requester
  code := code
  tag := c.tag

theorem takeCommand_unfold (code : Byte) (now : Stamp) (c : CellCommand) (s : State) :
    takeCommand code now c s
      = settle (runIfIdle (s.at now) (submit (submissionOf code c) (captureParams c (s.at now)))) := rfl

theorem captureParams_eq (c : CellCommand) (s : State) :
    captureParams c s = { s with cells := vset s.cells c.cell { vget s.cells c.cell with shadow := c.params } } := rfl

theorem submit_busy {b : Submission} {s : State} (h : (vget s.cells b.cell).busy = true) :
    submit b s = raise (cellBusyEvent b s) s := by
  rw [submit, if_pos h]

theorem submit_full {b : Submission} {s : State} (hb : (vget s.cells b.cell).busy = false) (h : 8 ≤ s.intake.length) :
    submit b s = writeBack b.cell b.code b.tag (.refused .queueFull) s := by
  rw [submit, hb, if_neg Bool.false_ne_true, if_pos (show Config.intakeMax ≤ _ from h)]

/-- The queue entry a submission is taken into, with the parameters its cell's shadow holds (R157). -/
def Submission.entry (b : Submission) (params : Params) : QueueEntry where
  cell := b.cell
  code := b.code
  tag := b.tag
  requester := b.requester
  params := params

theorem submit_queued {b : Submission} {s : State} (hb : (vget s.cells b.cell).busy = false)
    (h : s.intake.length < 8) :
    submit b s = { s.modCell b.cell (fun c => { c with busy := true }) with
      intake := s.intake ++ [b.entry (vget s.cells b.cell).shadow] } := by
  rw [submit, hb, if_neg Bool.false_ne_true, if_neg (Nat.not_le.mpr (show _ < Config.intakeMax from h))]
  rfl

/-- While commands wait, the queue's head has begun already, and the event runs nothing (R158). -/
theorem runIfIdle_of_ne {before s : State} (h : before.intake ≠ []) : runIfIdle before s = s := by
  rw [runIfIdle, List.isEmpty_eq_false_iff.mpr h, if_neg Bool.false_ne_true]

theorem runIfIdle_of_nil {before s : State} (h : before.intake = []) : runIfIdle before s = runAll s := by
  rw [runIfIdle, h]
  rfl

theorem captureParams_busy (c : CellCommand) (s : State) :
    (vget (captureParams c s).cells c.cell).busy = (vget s.cells c.cell).busy := by
  rw [captureParams_eq, vget_vset_self]

/-- What an event that leaves the Intake Queue as it is runs of it: nothing. -/
theorem runIfIdle_of_intake {before s : State} (h : s.intake = before.intake) : runIfIdle before s = s := by
  by_cases hq : before.intake = []
  · rw [runIfIdle_of_nil hq, runAll_nil (h.trans hq)]
  · exact runIfIdle_of_ne hq

/-- A command whose cell is busy: CELL-BUSY, and nothing else. -/
theorem takeCommand_busy {code : Byte} {now : Stamp} {c : CellCommand} {s : State}
    (h : (vget s.cells c.cell).busy = true) :
    takeCommand code now c s = settle (raise (cellBusyEvent (submissionOf code c) s) (captureParams c (s.at now))) := by
  rw [takeCommand_unfold, submit_busy ((captureParams_busy c (s.at now)).trans h)]
  exact congrArg settle (runIfIdle_of_intake (raise_intake ..))

theorem writeBack_intake (cell : CellIx) (code tag : Byte) (r : Reply) (s : State) :
    (writeBack cell code tag r s).intake = s.intake := (writeBack_reported cell code tag r s).intake

/-- A command that finds the queue full is answered at once. -/
theorem takeCommand_full {code : Byte} {now : Stamp} {c : CellCommand} {s : State}
    (hb : (vget s.cells c.cell).busy = false) (h : 8 ≤ s.intake.length) (hd : s.deferred = []) :
    takeCommand code now c s = writeBack c.cell code c.tag (.refused .queueFull) (captureParams c (s.at now)) := by
  have hrun : runIfIdle (s.at now) (submit (submissionOf code c) (captureParams c (s.at now)))
      = writeBack c.cell code c.tag (.refused .queueFull) (captureParams c (s.at now)) := by
    rw [submit_full (s := captureParams c (s.at now)) ((captureParams_busy c (s.at now)).trans hb) h]
    exact runIfIdle_of_intake (writeBack_intake ..)
  rw [takeCommand_unfold, hrun]
  exact settle_nil ((handWrite_deferred ..).trans hd)

/-- A command that finds others before it waits behind them. -/
theorem takeCommand_waits {code : Byte} {now : Stamp} {c : CellCommand} {s : State}
    (hb : (vget s.cells c.cell).busy = false) (hq : s.intake ≠ []) (h : s.intake.length < 8) (hd : s.deferred = []) :
    takeCommand code now c s = { s with
      now := now
      cells := vset s.cells c.cell { shadow := c.params, busy := true }
      intake := s.intake ++ [entryOf code c] } := by
  have hsubmit : submit (submissionOf code c) (captureParams c (s.at now)) = { s with
      now := now
      cells := vset s.cells c.cell { shadow := c.params, busy := true }
      intake := s.intake ++ [entryOf code c] } := by
    rw [submit_queued (s := captureParams c (s.at now)) ((captureParams_busy c (s.at now)).trans hb) h]
    simp [captureParams_eq, State.modCell, submissionOf, Submission.entry, entryOf, State.at]
  rw [takeCommand_unfold, hsubmit, runIfIdle_of_ne (before := s.at now) hq]
  exact settle_nil hd

/-- Settles O15: taking by the cell's mark and the queue's occupancy, running by what the head comes to. -/
theorem commandIsTakenByCellAndQueue : Obligations.CommandIsTakenByCellAndQueue := by
  refine ⟨fun i code c s hx hw hd => ?taking, fun s h => runAll_nil h, fun q more s h =>
    ⟨fun r t hr => runAll_answered h hr, fun t hr => runAll_working h hr, fun t hr => runAll_gone h hr⟩⟩
  case taking =>
    rw [exec_commandOf hx hw]
    refine ⟨fun hb => congrArg _ (takeCommand_busy hb), fun hb h => congrArg _ (takeCommand_full hb h hd),
      fun hb hq h => congrArg _ (takeCommand_waits hb hq h hd), fun hb hq => congrArg _ (takeCommand_eq ⟨hq, hb, hd⟩)⟩

/-! ### Refusals -/

/-- The row of a code the table does not have. -/
theorem exec_unknownCommand {now : Stamp} {code : Byte} {c : CellCommand} {s : State} (hc : unknownCode code = true)
    (hi : Idle c s) :
    exec (.unknownCommand now code c) s = .next (afterReply code now c (.refused .badCommand) id s) :=
  exec_afterReply_id (x := .unknownCommand now code c) rfl hc hi (runCommand_unknown hc _)

/-- Settles O16, by what a command comes to. -/
theorem refusedCommandsChangeNothingElse : Obligations.RefusedCommandsChangeNothingElse := by
  refine ⟨fun q code s t h => (h ▸ runCommand_executed q s).of_refused, fun now code c s hc hi => ?unknown⟩
  case unknown =>
    have hintake : s.intake = [] := hi.1
    rw [exec_unknownCommand hc hi, afterReply, complete_eq, writeBack, writeInternal]
    simp only [id, entryOf, handWrite_takenState_emitted, handWrite_takenState_issueQueue]
    rw [handWrite_eq true _ _ s]
    simp [takenState, State.cellAddr, State.strapBase, hintake]

end Sys2Proof.Machine
end

