-- ==== Sys2Proof/Proofs/Submission.lean ====
section
/-! PROOF. A CONTROL write that submits a command from its cell does what the command's row does (R156 to R158; log 4). -/

namespace Sys2Proof.Machine

/-! ### The bytes of a submission -/

/-- The 64 bytes of a cell as a submission writes them: the header of beat 0 and the parameters of beats 1 to 3 (R156). -/
def cellImage (code : Byte) (c : CellCommand) : List Byte := [code, c.tag, 0x01] ++ zeros 13 ++ c.params.toList

theorem submission_bytes (code : Byte) (c : CellCommand) (s : State) :
    (submission code c s).bytes = enabledBytes (cellImage code c) := rfl

theorem cellImage_length (code : Byte) (c : CellCommand) : (cellImage code c).length = 64 := by
  simp [cellImage, zeros]

theorem submission_length (code : Byte) (c : CellCommand) (s : State) : (submission code c s).bytes.length = 64 := by
  rw [submission_bytes, enabledBytes, List.length_map, cellImage_length]

theorem submission_wf (code : Byte) (c : CellCommand) (s : State) : (submission code c s).wf = true := by
  rw [PortWrite.wf, submission_length]
  rfl

/-- The parameter bytes of the image are the command's. -/
theorem cellImage_params (code : Byte) (c : CellCommand) (j : Fin 48) :
    (cellImage code c)[16 + j.val]? = some (vget c.params j) := by
  have hprefix : ([code, c.tag, 0x01] ++ zeros 13).length = 16 := by simp [zeros]
  rw [cellImage, List.getElem?_append_right (by omega), hprefix, Nat.add_sub_cancel_left, Vector.getElem?_toList,
    Vector.getElem?_eq_getElem j.isLt]
  rfl

/-- Reading a byte of a fully enabled write gives the data. -/
theorem enabledData_enabledBytes (bs : List Byte) (k : Nat) : enabledData (enabledBytes bs)[k]? = bs[k]? := by
  rw [enabledBytes, List.getElem?_map]
  cases bs[k]? <;> rfl

theorem allSome_map_some {α : Type} (l : List α) : allSome (l.map some) = some l := by
  induction l with
  | nil => rfl
  | cons x r ih => rw [List.map_cons, allSome, ih]; rfl

theorem range_map_getElem? {α : Type} {l : List α} {n : Nat} (h : n ≤ l.length) :
    (List.range n).map (fun k => l[k]?) = (l.take n).map some := by
  refine List.ext_getElem (by simp [h]) fun k hk hk' => ?_
  have hkn : k < n := by simpa using hk
  simp [List.getElem?_eq_getElem (hkn.trans_le h)]

/-! ### The cell's place in the control region (R155) -/

theorem cellAddr_toNat (s : State) (c : CellIx) : (s.cellAddr c).toNat = s.strapBase.toNat + cellOffset c := by
  have hbase := strapBase_toNat s
  have hstraps := s.straps.isLt
  have hc := c.isLt
  rw [State.cellAddr, cellOffset, BitVec.toNat_add, BitVec.toNat_ofNat, hbase]
  omega

theorem cellOffset_bounds (c : CellIx) : 0x400 ≤ cellOffset c ∧ cellOffset c ≤ 1984 := by
  have hc := c.isLt
  unfold cellOffset
  omega

/-- The part of a submission in the control region: all of it. -/
def cellPart (s : State) (c : CellIx) : Part := { off := 0, addr := s.cellAddr c, len := 64 }

theorem laneAt_cell (s : State) (c : CellIx) (bytes : List LaneByte) {k : Nat} (hk : k < 64) :
    laneAt s.strapBase.toNat (cellPart s c) bytes (cellOffset c + k) = bytes[k]? := by
  unfold laneAt cellPart
  dsimp only
  rw [cellAddr_toNat, if_pos (by omega)]
  exact congrArg (bytes[·]?) (by omega)

theorem laneAt_before_cell (s : State) (c : CellIx) (bytes : List LaneByte) {o : Nat} (ho : o < cellOffset c) :
    laneAt s.strapBase.toNat (cellPart s c) bytes o = none := by
  unfold laneAt cellPart
  dsimp only
  rw [cellAddr_toNat, if_neg (by omega)]

theorem touchesCell_iff (s : State) (c d : CellIx) :
    touchesCell s.strapBase.toNat (cellPart s c) d = decide (d = c) := by
  rw [Bool.eq_iff_iff, decide_eq_true_iff, touchesCell, rangesMeet]
  simp only [cellPart, cellAddr_toNat, cellOffset, Bool.and_eq_true, decide_eq_true_eq]
  constructor
  · rintro ⟨h1, h2⟩
    exact Fin.ext (by omega)
  · rintro rfl
    omega

theorem filter_cell (c : CellIx) : (allCells.filter fun d => decide (d = c)) = [c] := by
  revert c
  decide

/-- A submission meets its own cell and no other. -/
theorem touchedCells_cell (s : State) (c : CellIx) : touchedCells s.strapBase.toNat (cellPart s c) = [c] := by
  rw [touchedCells, funext (touchesCell_iff s c), filter_cell]

/-! ### The control write (R28, R156) -/

/-- The consumer-index word lies below every cell. -/
theorem offerConsumer_cell (s : State) (c : CellIx) (bytes : List LaneByte) :
    offerConsumer (cellPart s c) bytes s = s := by
  obtain ⟨hlo, -⟩ := cellOffset_bounds c
  have hnone : wholeField s.strapBase.toNat (cellPart s c) bytes 0x010 4 = none := by
    have hrange : List.range 4 = 0 :: [1, 2, 3] := rfl
    rw [wholeField, hrange, List.map_cons, laneAt_before_cell s c bytes (by omega)]
    rfl
  rw [offerConsumer, hnone]

theorem capturedShadow_cell (code : Byte) (c : CellCommand) (s : State) (shadow : Params) :
    capturedShadow s.strapBase.toNat (cellPart s c.cell) (enabledBytes (cellImage code c)) c.cell shadow = c.params := by
  refine Vector.ext fun j hj => ?_
  have hlane := laneAt_cell s c.cell (enabledBytes (cellImage code c)) (k := 16 + j) (by omega)
  rw [capturedShadow, Vector.getElem_ofFn]
  dsimp only
  rw [Nat.add_assoc, hlane, enabledData_enabledBytes, cellImage_params code c ⟨j, hj⟩]
  rfl

theorem captureCells_cell (code : Byte) (c : CellCommand) (s : State) :
    captureCells (cellPart s c.cell) (enabledBytes (cellImage code c)) s = captureParams c s := by
  rw [captureCells, touchedCells_cell]
  simp only [List.foldl_cons, List.foldl_nil, capturedShadow_cell]
  rfl

theorem wholeField_cell (code : Byte) (c : CellCommand) (s : State) :
    wholeField s.strapBase.toNat (cellPart s c.cell) (enabledBytes (cellImage code c)) (cellOffset c.cell) 16
      = some ((cellImage code c).take 16) := by
  have hmap : (List.range 16).map (fun k => enabledData (laneAt s.strapBase.toNat (cellPart s c.cell)
      (enabledBytes (cellImage code c)) (cellOffset c.cell + k))) = (List.range 16).map fun k => (cellImage code c)[k]? := by
    refine List.map_congr_left fun k hk => ?_
    have hk16 : k < 16 := List.mem_range.mp hk
    rw [laneAt_cell s c.cell _ (by omega), enabledData_enabledBytes]
  rw [wholeField, hmap, range_map_getElem? (by rw [cellImage_length]; omega), allSome_map_some]

theorem submissionIn_cell (code : Byte) (c : CellCommand) (s : State) :
    submissionIn s.strapBase.toNat (cellPart s c.cell) (enabledBytes (cellImage code c)) c.requester c.cell
      = some (submissionOf code c) := by
  rw [submissionIn, wholeField_cell]
  rfl

theorem submitCells_cell (code : Byte) (c : CellCommand) (s : State) :
    submitCells c.requester (cellPart s c.cell) (enabledBytes (cellImage code c)) s = submit (submissionOf code c) s := by
  rw [submitCells, touchedCells_cell]
  simp only [List.foldl_cons, List.foldl_nil, submissionIn_cell]

/-- The control write of a submission captures the parameters and hands the command to the Command Unit. -/
theorem controlWrite_cell (code : Byte) (c : CellCommand) (s : State) :
    controlWrite c.requester (cellPart s c.cell) (enabledBytes (cellImage code c)) s
      = submit (submissionOf code c) (captureParams c s) := by
  rw [controlWrite, offerConsumer_cell, captureCells_cell]
  exact submitCells_cell code c (captureParams c s)

/-! ### The write taken (R22) -/

theorem controlOffer_cell (s : State) (c : CellIx) :
    s.controlOffer (s.cellAddr c) 64 = [{ region := .control, part := cellPart s c }] := by
  obtain ⟨-, hhi⟩ := cellOffset_bounds c
  have hpart : regionPart s.strapBase.toNat controlSize (s.cellAddr c) 64 = some (cellPart s c) := by
    refine (regionPart_eq_some s.strapBase.isLt).mpr (.inl ⟨?_, ?_, ?_⟩)
    · rw [cellAddr_toNat]
      omega
    · rw [cellAddr_toNat, controlSize]
      omega
    · rw [cellPart, cellAddr_toNat, controlSize, Nat.min_eq_left (by omega)]
  rw [State.controlOffer, hpart]
  rfl

theorem takeWrite_submission (code : Byte) (c : CellCommand) (s : State) (hr : vget s.roles c.requester = .control) :
    takeWrite (submission code c s) s = submit (submissionOf code c)
      (captureParams c (handWrite false (submission code c s).addr (submission code c s).bytes s)) := by
  have hoffers : s.offers .control (s.cellAddr c.cell) 64 = [{ region := .control, part := cellPart s c.cell }] := by
    rw [offers_eq, controlOffer_cell]
    rfl
  have hwritten : controlWrite c.requester (cellPart s c.cell) (enabledBytes (cellImage code c))
        (handWrite false (s.cellAddr c.cell) (enabledBytes (cellImage code c)) s)
      = submit (submissionOf code c)
        (captureParams c (handWrite false (s.cellAddr c.cell) (enabledBytes (cellImage code c)) s)) := by
    have h := controlWrite_cell code c (handWrite false (s.cellAddr c.cell) (enabledBytes (cellImage code c)) s)
    rwa [cellPart, State.cellAddr, State.strapBase, handWrite_straps] at h
  have hrole : vget s.roles (submission code c s).requester = .control := hr
  rw [takeWrite, submission_length, hrole]
  exact (congrArg (List.foldl _ _) hoffers).trans hwritten

/-- Settles O14: the write taken leaves what the row's submission leaves, and the queue then runs in both. -/
theorem submissionRunsItsCommand : Obligations.SubmissionRunsItsCommand := by
  intro i code c s hx hw hi hr
  have htake := takeWrite_submission code c (s.at i.now) hr
  rw [exec_writeTaken_of_wf s (submission_wf code c s), exec_commandOf hx hw, takeCommand_unfold]
  have hat (a : Addr) (bs : List LaneByte) :
      handWrite false a bs (s.at i.now) = (handWrite false a bs s).at i.now := by
    by_cases hq : s.issueQueue.isEmpty <;> simp [handWrite, State.at, State.emit, hq]
  have hidle (t : State) : runIfIdle ((handWrite false (submission code c s).addr (submission code c s).bytes s).at i.now) t
      = runIfIdle (s.at i.now) t := by
    rw [runIfIdle, runIfIdle, at_intake, handWrite_intake, at_intake]
  rw [hidle, ← hat]
  exact congrArg (fun t => Host.Outcome.next (settle (runIfIdle (s.at i.now) t))) htake

end Sys2Proof.Machine
end

