-- ==== Sys2Proof/Proofs/Requests.lean ====
section
/-! PROOF. The requests the Schedule Unit takes, one lemma for each outcome (R81 to R84), and the pre-roll of an entry (R87,
R90). -/

namespace Sys2Proof.Machine

/-! ### A service's record under the operations that leave it -/

theorem service_congr {s t : State} (h : t.services = s.services) (i : ServiceIx) : t.service i = s.service i := by
  rw [State.service, State.service, h]

@[simp] theorem offer_service (r : Report) (s : State) (i : ServiceIx) : (offer r s).service i = s.service i :=
  service_congr (offer_services r s) i

@[simp] theorem raise_service (e : ErrorEvent) (s : State) (i : ServiceIx) : (raise e s).service i = s.service i :=
  service_congr (raise_services e s) i

@[simp] theorem modSource_service (s : State) (k : SourceIx) (f : Source → Source) (i : ServiceIx) :
    (s.modSource k f).service i = s.service i := rfl

@[simp] theorem modService_service_self (s : State) (i : ServiceIx) (f : Service → Service) :
    (s.modService i f).service i = f (s.service i) := vget_vset_self ..

theorem modService_service_ne (s : State) {i j : ServiceIx} (f : Service → Service) (h : j ≠ i) :
    (s.modService i f).service j = s.service j := vget_vset_ne _ _ h

@[simp] theorem detach_service (k : SourceIx) (o : InsOwner) (s : State) (i : ServiceIx) :
    (detach k o s).service i = s.service i := by
  unfold detach
  split
  · exact offer_service ..
  · rfl

@[simp] theorem attach_service (k : SourceIx) (o : InsOwner) (s : State) (i : ServiceIx) :
    (attach k o s).2.service i = s.service i := by
  unfold attach
  split <;> rfl

@[simp] theorem detachEntry_service (i : ServiceIx) (e : BreakEntry) (s : State) (j : ServiceIx) :
    (detachEntry i e s).service j = s.service j := by
  unfold detachEntry
  split
  · exact detach_service ..
  · rfl

/-! ### Finding an entry that has been placed (R79) -/

theorem find?_cons_none {p : BreakEntry → Bool} {x : BreakEntry} {l : List BreakEntry} (h : (x :: l).find? p = none) :
    ¬p x = true ∧ l.find? p = none := by
  rw [List.find?_eq_none] at h ⊢
  exact List.forall_mem_cons.mp h

theorem find?_insertEntry {p : BreakEntry → Bool} {e : BreakEntry} (he : p e = true) :
    ∀ {l : List BreakEntry}, l.find? p = none → (insertEntry e l).find? p = some e
  | [], _ => by rw [insertEntry, List.find?_cons_of_pos he]
  | x :: r, h => by
    obtain ⟨hx, hr⟩ := find?_cons_none h
    rw [insertEntry]
    split
    · exact List.find?_cons_of_pos he
    · rw [List.find?_cons_of_neg hx]
      exact find?_insertEntry he hr

theorem find?_placeEntry {p : BreakEntry → Bool} {e : BreakEntry} (he : p e = true) {l : List BreakEntry}
    (h : l.find? p = none) : (placeEntry e l).find? p = some e := by
  cases l with
  | nil => exact find?_insertEntry he h
  | cons x r =>
    obtain ⟨hx, hr⟩ := find?_cons_none h
    rw [placeEntry]
    split
    · rw [List.find?_cons_of_neg hx]
      exact find?_insertEntry he hr
    · exact find?_insertEntry he h

/-- The entries left when those with an event ID are taken out hold none with it. -/
theorem find?_filter_event (ev : EventId) (l : List BreakEntry) :
    (l.filter fun x => x.event != ev).find? (fun x => x.event == ev) = none := by
  simp [List.find?_eq_none]

/-! ### Arming (R90) -/

theorem atOrBefore_of_later {a b : Stamp} (h : later a b = true) : atOrBefore a b = false := by rw [atOrBefore, h]; rfl

theorem atOrBefore_of_not_later {a b : Stamp} (h : later a b = false) : atOrBefore a b = true := by
  rw [atOrBefore, h]; rfl

/-- A moment that has come is checked at once. -/
theorem armPreRoll_checks {moment : Stamp} {s : State} (o : InsOwner) (check : State → State)
    (h : later moment s.now = false) : armPreRoll moment o check s = check s := by
  rw [armPreRoll, armAnswer, atOrBefore_of_not_later h]
  rfl

theorem armPreRoll_armed {moment : Stamp} {s : State} (o : InsOwner) (check : State → State)
    (h : later moment s.now = true) (hb : s.bank.length < 64) :
    armPreRoll moment o check s = armChannel moment o s := by
  rw [armPreRoll, armAnswer, atOrBefore_of_later h, if_neg Bool.false_ne_true,
    if_pos (show s.bank.length < Config.channelMax from hb)]

theorem armPreRoll_noTimer {moment : Stamp} {s : State} (o : InsOwner) (check : State → State)
    (h : later moment s.now = true) (hb : 64 ≤ s.bank.length) :
    armPreRoll moment o check s = raise { kind := .noTimer, service := some (ownerService o) } s := by
  rw [armPreRoll, armAnswer, atOrBefore_of_later h, if_neg Bool.false_ne_true,
    if_neg (show ¬s.bank.length < Config.channelMax from Nat.not_lt.mpr hb)]

theorem armBreak_of_find {i : ServiceIx} {ev : EventId} {e : BreakEntry} {s : State}
    (h : (s.service i).findEntry ev = some e) :
    armBreak i ev s = armPreRoll (preRollMoment (s.service i) e.splice) (.brk i ev) (checkBreak i ev) s := by
  simp only [armBreak, h]

theorem checkBreak_scheduled {i : ServiceIx} {ev : EventId} {e : BreakEntry} {s : State}
    (h : (s.service i).findEntry ev = some e) (hs : e.state = .scheduled) :
    checkBreak i ev s = checkEntry i e s := by
  simp [checkBreak, h, hs]

/-! ### What the arming of an entry leaves of it -/

/-- The fields of an entry a request gives it stand: event, splice stamp, duration and return stamp. -/
def SameRequest (e f : BreakEntry) : Prop :=
  f.event = e.event ∧ f.splice = e.splice ∧ f.duration = e.duration ∧ f.ret = e.ret

theorem SameRequest.refl (e : BreakEntry) : SameRequest e e := ⟨rfl, rfl, rfl, rfl⟩

theorem SameRequest.trans {e f g : BreakEntry} (h : SameRequest e f) (k : SameRequest f g) : SameRequest e g := by
  obtain ⟨h1, h2, h3, h4⟩ := h
  obtain ⟨k1, k2, k3, k4⟩ := k
  exact ⟨k1.trans h1, k2.trans h2, k3.trans h3, k4.trans h4⟩

/-- The entry of an event is found with what a request has given it. -/
def HoldsRequest (i : ServiceIx) (e : BreakEntry) (s : State) : Prop :=
  ∃ f, (s.service i).findEntry e.event = some f ∧ SameRequest e f

theorem HoldsRequest.congr {i : ServiceIx} {e : BreakEntry} {s t : State} (h : HoldsRequest i e s)
    (ht : t.service i = s.service i) : HoldsRequest i e t := by
  rw [HoldsRequest, ht]
  exact h

theorem HoldsRequest.modEntry {i : ServiceIx} {e : BreakEntry} {s : State} {g : BreakEntry → BreakEntry}
    (h : HoldsRequest i e s) (hg : ∀ y, SameRequest y (g y)) : HoldsRequest i e (s.modEntry i e.event g) := by
  obtain ⟨f, hf, hsame⟩ := h
  exact ⟨g f, findEntry_modEntry (fun y => (hg y).1) hf, hsame.trans (hg f)⟩

theorem HoldsRequest.offer {i : ServiceIx} {e : BreakEntry} {s : State} (h : HoldsRequest i e s) (r : Report) :
    HoldsRequest i e (Machine.offer r s) := h.congr (offer_service r s i)

theorem resolveEntry_holdsRequest {i : ServiceIx} {e f : BreakEntry} {s : State} (hev : f.event = e.event)
    (h : HoldsRequest i e s) : HoldsRequest i e (resolveEntry i f s).2 := by
  unfold resolveEntry
  split
  · exact h
  next b _ =>
    have hattach := attach_service b.source (.brk i f.event) s i
    split
    next t ht =>
      rw [ht] at hattach
      rw [hev]
      exact (h.congr hattach).modEntry fun y => ⟨rfl, rfl, rfl, rfl⟩
    next a t _ ht =>
      rw [ht] at hattach
      exact h.congr hattach

theorem checkEntry_holdsRequest {i : ServiceIx} {e f : BreakEntry} {s : State} (hev : f.event = e.event)
    (h : HoldsRequest i e s) : HoldsRequest i e (checkEntry i f s) := by
  have hr := resolveEntry_holdsRequest hev h
  unfold checkEntry
  split
  next b t ht =>
    rw [ht] at hr
    rw [hev]
    refine HoldsRequest.offer ?_ _
    exact HoldsRequest.modEntry hr fun y => ⟨rfl, rfl, rfl, rfl⟩
  next r t _ ht =>
    dsimp only
    rw [ht] at hr
    rw [hev]
    refine HoldsRequest.offer ?_ _
    exact HoldsRequest.modEntry hr fun y => ⟨rfl, rfl, rfl, rfl⟩

theorem checkBreak_holdsRequest {i : ServiceIx} {e : BreakEntry} {s : State} (h : HoldsRequest i e s) :
    HoldsRequest i e (checkBreak i e.event s) := by
  unfold checkBreak
  split
  next f hf =>
    split
    · exact checkEntry_holdsRequest (findEntry_event hf) h
    · exact h
  · exact h

/-- Arming an entry's pre-roll, which may check it at once, leaves what its request gave it. -/
theorem armBreak_holdsRequest {i : ServiceIx} {e : BreakEntry} {s : State} (h : HoldsRequest i e s) :
    HoldsRequest i e (armBreak i e.event s) := by
  unfold armBreak
  split
  · unfold armPreRoll
    split
    · exact checkBreak_holdsRequest h
    · exact h.congr rfl
    · exact h.congr (raise_service ..)
  · exact h

/-! ### OUT requests (R81, R82) -/

theorem isActive_iff {e : BreakEntry} : e.isActive = true ↔ e.state = .active := by simp [BreakEntry.isActive]

theorem isActive_eq_false {e : BreakEntry} (h : e.state ≠ .active) : e.isActive = false :=
  Bool.eq_false_iff.mpr (mt isActive_iff.mp h)

theorem takeOut_active {i : ServiceIx} {o : OutRequest} {e : BreakEntry} {s : State}
    (h : (s.service i).findEntry o.event = some e) (ha : e.state = .active) : takeOut i o s = (.duplicate, s) := by
  simp only [takeOut, h, isActive_iff.mpr ha, if_true]

theorem takeOut_full {i : ServiceIx} {o : OutRequest} {s : State} (h : (s.service i).findEntry o.event = none)
    (hf : 4 ≤ (s.service i).schedule.length) : takeOut i o s = (.full, s) := by
  have hmax : Config.scheduleMax ≤ (s.service i).schedule.length := hf
  simp only [takeOut, h, if_pos hmax]

theorem takeOut_late {i : ServiceIx} {o : OutRequest} {s : State} (h : (s.service i).findEntry o.event = none)
    (hf : (s.service i).schedule.length < 4) (hl : outIsLate (s.service i) o.splice s.now = true) :
    takeOut i o s
      = (.missedLate, offer (breakReport i o.event .missed .late (some o.splice) (some s.now) 0 none) s) := by
  have hmax : ¬Config.scheduleMax ≤ (s.service i).schedule.length := Nat.not_le.mpr hf
  simp only [takeOut, h, if_neg hmax, hl, if_true]

theorem takeOut_inserted {i : ServiceIx} {o : OutRequest} {s : State} (h : (s.service i).findEntry o.event = none)
    (hf : (s.service i).schedule.length < 4) (hl : outIsLate (s.service i) o.splice s.now = false) :
    takeOut i o s = (.inserted, insertOut i o s) := by
  have hmax : ¬Config.scheduleMax ≤ (s.service i).schedule.length := Nat.not_le.mpr hf
  simp only [takeOut, h, if_neg hmax, hl, Bool.false_eq_true, if_false]

theorem takeOut_update {i : ServiceIx} {o : OutRequest} {e : BreakEntry} {s : State}
    (h : (s.service i).findEntry o.event = some e) (ha : e.state ≠ .active) : takeOut i o s = updateOut i o e s := by
  simp only [takeOut, h, isActive_eq_false ha, Bool.false_eq_true, if_false]

/-- The entry as an update gives it the request's avail, splice stamp and duration (R82). -/
def BreakEntry.updatedBy (e : BreakEntry) (v : Service) (o : OutRequest) : BreakEntry :=
  { e with avail := o.avail, splice := v.clampSplice o.splice, duration := o.duration }

/-- The report of an update names the request's event, splice stamp and duration, and the entry's return stamp (R94). -/
theorem updatedReport_updatedBy {i : ServiceIx} {e : BreakEntry} {v : Service} {o : OutRequest}
    (hev : e.event = o.event) : updatedReport i (e.updatedBy v o)
      = breakReport i o.event .updated .none (some (v.clampSplice o.splice)) (e.ret.map (·.stamp)) (o.duration.getD 0)
        none := by
  rw [← hev]
  rfl

/-- The state once an update has placed the entry again (R82, steps 1, 3 and 4). -/
def placedAgain (i : ServiceIx) (o : OutRequest) (e : BreakEntry) (s : State) : State :=
  (disarm (.brk i o.event) s).modService i fun y =>
    { y with schedule :=
        placeEntry (e.updatedBy (s.service i) o) (y.schedule.filter fun z => z.event != o.event) }

theorem replaceOut_disarm (i : ServiceIx) (o : OutRequest) (e : BreakEntry) (s : State) :
    replaceOut i o e (disarm (.brk i o.event) s) = placedAgain i o e s := rfl

theorem findEntry_placedAgain {i : ServiceIx} {o : OutRequest} {e : BreakEntry} {s : State} (hev : e.event = o.event) :
    ((placedAgain i o e s).service i).findEntry o.event = some (e.updatedBy (s.service i) o) := by
  rw [placedAgain, modService_service_self]
  exact find?_placeEntry (by simpa [BreakEntry.updatedBy] using hev) (find?_filter_event ..)

theorem updateOut_late {i : ServiceIx} {o : OutRequest} {e : BreakEntry} {s : State}
    (h : (s.service i).findEntry o.event = some e) (hl : outIsLate (s.service i) o.splice s.now = true) :
    updateOut i o e s = (.missedLate, leaveBreak i o.event (.missed .late s.now) s) := by
  simp only [updateOut, hl, if_true, leaveBreak_disarm h]

/-- The report of an update speaks of what the request gave the entry. -/
theorem offerUpdated_eq {i : ServiceIx} {e : BreakEntry} {s : State} (h : HoldsRequest i e s) :
    offerUpdated i e.event s = offer (updatedReport i e) s := by
  obtain ⟨f, hf, hevent, hsplice, hduration, hret⟩ := h
  simp only [offerUpdated, hf, updatedReport, hevent, hsplice, hduration, hret]

/-- A READY entry whose avail is unchanged stays READY (R82, step 5). -/
theorem updateOut_kept {i : ServiceIx} {o : OutRequest} {e : BreakEntry} {s : State} (hev : e.event = o.event)
    (hl : outIsLate (s.service i) o.splice s.now = false) (hr : e.state = .ready) (ha : e.avail = o.avail) :
    updateOut i o e s = (.updated, offer (updatedReport i (e.updatedBy (s.service i) o)) (placedAgain i o e s)) := by
  have hholds : HoldsRequest i (e.updatedBy (s.service i) o) (placedAgain i o e s) :=
    ⟨_, (congrArg _ hev).trans (findEntry_placedAgain hev), .refl _⟩
  have hoffer := offerUpdated_eq hholds
  rw [show (e.updatedBy (s.service i) o).event = o.event from hev] at hoffer
  simp only [updateOut, hl, Bool.false_eq_true, if_false, replaceOut_disarm, rearmOut, hr, ha, beq_self_eq_true,
    Bool.and_self, if_true, hoffer]

/-- The entry armed afresh by an update, a READY one detached first (R82, steps 5 to 7). -/
def armedAgain (i : ServiceIx) (ev : EventId) (e : BreakEntry) (s : State) : State :=
  armBreak i ev ((if e.state = .ready then detachEntry i e s else s).modEntry i ev fun y =>
    { y with state := .scheduled, binding := none })

theorem rearmOut_afresh {i : ServiceIx} {o : OutRequest} {e : BreakEntry} {s : State}
    (h : e.state ≠ .ready ∨ e.avail ≠ o.avail) : rearmOut i o e s = armedAgain i o.event e s := by
  have hcond : (e.state == .ready && e.avail == o.avail) = false := by
    rw [Bool.and_eq_false_iff, beq_eq_false_iff_ne, beq_eq_false_iff_ne]
    exact h
  rw [rearmOut, hcond, if_neg Bool.false_ne_true, armedAgain]
  simp only [beq_iff_eq]

theorem armedAgain_holdsRequest {i : ServiceIx} {e f : BreakEntry} {s : State} (h : HoldsRequest i f s) :
    HoldsRequest i f (armedAgain i f.event e s) := by
  refine armBreak_holdsRequest (HoldsRequest.modEntry ?_ fun y => ⟨rfl, rfl, rfl, rfl⟩)
  split
  · exact h.congr (detachEntry_service ..)
  · exact h

theorem updateOut_afresh {i : ServiceIx} {o : OutRequest} {e : BreakEntry} {s : State} (hev : e.event = o.event)
    (hl : outIsLate (s.service i) o.splice s.now = false) (h : e.state ≠ .ready ∨ e.avail ≠ o.avail) :
    updateOut i o e s = (.updated, offer (updatedReport i (e.updatedBy (s.service i) o))
      (armedAgain i o.event e (placedAgain i o e s))) := by
  have hevent : (e.updatedBy (s.service i) o).event = o.event := hev
  have hholds : HoldsRequest i (e.updatedBy (s.service i) o) (placedAgain i o e s) :=
    ⟨_, (congrArg _ hev).trans (findEntry_placedAgain hev), .refl _⟩
  have hoffer := offerUpdated_eq (armedAgain_holdsRequest (e := e) hholds)
  rw [hevent] at hoffer
  simp only [updateOut, hl, Bool.false_eq_true, if_false, replaceOut_disarm, rearmOut_afresh h, hoffer]

/-! ### IN and CANCEL requests (R83, R84) -/

theorem takeIn_unmatched {i : ServiceIx} {ev : EventId} {s : State} (stamp : Stamp)
    (h : (s.service i).findEntry ev = none) : takeIn i ev stamp s = (.unmatched, s) := by
  simp only [takeIn, h]

theorem takeIn_set {i : ServiceIx} {ev : EventId} {stamp : Stamp} {e : BreakEntry} {s : State}
    (h : (s.service i).findEntry ev = some e) (hr : ∀ r, e.ret = some r → before stamp r.stamp = true) :
    takeIn i ev stamp s
      = (.set, s.modEntry i ev fun x => { x with ret := some { stamp := stamp, origin := .cueIn } }) := by
  have htakes : e.takesReturn stamp = true := by
    unfold BreakEntry.takesReturn
    split
    · rfl
    next r hret => exact hr r hret
  simp only [takeIn, h, htakes, if_true]

theorem takeIn_kept {i : ServiceIx} {ev : EventId} {stamp : Stamp} {e : BreakEntry} {r : ReturnStamp} {s : State}
    (h : (s.service i).findEntry ev = some e) (hret : e.ret = some r) (hr : before stamp r.stamp = false) :
    takeIn i ev stamp s = (.kept, s) := by
  have htakes : e.takesReturn stamp = false := by rw [BreakEntry.takesReturn, hret]; exact hr
  simp only [takeIn, h, htakes, Bool.false_eq_true, if_false]

theorem takeCancel_unmatched {i : ServiceIx} {ev : EventId} {s : State} (h : (s.service i).findEntry ev = none) :
    takeCancel i ev s = (.unmatched, s) := by
  simp only [takeCancel, h]

theorem takeCancel_active {i : ServiceIx} {ev : EventId} {e : BreakEntry} {s : State}
    (h : (s.service i).findEntry ev = some e) (ha : e.state = .active) :
    takeCancel i ev s = (.ended, leaveBreak i ev (.ended .cancelled s.now) s) := by
  simp only [takeCancel, h, isActive_iff.mpr ha, if_true]

theorem takeCancel_waiting {i : ServiceIx} {ev : EventId} {e : BreakEntry} {s : State}
    (h : (s.service i).findEntry ev = some e) (ha : e.state ≠ .active) :
    takeCancel i ev s = (.cancelled, leaveBreak i ev .cancelled s) := by
  simp only [takeCancel, h, isActive_eq_false ha, Bool.false_eq_true, if_false]

end Sys2Proof.Machine
end

