-- ==== Sys2Proof/Proofs/Ingest.lean ====
section
/-! PROOF. An INGEST write into a service's window: the clock track (R16), the cue and its checks (R61 to R65), and the request
it makes (R66 to R71, R81 to R84). -/

namespace Sys2Proof.Machine

/-! ### Fields of the first 18 bytes -/

theorem byteAt_take {l : List Byte} {n k : Nat} (h : k < n) : byteAt (l.take n) k = byteAt l k := by
  simp [byteAt, List.getD_eq_getElem?_getD, h]

theorem fieldAt_take {l : List Byte} {m i n : Nat} (h : i + n ≤ m) : fieldAt (l.take m) i n = fieldAt l i n := by
  rw [fieldAt, fieldAt, List.drop_take, List.take_take, Nat.min_eq_left (by omega)]

theorem wordAt_take {l : List Byte} {m i : Nat} (h : i + 4 ≤ m) : wordAt (l.take m) i = wordAt l i := by
  rw [wordAt, wordAt, fieldAt_take h]

theorem cueSum_take {l : List Byte} {m : Nat} (h : 16 ≤ m) : cueSum (l.take m) = cueSum l := by
  rw [cueSum, cueSum, List.take_take, Nat.min_eq_left h]

theorem cueAvail_take (l : List Byte) : cueAvail (l.take 18) = cueAvail l := by
  simp only [cueAvail, byteAt_take (show 14 < 18 by omega)]

/-! ### Where a cue message stands (R62) -/

/-- Where the payload of a packet starts. -/
def payloadStart (slot : List Byte) : Nat := if hasAdaptation slot then 5 + (byteAt slot 4).toNat else 4

/-- The payload has room for the 18 bytes of a cue message (R62). -/
def cueRoom (slot : List Byte) : Prop :=
  hasPayload slot = true ∧ (hasAdaptation slot = true → (byteAt slot 4).toNat ≤ 165)

theorem cueBytes_of_room {slot : List Byte} (h : cueRoom slot) :
    cueBytes slot = some ((slot.drop (payloadStart slot)).take 18) := by
  obtain ⟨hpayload, hadaptation⟩ := h
  by_cases ha : hasAdaptation slot = true
  · have hroom : 18 ≤ 183 - (byteAt slot 4).toNat := by have := hadaptation ha; omega
    simp only [cueBytes, payloadAt, hpayload, ha, if_true, if_pos hroom, payloadStart]
  · simp [cueBytes, payloadAt, hpayload, ha, payloadStart]

theorem cueBytes_of_no_room {slot : List Byte} (h : ¬cueRoom slot) : cueBytes slot = none := by
  by_cases hpayload : hasPayload slot = true
  · obtain ⟨ha, hlong⟩ : hasAdaptation slot = true ∧ 165 < (byteAt slot 4).toNat := by
      simpa [cueRoom, hpayload] using h
    have hroom : ¬18 ≤ 183 - (byteAt slot 4).toNat := by omega
    simp only [cueBytes, payloadAt, hpayload, ha, if_true, if_neg hroom]
  · simp [cueBytes, payloadAt, hpayload]

/-! ### The checks of a cue, in order (R62, R64, R65) -/

theorem parseCue_noRoom {slot : List Byte} (now : Stamp) (h : ¬cueRoom slot) :
    parseCue slot now = .error .cueFormat := by
  rw [parseCue, cueBytes_of_no_room h]

theorem parseCue_badMarker {slot : List Byte} (now : Stamp) (h : cueRoom slot)
    (hm : byteAt (slot.drop (payloadStart slot)) 0 ≠ 0xC5) : parseCue slot now = .error .cueFormat := by
  simp only [parseCue, cueBytes_of_room h, byteAt_take (show 0 < 18 by omega), bne_iff_ne, ne_eq, hm, not_false_eq_true,
    if_true]

theorem parseCue_badSum {slot : List Byte} (now : Stamp) (h : cueRoom slot)
    (hm : byteAt (slot.drop (payloadStart slot)) 0 = 0xC5)
    (hs : fieldAt (slot.drop (payloadStart slot)) 16 2 ≠ cueSum (slot.drop (payloadStart slot))) :
    parseCue slot now = .error .cueCheck := by
  simp only [parseCue, cueBytes_of_room h, byteAt_take (show 0 < 18 by omega), fieldAt_take (show 16 + 2 ≤ 18 by omega),
    cueSum_take (show 16 ≤ 18 by omega), hm, bne_self_eq_false, Bool.false_eq_true, if_false, bne_iff_ne, ne_eq, hs,
    not_false_eq_true, if_true]

/-- The request of a message is read from its first 18 bytes. -/
theorem cueRequest_take (m : List Byte) (now : Stamp) : cueRequest (m.take 18) now = cueRequest m now := by
  simp only [cueRequest, cueAvail_take, byteAt_take (show 1 < 18 by omega), byteAt_take (show 15 < 18 by omega),
    wordAt_take (show 2 + 4 ≤ 18 by omega), wordAt_take (show 6 + 4 ≤ 18 by omega),
    wordAt_take (show 10 + 4 ≤ 18 by omega)]

/-- The message that stands in a packet passes the checks of room, marker and check field. -/
def cueChecked (slot : List Byte) : Prop :=
  cueRoom slot ∧ byteAt (slot.drop (payloadStart slot)) 0 = 0xC5
    ∧ fieldAt (slot.drop (payloadStart slot)) 16 2 = cueSum (slot.drop (payloadStart slot))

/-- A checked message is read for its request. -/
theorem parseCue_checked {slot : List Byte} (now : Stamp) (h : cueChecked slot) :
    parseCue slot now
      = (cueRequest (slot.drop (payloadStart slot)) now).elim (.error .cueFormat) .ok := by
  obtain ⟨hroom, hm, hs⟩ := h
  simp only [parseCue, cueBytes_of_room hroom, byteAt_take (show 0 < 18 by omega),
    fieldAt_take (show 16 + 2 ≤ 18 by omega), cueSum_take (show 16 ≤ 18 by omega), hm, hs, bne_self_eq_false,
    Bool.false_eq_true, if_false, cueRequest_take]
  cases cueRequest (slot.drop (payloadStart slot)) now <;> rfl

theorem parseCue_none {slot : List Byte} {now : Stamp} (h : cueChecked slot)
    (hr : cueRequest (slot.drop (payloadStart slot)) now = none) : parseCue slot now = .error .cueFormat := by
  rw [parseCue_checked now h, hr]
  rfl

theorem parseCue_some {slot : List Byte} {now : Stamp} {r : CueRequest} (h : cueChecked slot)
    (hr : cueRequest (slot.drop (payloadStart slot)) now = some r) : parseCue slot now = .ok r := by
  rw [parseCue_checked now h, hr]
  rfl

/-! ### The request of a message (R66 to R70) -/

theorem cueAvail_of_toNat_eq {m : List Byte} {a : AvailIx} (h : (byteAt m 14).toNat = a.val) : cueAvail m = some a := by
  have hlt : (byteAt m 14).toNat < 16 := h ▸ a.isLt
  rw [cueAvail, dif_pos hlt]
  exact congrArg some (Fin.ext h)

theorem cueAvail_of_lt {m : List Byte} (h : 15 < (byteAt m 14).toNat) : cueAvail m = none := by
  rw [cueAvail, dif_neg (by omega)]

theorem cueRequest_noAvail {m : List Byte} (now : Stamp) (h : cueAvail m = none) : cueRequest m now = none := by
  unfold cueRequest
  rw [h]
  dsimp only
  split <;> simp_all

theorem cueRequest_badKind {m : List Byte} (now : Stamp) (h : (byteAt m 1).toNat = 0 ∨ 3 < (byteAt m 1).toNat) :
    cueRequest m now = none := by
  unfold cueRequest
  dsimp only
  split
  all_goals first | rfl | (exfalso; omega)

theorem cueRequest_out {m : List Byte} {a : AvailIx} (now : Stamp) (h : (byteAt m 1).toNat = 1)
    (ha : cueAvail m = some a) : cueRequest m now = some (.out
      { event := wordAt m 2
        avail := a
        splice := requestStamp (wordAt m 6) (byteAt m 15) now
        duration := durationOf (wordAt m 10) }) := by
  simp only [cueRequest, h, ha]

theorem cueRequest_ret {m : List Byte} {a : AvailIx} (now : Stamp) (h : (byteAt m 1).toNat = 2)
    (ha : cueAvail m = some a) :
    cueRequest m now = some (.ret (wordAt m 2) (requestStamp (wordAt m 6) (byteAt m 15) now)) := by
  simp only [cueRequest, h, ha]

theorem cueRequest_cancel {m : List Byte} {a : AvailIx} (now : Stamp) (h : (byteAt m 1).toNat = 3)
    (ha : cueAvail m = some a) : cueRequest m now = some (.cancel (wordAt m 2)) := by
  simp only [cueRequest, h, ha]

/-! ### The Ingest Watcher (R15, R16, R61) -/

theorem tracked_eq (v : Service) (slot : List Byte) : v.tracked slot =
    { v with
      track :=
        if pcrPid v.comps = some (packetPid slot) ∧ carriesPcr slot = true then
          some { base := pcrBase slot, stamp := slotStamp slot }
        else v.track } := by
  by_cases h : pcrPid v.comps = some (packetPid slot) ∧ carriesPcr slot = true
  · simp [Service.tracked, h]
  · rw [if_neg h, Service.tracked, if_neg (by simpa using h)]

/-- A packet with a good sync byte feeds the clock track, and is then examined for a cue. -/
theorem inspectSlot_good {i : ServiceIx} {q : RequesterId} {a : Addr} {slot : List Byte} {s : State}
    (h : goodSync slot = true) :
    inspectSlot i q a slot s = captureCue i q a slot (s.modService i fun v => v.tracked slot) := by
  rw [inspectSlot, if_pos h]

theorem inspectSlot_bad {i : ServiceIx} {q : RequesterId} {a : Addr} {slot : List Byte} {s : State}
    (h : goodSync slot = false) : inspectSlot i q a slot s = s := by
  rw [inspectSlot, h, if_neg Bool.false_ne_true]

theorem cueExamined_iff {v : Service} {mode : Mode} {slot : List Byte} :
    v.cueExamined mode slot = true ↔ mode ≠ .passive ∧ v.cuePid = some (packetPid slot) ∧ startFlag slot = true := by
  simp [Service.cueExamined, and_assoc]

theorem captureCue_none {i : ServiceIx} {q : RequesterId} {a : Addr} {slot : List Byte} {s : State}
    (h : (s.service i).cueExamined s.mode slot = false) : captureCue i q a slot s = s := by
  rw [captureCue, h, if_neg Bool.false_ne_true]

theorem captureCue_error {i : ServiceIx} {q : RequesterId} {a : Addr} {slot : List Byte} {k : ErrorKind} {s : State}
    (h : (s.service i).cueExamined s.mode slot = true) (hp : parseCue slot s.now = .error k) :
    captureCue i q a slot s = raise (cueErrorEvent k i q a slot) s := by
  simp only [captureCue, h, if_true, hp]

theorem captureCue_ok {i : ServiceIx} {q : RequesterId} {a : Addr} {slot : List Byte} {r : CueRequest} {s : State}
    (h : (s.service i).cueExamined s.mode slot = true) (hp : parseCue slot s.now = .ok r) :
    captureCue i q a slot s = takeCue i r s := by
  simp only [captureCue, h, if_true, hp]

/-- The part of a whole write is the write. -/
theorem ingestWrite_whole {i : ServiceIx} {q : RequesterId} {a : Addr} {bytes : List LaneByte} {win : Window} {s : State}
    (hwin : (s.service i).window = some win) (hlen : bytes.length = 192) (hen : bytes.all (·.enable) = true)
    (hslot : (win.slotAt a).isSome = true) :
    ingestWrite i q { off := 0, addr := a, len := bytes.length } bytes s = inspectSlot i q a (bytes.map (·.data)) s := by
  obtain ⟨n, hn⟩ := Option.isSome_iff_exists.mp hslot
  have hcond : (bytes.length == 192 && bytes.all (·.enable)) = true := by simp [hlen, hen]
  have hwhole : wholeSlot win { off := 0, addr := a, len := bytes.length } bytes = some n := by
    rw [wholeSlot, part_whole, if_pos hcond, hn]
  simp only [ingestWrite, hwin, hwhole, part_whole]

theorem ingestWrite_partial {i : ServiceIx} {q : RequesterId} {a : Addr} {bytes : List LaneByte} {win : Window}
    {s : State} (hwin : (s.service i).window = some win)
    (h : ¬(bytes.length = 192 ∧ bytes.all (·.enable) = true ∧ (win.slotAt a).isSome = true)) :
    ingestWrite i q { off := 0, addr := a, len := bytes.length } bytes s
      = raise { kind := .partialWrite, service := some i, requester := some q, addr := some a } s := by
  have hnone : wholeSlot win { off := 0, addr := a, len := bytes.length } bytes = none := by
    rw [wholeSlot, part_whole]
    split
    next hc =>
      obtain ⟨hlen, hen⟩ := Bool.and_eq_true_iff.mp hc
      exact Option.not_isSome_iff_eq_none.mp fun hs => h ⟨by simpa using hlen, hen, hs⟩
    next => rfl
  simp only [ingestWrite, hwin, hnone]

/-- An INGEST write that lies in one service's window alone. -/
theorem exec_writeTaken_ingest {now : Stamp} {w : PortWrite} {i : ServiceIx} {s : State} (hw : w.wf = true)
    (hr : vget s.roles w.requester = .ingest)
    (ho : s.offers .ingest w.addr w.bytes.length =
      [{ region := .svc i, part := { off := 0, addr := w.addr, len := w.bytes.length } }]) :
    exec (.writeTaken now w) s = .next (settle (ingestWrite i w.requester
      { off := 0, addr := w.addr, len := w.bytes.length } w.bytes
      (handWrite false w.addr w.bytes { s with now := now }))) := by
  rw [exec_writeTaken hw (by rw [hr]; exact Role.noConfusion), hr, ho]
  rfl

/-! ### A cue's request taken (R71, R81 to R84) -/

theorem takeCue_out_duplicate {i : ServiceIx} {o : OutRequest} {e : BreakEntry} {s : State}
    (h : (s.service i).findEntry o.event = some e) (ha : e.state = .active) :
    takeCue i (.out o) s = raise { kind := .duplicateEvent, service := some i } s := by
  simp only [takeCue, takeCueOut, takeOut_active h ha]

theorem takeCue_out_full {i : ServiceIx} {o : OutRequest} {s : State}
    (h : (s.service i).findEntry o.event = none) (hf : 4 ≤ (s.service i).schedule.length) :
    takeCue i (.out o) s = raise { kind := .scheduleFull, service := some i } s := by
  simp only [takeCue, takeCueOut, takeOut_full h hf]

/-- An OUT that is neither a duplicate nor without room raises nothing of its own. -/
theorem takeCue_out_of {i : ServiceIx} {o : OutRequest} {r : OutOutcome} {s t : State} (h : takeOut i o s = (r, t))
    (hd : r ≠ .duplicate) (hf : r ≠ .full) : takeCue i (.out o) s = t := by
  simp only [takeCue, takeCueOut, h]
  cases r with
  | duplicate => exact absurd rfl hd
  | full => exact absurd rfl hf
  | inserted => rfl
  | updated => rfl
  | missedLate => rfl

/-- R81's case 4, as the statements speak of it. -/
theorem outIsLate_iff {v : Service} {splice now : Stamp} : outIsLate v splice now = true
    ↔ before splice (now - BitVec.ofNat 32 (v.lateWindow * 90)) = true ∨ farAfter splice now = true := by
  rw [outIsLate, Bool.or_eq_true, msTicks]

theorem outIsLate_eq_false {v : Service} {splice now : Stamp}
    (h : ¬(before splice (now - BitVec.ofNat 32 (v.lateWindow * 90)) = true ∨ farAfter splice now = true)) :
    outIsLate v splice now = false := Bool.eq_false_iff.mpr (mt outIsLate_iff.mp h)

/-- Settles O12: the write by its packet, the cue by its checks in order, the request by its outcome. -/
theorem ingestWriteTracksClockAndCapturesCue : Obligations.IngestWriteTracksClockAndCapturesCue := by
  constructor
  · intro now w i win s hw hd hr hwin ho slot whole u tracked v isCue failed m room sum kind checked stamp
    have hexec := exec_writeTaken_ingest (now := now) hw hr ho
    have hud : u.deferred = [] := (handWrite_deferred ..).trans hd
    have hservices : u.services = s.services := handWrite_services ..
    have huwin : (u.service i).window = some win := by rw [service_congr hservices]; exact hwin
    have hv : u.modService i (fun y => y.tracked slot) = v := by
      show { u with services := vset u.services i ((vget u.services i).tracked slot) } = v
      rw [hservices, tracked_eq]
      rfl
    have hvd : v.deferred = [] := hud
    have hvservice : v.service i = tracked := vget_vset_self ..
    have hmode : v.mode = s.mode := congrArg ModeControl.mode (handWrite_modeControl ..)
    have hnow : v.now = now := handWrite_now ..
    have hexamined : (v.service i).cueExamined v.mode slot = true ↔ isCue := by
      rw [cueExamined_iff, hvservice, hmode]
    have hgood (hwhole : whole) (hsync : goodSync slot = true) :
        exec (.writeTaken now w) s = .next (settle (captureCue i w.requester w.addr slot v)) := by
      obtain ⟨hlen, hen, hslot⟩ := hwhole
      rw [hexec, ingestWrite_whole huwin hlen hen hslot, inspectSlot_good hsync, hv]
    have hfails (hwhole : whole) (hsync : goodSync slot = true) (hcue : isCue) {k : ErrorKind}
        (hp : parseCue slot now = .error k) : exec (.writeTaken now w) s = .next (failed k) := by
      rw [hgood hwhole hsync, captureCue_error (hexamined.mpr hcue) (hnow.symm ▸ hp)]
      rfl
    have htakes (hwhole : whole) (hsync : goodSync slot = true) (hcue : isCue) {r : CueRequest}
        (hp : parseCue slot now = .ok r) : exec (.writeTaken now w) s = .next (settle (takeCue i r v)) := by
      rw [hgood hwhole hsync, captureCue_ok (hexamined.mpr hcue) (hnow.symm ▸ hp)]
    refine ⟨fun hwhole hsync => ?badSync, fun hwhole hsync hcue => ?noCue, fun hwhole hsync hcue => ⟨fun h => ?noRoom,
      fun h hm => ?badMarker, fun h hm hs => ?badSum, fun h hk => ?badKind, fun h ha => ?badAvail,
      fun a h ha => ⟨fun hk => ?out, fun hk => ?ret, fun hk => ?cancel⟩⟩, fun hwhole => ?notWhole⟩
    case badSync =>
      obtain ⟨hlen, hen, hslot⟩ := hwhole
      rw [hexec, ingestWrite_whole huwin hlen hen hslot, inspectSlot_bad hsync]
      exact congrArg _ (settle_nil hud)
    case noCue =>
      rw [hgood hwhole hsync, captureCue_none (Bool.eq_false_iff.mpr (mt hexamined.mp hcue)), settle_nil hvd]
    case noRoom => exact hfails hwhole hsync hcue (parseCue_noRoom now h)
    case badMarker => exact hfails hwhole hsync hcue (parseCue_badMarker now h hm)
    case badSum => exact hfails hwhole hsync hcue (parseCue_badSum now h hm hs)
    case badKind => exact hfails hwhole hsync hcue (parseCue_none h (cueRequest_badKind now hk))
    case badAvail => exact hfails hwhole hsync hcue (parseCue_none h (cueRequest_noAvail now (cueAvail_of_lt ha)))
    case out =>
      have hrequest := cueRequest_out now hk (cueAvail_of_toNat_eq ha)
      simp only [durationOf, beq_iff_eq] at hrequest
      exact htakes hwhole hsync hcue (parseCue_some h hrequest)
    case ret => exact htakes hwhole hsync hcue (parseCue_some h (cueRequest_ret now hk (cueAvail_of_toNat_eq ha)))
    case cancel => exact htakes hwhole hsync hcue (parseCue_some h (cueRequest_cancel now hk (cueAvail_of_toNat_eq ha)))
    case notWhole => rw [hexec, ingestWrite_partial huwin hwhole]
  · intro i s v unmatched
    refine ⟨fun o => ?out, fun ev stamp h => ?retUnmatched, fun ev stamp e h => ⟨fun hr => ?retSet, fun r hret hr => ?retKept⟩,
      fun ev h => ?cancelUnmatched, fun ev e h ha => ?cancelActive, fun ev e h ha => ?cancelWaiting⟩
    case out =>
      intro late fresh
      refine ⟨fun e h ha => takeCue_out_duplicate h ha, fun h hf => takeCue_out_full h hf, fun h hf hl => ?late,
        fun h hf hl => ?inserted, fun e h ha => ?update⟩
      case late => exact takeCue_out_of (takeOut_late h hf (outIsLate_iff.mpr hl)) nofun nofun
      case inserted => exact takeCue_out_of (takeOut_inserted h hf (outIsLate_eq_false hl)) nofun nofun
      case update =>
        have hev := findEntry_event h
        have hupdate := takeOut_update h ha
        intro updated replaced report
        have hreport : updatedReport i (e.updatedBy v o) = report := updatedReport_updatedBy hev
        refine ⟨fun hl => ?_, fun hl hs hav => ?_, fun hl hs => ?_⟩
        · exact takeCue_out_of (hupdate.trans (updateOut_late h (outIsLate_iff.mpr hl))) nofun nofun
        · rw [← hreport]
          exact takeCue_out_of (hupdate.trans (updateOut_kept hev (outIsLate_eq_false hl) hs hav)) nofun nofun
        · rw [← hreport]
          exact takeCue_out_of (hupdate.trans (updateOut_afresh hev (outIsLate_eq_false hl) hs)) nofun nofun
    case retUnmatched => simp only [takeCue, takeCueIn, takeIn_unmatched stamp h]; rfl
    case retSet => simp only [takeCue, takeCueIn, takeIn_set h hr]
    case retKept => simp only [takeCue, takeCueIn, takeIn_kept h hret hr]
    case cancelUnmatched => simp only [takeCue, takeCueCancel, takeCancel_unmatched h]; rfl
    case cancelActive => simp only [takeCue, takeCueCancel, takeCancel_active h ha]
    case cancelWaiting => simp only [takeCue, takeCueCancel, takeCancel_waiting h ha]

end Sys2Proof.Machine
end

