-- ==== Sys2Proof/Proofs/Player.lean ====
section
/-! PROOF. A whole-slot PLAYER write into a STREAM window: counted, overrunning, or out of order (R49 to R51). -/

namespace Sys2Proof.Machine

/-! ### A slot written into a ring (R49 to R51) -/

theorem playerSlotWrite_counted {k : SourceIx} {c : SourceConfig} {n : Nat} {q : RequesterId} {a : Addr}
    {packet : List Byte} {s : State} (hn : n = (s.source k).writeIx) (hf : (s.source k).fill < c.window.slots) :
    playerSlotWrite k c n q a packet s = s.modSource k (Source.counted c.window.slots) := by
  simp only [playerSlotWrite, hn, bne_self_eq_false, Bool.false_eq_true, if_false, if_pos hf]

theorem playerSlotWrite_outOfOrder {k : SourceIx} {c : SourceConfig} {n : Nat} {q : RequesterId} {a : Addr}
    {packet : List Byte} {s : State} (hn : n ≠ (s.source k).writeIx) :
    playerSlotWrite k c n q a packet s = raise (sourceError .sourceOrder k q a (some packet) s) s := by
  simp only [playerSlotWrite, bne_iff_ne, ne_eq, hn, not_false_eq_true, if_true]

/-- The run of overruns goes on: nothing is raised (R50). -/
theorem playerSlotWrite_overrunAgain {k : SourceIx} {c : SourceConfig} {n : Nat} {q : RequesterId} {a : Addr}
    {packet : List Byte} {s : State} (hn : n = (s.source k).writeIx) (hf : c.window.slots ≤ (s.source k).fill)
    (hr : (s.source k).overrunRun = true) :
    playerSlotWrite k c n q a packet s = s.modSource k (Source.overrun c.window.slots) := by
  simp only [playerSlotWrite, hn, bne_self_eq_false, Bool.false_eq_true, if_false, if_neg (Nat.not_lt.mpr hf), hr,
    if_true]

/-- The first overrun of a run raises SOURCE-OVERRUN; the write leaves the attachment it names (R48, R50). -/
theorem playerSlotWrite_overrunFirst {k : SourceIx} {c : SourceConfig} {n : Nat} {q : RequesterId} {a : Addr}
    {packet : List Byte} {s : State} (hn : n = (s.source k).writeIx) (hf : c.window.slots ≤ (s.source k).fill)
    (hr : (s.source k).overrunRun = false) :
    playerSlotWrite k c n q a packet s
      = raise (sourceError .sourceOverrun k q a (some packet) s) (s.modSource k (Source.overrun c.window.slots)) := by
  have hevent : sourceError .sourceOverrun k q a (some packet) (s.modSource k (Source.overrun c.window.slots))
      = sourceError .sourceOverrun k q a (some packet) s := by
    simp [sourceError, State.source, Source.overrun, Source.attachedService]
  simp only [playerSlotWrite, hn, bne_self_eq_false, Bool.false_eq_true, if_false, if_neg (Nat.not_lt.mpr hf), hr,
    hevent]

/-- A whole-slot write to a source's window is a slot written into its ring (R26, R48). -/
theorem sourceTrackerWrite_whole {k : SourceIx} {q : RequesterId} {a : Addr} {bytes : List LaneByte} {c : SourceConfig}
    {n : Nat} {s : State} (hc : (s.source k).config = some c) (hlen : bytes.length = 192)
    (hen : bytes.all (·.enable) = true) (hslot : c.window.slotAt a = some n) :
    sourceTrackerWrite k q { off := 0, addr := a, len := bytes.length } bytes s
      = playerSlotWrite k c n q a (packetHead (bytes.map (·.data))) s := by
  have hcond : (bytes.length == 192 && bytes.all (·.enable)) = true := by simp [hlen, hen]
  have hwhole : wholeSlot c.window { off := 0, addr := a, len := bytes.length } bytes = some n := by
    rw [wholeSlot, part_whole, if_pos hcond, hslot]
  simp only [sourceTrackerWrite, hc, hwhole, part_whole]

/-- Settles O11, by the ring's fill and the slot written. -/
theorem playerSlotWriteFillsRing : Obligations.PlayerSlotWriteFillsRing := by
  intro now w k win n s hlen hen hd hr hc hslot ho r u e next spilled
  have hw : w.wf = true := by rw [PortWrite.wf, hlen]; rfl
  have hrole : vget s.roles w.requester ≠ .control := by rw [hr]; exact Role.noConfusion
  have hsources : u.sources = s.sources := handWrite_sources ..
  have hsource : u.source k = r := by rw [State.source, hsources]; rfl
  have hud : u.deferred = [] := (handWrite_deferred ..).trans hd
  have herror (kind : ErrorKind) :
      sourceError kind k w.requester w.addr (some (packetHead (w.bytes.map (·.data)))) u = e kind := by
    rw [sourceError, hsource]
    rfl
  have hmod (f : Source → Source) : u.modSource k f = { u with sources := vset s.sources k (f r) } := by
    rw [State.modSource, ← hsource, State.source, hsources]
  have hexec : exec (.writeTaken now w) s = .next (settle (playerSlotWrite k { mode := .stream, window := win } n
      w.requester w.addr (packetHead (w.bytes.map (·.data))) u)) := by
    rw [exec_writeTaken hw hrole, hr, hlen, ho, ← hlen]
    have hwhole := sourceTrackerWrite_whole (s := u) (q := w.requester) (c := { mode := .stream, window := win })
      (by rw [hsource]; exact hc) hlen hen hslot
    exact congrArg (fun t => Host.Outcome.next (settle t)) hwhole
  rw [hexec]
  refine ⟨fun hn hf => ?counted, fun hn hf hrun => ?again, fun hn hf hrun => ?first, fun hn => ?outOfOrder⟩
  case counted =>
    rw [playerSlotWrite_counted (hsource ▸ hn) (hsource ▸ hf), hmod]
    exact congrArg _ (settle_nil hud)
  case again =>
    rw [playerSlotWrite_overrunAgain (hsource ▸ hn) (hsource ▸ hf) (hsource ▸ hrun), hmod]
    exact congrArg _ (settle_nil hud)
  case first =>
    rw [playerSlotWrite_overrunFirst (hsource ▸ hn) (hsource ▸ hf) (hsource ▸ hrun), hmod, herror]
    rfl
  case outOfOrder => rw [playerSlotWrite_outOfOrder (hsource ▸ hn), herror]

end Sys2Proof.Machine
end

