-- ==== Sys2Proof/Proofs/PartCommands.lean ====
section
/-! PROOF. ENABLE (R160), the return from BYPASS (R170, R171), ERROR POLICY (R166) and REPORT RING SET (R172). -/

namespace Sys2Proof.Machine

/-! ### ENABLE (R160) -/

/-- What ENABLE stores (R160). -/
def enabled (p : Params) (m : Mode) (u : State) : State :=
  { u with
    modeControl :=
      { u.modeControl with
        mode := m, holdOnFault := (pByte p 0).toNat == 1, interval := (pByte p 1).toNat } }

/-- ENABLE's parameters are in range (R160). -/
def enableInRange (p : Params) : Prop := (pByte p 0).toNat ≤ 1 ∧ 1 ≤ (pByte p 1).toNat ∧ (pByte p 1).toNat ≤ 60

theorem cmdEnable_badParam {p : Params} {s : State} (h : ¬enableInRange p) : cmdEnable p s = refuse .badParam s := by
  rw [enableInRange] at h
  simp only [cmdEnable]
  rw [if_pos (by omega)]

theorem cmdEnable_inRange {p : Params} {s : State} (h : enableInRange p) :
    cmdEnable p s = if s.mode == .bypass then refuse .mode s
      else enablePart ((pByte p 0).toNat == 1) (pByte p 1).toNat s := by
  obtain ⟨hhold, hleast, hmost⟩ := h
  simp only [cmdEnable]
  rw [if_neg (by omega)]

theorem cmdEnable_passive {p : Params} {s : State} (h : enableInRange p) (hm : s.mode = .passive) :
    cmdEnable p s = done 1 (offer (modeReport .active .enable none none 0 s) (enabled p .active s)) := by
  rw [cmdEnable_inRange h, hm, if_neg (by decide), enablePart, hm, if_pos (by decide)]
  rfl

theorem cmdEnable_active {p : Params} {s : State} (h : enableInRange p) (hm : s.mode = .active) :
    cmdEnable p s = done 0 (enabled p .active s) := by
  rw [cmdEnable_inRange h, hm, if_neg (by decide), enablePart, hm, if_neg (by decide), enabled, ← hm]
  rfl

theorem cmdEnable_bypass {p : Params} {s : State} (h : enableInRange p) (hm : s.mode = .bypass) :
    cmdEnable p s = refuse .mode s := by
  rw [cmdEnable_inRange h, hm, if_pos (by decide)]

/-- Settles O41, by the part mode ENABLE meets. -/
theorem enableActivatesPassivePart : Obligations.EnableActivatesPassivePart := by
  intro now c s hi hc
  refine ⟨fun h hm => ?passive, fun h hm => ?active, fun h hm => ?bypass, fun h => ?outOfRange⟩
  case passive =>
    have hdeferred : (offer (modeReport .active .enable none none 0 (takenState 0x01 now c s))
        (enabled c.params .active (takenState 0x01 now c s))).deferred = [] :=
      (offer_deferred _ (s := enabled c.params .active (takenState 0x01 now c s)) hc).trans hi.2.2
    exact exec_afterReply (x := .enable now c)
      (f := fun u => offer (modeReport .active .enable none none 0 u) (enabled c.params .active u)) rfl rfl hi
      (cmdEnable_passive h hm) hdeferred
  case active =>
    exact exec_afterReply (x := .enable now c) (f := enabled c.params .active) rfl rfl hi (cmdEnable_active h hm)
      (hi.takenState_deferred 0x01 now)
  case bypass => exact exec_afterReply_id (x := .enable now c) rfl rfl hi (cmdEnable_bypass h hm)
  case outOfRange => exact exec_afterReply_id (x := .enable now c) rfl rfl hi (cmdEnable_badParam h)

/-! ### The return from BYPASS (R170, R171) -/

/-- Mode Control as the part returns to ACTIVE, its bypass stamp still standing (R170). -/
def ModeControl.returned (m : ModeControl) : ModeControl := { m with mode := .active, timer := none }

theorem leaveBypass_eq {cause : Cause} {st : Stamp} {s : State} (h : s.modeControl.bypassStamp = some st) :
    leaveBypass cause s
      = { offer (modeReport .active cause none (some st) (s.now - st)
            { s with modeControl := s.modeControl.returned }) { s with modeControl := s.modeControl.returned } with
          modeControl := { s.modeControl.returned with bypassStamp := none } } := by
  simp [leaveBypass, State.modMode, ModeControl.returned, h]

theorem leaveBypass_deferred {cause : Cause} {s : State} (h : Calm s) : (leaveBypass cause s).deferred = s.deferred :=
  offer_deferred _ (s := s.modMode fun m => { m with mode := .active, timer := none }) h

theorem cmdResume_bypass {st : Stamp} {s : State} (hm : s.mode = .bypass) (h : s.modeControl.bypassStamp = some st) :
    cmdResume s = done (s.now - st) (leaveBypass .resume s) := by
  rw [cmdResume, hm, if_pos (by decide), State.bypassTicks, h, Option.getD_some]

theorem cmdResume_refused {s : State} (hm : s.mode ≠ .bypass) : cmdResume s = refuse .mode s := by
  rw [cmdResume, if_neg (by simpa using hm)]

theorem exec_recoveryTimerExpiry_none {now : Stamp} {s : State} (h : s.modeControl.timer = none) :
    exec (.recoveryTimerExpiry now) s = .next (s.at now) := by
  simp only [exec, execRecoveryTimerExpiry, h]

theorem exec_recoveryTimerExpiry_some {now e : Stamp} {s : State} (h : s.modeControl.timer = some e) :
    exec (.recoveryTimerExpiry now) s
      = .next (if atOrAfter now e then settle (leaveBypass .recovery (s.at now)) else s.at now) := by
  simp only [exec, execRecoveryTimerExpiry, h]

/-- Settles O43: both rows run `leaveBypass`. -/
theorem recoveryAndResumeReturnToActive : Obligations.RecoveryAndResumeReturnToActive := by
  intro now s
  refine ⟨fun e st he hst hdue => ?expired, fun e he hearly => ?early, fun he => ?noTimer,
    fun c st hi hc hm hst => ?resumed, fun c hi hm => ?refused⟩
  case expired =>
    rw [exec_recoveryTimerExpiry_some he, if_pos hdue, leaveBypass_eq (s := s.at now) hst]
    rfl
  case early =>
    have hnot : atOrAfter now e = false := by simpa [before] using hearly
    rw [exec_recoveryTimerExpiry_some he, hnot, if_neg Bool.false_ne_true]
    rfl
  case noTimer => exact exec_recoveryTimerExpiry_none he
  case resumed =>
    have hdeferred : (leaveBypass .resume (takenState 0x42 now c s)).deferred = [] :=
      (leaveBypass_deferred (takenState_calm hc)).trans (hi.takenState_deferred 0x42 now)
    exact (exec_afterReply (x := .resume now c) (f := leaveBypass .resume) rfl rfl hi
      (cmdResume_bypass (s := takenState 0x42 now c s) hm hst) hdeferred).trans
      (congrArg (fun t => Host.Outcome.next (complete (entryOf 0x42 c) (.done (now - st)) t))
        (leaveBypass_eq (s := takenState 0x42 now c s) hst))
  case refused => exact exec_afterReply_id (x := .resume now c) rfl rfl hi (cmdResume_refused hm)

/-! ### ERROR POLICY (R166) -/

theorem kindOfCode_of_toNat {b : Byte} {k : Fin 22} (h : b.toNat = k.val + 1) : kindOfCode b = some k := by
  have hlt : b.toNat - 1 < 22 := by omega
  rw [kindOfCode, dif_pos hlt, if_pos (by omega)]
  exact congrArg some (Fin.ext (show b.toNat - 1 = k.val by omega))

theorem kindOfCode_eq_some {b : Byte} {k : Fin 22} (h : kindOfCode b = some k) : b.toNat = k.val + 1 := by
  by_cases hlt : b.toNat - 1 < 22
  · by_cases hone : 1 ≤ b.toNat
    · rw [kindOfCode, dif_pos hlt, if_pos hone, Option.some.injEq] at h
      rw [← h]
      exact (Nat.sub_add_cancel hone).symm
    · rw [kindOfCode, dif_pos hlt, if_neg hone] at h
      exact absurd h (Option.some_ne_none k).symm
  · rw [kindOfCode, dif_neg hlt] at h
    exact absurd h (Option.some_ne_none k).symm

/-- One kind given its policy and severity (R166). -/
def policySet (k : Fin 22) (masked : Bool) (severity : Severity) (u : State) : State :=
  { u with kinds := vset u.kinds k { vget u.kinds k with masked := masked, severity := severity } }

/-- A policy byte in range is 1 as a byte when it is 1 as a number. -/
theorem byte_eq_one (b : Byte) : (b == 1) = (b.toNat == 1) := by
  rw [Bool.eq_iff_iff, beq_iff_eq, beq_iff_eq]
  exact BitVec.toNat_inj.symm

theorem cmdErrorPolicy_set {p : Params} {k : Fin 22} {severity : Severity} {s : State}
    (hk : (pByte p 0).toNat = k.val + 1) (hne : k ≠ ErrorKind.readTimeout.ix) (hpolicy : (pByte p 1).toNat ≤ 1)
    (hs : severityOfCode (pByte p 2) = some severity) :
    cmdErrorPolicy p s = done 0 (policySet k ((pByte p 1).toNat == 1) severity s) := by
  have hcond : (decide (1 < (pByte p 1).toNat) || k == ErrorKind.readTimeout.ix) = false := by
    simpa using ⟨hpolicy, hne⟩
  simp only [cmdErrorPolicy, kindOfCode_of_toNat hk, hs]
  rw [hcond, if_neg Bool.false_ne_true, byte_eq_one]
  rfl

theorem cmdErrorPolicy_badParam {p : Params} {s : State}
    (h : (pByte p 0).toNat = 0 ∨ 22 < (pByte p 0).toNat ∨ 1 < (pByte p 1).toNat
      ∨ severityOfCode (pByte p 2) = none ∨ (pByte p 0).toNat = 18) :
    cmdErrorPolicy p s = refuse .badParam s := by
  unfold cmdErrorPolicy
  split
  next k severity hkind hseverity =>
    have hk := kindOfCode_eq_some hkind
    have hcond : (decide (1 < (pByte p 1).toNat) || k == ErrorKind.readTimeout.ix) = true := by
      rw [hseverity] at h
      obtain h | h | h | h | h := h
      · omega
      · omega
      · simp [h]
      · exact absurd h (Option.some_ne_none _)
      · have hix : k = ErrorKind.readTimeout.ix := Fin.ext (show k.val = 17 by omega)
        simp [hix]
    rw [if_pos hcond]
  next => rfl

/-- Settles O45, by whether the parameters pass. -/
theorem errorPolicySetsKind : Obligations.ErrorPolicySetsKind := by
  intro now c s hi
  refine ⟨fun k severity hk hne hpolicy hs => ?set, fun h => ?refused⟩
  case set =>
    exact exec_afterReply (x := .errorPolicy now c)
      (f := policySet k ((pByte c.params 1).toNat == 1) severity) rfl rfl hi (cmdErrorPolicy_set hk hne hpolicy hs)
      (hi.takenState_deferred 0x40 now)
  case refused => exact exec_afterReply_id (x := .errorPolicy now c) rfl rfl hi (cmdErrorPolicy_badParam h)

/-! ### REPORT RING SET (R172) -/

/-- A ring's count and base are in range (R172). -/
def ringFits (base : Addr) (n : Nat) : Prop :=
  16 ≤ n ∧ n ≤ 4096 ∧ base.toNat % 32 = 0 ∧ base.toNat + 32 * n ≤ 2 ^ 36

/-- A ring would meet a window or the control region (R172). -/
def State.ringClash (s : State) (base : Addr) (n : Nat) : Bool :=
  s.meetsService base.toNat (32 * n) || s.meetsSource base.toNat (32 * n)
    || s.meetsControl controlSize base.toNat (32 * n)

theorem ringFits_iff (base : Addr) (n : Nat) :
    ringFits base n ↔ ¬(n < 16 ∨ 4096 < n ∨ !aligned 32 base ∨ !fits base (32 * n)) := by
  simp only [ringFits, aligned, fits, not_or, Bool.not_eq_true', beq_eq_false_iff_ne, decide_eq_false_iff_not, not_not,
    ne_eq, Nat.not_lt]

theorem cmdReportRingSet_undefined {p : Params} {base : Addr} {s : State} (hb : pAddr p 4 = some base)
    (hn : pField p 9 2 = 0) : cmdReportRingSet p s = done 0 (setRing none s) := by
  simp only [cmdReportRingSet, hb, hn]
  rfl

theorem cmdReportRingSet_count {p : Params} {base : Addr} {s : State} (hb : pAddr p 4 = some base)
    (hn : pField p 9 2 ≠ 0) : cmdReportRingSet p s = ringSet base (pField p 9 2) s := by
  simp only [cmdReportRingSet, hb]
  rw [if_neg (by simpa using hn)]

theorem ringSet_badParam {base : Addr} {n : Nat} {s : State} (h : ¬ringFits base n) :
    ringSet base n s = refuse .badParam s := by
  rw [ringSet, if_pos (not_not.mp (mt (ringFits_iff base n).mpr h))]

theorem ringSet_fits {base : Addr} {n : Nat} {s : State} (h : ringFits base n) :
    ringSet base n s
      = if s.ringClash base n then refuse .overlap s else defineRing { base := base, count := n } s := by
  rw [ringSet, if_neg ((ringFits_iff base n).mp h)]
  rfl

/-- A defined ring's first writes: 0 to the producer-index word, as 4 bytes (R172). -/
def ringDefined (d : RingDef) (u : State) : State :=
  handWrite true (u.strapBase + 0x020) (enabledBytes [0, 0, 0, 0]) { u with
    ring := { defn := some d, producer := 0, consumer := 0, dropped := u.ring.dropped, overflow := false } }

theorem writeProducer_setRing (d : RingDef) (s : State) : writeProducer 0 (setRing (some d) s) = ringDefined d s := rfl

theorem defineRing_noGap {d : RingDef} {s : State} (h : s.ring.dropped = 0) :
    defineRing d s = done 0 (ringDefined d s) := by
  rw [defineRing, h, if_pos (by decide), writeProducer_setRing]

theorem defineRing_gap {d : RingDef} {s : State} (h : s.ring.dropped ≠ 0) :
    defineRing d s = done s.ring.dropped (putGap d (ringDefined d s)) := by
  rw [defineRing, if_neg (by simpa using h), writeProducer_setRing]

theorem ringDefined_deferred (d : RingDef) (s : State) : (ringDefined d s).deferred = s.deferred :=
  handWrite_deferred ..

/-- Settles O47, by the count, the checks and the dropped count. -/
theorem ringSetDefinesOrUndefinesRing : Obligations.RingSetDefinesOrUndefinesRing := by
  intro now c base s hi hb
  have hnone : (takenState 0x43 now c s).deferred = [] := hi.takenState_deferred 0x43 now
  have hcount (hf : ringFits base (pField c.params 9 2)) : pField c.params 9 2 ≠ 0 :=
    Nat.ne_zero_of_lt (Nat.lt_of_lt_of_le (by decide : 0 < 16) hf.1)
  have hchecked (hf : ringFits base (pField c.params 9 2)) (clash : Bool)
      (hclash : s.ringClash base (pField c.params 9 2) = clash) :
      cmdReportRingSet c.params (takenState 0x43 now c s)
        = if clash then refuse .overlap (takenState 0x43 now c s)
          else defineRing { base := base, count := pField c.params 9 2 } (takenState 0x43 now c s) := by
    rw [cmdReportRingSet_count hb (hcount hf), ringSet_fits hf, ← hclash]
    rfl
  refine ⟨fun hn => ?undefined, fun hf hclash hd => ?noGap, fun hf hclash hd => ?gap, fun hn hf => ?badParam,
    fun hf hclash => ?overlap⟩
  case undefined =>
    exact exec_afterReply (x := .reportRingSet now c) (f := setRing none) rfl rfl hi (cmdReportRingSet_undefined hb hn)
      hnone
  case noGap =>
    exact exec_afterReply (x := .reportRingSet now c) (f := ringDefined _) rfl rfl hi
      ((hchecked hf false hclash).trans (defineRing_noGap hd)) ((ringDefined_deferred ..).trans hnone)
  case gap =>
    exact exec_afterReply (x := .reportRingSet now c) (f := fun u => putGap _ (ringDefined _ u)) rfl rfl hi
      ((hchecked hf false hclash).trans (defineRing_gap hd))
      ((putGap_deferred ..).trans ((ringDefined_deferred ..).trans hnone))
  case badParam =>
    exact exec_afterReply_id (x := .reportRingSet now c) rfl rfl hi
      ((cmdReportRingSet_count hb hn).trans (ringSet_badParam hf))
  case overlap => exact exec_afterReply_id (x := .reportRingSet now c) rfl rfl hi (hchecked hf true hclash)

end Sys2Proof.Machine
end

