-- ==== Sys2Proof/Proofs/SourceCommands.lean ====
section
/-! PROOF. SOURCE DEFINE of a STREAM source, SOURCE REMOVE, SOURCE FLUSH (R45, R47, R57), and AVAIL BIND (R73, R74). -/

namespace Sys2Proof.Machine

/-! ### Source records -/

@[simp] theorem takenState_source (code : Byte) (now : Stamp) (c : CellCommand) (s : State) (k : SourceIx) :
    (takenState code now c s).source k = s.source k := rfl

theorem Source.defined_of_config {r : Source} (h : r.config ≠ none) : r.defined = true :=
  Option.isSome_iff_ne_none.mpr h

theorem Source.not_defined_of_config {r : Source} (h : r.config = none) : r.defined = false := by
  rw [Source.defined, h, Option.isSome_none]

theorem Source.defined_of_isStream {r : Source} (h : r.isStream = true) : r.defined = true := by
  cases hc : r.config with
  | none => simp [Source.isStream, hc] at h
  | some c => rw [Source.defined, hc, Option.isSome_some]

theorem Source.defined_of_isLoop {r : Source} (h : r.isLoop = true) : r.defined = true := by
  cases hc : r.config with
  | none => simp [Source.isLoop, hc] at h
  | some c => rw [Source.defined, hc, Option.isSome_some]

/-- A source is in one mode (R44). -/
theorem Source.not_isStream_of_isLoop {r : Source} (h : r.isLoop = true) : r.isStream = false := by
  cases hc : r.config with
  | none => rw [Source.isStream, hc]
  | some c =>
    simp only [Source.isLoop, hc, beq_iff_eq] at h
    simp [Source.isStream, hc, h]

theorem Source.flushed_of_isStream {r : Source} (h : r.isStream = true) :
    r.flushed = { r with
      readIx := r.writeIx
      fill := 0
      overrunRun := false
      discarded := r.discarded + BitVec.ofNat 32 r.fill } := by
  rw [Source.flushed, if_pos h]

/-- The result word of SOURCE REMOVE and SOURCE FLUSH: the fill of a STREAM source, else 0 (R47, R57). -/
theorem ofNat_flushCount (r : Source) :
    BitVec.ofNat 32 r.flushCount = if r.isStream then BitVec.ofNat 32 r.fill else 0 := by
  unfold Source.flushCount
  split <;> rfl

/-! ### The source commands, one lemma for each answer -/

theorem cmdSourceDefine_stream {p : Params} {k : SourceIx} {w : Window} {s : State} (hp : pIndex 32 p 0 = some k)
    (hfree : (s.source k).config = none) (hmode : pByte p 1 = 1) (hw : pWindow p 8 = some w)
    (hfill : pField p 12 3 ≤ w.slots) (hclash : s.windowClash w = false) :
    cmdSourceDefine p s = done 0 (s.modSource k fun _ => Source.fresh .stream w (pField p 12 3)) := by
  have hstream : sourceModeOfCode (pByte p 1) = some .stream := by rw [hmode]; rfl
  simp only [cmdSourceDefine, hp, Source.not_defined_of_config hfree, if_neg Bool.false_ne_true, defineSource, hstream,
    hw, defineStream, if_neg (Nat.not_lt.mpr hfill), hclash]

theorem cmdSourceDefine_busy {p : Params} {k : SourceIx} {s : State} (hp : pIndex 32 p 0 = some k)
    (hdefined : (s.source k).config ≠ none) : cmdSourceDefine p s = refuse .busy s := by
  simp only [cmdSourceDefine, hp, Source.defined_of_config hdefined, if_true]

theorem cmdSourceRemove_free {p : Params} {k : SourceIx} {s : State} (hp : pIndex 32 p 0 = some k)
    (hfree : (s.source k).config = none) : cmdSourceRemove p s = refuse .notDefined s := by
  simp [cmdSourceRemove, hp, Source.not_defined_of_config hfree]

theorem cmdSourceRemove_busy {p : Params} {k : SourceIx} {s : State} (hp : pIndex 32 p 0 = some k)
    (hdefined : (s.source k).config ≠ none)
    (hused : (s.source k).attachment ≠ none ∨ (s.source k).alertUsers ≠ 0) :
    cmdSourceRemove p s = refuse .busy s := by
  simp only [cmdSourceRemove, hp, Source.defined_of_config hdefined, Bool.not_true, if_neg Bool.false_ne_true]
  by_cases hatt : (s.source k).attachment = none
  · have husers : (s.source k).alertUsers ≠ 0 := hused.resolve_left (not_not.mpr hatt)
    simp [hatt, husers]
  · rw [if_pos (Option.isSome_iff_ne_none.mpr hatt)]

theorem cmdSourceRemove_done {p : Params} {k : SourceIx} {s : State} (hp : pIndex 32 p 0 = some k)
    (hdefined : (s.source k).config ≠ none) (hatt : (s.source k).attachment = none)
    (husers : (s.source k).alertUsers = 0) :
    cmdSourceRemove p s = done (BitVec.ofNat 32 (s.source k).flushCount) (s.modSource k fun _ => Source.free) := by
  simp [cmdSourceRemove, hp, Source.defined_of_config hdefined, hatt, husers]

theorem cmdSourceFlush_free {p : Params} {k : SourceIx} {s : State} (hp : pIndex 32 p 0 = some k)
    (hfree : (s.source k).config = none) : cmdSourceFlush p s = refuse .notDefined s := by
  simp [cmdSourceFlush, hp, Source.not_defined_of_config hfree]

theorem cmdSourceFlush_loop {p : Params} {k : SourceIx} {s : State} (hp : pIndex 32 p 0 = some k)
    (hloop : (s.source k).isLoop = true) : cmdSourceFlush p s = refuse .badParam s := by
  simp [cmdSourceFlush, hp, Source.defined_of_isLoop hloop, Source.not_isStream_of_isLoop hloop]

theorem cmdSourceFlush_busy {p : Params} {k : SourceIx} {s : State} (hp : pIndex 32 p 0 = some k)
    (hstream : (s.source k).isStream = true) (hatt : (s.source k).attachment ≠ none) :
    cmdSourceFlush p s = refuse .busy s := by
  simp [cmdSourceFlush, hp, Source.defined_of_isStream hstream, hstream, Option.isSome_iff_ne_none.mpr hatt]

theorem cmdSourceFlush_done {p : Params} {k : SourceIx} {s : State} (hp : pIndex 32 p 0 = some k)
    (hstream : (s.source k).isStream = true) (hatt : (s.source k).attachment = none) :
    cmdSourceFlush p s
      = done (BitVec.ofNat 32 (s.source k).flushCount) (s.modSource k fun _ => (s.source k).flushed) := by
  simp [cmdSourceFlush, hp, Source.defined_of_isStream hstream, hstream, hatt]
  rfl

/-! ### The source commands, the rows -/

/-- A row that sets one source record (R45, R47, R57). -/
theorem exec_sourceSet {x : Instr} {code : Byte} {c : CellCommand} {word : BitVec 32} {k : SourceIx} {r : Source}
    {s : State} (hx : commandOf x = some (code, c)) (hw : x.wellFormed = true) (hi : Idle c s)
    (hrun : runCommand (entryOf code c) (takenState code x.now c s)
      = done word ((takenState code x.now c s).modSource k fun _ => r)) :
    exec x s = .next (afterReply code x.now c (.done word) (fun u => { u with sources := vset u.sources k r }) s) :=
  exec_afterReply hx hw hi hrun (hi.takenState_deferred code x.now)

/-- Settles O54, one row lemma for each answer that R45, R47 and R57 give. -/
theorem sourceCommandsSetRecord : Obligations.SourceCommandsSetRecord := by
  intro now c k s hi hp
  refine ⟨fun w hfree hmode hw hfill hclash => ?defined, fun hdefined => ?defineBusy,
    fun hdefined hatt husers => ?removed, fun hdefined hused => ?removeBusy, fun hstream hatt => ?flushed,
    fun hstream hatt => ?flushBusy, fun hloop => ?flushLoop, fun hfree => ⟨?removeFree, ?flushFree⟩⟩
  case defined =>
    exact exec_sourceSet (x := .sourceDefine now c) rfl rfl hi (cmdSourceDefine_stream hp hfree hmode hw hfill hclash)
  case defineBusy =>
    exact exec_afterReply_id (x := .sourceDefine now c) rfl rfl hi (cmdSourceDefine_busy hp hdefined)
  case removed =>
    rw [← ofNat_flushCount]
    exact exec_sourceSet (x := .sourceRemove now c) rfl rfl hi (cmdSourceRemove_done hp hdefined hatt husers)
  case removeBusy =>
    exact exec_afterReply_id (x := .sourceRemove now c) rfl rfl hi (cmdSourceRemove_busy hp hdefined hused)
  case flushed =>
    rw [← ofNat_flushCount, ← Source.flushed_of_isStream hstream]
    exact exec_sourceSet (x := .sourceFlush now c) rfl rfl hi (cmdSourceFlush_done hp hstream hatt)
  case flushBusy =>
    exact exec_afterReply_id (x := .sourceFlush now c) rfl rfl hi (cmdSourceFlush_busy hp hstream hatt)
  case flushLoop => exact exec_afterReply_id (x := .sourceFlush now c) rfl rfl hi (cmdSourceFlush_loop hp hloop)
  case removeFree => exact exec_afterReply_id (x := .sourceRemove now c) rfl rfl hi (cmdSourceRemove_free hp hfree)
  case flushFree => exact exec_afterReply_id (x := .sourceFlush now c) rfl rfl hi (cmdSourceFlush_free hp hfree)

/-! ### AVAIL BIND (R73, R74) -/

/-- Check 5 of R73: some component is named, and each named one is in the list. -/
theorem replaceSetOk_of_forall {set : BitVec 8} {count : Nat} (hset : set ≠ 0)
    (h : ∀ n : Nat, n < 8 → set.getLsbD n = true → n < count) : replaceSetOk set count = true := by
  have hall : ∀ x : ComponentIx, inReplaceSet set x = true → x.val < count := fun x => h x.val x.isLt
  simp only [replaceSetOk, Bool.and_eq_true, bne_iff_ne, ne_eq, List.all_eq_true, Bool.or_eq_true, Bool.not_eq_true',
    decide_eq_true_eq]
  refine ⟨hset, fun x _ => ?_⟩
  cases hx : inReplaceSet set x with
  | false => exact .inl rfl
  | true => exact .inr (hall x hx)

theorem cmdAvailBind_binds {p : Params} {i : ServiceIx} {a : AvailIx} {k : SourceIx} {pairs : List RemapPair}
    {s : State} (hi : pIndex 48 p 0 = some i) (ha : pIndex 16 p 1 = some a) (hk : pIndex 32 p 2 = some k)
    (hw : (s.service i).window ≠ none) (hc : (s.source k).config ≠ none)
    (hset : replaceSetOk (pByte p 3) (s.service i).comps.length = true)
    (hpairs : pPairs p (inReplaceSet (pByte p 3)) = some pairs) :
    cmdAvailBind p s = setAvail i a (some { source := k, replaceSet := pByte p 3, remap := pairs }) s := by
  simp [cmdAvailBind, hi, ha, hk, Service.defined_of_window hw, bindChecked, Source.defined_of_config hc, hset, hpairs]

/-- Settles O55, by the checks of R73 in turn. -/
theorem availBindReplacesBinding : Obligations.AvailBindReplacesBinding := by
  intro now c i a k pairs s hidle hi ha hk hw hc hne hset hpairs
  exact exec_afterReply (x := .availBind now c)
    (f := fun u => { u with
      services := vset u.services i { s.service i with
        avails := vset (s.service i).avails a
          (some { source := k, replaceSet := pByte c.params 3, remap := pairs }) } })
    rfl rfl hidle
    (cmdAvailBind_binds (s := takenState 0x20 now c s) hi ha hk hw hc (replaceSetOk_of_forall hne hset) hpairs)
    (hidle.takenState_deferred 0x20 now)

end Sys2Proof.Machine
end

