-- ==== Sys2Proof/Proofs/LinkAndGroups.lean ====
section
/-! PROOF. ALERT GROUP SET (R130) and LINK SET (R153). -/

namespace Sys2Proof.Machine

/-! ### The fields of ALERT GROUP SET (R130, R178) -/

theorem pOptPid_ne_malformed_iff (p : Params) (k : Nat) :
    pOptPid p k ≠ .malformed ↔ pField p k 2 ≤ 0x1FFE ∨ pField p k 2 = 0xFFFF := by
  simp only [pOptPid, beq_iff_eq]
  by_cases habsent : pField p k 2 = 0xFFFF
  · simp [habsent]
  · by_cases hpresent : pField p k 2 ≤ 0x1FFE <;> simp [habsent, hpresent]

theorem pOptPid_toOption {p : Params} {k : Nat} (h : pField p k 2 ≤ 0x1FFE ∨ pField p k 2 = 0xFFFF) :
    (pOptPid p k).toOption = if pField p k 2 = 0xFFFF then none else some (BitVec.ofNat 13 (pField p k 2)) := by
  simp only [pOptPid, beq_iff_eq]
  by_cases habsent : pField p k 2 = 0xFFFF
  · simp [habsent, OptPid.toOption]
  · simp [habsent, h.resolve_right habsent, OptPid.toOption]

/-- The slate field names a source, or none (R130). -/
def SlateIs (p : Params) (slate : Option SourceIx) : Prop :=
  pByte p 2 = 0xFF ∧ slate = none ∨ ∃ x : SourceIx, (pByte p 2).toNat = x.val ∧ slate = some x

theorem pSlate_eq {p : Params} {slate : Option SourceIx} (h : SlateIs p slate) : pSlate p = some slate := by
  obtain ⟨habsent, rfl⟩ | ⟨x, hx, rfl⟩ := h
  · simp [pSlate, habsent]
  · have hne : pByte p 2 ≠ 0xFF := by
      intro heq
      have hlt := x.isLt
      rw [heq] at hx
      exact absurd (hx ▸ hlt) (by decide)
    rw [pSlate, if_neg (by simpa using hne), pIndex_of_toNat_eq hx]
    rfl

theorem pSlate_eq_none {p : Params} (h : 31 < (pByte p 2).toNat) (hne : pByte p 2 ≠ 0xFF) : pSlate p = none := by
  rw [pSlate, if_neg (by simpa using hne), pIndex_of_le h]
  rfl

/-- The ranges of check 1 of R130. -/
def groupInRange (p : Params) : Prop :=
  1 ≤ (pByte p 3).toNat ∧ 1 ≤ pField p 8 2 ∧ pField p 8 2 ≤ 7200 ∧ (pField p 4 2 ≤ 0x1FFE ∨ pField p 4 2 = 0xFFFF)

/-- The group ALERT GROUP SET gives, with its sources (R130). -/
def groupGiven (p : Params) (audio : SourceIx) (slate : Option SourceIx) : AlertGroup where
  defined := true
  mask := BitVec.ofNat 48 (pField p 16 6)
  audio := some audio
  slate := slate
  overlayPid := if pField p 4 2 = 0xFFFF then none else some (BitVec.ofNat 13 (pField p 4 2))
  cadence := (pByte p 3).toNat
  preempt := (pByte p 6).getLsbD 0
  maxDuration := pField p 8 2
  store := none

theorem pGroup_eq {p : Params} {audio : SourceIx} {slate : Option SourceIx} (ha : (pByte p 1).toNat = audio.val)
    (hs : SlateIs p slate) (hr : groupInRange p) : pGroup p = some (groupGiven p audio slate) := by
  obtain ⟨hcadence, hleast, hmost, hpid⟩ := hr
  simp only [pGroup, pIndex_of_toNat_eq ha, pSlate_eq hs]
  rw [if_pos ⟨hcadence, hleast, hmost, (pOptPid_ne_malformed_iff p 4).mpr hpid⟩, pOptPid_toOption hpid]
  rfl

theorem pGroup_eq_none {p : Params}
    (h : ¬groupInRange p ∨ 31 < (pByte p 1).toNat ∨ 31 < (pByte p 2).toNat ∧ pByte p 2 ≠ 0xFF) :
    pGroup p = none := by
  unfold pGroup
  split
  next audio slate haudio hslate =>
    obtain hr | hr | ⟨hlarge, hne⟩ := h
    · rw [if_neg fun ⟨hcadence, hleast, hmost, hpid⟩ =>
        hr ⟨hcadence, hleast, hmost, (pOptPid_ne_malformed_iff p 4).mp hpid⟩]
    · rw [pIndex_of_le hr] at haudio
      exact absurd haudio (Option.some_ne_none audio).symm
    · rw [pSlate_eq_none hlarge hne] at hslate
      exact absurd hslate (Option.some_ne_none slate).symm
  next => rfl

/-! ### The checks of ALERT GROUP SET (R130) -/

/-- No ACTIVE slot names the group (R130). -/
def State.groupIdle (s : State) (g : GroupIx) : Prop := ∀ k a, s.alert k = some a → a.group ≠ g

/-- A slot names a group. -/
def State.slotNames (s : State) (g : GroupIx) (k : AlertIx) : Bool := (s.alert k).any fun a => a.group == g

theorem slotOfGroup_eq (s : State) (g : GroupIx) : s.slotOfGroup g = allAlerts.find? (s.slotNames g) := by
  unfold State.slotOfGroup
  congr 1
  funext k
  rw [State.slotNames]
  cases s.alert k <;> rfl

theorem slotOfGroup_isSome_iff (s : State) (g : GroupIx) : (s.slotOfGroup g).isSome = true ↔ ¬s.groupIdle g := by
  simp only [slotOfGroup_eq, List.find?_isSome, State.groupIdle, State.slotNames, Option.any_eq_true, beq_iff_eq,
    not_forall, not_not]
  exact ⟨fun ⟨k, _, a, ha, hg⟩ => ⟨k, a, ha, hg⟩, fun ⟨k, a, ha, hg⟩ => ⟨k, List.mem_finRange k, a, ha, hg⟩⟩

theorem Source.isLoop_iff (r : Source) : r.isLoop = true ↔ ∃ win, r.config = some { mode := .loop, window := win } := by
  unfold Source.isLoop
  split
  next c hc =>
    rw [beq_iff_eq]
    refine ⟨fun hm => ⟨c.window, by rw [hc, ← hm]⟩, fun ⟨win, hwin⟩ => ?_⟩
    rw [Option.some.inj (hc.symm.trans hwin)]
  next hc => exact ⟨fun h => absurd h Bool.false_ne_true, fun ⟨win, hwin⟩ => absurd (hc.symm.trans hwin) (by simp)⟩

theorem mem_sources (g : AlertGroup) (x : SourceIx) : x ∈ g.sources ↔ g.audio = some x ∨ g.slate = some x := by
  rw [eq_comm, eq_comm (a := g.slate)]
  unfold AlertGroup.sources
  cases g.audio with
  | none => cases g.slate <;> simp
  | some a =>
    cases g.slate with
    | none => simp
    | some b =>
      by_cases hab : a = b
      · simp [hab]
      · simp [hab]

theorem mem_sources_groupGiven (p : Params) (audio : SourceIx) (slate : Option SourceIx) (x : SourceIx) :
    x ∈ (groupGiven p audio slate).sources ↔ x = audio ∨ slate = some x := by
  rw [mem_sources, groupGiven, Option.some.injEq, eq_comm]

theorem sourceCheck_notDefined {g : AlertGroup} {s : State} (h : ∃ x ∈ g.sources, (s.source x).config = none) :
    g.sourceCheck s = some .notDefined := by
  obtain ⟨x, hx, hfree⟩ := h
  have hany : (g.sources.any fun k => !(s.source k).defined) = true :=
    List.any_eq_true.mpr ⟨x, hx, by rw [Source.not_defined_of_config hfree]; rfl⟩
  rw [AlertGroup.sourceCheck, if_pos hany]

/-- With every source DEFINED, the second half of the check decides. -/
theorem sourceCheck_defined {g : AlertGroup} {s : State} (h : ∀ x ∈ g.sources, (s.source x).config ≠ none) :
    g.sourceCheck s = if g.sources.any fun k => !(s.source k).isLoop then some .badParam else none := by
  have hany : ¬(g.sources.any fun k => !(s.source k).defined) = true := by
    intro hany
    obtain ⟨x, hx, hnot⟩ := List.any_eq_true.mp hany
    rw [Source.defined_of_config (h x hx)] at hnot
    exact Bool.false_ne_true hnot
  rw [AlertGroup.sourceCheck, if_neg hany]

theorem sourceCheck_badParam {g : AlertGroup} {s : State} (hd : ∀ x ∈ g.sources, (s.source x).config ≠ none)
    (h : ∃ x ∈ g.sources, (s.source x).isLoop = false) : g.sourceCheck s = some .badParam := by
  obtain ⟨x, hx, hloop⟩ := h
  rw [sourceCheck_defined hd, if_pos (List.any_eq_true.mpr ⟨x, hx, by rw [hloop]; rfl⟩)]

theorem sourceCheck_none {g : AlertGroup} {s : State} (h : ∀ x ∈ g.sources, (s.source x).isLoop = true) :
    g.sourceCheck s = none := by
  have hd (x : SourceIx) (hx : x ∈ g.sources) : (s.source x).config ≠ none := by
    obtain ⟨win, hwin⟩ := (Source.isLoop_iff _).mp (h x hx)
    rw [hwin]
    exact Option.some_ne_none _
  have hany : ¬(g.sources.any fun k => !(s.source k).isLoop) = true := by
    intro hany
    obtain ⟨x, hx, hnot⟩ := List.any_eq_true.mp hany
    rw [h x hx] at hnot
    exact Bool.false_ne_true hnot
  rw [sourceCheck_defined hd, if_neg hany]

/-! ### ALERT GROUP SET, one lemma for each answer (R130) -/

theorem cmdAlertGroupSet_badParam {p : Params} {s : State}
    (h : ¬groupInRange p ∨ 7 < (pByte p 0).toNat ∨ 31 < (pByte p 1).toNat
      ∨ 31 < (pByte p 2).toNat ∧ pByte p 2 ≠ 0xFF) :
    cmdAlertGroupSet p s = refuse .badParam s := by
  unfold cmdAlertGroupSet
  split
  next g group hg hgroup =>
    obtain h | h | h | h := h
    · exact absurd (pGroup_eq_none (.inl h) ▸ hgroup) (Option.some_ne_none group).symm
    · exact absurd (pIndex_of_le h ▸ hg) (Option.some_ne_none g).symm
    · exact absurd (pGroup_eq_none (.inr (.inl h)) ▸ hgroup) (Option.some_ne_none group).symm
    · exact absurd (pGroup_eq_none (.inr (.inr h)) ▸ hgroup) (Option.some_ne_none group).symm
  next => rfl

theorem cmdAlertGroupSet_busy {p : Params} {g : GroupIx} {group : AlertGroup} {s : State}
    (hg : pIndex 8 p 0 = some g) (hgroup : pGroup p = some group) (hidle : ¬s.groupIdle g) :
    cmdAlertGroupSet p s = refuse .busy s := by
  simp only [cmdAlertGroupSet, hg, hgroup]
  rw [if_pos ((slotOfGroup_isSome_iff s g).mpr hidle)]

theorem cmdAlertGroupSet_refused {p : Params} {g : GroupIx} {group : AlertGroup} {code : RefusalCode} {s : State}
    (hg : pIndex 8 p 0 = some g) (hgroup : pGroup p = some group) (hidle : s.groupIdle g)
    (hcheck : group.sourceCheck s = some code) : cmdAlertGroupSet p s = refuse code s := by
  simp only [cmdAlertGroupSet, hg, hgroup, hcheck]
  rw [if_neg fun h => (slotOfGroup_isSome_iff s g).mp h hidle]

theorem cmdAlertGroupSet_done {p : Params} {g : GroupIx} {group : AlertGroup} {s : State}
    (hg : pIndex 8 p 0 = some g) (hgroup : pGroup p = some group) (hidle : s.groupIdle g)
    (hcheck : group.sourceCheck s = none) :
    cmdAlertGroupSet p s
      = done (if (s.group g).defined then 1 else 0) { s with groups := vset s.groups g group } := by
  simp only [cmdAlertGroupSet, hg, hgroup, hcheck]
  rw [if_neg fun h => (slotOfGroup_isSome_iff s g).mp h hidle]

/-- Every source a group names is a LOOP source: the group is replaced (R130). -/
theorem exec_alertGroupSet_done {now : Stamp} {c : CellCommand} {g : GroupIx} {group : AlertGroup} {s : State}
    (hi : Idle c s) (hg : pIndex 8 c.params 0 = some g) (hgroup : pGroup c.params = some group)
    (hidle : s.groupIdle g) (hcheck : group.sourceCheck s = none) :
    exec (.alertGroupSet now c) s = .next (afterReply 0x30 now c (.done (if (s.group g).defined then 1 else 0))
      (fun u => { u with groups := vset u.groups g group }) s) :=
  exec_afterReply (x := .alertGroupSet now c) (f := fun u => { u with groups := vset u.groups g group }) rfl rfl hi
    (cmdAlertGroupSet_done (s := takenState 0x30 now c s) hg hgroup hidle hcheck) (hi.takenState_deferred 0x30 now)

theorem exec_alertGroupSet_refused {now : Stamp} {c : CellCommand} {code : RefusalCode} {s : State} (hi : Idle c s)
    (hrun : cmdAlertGroupSet c.params (takenState 0x30 now c s) = refuse code (takenState 0x30 now c s)) :
    exec (.alertGroupSet now c) s = .next (afterReply 0x30 now c (.refused code) id s) :=
  exec_afterReply_id (x := .alertGroupSet now c) rfl rfl hi hrun

/-! ### LINK SET (R153) -/

theorem secTicks_eq (n : Nat) : secTicks n = BitVec.ofNat 32 (n * 90000) := rfl

theorem beginPeriod_eq (interval : Nat) (now : Stamp) :
    beginPeriod interval now
      = if interval = 0 then none
        else some { expiry := now + BitVec.ofNat 32 (interval * 90000), seconds := interval } := by
  simp only [beginPeriod, secTicks_eq, beq_iff_eq]

theorem cmdLinkSet_badParam {p : Params} {s : State} (h : 1 < (pByte p 0).toNat ∨ 60 < (pByte p 1).toNat) :
    cmdLinkSet p s = refuse .badParam s := by
  rw [cmdLinkSet, if_pos h]

/-- A LINK SET in range leaves the link that `Link.set` gives (R153). -/
theorem exec_linkSet_done {now : Stamp} {c : CellCommand} {enable : Byte} {l : Link} {s : State} (hi : Idle c s)
    (he : pByte c.params 0 = enable) (hone : enable.toNat ≤ 1) (hint : (pByte c.params 1).toNat ≤ 60)
    (hl : s.link.set (enable == 1) (pByte c.params 1).toNat now = l) :
    exec (.linkSet now c) s = .next (afterReply 0x38 now c (.done 0) (fun u => { u with link := l }) s) := by
  have hrun : cmdLinkSet c.params (takenState 0x38 now c s)
      = done 0 { takenState 0x38 now c s with link := l } := by
    rw [cmdLinkSet, if_neg (by rw [he]; omega), he, ← hl]
    rfl
  exact exec_afterReply (x := .linkSet now c) (f := fun u => { u with link := l }) rfl rfl hi hrun
    (hi.takenState_deferred 0x38 now)

/-- Settles O60: the group by its checks in turn, the link by its settings before. -/
theorem groupAndLinkSettingsAreReplaced : Obligations.GroupAndLinkSettingsAreReplaced := by
  intro now c s hi
  refine ⟨fun g audio slate hg haudio hslate hranges => ?group, fun hbad => ?groupBad,
    fun he hint hoff => ?enabled, fun he hint hon hperiod hne => ?begun, fun he hint hon hrunning => ?retimed,
    fun he hint => ?disabled, fun hbad => ?linkBad⟩
  case group =>
    have hgiven : pGroup c.params = some (groupGiven c.params audio slate) := by
      refine pGroup_eq haudio ?_ hranges
      cases slate with
      | none => exact .inl ⟨hslate, rfl⟩
      | some x => exact .inr ⟨x, hslate, rfl⟩
    have hgroup : pIndex 8 c.params 0 = some g := pIndex_of_toNat_eq hg
    have hnamed (x : SourceIx) := mem_sources_groupGiven c.params audio slate x
    refine ⟨fun hidle hloop => ?done, fun hidle => ?busy, fun hidle hfree => ?notDefined,
      fun hidle hdefined hstream => ?notLoop⟩
    case done =>
      exact exec_alertGroupSet_done hi hgroup hgiven hidle
        (sourceCheck_none fun x hx => (Source.isLoop_iff _).mpr (hloop x ((hnamed x).mp hx)))
    case busy =>
      exact exec_alertGroupSet_refused hi
        (cmdAlertGroupSet_busy (s := takenState 0x30 now c s) hgroup hgiven hidle)
    case notDefined =>
      obtain ⟨x, hx, hx'⟩ := hfree
      exact exec_alertGroupSet_refused hi (cmdAlertGroupSet_refused (s := takenState 0x30 now c s) hgroup hgiven hidle
        (sourceCheck_notDefined ⟨x, (hnamed x).mpr hx, hx'⟩))
    case notLoop =>
      obtain ⟨x, hx, hx'⟩ := hstream
      have hnot : (s.source x).isLoop = false := Bool.eq_false_iff.mpr (mt (Source.isLoop_iff _).mp hx')
      exact exec_alertGroupSet_refused hi (cmdAlertGroupSet_refused (s := takenState 0x30 now c s) hgroup hgiven hidle
        (sourceCheck_badParam (fun y hy => hdefined y ((hnamed y).mp hy)) ⟨x, (hnamed x).mpr hx, hnot⟩))
  case groupBad => exact exec_alertGroupSet_refused hi (cmdAlertGroupSet_badParam hbad)
  case enabled =>
    refine exec_linkSet_done hi he (by decide) hint ?_
    rw [Link.set, if_pos (by decide), hoff, if_neg Bool.false_ne_true, Link.enable, beginPeriod_eq]
  case begun =>
    refine exec_linkSet_done hi he (by decide) hint ?_
    have hcond : (s.link.period.isNone && (pByte c.params 1).toNat != 0) = true := by simpa [hperiod] using hne
    rw [Link.set, if_pos (by decide), hon, if_pos rfl, Link.retime, if_pos hcond, beginPeriod_eq]
  case retimed =>
    refine exec_linkSet_done hi he (by decide) hint ?_
    have hcond : ¬(s.link.period.isNone && (pByte c.params 1).toNat != 0) = true := by
      simp only [Bool.and_eq_true, Option.isNone_iff_eq_none, bne_iff_ne]
      exact fun ⟨hnone, hne⟩ => hrunning.elim (· hnone) hne
    rw [Link.set, if_pos (by decide), hon, if_pos rfl, Link.retime, if_neg hcond]
  case disabled =>
    refine exec_linkSet_done hi he (by decide) hint ?_
    rw [Link.set, if_neg (by decide), Link.disable]
  case linkBad => exact exec_afterReply_id (x := .linkSet now c) rfl rfl hi (cmdLinkSet_badParam hbad)

end Sys2Proof.Machine
end

