-- ==== Sys2Proof/Proofs/Departures.lean ====
section
/-! PROOF. How an owner leaves (R85, R120): what its leaving makes of the service's record, and what it leaves alone. -/

namespace Sys2Proof.Machine

/-! ### The frame of the end of insertions -/

/-- A service's record with the fields blanked that the end of its insertions writes (R85, R120). -/
def Service.core (v : Service) : Service :=
  { v with mode := .network, trailing := none, schedule := [], slotA := none, slotB := none, current := .a }

theorem window_of_core {v w : Service} (h : w.core = v.core) : w.window = v.window := by
  have hfield := congrArg Service.window h
  exact hfield

theorem owner_of_core {v w : Service} (h : w.core = v.core) : w.owner = v.owner := by
  have hfield := congrArg Service.owner h
  exact hfield

theorem exempt_of_core {v w : Service} (h : w.core = v.core) : w.exempt = v.exempt := by
  have hfield := congrArg Service.exempt h
  exact hfield

/-- The definitions and users of the sources, the alerts and Mode Control stand. -/
structure Stands (s t : State) : Prop where
  sources : ∀ k, (t.source k).config = (s.source k).config ∧ (t.source k).alertUsers = (s.source k).alertUsers
  alerts : t.alerts = s.alerts
  activations : t.activations = s.activations
  modeControl : t.modeControl = s.modeControl

theorem Stands.refl (s : State) : Stands s s := ⟨fun _ => ⟨rfl, rfl⟩, rfl, rfl, rfl⟩

theorem Stands.trans {s t u : State} (h : Stands s t) (k : Stands t u) : Stands s u where
  sources x := ⟨(k.sources x).1.trans (h.sources x).1, (k.sources x).2.trans (h.sources x).2⟩
  alerts := k.alerts.trans h.alerts
  activations := k.activations.trans h.activations
  modeControl := k.modeControl.trans h.modeControl

theorem Stands.offer (r : Report) (s : State) : Stands s (Machine.offer r s) where
  sources k := by rw [State.source, offer_sources]; exact ⟨rfl, rfl⟩
  alerts := offer_alerts r s
  activations := offer_activations r s
  modeControl := offer_modeControl r s

theorem Stands.modService (s : State) (i : ServiceIx) (f : Service → Service) : Stands s (s.modService i f) :=
  ⟨fun _ => ⟨rfl, rfl⟩, rfl, rfl, rfl⟩

/-- Between two states insertions of the services of `P` have ended: nothing else has changed that `Stands` or a
service's core speaks of. -/
structure Ends (P : ServiceIx → Prop) (s t : State) : Prop where
  others : ∀ j, ¬P j → t.service j = s.service j
  record : ∀ j, (t.service j).core = (s.service j).core
  stands : Stands s t

theorem Ends.refl {P : ServiceIx → Prop} (s : State) : Ends P s s := ⟨fun _ _ => rfl, fun _ => rfl, .refl s⟩

theorem Ends.trans {P : ServiceIx → Prop} {s t u : State} (h : Ends P s t) (k : Ends P t u) : Ends P s u where
  others j hj := (k.others j hj).trans (h.others j hj)
  record j := (k.record j).trans (h.record j)
  stands := h.stands.trans k.stands

theorem Ends.mono {P Q : ServiceIx → Prop} {s t : State} (h : Ends P s t) (hPQ : ∀ i, P i → Q i) : Ends Q s t :=
  { h with others := fun j hj => h.others j (mt (hPQ j) hj) }

theorem Ends.offer (P : ServiceIx → Prop) (r : Report) (s : State) : Ends P s (Machine.offer r s) :=
  ⟨fun j _ => offer_service r s j, fun j => congrArg Service.core (offer_service r s j), .offer r s⟩

theorem Ends.disarm (P : ServiceIx → Prop) (o : InsOwner) (s : State) : Ends P s (Machine.disarm o s) :=
  ⟨fun _ _ => rfl, fun _ => rfl, ⟨fun _ => ⟨rfl, rfl⟩, rfl, rfl, rfl⟩⟩

theorem modService_core {i : ServiceIx} {f : Service → Service} (s : State)
    (hf : (f (s.service i)).core = (s.service i).core) (j : ServiceIx) :
    ((s.modService i f).service j).core = (s.service j).core := by
  by_cases hj : j = i
  · subst hj
    rw [modService_service_self, hf]
  · rw [modService_service_ne s f hj]

theorem Ends.modService {i : ServiceIx} {f : Service → Service} (s : State)
    (hf : (f (s.service i)).core = (s.service i).core) : Ends (· = i) s (s.modService i f) :=
  ⟨fun _ hj => modService_service_ne s f hj, modService_core s hf, .modService s i f⟩

theorem modSource_source_self (s : State) (k : SourceIx) (f : Source → Source) :
    (s.modSource k f).source k = f (s.source k) := vget_vset_self ..

theorem modSource_source_ne (s : State) {k x : SourceIx} (f : Source → Source) (h : x ≠ k) :
    (s.modSource k f).source x = s.source x := vget_vset_ne _ _ h

theorem Ends.modSource (P : ServiceIx → Prop) {k : SourceIx} {f : Source → Source} (s : State)
    (hc : (f (s.source k)).config = (s.source k).config)
    (hu : (f (s.source k)).alertUsers = (s.source k).alertUsers) : Ends P s (s.modSource k f) := by
  refine ⟨fun _ _ => rfl, fun _ => rfl, fun x => ?_, rfl, rfl, rfl⟩
  by_cases hx : x = k
  · subst hx
    rw [modSource_source_self]
    exact ⟨hc, hu⟩
  · rw [modSource_source_ne s f hx]
    exact ⟨rfl, rfl⟩

theorem flushed_config (r : Source) : r.flushed.config = r.config := by
  unfold Source.flushed
  split <;> rfl

theorem flushed_alertUsers (r : Source) : r.flushed.alertUsers = r.alertUsers := by
  unfold Source.flushed
  split <;> rfl

theorem Ends.detach (P : ServiceIx → Prop) (k : SourceIx) (o : InsOwner) (s : State) :
    Ends P s (Machine.detach k o s) := by
  unfold Machine.detach
  split
  · exact (Ends.modSource P (f := fun r => { r.flushed with attachment := none }) s (flushed_config _)
      (flushed_alertUsers _)).trans (Ends.offer P _ _)
  · exact Ends.refl s

theorem Ends.detachEntry (P : ServiceIx → Prop) (i : ServiceIx) (e : BreakEntry) (s : State) :
    Ends P s (Machine.detachEntry i e s) := by
  unfold Machine.detachEntry
  split
  · exact Ends.detach P _ _ s
  · exact Ends.refl s

/-! ### A break leaves (R85) -/

/-- What the leaving of an entry makes of its service (R85, R114). -/
def Service.afterBreak (v : Service) (e : BreakEntry) : Service :=
  { v with
    schedule := v.schedule.filter fun x => x.event != e.event
    mode := if e.isActive then .network else v.mode
    trailing := if e.isActive then some { ref := .brk e.event e.intake, pcrOffset := e.pcrOffset } else v.trailing }

theorem filter_mapEntry {ev : EventId} {f : BreakEntry → BreakEntry} (hf : ∀ x, (f x).event = x.event)
    (l : List BreakEntry) :
    (mapEntry ev f l).filter (fun x => x.event != ev) = l.filter fun x => x.event != ev := by
  induction l with
  | nil => rfl
  | cons x l ih =>
    rw [mapEntry] at ih ⊢
    rw [List.map_cons, List.filter_cons, List.filter_cons, ih]
    by_cases hx : x.event = ev <;> simp [hx, hf]

/-- The stamp an ended entry takes (R85, step 2). -/
def BreakEntry.endedBy (how : BreakLeave) (x : BreakEntry) : BreakEntry :=
  match how with
  | .ended _ actualIn => { x with actualIn := some actualIn }
  | .missed _ _ | .cancelled => x

theorem endedBy_event (how : BreakLeave) (x : BreakEntry) : (x.endedBy how).event = x.event := by cases how <;> rfl

/-- The record of a service whose ACTIVE entry ends (R85, step 2). -/
def Service.endingBreak (e : BreakEntry) (how : BreakLeave) (v : Service) : Service :=
  { v with
    schedule := mapEntry e.event (BreakEntry.endedBy how) v.schedule
    mode := .network
    trailing := some { ref := .brk e.event e.intake, pcrOffset := e.pcrOffset } }

theorem modService_modService (s : State) (i : ServiceIx) (f g : Service → Service) :
    (s.modService i f).modService i g = s.modService i fun v => g (f v) := by
  simp only [State.modService, vget_vset_self, vset_vset]

theorem endActive_active {i : ServiceIx} {e : BreakEntry} {how : BreakLeave} {s : State} (h : e.isActive = true) :
    endActive i e how s = s.modService i (Service.endingBreak e how) := by
  rw [endActive, if_pos h, State.modEntry, modService_modService]
  cases how <;> rfl

theorem endActive_idle {i : ServiceIx} {e : BreakEntry} {how : BreakLeave} {s : State} (h : ¬e.isActive = true) :
    endActive i e how s = s := by
  rw [endActive, if_neg h]

theorem endActive_now (i : ServiceIx) (e : BreakEntry) (how : BreakLeave) (s : State) :
    (endActive i e how s).now = s.now := by
  by_cases h : e.isActive = true
  · rw [endActive_active h, modService_now]
  · rw [endActive_idle h]

theorem endActive_bank (i : ServiceIx) (e : BreakEntry) (how : BreakLeave) (s : State) :
    (endActive i e how s).bank = s.bank := by
  by_cases h : e.isActive = true
  · rw [endActive_active h, modService_bank]
  · rw [endActive_idle h]

theorem endActive_ends (i : ServiceIx) (e : BreakEntry) (how : BreakLeave) (s : State) :
    Ends (· = i) s (endActive i e how s) := by
  by_cases h : e.isActive = true
  · rw [endActive_active h]
    exact Ends.modService s rfl
  · rw [endActive_idle h]
    exact Ends.refl s

/-- The record once an ended entry is taken out of its list. -/
theorem endActive_service (i : ServiceIx) (e : BreakEntry) (how : BreakLeave) (s : State) :
    { (endActive i e how s).service i with
      schedule := ((endActive i e how s).service i).schedule.filter fun x => x.event != e.event }
    = (s.service i).afterBreak e := by
  by_cases h : e.isActive = true
  · rw [endActive_active h, modService_service_self]
    simp only [Service.endingBreak, filter_mapEntry (endedBy_event how), Service.afterBreak, if_pos h]
  · rw [endActive_idle h]
    simp only [Service.afterBreak, if_neg h]

/-- An entry leaves in the steps of R85. -/
theorem leaveBreak_of_find {i : ServiceIx} {ev : EventId} {e : BreakEntry} {s : State}
    (h : (s.service i).findEntry ev = some e) (how : BreakLeave) :
    leaveBreak i ev how s = dropEntry i ev (detachEntry i e
      (offer (leaveReport i e how s.now) (endActive i e how (disarm (.brk i ev) s)))) := by
  simp only [leaveBreak, h, endActive_now]
  rfl

theorem leaveBreak_of_none {i : ServiceIx} {ev : EventId} {s : State} (h : (s.service i).findEntry ev = none)
    (how : BreakLeave) : leaveBreak i ev how s = s := by
  simp only [leaveBreak, h]

theorem leaveBreak_service {i : ServiceIx} {ev : EventId} {e : BreakEntry} {s : State}
    (h : (s.service i).findEntry ev = some e) (how : BreakLeave) :
    (leaveBreak i ev how s).service i = (s.service i).afterBreak e := by
  rw [leaveBreak_of_find h, dropEntry, modService_service_self, detachEntry_service, offer_service,
    ← findEntry_event h]
  exact endActive_service i e how (disarm (.brk i e.event) s)

theorem leaveBreak_ends (i : ServiceIx) (ev : EventId) (how : BreakLeave) (s : State) :
    Ends (· = i) s (leaveBreak i ev how s) := by
  cases h : (s.service i).findEntry ev with
  | none =>
    rw [leaveBreak_of_none h]
    exact Ends.refl s
  | some e =>
    rw [leaveBreak_of_find h]
    exact ((Ends.disarm _ _ s).trans (endActive_ends ..)).trans
      ((Ends.offer _ _ _).trans ((Ends.detachEntry _ _ _ _).trans (Ends.modService _ rfl)))

theorem detach_bank (k : SourceIx) (o : InsOwner) (s : State) : (detach k o s).bank = s.bank := by
  unfold detach
  split
  · rw [offer_bank, modSource_bank]
  · rfl

theorem detachEntry_bank (i : ServiceIx) (e : BreakEntry) (s : State) : (detachEntry i e s).bank = s.bank := by
  unfold detachEntry
  split
  · exact detach_bank ..
  · rfl

theorem leaveBreak_bank {i : ServiceIx} {ev : EventId} {e : BreakEntry} {s : State}
    (h : (s.service i).findEntry ev = some e) (how : BreakLeave) :
    (leaveBreak i ev how s).bank = s.bank.filter fun ch => ch.owner != .brk i ev := by
  rw [leaveBreak_of_find h, dropEntry, modService_bank, detachEntry_bank, offer_bank, endActive_bank]
  rfl

/-- A source detached is not attached to the owner any more (R56). -/
theorem detach_attachment (k : SourceIx) (o : InsOwner) (s : State) :
    ((detach k o s).source k).attachment ≠ some o := by
  unfold detach
  split
  next =>
    have hnone : ((s.modSource k fun r => { r.flushed with attachment := none }).source k).attachment = none := by
      rw [modSource_source_self]
    rw [State.source, offer_sources]
    exact fun h => absurd (hnone.symm.trans h) (Option.some_ne_none o).symm
  next hnot =>
    simpa using hnot

theorem leaveBreak_attachment {i : ServiceIx} {ev : EventId} {e : BreakEntry} {b : Binding} {s : State}
    (h : (s.service i).findEntry ev = some e) (how : BreakLeave) (hb : e.binding = some b) :
    ((leaveBreak i ev how s).source b.source).attachment ≠ some (.brk i ev) := by
  rw [leaveBreak_of_find h]
  have hdetach (u : State) : detachEntry i e u = detach b.source (.brk i ev) u := by
    rw [detachEntry, hb, findEntry_event h]
  rw [hdetach]
  exact detach_attachment b.source (.brk i ev) _

/-! ### A local programme leaves (R120) -/

/-- What the leaving of a slot makes of its service (R114, R120). -/
def Service.afterSlot (v : Service) (l : SlotLetter) (p : LocalProg) : Service :=
  { v.setSlot l none with
    current := if v.current == l then otherLetter l else v.current
    mode := if p.isRunning then .network else v.mode
    trailing := if p.isRunning then some { ref := .loc l (p.actualStart.getD 0), pcrOffset := p.pcrOffset }
      else v.trailing }

/-- The stamp an ended programme takes (R120, step 2). -/
def LocalProg.endedBy (how : SlotLeave) (x : LocalProg) : LocalProg :=
  match how with
  | .ended _ actualEnd => { x with actualEnd := some actualEnd }
  | .missed _ _ | .cancelled => x

/-- The record of a service whose RUNNING slot ends (R120, step 2). -/
def Service.endingSlot (l : SlotLetter) (p : LocalProg) (how : SlotLeave) (v : Service) : Service :=
  { v.setSlot l ((v.slot l).map (LocalProg.endedBy how)) with
    mode := .network
    trailing := some { ref := .loc l (p.actualStart.getD 0), pcrOffset := p.pcrOffset } }

theorem endRunning_running {i : ServiceIx} {l : SlotLetter} {p : LocalProg} {how : SlotLeave} {s : State}
    (h : p.isRunning = true) : endRunning i l p how s = s.modService i (Service.endingSlot l p how) := by
  rw [endRunning, if_pos h, State.modSlot, modService_modService]
  cases how <;> rfl

theorem endRunning_idle {i : ServiceIx} {l : SlotLetter} {p : LocalProg} {how : SlotLeave} {s : State}
    (h : ¬p.isRunning = true) : endRunning i l p how s = s := by
  rw [endRunning, if_neg h]

theorem endRunning_now (i : ServiceIx) (l : SlotLetter) (p : LocalProg) (how : SlotLeave) (s : State) :
    (endRunning i l p how s).now = s.now := by
  by_cases h : p.isRunning = true
  · rw [endRunning_running h, modService_now]
  · rw [endRunning_idle h]

theorem endRunning_bank (i : ServiceIx) (l : SlotLetter) (p : LocalProg) (how : SlotLeave) (s : State) :
    (endRunning i l p how s).bank = s.bank := by
  by_cases h : p.isRunning = true
  · rw [endRunning_running h, modService_bank]
  · rw [endRunning_idle h]

theorem setSlot_core (v : Service) (l : SlotLetter) (p : Option LocalProg) : (v.setSlot l p).core = v.core := by
  cases l <;> rfl

theorem endRunning_ends (i : ServiceIx) (l : SlotLetter) (p : LocalProg) (how : SlotLeave) (s : State) :
    Ends (· = i) s (endRunning i l p how s) := by
  by_cases h : p.isRunning = true
  · rw [endRunning_running h]
    exact Ends.modService s (setSlot_core (s.service i) l _)
  · rw [endRunning_idle h]
    exact Ends.refl s

/-- A service's slot EMPTY, and the current pointer off it (R120, steps 5 and 6). -/
def Service.emptied (v : Service) (l : SlotLetter) : Service :=
  { v.setSlot l none with current := if v.current == l then otherLetter l else v.current }

/-- The record once the slot of an ended programme is EMPTY. -/
theorem endRunning_service (i : ServiceIx) (l : SlotLetter) (p : LocalProg) (how : SlotLeave) (s : State) :
    ((endRunning i l p how s).service i).emptied l = (s.service i).afterSlot l p := by
  by_cases h : p.isRunning = true
  · rw [endRunning_running h, modService_service_self]
    rw [Service.afterSlot, if_pos h, if_pos h]
    cases l <;> rfl
  · rw [endRunning_idle h]
    rw [Service.afterSlot, if_neg h, if_neg h]
    cases l <;> rfl

/-- A slot returns to EMPTY in the steps of R120. -/
theorem leaveSlot_of_slot {i : ServiceIx} {l : SlotLetter} {p : LocalProg} {s : State}
    (h : (s.service i).slot l = some p) (how : SlotLeave) :
    leaveSlot i l how s = emptySlot i l (detach p.source (.loc i l)
      (offer (slotLeaveReport i l p how s.now) (endRunning i l p how (disarm (.loc i l) s)))) := by
  simp only [leaveSlot, h, endRunning_now]
  rfl

theorem leaveSlot_of_none {i : ServiceIx} {l : SlotLetter} {s : State} (h : (s.service i).slot l = none)
    (how : SlotLeave) : leaveSlot i l how s = s := by
  simp only [leaveSlot, h]

theorem leaveSlot_service {i : ServiceIx} {l : SlotLetter} {p : LocalProg} {s : State}
    (h : (s.service i).slot l = some p) (how : SlotLeave) :
    (leaveSlot i l how s).service i = (s.service i).afterSlot l p := by
  rw [leaveSlot_of_slot h, emptySlot, modService_service_self, detach_service, offer_service]
  exact endRunning_service i l p how (disarm (.loc i l) s)

theorem emptySlot_ends (i : ServiceIx) (l : SlotLetter) (s : State) : Ends (· = i) s (emptySlot i l s) :=
  Ends.modService s (setSlot_core (s.service i) l none)

theorem leaveSlot_ends (i : ServiceIx) (l : SlotLetter) (how : SlotLeave) (s : State) :
    Ends (· = i) s (leaveSlot i l how s) := by
  cases h : (s.service i).slot l with
  | none =>
    rw [leaveSlot_of_none h]
    exact Ends.refl s
  | some p =>
    rw [leaveSlot_of_slot h]
    exact ((Ends.disarm _ _ s).trans (endRunning_ends ..)).trans
      ((Ends.offer _ _ _).trans ((Ends.detach _ _ _ _).trans (emptySlot_ends ..)))

theorem leaveSlot_bank {i : ServiceIx} {l : SlotLetter} {p : LocalProg} {s : State}
    (h : (s.service i).slot l = some p) (how : SlotLeave) :
    (leaveSlot i l how s).bank = s.bank.filter fun ch => ch.owner != .loc i l := by
  rw [leaveSlot_of_slot h, emptySlot, modService_bank, detach_bank, offer_bank, endRunning_bank]
  rfl

theorem leaveSlot_attachment {i : ServiceIx} {l : SlotLetter} {p : LocalProg} {s : State}
    (h : (s.service i).slot l = some p) (how : SlotLeave) :
    ((leaveSlot i l how s).source p.source).attachment ≠ some (.loc i l) := by
  rw [leaveSlot_of_slot h]
  exact detach_attachment p.source (.loc i l) _

/-! ### The record after a leaving, read field by field -/

theorem afterBreak_findEntry (v : Service) (e : BreakEntry) : (v.afterBreak e).findEntry e.event = none :=
  find?_filter_event e.event v.schedule

theorem mem_afterBreak {v : Service} {e y : BreakEntry} (hy : y.event ≠ e.event) :
    y ∈ (v.afterBreak e).schedule ↔ y ∈ v.schedule := by
  simp [Service.afterBreak, hy]

@[simp] theorem afterSlot_slot_self (v : Service) (l : SlotLetter) (p : LocalProg) :
    (v.afterSlot l p).slot l = none := by cases l <;> rfl

@[simp] theorem afterSlot_slot_other (v : Service) (l : SlotLetter) (p : LocalProg) :
    (v.afterSlot l p).slot (otherLetter l) = v.slot (otherLetter l) := by cases l <;> rfl

@[simp] theorem afterSlot_schedule (v : Service) (l : SlotLetter) (p : LocalProg) :
    (v.afterSlot l p).schedule = v.schedule := setSlot_schedule ..

theorem isRunning_iff {p : LocalProg} : p.isRunning = true ↔ p.state = .running := by simp [LocalProg.isRunning]

theorem isRunning_eq_false {p : LocalProg} (h : p.state ≠ .running) : p.isRunning = false :=
  Bool.eq_false_iff.mpr (mt isRunning_iff.mp h)

theorem Stands.sameAlerts {s t : State} (h : Stands s t) (k : Kept s t) : SameAlerts s t :=
  ⟨k.groups, h.alerts, h.activations, k.link⟩

/-- Settles O34, by the records `afterBreak` and `afterSlot` and the frame of the end of insertions. -/
theorem leavingOwnersAreRemoved : Obligations.LeavingOwnersAreRemoved := by
  refine ⟨fun i ev how e s h => ?brk, fun i l how p s h => ?slot⟩
  case brk =>
    have hev : e.event = ev := findEntry_event h
    have hends := leaveBreak_ends i ev how s
    have hkept : Kept s (leaveBreak i ev how s) := (leaveBreak_inner .refl).kept
    have hservice := leaveBreak_service h how
    dsimp only
    rw [hservice]
    refine ⟨leaveBreak_of_find h how, ?gone, fun y hy => mem_afterBreak (hev.symm ▸ hy), leaveBreak_bank h how,
      fun b hb => leaveBreak_attachment h how hb, fun hactive => ?active, fun hidle => ?idle, rfl, ?others,
      hends.stands.sameAlerts hkept, hkept.path, hkept.fixed⟩
    case gone => exact hev ▸ afterBreak_findEntry (s.service i) e
    case active => exact ⟨if_pos (isActive_iff.mpr hactive), if_pos (isActive_iff.mpr hactive)⟩
    case idle =>
      have hnot : ¬e.isActive = true := mt isActive_iff.mp hidle
      exact ⟨if_neg hnot, if_neg hnot⟩
    case others => exact hends.others
  case slot =>
    have hends := leaveSlot_ends i l how s
    have hkept : Kept s (leaveSlot i l how s) := (leaveSlot_inner .refl).kept
    have hservice := leaveSlot_service h how
    dsimp only
    rw [hservice]
    refine ⟨leaveSlot_of_slot h how, afterSlot_slot_self .., afterSlot_slot_other .., ?current, leaveSlot_bank h how,
      leaveSlot_attachment h how, fun hrunning => ?running, fun hidle => ?idle, afterSlot_schedule .., hends.others,
      hends.stands.sameAlerts hkept, hkept.path, hkept.fixed⟩
    case current => simp only [Service.afterSlot, beq_iff_eq]
    case running => exact ⟨if_pos (isRunning_iff.mpr hrunning), if_pos (isRunning_iff.mpr hrunning)⟩
    case idle =>
      have hnot : ¬p.isRunning = true := mt isRunning_iff.mp hidle
      exact ⟨if_neg hnot, if_neg hnot⟩

end Sys2Proof.Machine
end

