-- ==== Sys2Proof/Proofs/EndOfInsertions.lean ====
section
/-! PROOF. What ends the insertions of a service or of every service (R7, R18, R88, R126, R139), over the leaving of one
owner. -/

namespace Sys2Proof.Machine

/-! ### An event applied to each service -/

/-- A relation each step keeps stands across the whole event. -/
theorem forServices_rel {R : State → State → Prop} {f : ServiceIx → State → State} (hrefl : ∀ s, R s s)
    (htrans : ∀ {s t u}, R s t → R t u → R s u) (hstep : ∀ i t, R t (f i t)) (s : State) : R s (forServices f s) := by
  have hfold (l : List ServiceIx) : ∀ t, R t (l.foldl (fun t i => f i t) t) := by
    induction l with
    | nil => exact hrefl
    | cons i l ih => exact fun t => htrans (hstep i t) (ih _)
  exact hfold allServices s

theorem foldl_service {f : ServiceIx → State → State} {g : ServiceIx → Service → Service} {Inv : State → Prop}
    (hself : ∀ i t, Inv t → (f i t).service i = g i (t.service i))
    (hother : ∀ i j t, j ≠ i → (f i t).service j = t.service j) (hinv : ∀ i t, Inv t → Inv (f i t)) (i : ServiceIx) :
    ∀ (l : List ServiceIx) (t : State), l.Nodup → Inv t →
      (l.foldl (fun t i => f i t) t).service i = if i ∈ l then g i (t.service i) else t.service i
  | [], _, _, _ => rfl
  | j :: l, t, hl, ht => by
    obtain ⟨hnot, hnodup⟩ := List.nodup_cons.mp hl
    rw [List.foldl_cons, foldl_service hself hother hinv i l (f j t) hnodup (hinv j t ht)]
    by_cases hij : i = j
    · subst hij
      rw [if_neg hnot, if_pos List.mem_cons_self, hself i t ht]
    · simp only [hother j i t hij, List.mem_cons, hij, false_or]

/-- An event whose step on a service reads and writes that service alone makes of each service what its step does. -/
theorem forServices_service {f : ServiceIx → State → State} {g : ServiceIx → Service → Service} {Inv : State → Prop}
    (hself : ∀ i t, Inv t → (f i t).service i = g i (t.service i))
    (hother : ∀ i j t, j ≠ i → (f i t).service j = t.service j) (hinv : ∀ i t, Inv t → Inv (f i t)) {s : State}
    (hs : Inv s) (i : ServiceIx) : (forServices f s).service i = g i (s.service i) := by
  rw [forServices, foldl_service hself hother hinv i allServices s (List.nodup_finRange 48) hs,
    if_pos (show i ∈ allServices from List.mem_finRange i)]

/-- An event none of whose steps does anything does nothing. -/
theorem forServices_of_fixed {f : ServiceIx → State → State} {s : State} (h : ∀ i, f i s = s) : forServices f s = s := by
  have hfold (l : List ServiceIx) : l.foldl (fun t i => f i t) s = s := by
    induction l with
    | nil => rfl
    | cons i l ih => rw [List.foldl_cons, h i, ih]
  exact hfold allServices

/-! ### The ACTIVE break and the RUNNING slot end (R18, R139) -/

theorem findEntry_activeHead {v : Service} {e : BreakEntry} (h : v.activeHead = some e) :
    v.findEntry e.event = some e := by
  unfold Service.activeHead at h
  split at h
  next x l hl =>
    by_cases hx : x.isActive = true
    · rw [if_pos hx, Option.some.injEq] at h
      subst h
      rw [Service.findEntry, hl, List.find?_cons_of_pos (by simp)]
    · rw [if_neg hx] at h
      exact absurd h (Option.some_ne_none e).symm
  next => exact absurd h (Option.some_ne_none e).symm

theorem activeHead_isActive {v : Service} {e : BreakEntry} (h : v.activeHead = some e) : e.isActive = true := by
  unfold Service.activeHead at h
  split at h
  next x l hl =>
    by_cases hx : x.isActive = true
    · rw [if_pos hx, Option.some.injEq] at h
      exact h ▸ hx
    · rw [if_neg hx] at h
      exact absurd h (Option.some_ne_none e).symm
  next => exact absurd h (Option.some_ne_none e).symm

theorem slot_running {v : Service} {l : SlotLetter} {p : LocalProg} (h : v.running = some (l, p)) :
    v.slot l = some p ∧ p.isRunning = true := by
  unfold Service.running at h
  split at h
  next q hq =>
    by_cases hrunning : q.isRunning = true
    · rw [if_pos hrunning, Option.some.injEq, Prod.mk.injEq] at h
      obtain ⟨rfl, rfl⟩ := h
      exact ⟨hq, hrunning⟩
    · rw [if_neg hrunning] at h
      exact absurd h (Option.some_ne_none _).symm
  next => exact absurd h (Option.some_ne_none _).symm

/-- The record of a service whose ACTIVE break, if any, has ended. -/
def Service.breakEnded (v : Service) : Service := v.activeHead.elim v v.afterBreak

/-- The record of a service whose RUNNING slot, if any, has ended. -/
def Service.slotEnded (v : Service) : Service := v.running.elim v fun x => v.afterSlot x.1 x.2

theorem endActiveBreak_none {i : ServiceIx} {cause : Cause} {stamp : Stamp} {s : State}
    (h : (s.service i).activeHead = none) : endActiveBreak i cause stamp s = s := by
  simp only [endActiveBreak, h]

theorem endActiveBreak_some {i : ServiceIx} {cause : Cause} {stamp : Stamp} {e : BreakEntry} {s : State}
    (h : (s.service i).activeHead = some e) :
    endActiveBreak i cause stamp s = leaveBreak i e.event (.ended cause stamp) s := by
  simp only [endActiveBreak, h]

theorem endActiveBreak_service (i : ServiceIx) (cause : Cause) (stamp : Stamp) (s : State) :
    (endActiveBreak i cause stamp s).service i = (s.service i).breakEnded := by
  cases h : (s.service i).activeHead with
  | none => rw [endActiveBreak_none h, Service.breakEnded, h, Option.elim_none]
  | some e =>
    rw [endActiveBreak_some h, leaveBreak_service (findEntry_activeHead h), Service.breakEnded, h, Option.elim_some]

theorem endActiveBreak_ends (i : ServiceIx) (cause : Cause) (stamp : Stamp) (s : State) :
    Ends (· = i) s (endActiveBreak i cause stamp s) := by
  cases h : (s.service i).activeHead with
  | none =>
    rw [endActiveBreak_none h]
    exact Ends.refl s
  | some e =>
    rw [endActiveBreak_some h]
    exact leaveBreak_ends ..

theorem endRunningSlot_none {i : ServiceIx} {cause : Cause} {stamp : Stamp} {s : State}
    (h : (s.service i).running = none) : endRunningSlot i cause stamp s = s := by
  simp only [endRunningSlot, h]

theorem endRunningSlot_some {i : ServiceIx} {cause : Cause} {stamp : Stamp} {l : SlotLetter} {p : LocalProg} {s : State}
    (h : (s.service i).running = some (l, p)) :
    endRunningSlot i cause stamp s = leaveSlot i l (.ended cause stamp) s := by
  simp only [endRunningSlot, h]

theorem endRunningSlot_service (i : ServiceIx) (cause : Cause) (stamp : Stamp) (s : State) :
    (endRunningSlot i cause stamp s).service i = (s.service i).slotEnded := by
  cases h : (s.service i).running with
  | none => rw [endRunningSlot_none h, Service.slotEnded, h, Option.elim_none]
  | some x =>
    rw [endRunningSlot_some h, leaveSlot_service (slot_running h).1, Service.slotEnded, h, Option.elim_some]

theorem endRunningSlot_ends (i : ServiceIx) (cause : Cause) (stamp : Stamp) (s : State) :
    Ends (· = i) s (endRunningSlot i cause stamp s) := by
  cases h : (s.service i).running with
  | none =>
    rw [endRunningSlot_none h]
    exact Ends.refl s
  | some x =>
    rw [endRunningSlot_some h]
    exact leaveSlot_ends ..

/-! ### What the ends leave of a record -/

theorem breakEnded_core (v : Service) : v.breakEnded.core = v.core := by
  unfold Service.breakEnded
  cases v.activeHead <;> rfl

theorem breakEnded_slot (v : Service) (l : SlotLetter) : v.breakEnded.slot l = v.slot l := by
  unfold Service.breakEnded
  cases v.activeHead <;> cases l <;> rfl

theorem breakEnded_running (v : Service) : v.breakEnded.running = v.running := by
  unfold Service.breakEnded
  cases v.activeHead <;> rfl

theorem breakEnded_findEntry {v : Service} {e : BreakEntry} (h : v.activeHead = some e) :
    v.breakEnded.findEntry e.event = none := by
  rw [Service.breakEnded, h, Option.elim_some]
  exact afterBreak_findEntry v e

theorem slotEnded_core (v : Service) : v.slotEnded.core = v.core := by
  unfold Service.slotEnded
  cases v.running with
  | none => rfl
  | some x => exact setSlot_core v x.1 none

theorem slotEnded_schedule (v : Service) : v.slotEnded.schedule = v.schedule := by
  unfold Service.slotEnded
  cases v.running with
  | none => rfl
  | some x => exact afterSlot_schedule ..

theorem slotEnded_slot {v : Service} {l : SlotLetter} {p : LocalProg} (h : v.running = some (l, p)) :
    v.slotEnded.slot l = none := by
  rw [Service.slotEnded, h, Option.elim_some]
  exact afterSlot_slot_self ..

/-! ### Preemption (R139) -/

theorem preempt_ends (before s : State) : Ends (fun i => before.preempts s i = true) s (preempt before s) := by
  refine forServices_rel .refl .trans (fun i t => ?_) s
  split
  next h => exact (endActiveBreak_ends ..).mono fun j hj => hj ▸ h
  next => exact Ends.refl t

/-- What preemption makes of each service: the break of a preempted one ends. -/
theorem preempt_service (before s : State) (i : ServiceIx) :
    (preempt before s).service i
      = if before.preempts s i then (s.service i).breakEnded else s.service i := by
  refine forServices_service (g := fun i v => if before.preempts s i then v.breakEnded else v)
    (Inv := fun _ => True) (fun i t _ => ?self) (fun i j t hj => ?other) (fun _ _ _ => trivial) trivial i
  case self =>
    split
    · exact endActiveBreak_service ..
    · rfl
  case other =>
    split
    · exact (endActiveBreak_ends i _ _ t).others j hj
    · rfl

/-- Preemption of services without an ACTIVE break does nothing. -/
theorem preempt_of_idle {before s : State}
    (h : ∀ i, before.preempts s i = true → (s.service i).activeHead = none) : preempt before s = s := by
  refine forServices_of_fixed fun i => ?_
  split
  next hi => exact endActiveBreak_none (h i hi)
  next => rfl

/-! ### A service held (R18) -/

/-- The record of a service that is held: its insertions end and its mode is NETWORK, unless it was held already. -/
def Service.heldBy (cause : HeldCause) (v : Service) : Service :=
  if v.held.isSome then { v with held := some cause }
  else { ({ v with held := some cause } : Service).breakEnded.slotEnded with mode := .network }

theorem holdEnds_service (i : ServiceIx) (s : State) :
    (holdEnds i s).service i = { (s.service i).breakEnded.slotEnded with mode := .network } := by
  rw [holdEnds, modService_service_self, endRunningSlot_service, endActiveBreak_service]

theorem holdEnds_ends (i : ServiceIx) (s : State) : Ends (· = i) s (holdEnds i s) :=
  (endActiveBreak_ends ..).trans ((endRunningSlot_ends ..).trans
    (Ends.modService (f := fun v => { v with mode := .network }) _ rfl))

theorem setHeld_service (i : ServiceIx) (cause : HeldCause) (s : State) :
    (setHeld i cause s).service i = (s.service i).heldBy cause := by
  rw [setHeld, Service.heldBy]
  by_cases h : (s.service i).held.isSome = true
  · rw [if_pos h, if_pos h, modService_service_self]
  · rw [if_neg h, if_neg h, holdEnds_service, offer_service, modService_service_self]

theorem setHeld_other {i j : ServiceIx} (hj : j ≠ i) (cause : HeldCause) (s : State) :
    (setHeld i cause s).service j = s.service j := by
  unfold setHeld
  split
  · exact modService_service_ne s _ hj
  · exact ((holdEnds_ends i _).others j hj).trans ((offer_service ..).trans (modService_service_ne s _ hj))

theorem setHeld_stands (i : ServiceIx) (cause : HeldCause) (s : State) : Stands s (setHeld i cause s) := by
  unfold setHeld
  split
  · exact .modService ..
  · exact (Stands.modService ..).trans ((Stands.offer ..).trans (holdEnds_ends ..).stands)

theorem heldBy_held (v : Service) (cause : HeldCause) : (v.heldBy cause).held = some cause := by
  unfold Service.heldBy
  split
  · rfl
  · exact congrArg Service.held ((slotEnded_core _).trans (breakEnded_core { v with held := some cause }))

/-- What holding a service that was not held leaves of its insertions (R18). -/
theorem heldBy_of_clear {v : Service} {cause : HeldCause} (h : v.held = none) :
    (v.heldBy cause).mode = .network
      ∧ (∀ e, v.activeHead = some e → (v.heldBy cause).findEntry e.event = none)
      ∧ ∀ l p, v.running = some (l, p) → (v.heldBy cause).slot l = none := by
  have hnot : ¬v.held.isSome = true := by simp [h]
  rw [Service.heldBy, if_neg hnot]
  refine ⟨rfl, fun e he => ?_, fun l p hp => ?_⟩
  · have hbreak : ({ v with held := some cause } : Service).breakEnded.findEntry e.event = none :=
      breakEnded_findEntry he
    rw [Service.findEntry] at hbreak ⊢
    exact (congrArg (List.find? _) (slotEnded_schedule _)).trans hbreak
  · have hrunning : ({ v with held := some cause } : Service).breakEnded.running = some (l, p) :=
      (breakEnded_running _).trans hp
    have hslot := slotEnded_slot hrunning
    cases l <;> exact hslot

/-! ### A schedule and its slots cleared (R7, R88, R126) -/

/-- The step of `clearSchedule`: the entry of one event ID leaves. -/
def clearEntry (i : ServiceIx) (cause : Cause) (t : State) (ev : EventId) : State :=
  match (t.service i).findEntry ev with
  | some e => if e.isActive then leaveBreak i ev (.ended cause t.now) t else leaveBreak i ev .cancelled t
  | none => t

theorem clearEntry_none {i : ServiceIx} {cause : Cause} {t : State} {ev : EventId}
    (h : (t.service i).findEntry ev = none) : clearEntry i cause t ev = t := by
  simp only [clearEntry, h]

theorem clearEntry_some {i : ServiceIx} (cause : Cause) {t : State} {ev : EventId} {e : BreakEntry}
    (h : (t.service i).findEntry ev = some e) : ∃ how, clearEntry i cause t ev = leaveBreak i ev how t := by
  simp only [clearEntry, h]
  split
  · exact ⟨_, rfl⟩
  · exact ⟨_, rfl⟩

theorem clearEntry_ends (i : ServiceIx) (cause : Cause) (t : State) (ev : EventId) :
    Ends (· = i) t (clearEntry i cause t ev) := by
  cases h : (t.service i).findEntry ev with
  | none =>
    rw [clearEntry_none h]
    exact Ends.refl t
  | some e =>
    obtain ⟨how, hleave⟩ := clearEntry_some cause h
    rw [hleave]
    exact leaveBreak_ends ..

/-- An entry that has stayed is of another event. -/
theorem mem_clearEntry {i : ServiceIx} {cause : Cause} {t : State} {ev : EventId} {y : BreakEntry}
    (hy : y ∈ ((clearEntry i cause t ev).service i).schedule) : y ∈ (t.service i).schedule ∧ y.event ≠ ev := by
  cases h : (t.service i).findEntry ev with
  | none =>
    rw [clearEntry_none h] at hy
    refine ⟨hy, fun heq => ?_⟩
    have hnot := List.find?_eq_none.mp h y hy
    simp [heq] at hnot
  | some e =>
    obtain ⟨how, hleave⟩ := clearEntry_some cause h
    rw [hleave, leaveBreak_service h, Service.afterBreak, List.mem_filter, findEntry_event h] at hy
    exact ⟨hy.1, by simpa using hy.2⟩

theorem foldl_clearEntry_ends (i : ServiceIx) (cause : Cause) (evs : List EventId) (s : State) :
    Ends (· = i) s (evs.foldl (clearEntry i cause) s) := by
  induction evs generalizing s with
  | nil => exact Ends.refl s
  | cons ev evs ih => exact (clearEntry_ends ..).trans (ih _)

theorem mem_foldl_clearEntry {i : ServiceIx} {cause : Cause} {evs : List EventId} {y : BreakEntry} {s : State}
    (hy : y ∈ ((evs.foldl (clearEntry i cause) s).service i).schedule) :
    y ∈ (s.service i).schedule ∧ y.event ∉ evs := by
  induction evs generalizing s with
  | nil => exact ⟨hy, List.not_mem_nil⟩
  | cons ev evs ih =>
    obtain ⟨hmem, hnot⟩ := ih hy
    obtain ⟨hmem', hne⟩ := mem_clearEntry hmem
    exact ⟨hmem', List.not_mem_cons_of_ne_of_not_mem hne hnot⟩

theorem clearSchedule_ends (i : ServiceIx) (cause : Cause) (s : State) : Ends (· = i) s (clearSchedule i cause s) :=
  foldl_clearEntry_ends ..

/-- Every entry leaves. -/
theorem clearSchedule_schedule (i : ServiceIx) (cause : Cause) (s : State) :
    ((clearSchedule i cause s).service i).schedule = [] := by
  refine List.eq_nil_iff_forall_not_mem.mpr fun y hy => ?_
  obtain ⟨hmem, hnot⟩ := mem_foldl_clearEntry hy
  exact hnot (List.mem_map_of_mem hmem)

theorem leaveSlot_slot_self (i : ServiceIx) (l : SlotLetter) (how : SlotLeave) (s : State) :
    ((leaveSlot i l how s).service i).slot l = none := by
  cases h : (s.service i).slot l with
  | none => rw [leaveSlot_of_none h, h]
  | some p => rw [leaveSlot_service h, afterSlot_slot_self]

theorem leaveSlot_slot_other (i : ServiceIx) (l : SlotLetter) (how : SlotLeave) (s : State) :
    ((leaveSlot i l how s).service i).slot (otherLetter l) = (s.service i).slot (otherLetter l) := by
  cases h : (s.service i).slot l with
  | none => rw [leaveSlot_of_none h]
  | some p => rw [leaveSlot_service h, afterSlot_slot_other]

theorem leaveSlot_schedule (i : ServiceIx) (l : SlotLetter) (how : SlotLeave) (s : State) :
    ((leaveSlot i l how s).service i).schedule = (s.service i).schedule := by
  cases h : (s.service i).slot l with
  | none => rw [leaveSlot_of_none h]
  | some p => rw [leaveSlot_service h, afterSlot_schedule]

theorem clearSlots_eq (i : ServiceIx) (cause : Cause) (s : State) :
    ∃ how how', clearSlots i cause s
      = leaveSlot i (otherLetter (s.service i).current) how' (leaveSlot i (s.service i).current how s) := ⟨_, _, rfl⟩

theorem clearSlots_ends (i : ServiceIx) (cause : Cause) (s : State) : Ends (· = i) s (clearSlots i cause s) := by
  obtain ⟨how, how', heq⟩ := clearSlots_eq i cause s
  rw [heq]
  exact (leaveSlot_ends ..).trans (leaveSlot_ends ..)

theorem clearSlots_schedule (i : ServiceIx) (cause : Cause) (s : State) :
    ((clearSlots i cause s).service i).schedule = (s.service i).schedule := by
  obtain ⟨how, how', heq⟩ := clearSlots_eq i cause s
  rw [heq, leaveSlot_schedule, leaveSlot_schedule]

@[simp] theorem otherLetter_otherLetter (l : SlotLetter) : otherLetter (otherLetter l) = l := by cases l <;> rfl

/-- Both slots are EMPTY when the slot at each of the two letters is. -/
theorem slots_none {v : Service} {l : SlotLetter} (h : v.slot l = none) (h' : v.slot (otherLetter l) = none) :
    v.slotA = none ∧ v.slotB = none := by
  cases l with
  | a => exact ⟨h, h'⟩
  | b => exact ⟨h', h⟩

theorem clearSlots_slots (i : ServiceIx) (cause : Cause) (s : State) :
    ((clearSlots i cause s).service i).slotA = none ∧ ((clearSlots i cause s).service i).slotB = none := by
  obtain ⟨how, how', heq⟩ := clearSlots_eq i cause s
  rw [heq]
  refine slots_none (l := (s.service i).current) ?_ (leaveSlot_slot_self ..)
  have hother := leaveSlot_slot_other i (otherLetter (s.service i).current) how'
    (leaveSlot i (s.service i).current how s)
  rw [otherLetter_otherLetter] at hother
  rw [hother, leaveSlot_slot_self]

end Sys2Proof.Machine
end

