-- ==== Sys2Proof/Proofs/ServiceCommands.lean ====
section
/-! PROOF. SERVICE DEFINE, SERVICE REMOVE, COMPONENT SET, SERVICE OPTIONS and FORCE NETWORK (R6, R7, R9, R10, R19). -/

namespace Sys2Proof.Machine

/-! ### Frames of a completed command -/

theorem complete_service (q : QueueEntry) (r : Reply) (s : State) (i : ServiceIx) :
    (complete q r s).service i = s.service i := by rw [complete_eq]; rfl

theorem complete_source (q : QueueEntry) (r : Reply) (s : State) (k : SourceIx) :
    (complete q r s).source k = s.source k := by rw [complete_eq]; rfl

theorem complete_entry (q : QueueEntry) (r : Reply) (s : State) (x : EntryIx) :
    (complete q r s).entry x = s.entry x := by rw [complete_eq]; rfl

theorem complete_modeControl (q : QueueEntry) (r : Reply) (s : State) :
    (complete q r s).modeControl = s.modeControl := by rw [complete_eq]

theorem complete_link (q : QueueEntry) (r : Reply) (s : State) : (complete q r s).link = s.link := by rw [complete_eq]

theorem complete_activations (q : QueueEntry) (r : Reply) (s : State) :
    (complete q r s).activations = s.activations := by rw [complete_eq]

theorem complete_sameAlerts (q : QueueEntry) (r : Reply) {s t : State} (h : SameAlerts s t) :
    SameAlerts s (complete q r t) := by rw [complete_eq]; exact h

theorem complete_sameFixed (q : QueueEntry) (r : Reply) {s t : State} (h : SameFixed s t) :
    SameFixed s (complete q r t) := by rw [complete_eq]; exact h

theorem SamePath.trans {s t u : State} (h : SamePath s t) (k : SamePath t u) : SamePath s u := by
  obtain ⟨h1, h2, h3, h4, h5, h6, h7⟩ := h
  obtain ⟨k1, k2, k3, k4, k5, k6, k7⟩ := k
  exact ⟨k1.trans h1, k2.trans h2, k3.trans h3, k4.trans h4, k5.trans h5, h6.trans k6, k7.trans h7⟩

/-- A command done by the inner blocks, REPORT-OVERFLOW being a NOTICE: the row is its completion. -/
theorem exec_inner {x : Instr} {code : Byte} {c : CellCommand} {r : Reply} {f : State → State} {s : State}
    (hx : commandOf x = some (code, c)) (hw : x.wellFormed = true) (hi : Idle c s) (hc : Calm s)
    (hrun : runCommand (entryOf code c) (takenState code x.now c s) = (.answered r, f (takenState code x.now c s)))
    (hq : Quiet (takenState code x.now c s) (f (takenState code x.now c s))) :
    exec x s = .next (afterReply code x.now c r f s) :=
  exec_afterReply hx hw hi hrun ((hq.put (takenState_calm hc)).trans (hi.takenState_deferred code x.now))

/-- Such a command is answered in the statements' sense. -/
theorem answered_inner {code : Byte} {now : Stamp} {c : CellCommand} {r : Reply} {f : State → State} {s : State}
    (hi : Idle c s) (hc : Calm s) (hq : Quiet (takenState code now c s) (f (takenState code now c s))) :
    Answered code c r s (afterReply code now c r f s) :=
  complete_answered hq.inner.kept.fixed.2.2.1 hq.inner.kept.cells hq.inner.kept.intake
    ((hq.put (takenState_calm hc)).trans (hi.takenState_deferred code now))

/-! ### Ownership of a service just defined (R136, R137) -/

theorem alert_congr {s t : State} (ha : t.alerts = s.alerts) (k : AlertIx) : t.alert k = s.alert k :=
  congrArg (vget · k) ha

theorem group_congr {s t : State} (hg : t.groups = s.groups) (g : GroupIx) : t.group g = s.group g :=
  congrArg (vget · g) hg

theorem candidate_congr {s t : State} (ha : t.alerts = s.alerts) (hg : t.groups = s.groups) (i : ServiceIx)
    (k : AlertIx) : t.candidate i k = s.candidate i k := by
  rw [State.candidate, State.candidate, alert_congr ha k]
  cases s.alert k with
  | none => rfl
  | some a => simp only [group_congr hg]

/-- The alert that wins a service depends on the alerts and the groups alone. -/
theorem winner_congr {s t : State} (ha : t.alerts = s.alerts) (hg : t.groups = s.groups) (i : ServiceIx) :
    ∀ (l : List AlertIx) (best : Option (AlertIx × Alert)), t.winner i l best = s.winner i l best
  | [], _ => rfl
  | k :: l, best => by
    simp only [State.winner, candidate_congr ha hg, winner_congr ha hg i l]

theorem ownerGroup_congr {s t : State} (ha : t.alerts = s.alerts) (hg : t.groups = s.groups) (o : Option AlertIx) :
    t.ownerGroup o = s.ownerGroup o := by
  cases o with
  | none => rfl
  | some k => simp only [State.ownerGroup, State.groupOf, Option.bind_some, alert_congr ha, group_congr hg]

theorem recompute_same {i : ServiceIx} {s : State} (h : s.ownerOf i = (s.service i).owner) : recompute i s = s := by
  simp only [recompute, h, beq_self_eq_true, if_true]

theorem recompute_other {i : ServiceIx} {s : State} (h : s.ownerOf i ≠ (s.service i).owner) :
    recompute i s = s.modService i fun v => v.giveOwner (s.ownerOf i) (s.ownerGroup (s.ownerOf i)) := by
  simp only [recompute, beq_iff_eq, if_neg h]

theorem recompute_service_ne {i j : ServiceIx} (hj : j ≠ i) (s : State) : (recompute i s).service j = s.service j := by
  unfold recompute
  dsimp only
  split
  · rfl
  · exact modService_service_ne s _ hj

theorem recompute_schedule (i : ServiceIx) (s : State) :
    ((recompute i s).service i).schedule = (s.service i).schedule := by
  unfold recompute
  dsimp only
  split
  · rfl
  · rw [modService_service_self]
    rfl

/-- A service whose owner alone a recomputation changes, and that has no ACTIVE break, is not preempted. -/
theorem recomputeOne_of_idle {i : ServiceIx} {s : State} (h : (s.service i).schedule = []) :
    recomputeOne i s = recompute i s := by
  refine preempt_of_idle fun j hj => ?_
  by_cases hij : j = i
  · subst hij
    simp only [Service.activeHead, recompute_schedule, h]
  · rw [State.preempts, recompute_service_ne hij] at hj
    simp at hj

/-! ### SERVICE DEFINE (R6) -/

theorem cmdServiceDefine_done {p : Params} {i : ServiceIx} {comps : List Component} {w : Window} {s : State}
    (hp : pIndex 48 p 0 = some i) (hfree : (s.service i).window = none) (hcue : pOptPid p 2 ≠ .malformed)
    (hcomps : pComponents p (pOptPid p 2).toOption = some comps) (hw : pWindow p 16 = some w)
    (hclash : s.windowClash w = false) :
    cmdServiceDefine p s = defineService i w (pOptPid p 2).toOption comps s := by
  have hne : (pOptPid p 2 == .malformed) = false := by simpa using hcue
  simp only [cmdServiceDefine, hp, Service.not_defined_of_window hfree, if_neg Bool.false_ne_true, hne, defineChecked,
    hcomps, hw, hclash]

/-- The record of a service just defined, with the owner that covers it (R6, R136). -/
def State.freshService (s : State) (i : ServiceIx) (w : Window) (cue : Option Pid) (comps : List Component) : Service :=
  let owner := (s.winner i allAlerts none).map (·.1)
  if owner.isSome then (Service.fresh w cue comps).giveOwner owner (s.ownerGroup owner) else Service.fresh w cue comps

theorem defineService_eq (i : ServiceIx) (w : Window) (cue : Option Pid) (comps : List Component) (s : State) :
    defineService i w cue comps s
      = done 0 { s with services := vset s.services i (s.freshService i w cue comps) } := by
  let t := s.modService i fun _ => Service.fresh w cue comps
  have hrecord : t.service i = Service.fresh w cue comps := modService_service_self ..
  have howner : t.ownerOf i = (s.winner i allAlerts none).map (·.1) := by
    rw [State.ownerOf, hrecord, winner_congr (s := s) rfl rfl]
    rfl
  have hgroup (o : Option AlertIx) : t.ownerGroup o = s.ownerGroup o := ownerGroup_congr rfl rfl o
  have hone : recomputeOne i t = recompute i t := recomputeOne_of_idle (by rw [hrecord]; rfl)
  rw [defineService, hone, State.freshService]
  cases hwin : (s.winner i allAlerts none).map (·.1) with
  | none =>
    rw [recompute_same (by rw [howner, hwin, hrecord]; rfl)]
    rfl
  | some k =>
    have hne : t.ownerOf i ≠ (t.service i).owner := by
      rw [howner, hwin, hrecord]
      exact Option.some_ne_none k
    rw [recompute_other hne, howner, hwin, hgroup]
    simp only [t, State.modService, vget_vset_self, vset_vset, Option.isSome_some, if_true]

/-- Settles O49, by the ownership of a record that has no break. -/
theorem serviceDefineMakesFreshService : Obligations.ServiceDefineMakesFreshService := by
  intro now c i comps w s hi hp hfree hcue hcomps hw hclash
  exact exec_afterReply (x := .serviceDefine now c)
    (f := fun u => { u with
      services := vset u.services i (s.freshService i w (pOptPid c.params 2).toOption comps) })
    rfl rfl hi
    ((cmdServiceDefine_done (s := takenState 0x10 now c s) hp hfree hcue hcomps hw hclash).trans
      (defineService_eq ..))
    (hi.takenState_deferred 0x10 now)

/-! ### SERVICE REMOVE (R7) -/

theorem removeService_eq (i : ServiceIx) (s : State) :
    ∃ u, Quiet s u ∧ Ends (· = i) s u
      ∧ removeService i s = orphanEntries i (u.modService i fun _ => Service.unused) :=
  ⟨_, (clearSlots_quiet (clearSchedule_quiet .refl)).offer _,
    ((clearSchedule_ends ..).trans (clearSlots_ends ..)).trans (Ends.offer ..), rfl⟩

theorem orphanEntries_entry (i : ServiceIx) (s : State) (x : EntryIx) :
    (orphanEntries i s).entry x
      = (s.entry x).map fun e => if e.kind = .slot i then { e with stale := true } else e := by
  rw [State.entry, orphanEntries, vget_map]
  refine congrArg (Option.map · (s.entry x)) (funext fun e => ?_)
  by_cases h : e.kind = .slot i
  · rw [if_pos (beq_iff_eq.mpr h), if_pos h, RttEntry.orphaned, h]
    rfl
  · rw [if_neg (mt beq_iff_eq.mp h), if_neg h]

theorem cmdServiceRemove_done {p : Params} {i : ServiceIx} {s : State} (hp : pIndex 48 p 0 = some i)
    (hw : (s.service i).window ≠ none) :
    cmdServiceRemove p s = done (BitVec.ofNat 32 (s.service i).insertions) (removeService i s) := by
  simp only [cmdServiceRemove, hp, Service.defined_of_window hw, if_true]

theorem cmdServiceRemove_unused {p : Params} {i : ServiceIx} {s : State} (hp : pIndex 48 p 0 = some i)
    (hw : (s.service i).window = none) : cmdServiceRemove p s = refuse .notDefined s := by
  simp only [cmdServiceRemove, hp, Service.not_defined_of_window hw, if_neg Bool.false_ne_true]

/-- Settles O50: everything the service has ends in its own record, which is then written over. -/
theorem serviceRemoveLeavesUnusedRecord : Obligations.ServiceRemoveLeavesUnusedRecord := by
  intro now c i s hi hc hp
  refine ⟨fun hw => ?removed, fun hw => exec_afterReply_id (x := .serviceRemove now c) rfl rfl hi
    (cmdServiceRemove_unused hp hw)⟩
  case removed =>
    obtain ⟨u, hquiet, hends, heq⟩ := removeService_eq i (takenState 0x11 now c s)
    have hkept := hquiet.inner.kept
    have hdeferred : u.deferred = [] := (hquiet.put (takenState_calm hc)).trans (hi.takenState_deferred 0x11 now)
    have hgone : removeService i (takenState 0x11 now c s)
        = orphanEntries i (u.modService i fun _ => Service.unused) := heq
    refine ⟨_, exec_afterReply (x := .serviceRemove now c) (f := removeService i) rfl rfl hi
      (cmdServiceRemove_done (s := takenState 0x11 now c s) hp hw) (by rw [Instr.now, hgone]; exact hdeferred), ?_⟩
    rw [afterReply, Instr.now, hgone]
    refine ⟨complete_answered hkept.fixed.2.2.1 hkept.cells hkept.intake hdeferred, ?unused, fun j hj => ?others,
      fun x => ?entry, fun k => ?config, complete_sameAlerts _ _ (hends.stands.sameAlerts hkept),
      complete_sameFixed _ _ hkept.fixed, ?mode, ?outstanding⟩
    case unused =>
      rw [complete_service]
      exact modService_service_self u i fun _ => Service.unused
    case others =>
      rw [complete_service]
      exact (modService_service_ne u (fun _ => Service.unused) hj).trans (hends.others j hj)
    case entry =>
      rw [complete_entry, orphanEntries_entry]
      exact congrArg (Option.map _) (congrArg (vget · x) hkept.path.1)
    case config =>
      rw [complete_source]
      exact (hends.stands.sources k).1
    case mode =>
      rw [complete_modeControl]
      exact hends.stands.modeControl
    case outstanding =>
      rw [complete_eq]
      exact hkept.path.2.2.2.2.2.2

/-! ### COMPONENT SET and SERVICE OPTIONS (R9, R10) -/

theorem cmdComponentSet_done {p : Params} {i : ServiceIx} {list : List Component} {s : State}
    (hp : pIndex 48 p 0 = some i) (hw : (s.service i).window ≠ none) (hm : (s.service i).mode = .network)
    (ho : (s.service i).owner = none) (hl : pComponents p (s.service i).cuePid = some list) :
    cmdComponentSet p s = done 0 (s.modService i fun v => v.withComponents list) := by
  simp [cmdComponentSet, hp, Service.defined_of_window hw, hm, ho, hl]

theorem cmdComponentSet_busy {p : Params} {i : ServiceIx} {s : State} (hp : pIndex 48 p 0 = some i)
    (hw : (s.service i).window ≠ none) (h : (s.service i).mode ≠ .network ∨ (s.service i).owner ≠ none) :
    cmdComponentSet p s = refuse .busy s := by
  simp only [cmdComponentSet, hp, Service.defined_of_window hw, Bool.not_true, if_neg Bool.false_ne_true]
  by_cases hm : (s.service i).mode = .network
  · have ho : (s.service i).owner ≠ none := h.resolve_left (not_not.mpr hm)
    simp [hm, Option.isSome_iff_ne_none.mpr ho]
  · rw [if_pos (by simpa using hm)]

/-- The list R9 gives a service, in the statement's terms. -/
theorem withComponents_eq (v : Service) (list : List Component) :
    v.withComponents list = { v with
      comps := list.map (Component.keeping v.comps)
      track := if pcrPid list ≠ none ∧ pcrPid list = pcrPid v.comps then v.track else none } := by
  simp only [Service.withComponents, Bool.and_eq_true, Option.isSome_iff_ne_none, beq_iff_eq]

theorem optionsInRange_iff (p : Params) :
    optionsInRange p = true ↔ pField p 4 2 ≤ 30000 ∧ pField p 6 2 ≤ 5000 ∧ 1 ≤ (pByte p 8).toNat := by
  simp only [optionsInRange, Bool.and_eq_true, decide_eq_true_eq, and_assoc]

theorem cueAllowed_iff (v : Service) (cue : Option Pid) : v.cueAllowed cue = true ↔ ∀ d ∈ v.comps, some d.pid ≠ cue := by
  simp only [Service.cueAllowed, Bool.not_eq_true', List.any_eq_false, beq_iff_eq, ne_eq]

/-- The cue PID is well formed and carried by no component (R10). -/
def Service.cueOk (v : Service) (p : Params) : Prop :=
  pOptPid p 2 ≠ .malformed ∧ ∀ d ∈ v.comps, some d.pid ≠ (pOptPid p 2).toOption

theorem cmdServiceOptions_done {p : Params} {i : ServiceIx} {s : State} (hp : pIndex 48 p 0 = some i)
    (hw : (s.service i).window ≠ none) (hr : optionsInRange p = true) (hc : (s.service i).cueOk p) :
    cmdServiceOptions p s = setOptions i p (pOptPid p 2).toOption s := by
  obtain ⟨hcue, hnone⟩ := hc
  simp [cmdServiceOptions, hp, Service.defined_of_window hw, hr, hcue, (cueAllowed_iff ..).mpr hnone]

theorem cmdServiceOptions_badParam {p : Params} {i : ServiceIx} {s : State} (hp : pIndex 48 p 0 = some i)
    (hw : (s.service i).window ≠ none) (h : ¬optionsInRange p = true ∨ ¬(s.service i).cueOk p) :
    cmdServiceOptions p s = refuse .badParam s := by
  simp only [cmdServiceOptions, hp, Service.defined_of_window hw, Bool.not_true, if_neg Bool.false_ne_true]
  by_cases hr : optionsInRange p = true
  · have hcond : (pOptPid p 2 == .malformed || !(s.service i).cueAllowed (pOptPid p 2).toOption) = true := by
      simp only [Bool.or_eq_true, beq_iff_eq, Bool.not_eq_true', Bool.eq_false_iff, ne_eq, cueAllowed_iff]
      by_cases hcue : pOptPid p 2 = .malformed
      · exact .inl hcue
      · exact .inr fun hnone => h.resolve_left (not_not.mpr hr) ⟨hcue, hnone⟩
    rw [hr, Bool.not_true, if_neg Bool.false_ne_true, if_pos hcond]
  · rw [if_pos (by simpa using hr)]

theorem setOptions_same {i : ServiceIx} {p : Params} {cue : Option Pid} {s : State}
    (h : ((s.service i).withOptions p cue).exempt = (s.service i).exempt) :
    setOptions i p cue s = done 0 (s.modService i fun v => v.withOptions p cue) := by
  simp only [setOptions, modService_service_self, h, beq_self_eq_true, if_true]

theorem setOptions_other {i : ServiceIx} {p : Params} {cue : Option Pid} {s : State}
    (h : ((s.service i).withOptions p cue).exempt ≠ (s.service i).exempt) :
    setOptions i p cue s = done 0 (recomputeOne i (s.modService i fun v => v.withOptions p cue)) := by
  simp only [setOptions, modService_service_self, beq_iff_eq, if_neg h]

/-- Settles O51, by the checks of R9 and R10 in turn. -/
theorem componentSetAndOptionsReplaceFields : Obligations.ComponentSetAndOptionsReplaceFields := by
  intro now c i s hi hp hw
  refine ⟨fun list hm ho hl => ?components, fun hbusy => ?busy, fun hrange hcue hexempt => ?stored,
    fun hrange hcue hexempt hc => ?recomputed, fun hbad => ?badParam⟩
  case components =>
    have hrow := exec_afterReply (x := .componentSet now c)
      (f := fun u => { u with services := vset u.services i ((s.service i).withComponents list) }) rfl rfl hi
      (cmdComponentSet_done (s := takenState 0x12 now c s) hp hw hm ho hl) (hi.takenState_deferred 0x12 now)
    rw [withComponents_eq] at hrow
    exact hrow
  case busy => exact exec_afterReply_id (x := .componentSet now c) rfl rfl hi (cmdComponentSet_busy hp hw hbusy)
  case stored =>
    exact exec_afterReply (x := .serviceOptions now c)
      (f := fun u => { u with
        services := vset u.services i ((s.service i).withOptions c.params (pOptPid c.params 2).toOption) })
      rfl rfl hi
      ((cmdServiceOptions_done (s := takenState 0x13 now c s) hp hw ((optionsInRange_iff _).mpr hrange) hcue).trans
        (setOptions_same (s := takenState 0x13 now c s) hexempt))
      (hi.takenState_deferred 0x13 now)
  case recomputed =>
    have hquiet : Quiet (takenState 0x13 now c s) (recomputeOne i ((takenState 0x13 now c s).modService i
        fun v => v.withOptions c.params (pOptPid c.params 2).toOption)) :=
      recomputeOne_quiet (Quiet.record .refl i _ fun _ => rfl)
    exact exec_inner (x := .serviceOptions now c)
      (f := fun u => recomputeOne i { u with
        services := vset u.services i ((s.service i).withOptions c.params (pOptPid c.params 2).toOption) })
      rfl rfl hi hc
      ((cmdServiceOptions_done (s := takenState 0x13 now c s) hp hw ((optionsInRange_iff _).mpr hrange) hcue).trans
        (setOptions_other (s := takenState 0x13 now c s) hexempt)) hquiet
  case badParam =>
    exact exec_afterReply_id (x := .serviceOptions now c) rfl rfl hi
      (cmdServiceOptions_badParam hp hw (hbad.imp_left (mt (optionsInRange_iff _).mp)))

/-! ### FORCE NETWORK (R19) -/

theorem holdMask_service (mask : BitVec 48) (s : State) (i : ServiceIx) :
    (holdMask mask s).service i
      = if (s.service i).window.isSome && mask.getLsbD i.val then (s.service i).heldBy .control else s.service i := by
  refine forServices_service
    (g := fun i v => if v.window.isSome && mask.getLsbD i.val then v.heldBy .control else v) (Inv := fun _ => True)
    (fun i t _ => ?self) (fun i j t hj => ?other) (fun _ _ _ => trivial) trivial i
  case self =>
    show (if t.inMask mask i then setHeld i .control t else t).service i
      = if t.inMask mask i then (t.service i).heldBy .control else t.service i
    split
    · exact setHeld_service ..
    · rfl
  case other =>
    split
    · exact setHeld_other hj ..
    · rfl

theorem holdMask_stands (mask : BitVec 48) (s : State) : Stands s (holdMask mask s) := by
  refine forServices_rel .refl .trans (fun i t => ?_) s
  split
  · exact setHeld_stands ..
  · exact .refl t

theorem holdMask_quiet (mask : BitVec 48) (s : State) : Quiet s (holdMask mask s) := by
  refine forServices_quiet (fun t i h => ?_) .refl
  split
  · exact setHeld_quiet h
  · exact h

theorem heldBy_of_held {v : Service} {cause : HeldCause} (h : v.held ≠ none) :
    v.heldBy cause = { v with held := some cause } := by
  rw [Service.heldBy, if_pos (Option.isSome_iff_ne_none.mpr h)]

/-- Settles O52, service by service: `holdMask` makes of each named one what `heldBy` says. -/
theorem forceNetworkHoldsMaskedServices : Obligations.ForceNetworkHoldsMaskedServices := by
  intro now c s hi hc named
  let u := takenState 0x14 now c s
  have hquiet : Quiet u (holdMask (pMask c.params 0) u) := holdMask_quiet ..
  have hstands : Stands u (holdMask (pMask c.params 0) u) := holdMask_stands ..
  have hkept := hquiet.inner.kept
  have hword : u.clearInMask (pMask c.params 0)
      = allServices.countP fun i => named i && (s.service i).held.isNone := by
    simp only [State.clearInMask, Option.not_isSome]
    rfl
  have hservice (i : ServiceIx) (r : Reply) :
      (afterReply 0x14 now c r (holdMask (pMask c.params 0)) s).service i
        = if named i then (s.service i).heldBy .control else s.service i :=
    (complete_service ..).trans (holdMask_service (pMask c.params 0) u i)
  refine ⟨_, exec_inner (x := .forceNetwork now c) (f := holdMask (pMask c.params 0)) rfl rfl hi hc
    (congrArg (fun n => done (BitVec.ofNat 32 n) (holdMask (pMask c.params 0) u)) hword) hquiet,
    answered_inner hi hc hquiet, fun i hn => ?held, fun i hn hclear => ?ended, fun i hn hheld => ?again,
    fun i hn => ?stands, fun k => ?config, complete_sameAlerts _ _ (hstands.sameAlerts hkept),
    hkept.path.trans (complete_samePath ..), complete_sameFixed _ _ hkept.fixed, ?mode⟩
  case held =>
    rw [Instr.now, hservice, if_pos hn]
    exact heldBy_held ..
  case ended =>
    rw [Instr.now, hservice, if_pos hn]
    exact heldBy_of_clear hclear
  case again =>
    rw [Instr.now, hservice, if_pos hn]
    exact heldBy_of_held hheld
  case stands => rw [Instr.now, hservice, hn, if_neg Bool.false_ne_true]
  case config => exact (congrArg Source.config (complete_source ..)).trans (hstands.sources k).1
  case mode => exact (complete_modeControl ..).trans hstands.modeControl

end Sys2Proof.Machine
end

