-- ==== Sys2Proof/Proofs/Ownership.lean ====
section
/-! PROOF. Alert ownership (R136, R137): the slot that wins a service, what a recomputation makes of the services, and the
alert users of a group's sources (R59). -/

namespace Sys2Proof.Machine

/-! ### Tables read record by record -/

theorem vget_ext {α : Type} {n : Nat} {v w : Vector α n} (h : ∀ i, vget v i = vget w i) : v = w :=
  Vector.ext fun i hi => h ⟨i, hi⟩

/-- The first element of the table that a test accepts. -/
theorem find?_finRange {n : Nat} {p : Fin n → Bool} {k : Fin n} (hk : p k = true) (hlt : ∀ j, j < k → p j = false) :
    (List.finRange n).find? p = some k := by
  obtain ⟨l, r, hlr⟩ := List.append_of_mem (List.mem_finRange k)
  have hsorted : (l ++ k :: r).Pairwise (· < ·) := hlr ▸ List.pairwise_lt_finRange n
  refine List.find?_eq_some_iff_append.mpr ⟨hk, l, r, hlr, fun j hj => ?_⟩
  rw [hlt j ((List.pairwise_append.mp hsorted).2.2 j hj k List.mem_cons_self)]
  rfl

/-! ### The slots of a group (R134) -/

theorem slotOfGroup_eq_some {g : GroupIx} {k : AlertIx} {a : Alert} {s : State} (hk : s.alert k = some a)
    (hg : a.group = g) (hlt : ∀ j b, j < k → s.alert j = some b → b.group ≠ g) : s.slotOfGroup g = some k := by
  rw [slotOfGroup_eq]
  refine find?_finRange (by simp [State.slotNames, hk, hg]) fun j hj => ?_
  rw [State.slotNames]
  cases hb : s.alert j with
  | none => rfl
  | some b => simpa using hlt j b hj hb

theorem slotOfGroup_eq_none {g : GroupIx} {s : State} (h : s.groupIdle g) : s.slotOfGroup g = none :=
  Option.not_isSome_iff_eq_none.mp fun hsome => (slotOfGroup_isSome_iff s g).mp hsome h

/-- The slot found for a group holds an alert of it. -/
theorem group_of_slotOfGroup {g : GroupIx} {k : AlertIx} {a : Alert} {s : State} (h : s.slotOfGroup g = some k)
    (ha : s.alert k = some a) : a.group = g := by
  rw [slotOfGroup_eq] at h
  simpa [State.slotNames, ha] using List.find?_some h

theorem freeAlert_eq_some {k : AlertIx} {s : State} (hk : s.alert k = none) (hlt : ∀ j, j < k → s.alert j ≠ none) :
    s.freeAlert = some k :=
  find?_finRange (by simp [hk]) fun j hj => by simpa [Option.isSome_iff_ne_none] using hlt j hj

theorem freeAlert_eq_none {s : State} (h : ∀ k, s.alert k ≠ none) : s.freeAlert = none :=
  List.find?_eq_none.mpr fun k _ => by simpa [Option.isSome_iff_ne_none] using h k

/-! ### The slot that wins (R136) -/

theorem candidate_eq_some {s : State} {i : ServiceIx} {k : AlertIx} {a : Alert} :
    s.candidate i k = some a ↔ s.alert k = some a ∧ (s.group a.group).covers i = true := by
  rw [State.candidate]
  cases s.alert k with
  | none => simp
  | some b =>
    by_cases hb : (s.group b.group).covers i = true
    · simp only [hb, if_true, Option.some.injEq]
      exact ⟨fun h => ⟨h, h ▸ hb⟩, fun h => h.1⟩
    · simp only [if_neg hb, Option.some.injEq]
      exact ⟨fun h => absurd h (by simp), fun ⟨h, hc⟩ => absurd (h ▸ hc) hb⟩

theorem winner_none {s : State} {i : ServiceIx} (h : ∀ k, s.candidate i k = none) :
    ∀ l : List AlertIx, s.winner i l none = none
  | [] => rfl
  | k :: l => by simp only [State.winner, h k, winner_none h l]

/-- The candidate that beats every other, and that no other beats, wins. -/
theorem winner_of_beats {s : State} {i : ServiceIx} {k : AlertIx} {a : Alert} (hk : s.candidate i k = some a)
    (hbeats : ∀ j b, j ≠ k → s.candidate i j = some b → a.beats b = true ∧ b.beats a = false) :
    ∀ (l : List AlertIx) (best : Option (AlertIx × Alert)),
      (∀ j b, best = some (j, b) → s.candidate i j = some b) → (k ∈ l ∨ best = some (k, a)) →
      s.winner i l best = some (k, a)
  | [], best, _, hin => hin.resolve_left List.not_mem_nil
  | m :: l, best, hbest, hin => by
    have hnext (best' : Option (AlertIx × Alert)) (hbest' : ∀ j b, best' = some (j, b) → s.candidate i j = some b)
        (hin' : k ∈ l ∨ best' = some (k, a)) := winner_of_beats hk hbeats l best' hbest' hin'
    have hone (c : Alert) (hc : s.candidate i m = some c) (j : AlertIx) (b : Alert)
        (h : some (m, c) = some (j, b)) : s.candidate i j = some b := by
      obtain ⟨rfl, rfl⟩ := Prod.mk.inj (Option.some.inj h)
      exact hc
    have hkept (c : Alert) (hc : s.candidate i m = some c) (hm : m = k) : c = a := by
      subst hm
      exact Option.some.inj (hc.symm.trans hk)
    cases hc : s.candidate i m with
    | none =>
      have hne : k ≠ m := fun h => absurd (h ▸ hk) (by rw [hc]; exact (Option.some_ne_none a).symm)
      simp only [State.winner, hc]
      exact hnext best hbest (hin.imp_left fun hmem => (List.mem_cons.mp hmem).resolve_left hne)
    | some c =>
      cases best with
      | none =>
        simp only [State.winner, hc]
        refine hnext _ (hone c hc) ?_
        obtain hmem | hmem := List.mem_cons.mp (hin.resolve_right (Option.some_ne_none _).symm)
        · exact .inr (by rw [← hmem, hkept c hc hmem.symm])
        · exact .inl hmem
      | some x =>
        obtain ⟨j, b⟩ := x
        have hj : s.candidate i j = some b := hbest j b rfl
        simp only [State.winner, hc]
        by_cases hmk : m = k
        · -- The winner itself comes up: it beats what stands in hand, unless that is the winner already.
          have hca := hkept c hc hmk
          by_cases hjk : j = k
          · subst hjk
            have hba : b = a := Option.some.inj (hj.symm.trans hk)
            have heither : (if c.beats b then some (m, c) else some (j, b)) = some (j, a) := by
              rw [hca, hba, hmk, ite_self]
            exact hnext _ (fun j' b' h => hbest j' b' (by rw [hba, ← heither]; exact h)) (.inr heither)
          · rw [if_pos (by rw [hca]; exact (hbeats j b hjk hj).1)]
            exact hnext _ (hone c hc) (.inr (by rw [hmk, hca]))
        · -- Another comes up: it does not displace the winner, and what it leaves in hand does not matter before it.
          by_cases hjk : j = k
          · subst hjk
            have hba : b = a := Option.some.inj (hj.symm.trans hk)
            rw [if_neg (by rw [hba, (hbeats m c hmk hc).2]; exact Bool.false_ne_true)]
            exact hnext _ hbest (.inr (by rw [hba]))
          · have hmem : k ∈ l := by
              obtain hmem | heq := hin
              · exact (List.mem_cons.mp hmem).resolve_left (Ne.symm hmk)
              · exact absurd (Prod.mk.inj (Option.some.inj heq)).1 hjk
            refine hnext _ ?_ (.inl hmem)
            split
            · exact hone c hc
            · exact hbest

/-- An alert of a higher level, or of an equal one activated earlier within half a turn, beats the other and is not beaten
by it (R132, R136). -/
theorem beats_of_age {a b : Alert} {first : BitVec 32}
    (h : b.level < a.level ∨ b.level = a.level ∧ (a.number - first).toNat < (b.number - first).toNat
      ∧ (b.number - first).toNat < 2 ^ 31) : a.beats b = true ∧ b.beats a = false := by
  obtain hlevel | ⟨hlevel, hage, hhalf⟩ := h
  · simp [Alert.beats, hlevel, Nat.lt_asymm hlevel, Nat.ne_of_lt hlevel]
  · have hearlier : activatedEarlier a.number b.number = true ∧ activatedEarlier b.number a.number = false := by
      simp only [activatedEarlier, Bool.and_eq_true, bne_iff_ne, ne_eq, decide_eq_true_eq, Bool.and_eq_false_iff,
        decide_eq_false_iff_not]
      refine ⟨⟨fun heq => ?_, ?_⟩, .inr ?_⟩
      · rw [heq] at hage
        exact absurd hage (Nat.lt_irrefl _)
      · bv_omega
      · bv_omega
    simp [Alert.beats, hlevel, hearlier]

theorem ownerOf_eq_none {i : ServiceIx} {s : State}
    (h : (s.service i).exempt = true ∨ ∀ k a, s.alert k = some a → ¬(s.group a.group).covers i = true) :
    s.ownerOf i = none := by
  by_cases hexempt : (s.service i).exempt = true
  · rw [State.ownerOf, if_pos hexempt]
  · have hnone (k : AlertIx) : s.candidate i k = none := by
      refine Option.eq_none_iff_forall_ne_some.mpr fun a ha => ?_
      obtain ⟨halert, hcovers⟩ := candidate_eq_some.mp ha
      exact h.resolve_left hexempt k a halert hcovers
    rw [State.ownerOf, if_neg hexempt, winner_none hnone, Option.map_none]

theorem ownerOf_eq_some {i : ServiceIx} {k : AlertIx} {a : Alert} {s : State} (hexempt : (s.service i).exempt = false)
    (hk : s.candidate i k = some a)
    (hbeats : ∀ j b, j ≠ k → s.candidate i j = some b → a.beats b = true ∧ b.beats a = false) :
    s.ownerOf i = some k := by
  have hwin := winner_of_beats hk hbeats allAlerts none (fun j b h => absurd h (Option.some_ne_none _).symm)
    (.inl (List.mem_finRange k))
  rw [State.ownerOf, hexempt, if_neg Bool.false_ne_true, hwin, Option.map_some]

/-! ### A recomputation (R136, R137) -/

/-- The owner a service with a record gets (R136). -/
def State.ownerFor (s : State) (i : ServiceIx) (v : Service) : Option AlertIx :=
  if v.exempt then none else (s.winner i allAlerts none).map (·.1)

/-- What a recomputation makes of a service's record (R137). -/
def State.recomputed (s : State) (i : ServiceIx) (v : Service) : Service :=
  if s.ownerFor i v == v.owner then v else v.giveOwner (s.ownerFor i v) (s.ownerGroup (s.ownerFor i v))

theorem ownerOf_eq_ownerFor (s : State) (i : ServiceIx) : s.ownerOf i = s.ownerFor i (s.service i) := rfl

theorem recompute_service (i : ServiceIx) (s : State) :
    (recompute i s).service i = s.recomputed i (s.service i) := by
  rw [State.recomputed, ← ownerOf_eq_ownerFor]
  by_cases h : s.ownerOf i = (s.service i).owner
  · rw [recompute_same h, if_pos (beq_iff_eq.mpr h)]
  · rw [recompute_other h, if_neg (mt beq_iff_eq.mp h), modService_service_self]

theorem ownerFor_congr {s t : State} (ha : t.alerts = s.alerts) (hg : t.groups = s.groups) (i : ServiceIx)
    (v : Service) : t.ownerFor i v = s.ownerFor i v := by
  rw [State.ownerFor, State.ownerFor, winner_congr ha hg]

theorem recomputed_congr {s t : State} (ha : t.alerts = s.alerts) (hg : t.groups = s.groups) (i : ServiceIx)
    (v : Service) : t.recomputed i v = s.recomputed i v := by
  rw [State.recomputed, State.recomputed, ownerFor_congr ha hg, ownerGroup_congr ha hg]

theorem recomputed_exempt (s : State) (i : ServiceIx) (v : Service) : (s.recomputed i v).exempt = v.exempt := by
  unfold State.recomputed
  split <;> rfl

theorem recomputed_owner (s : State) (i : ServiceIx) (v : Service) : (s.recomputed i v).owner = s.ownerFor i v := by
  unfold State.recomputed
  split
  next h => exact (beq_iff_eq.mp h).symm
  next => rfl

/-- A state that differs from another in the services alone. -/
def SameButServices (s t : State) : Prop := t = { s with services := t.services }

theorem SameButServices.refl (s : State) : SameButServices s s := rfl

theorem SameButServices.trans {s t u : State} (h : SameButServices s t) (k : SameButServices t u) :
    SameButServices s u :=
  Eq.trans k (congrArg (fun x : State => { x with services := u.services }) h)

theorem SameButServices.modService (s : State) (i : ServiceIx) (f : Service → Service) :
    SameButServices s (s.modService i f) := rfl

theorem SameButServices.stands {s t : State} (h : SameButServices s t) : Stands s t := by
  rw [h]
  exact ⟨fun _ => ⟨rfl, rfl⟩, rfl, rfl, rfl⟩

theorem SameButServices.groups {s t : State} (h : SameButServices s t) : t.groups = s.groups := by rw [h]

theorem SameButServices.now {s t : State} (h : SameButServices s t) : t.now = s.now := by rw [h]

theorem SameButServices.alerts {s t : State} (h : SameButServices s t) : t.alerts = s.alerts := by rw [h]

theorem recompute_sameButServices (i : ServiceIx) (s : State) : SameButServices s (recompute i s) := by
  unfold recompute
  dsimp only
  split
  · exact .refl s
  · exact .modService s i _

theorem recomputeAll_sameButServices (s : State) : SameButServices s (recomputeAll s) := by
  refine forServices_rel .refl .trans (fun i t => ?_) s
  split
  · exact recompute_sameButServices i t
  · exact .refl t

theorem recomputeAll_service (s : State) (i : ServiceIx) :
    (recomputeAll s).service i
      = if (s.service i).defined then s.recomputed i (s.service i) else s.service i := by
  refine forServices_service (g := fun i v => if v.defined then s.recomputed i v else v)
    (Inv := fun t => t.alerts = s.alerts ∧ t.groups = s.groups)
    (fun i t ht => ?self) (fun i j t hj => ?other) (fun i t ht => ?inv) ⟨rfl, rfl⟩ i
  case self =>
    by_cases hdefined : (t.service i).defined = true
    · rw [if_pos hdefined, if_pos hdefined, recompute_service, recomputed_congr ht.1 ht.2]
    · rw [if_neg hdefined, if_neg hdefined]
  case other =>
    split
    · exact recompute_service_ne hj t
    · rfl
  case inv =>
    split
    · have hsame := recompute_sameButServices i t
      exact ⟨hsame.alerts.trans ht.1, hsame.groups.trans ht.2⟩
    · exact ht

/-- Every DEFINED service has the owner R136 gives it. -/
def Owned (s : State) : Prop := ∀ i, (s.service i).defined = true → (s.service i).owner = s.ownerOf i

theorem recomputeAll_owned (s : State) : Owned (recomputeAll s) := by
  intro i hdefined
  have hsame := recomputeAll_sameButServices s
  rw [ownerOf_eq_ownerFor, ownerFor_congr hsame.alerts hsame.groups]
  by_cases h : (s.service i).defined = true
  · rw [recomputeAll_service, if_pos h, recomputed_owner, State.ownerFor, State.ownerFor, recomputed_exempt]
  · rw [recomputeAll_service, if_neg h] at hdefined
    exact absurd hdefined h

/-- Ownership stands when insertions end. -/
theorem Owned.ends {P : ServiceIx → Prop} {s t : State} (h : Owned s) (he : Ends P s t) (hg : t.groups = s.groups) :
    Owned t := by
  intro i hdefined
  have hcore := he.record i
  have howner : (t.service i).owner = (s.service i).owner := owner_of_core hcore
  have hexempt : (t.service i).exempt = (s.service i).exempt := exempt_of_core hcore
  have hwindow : (t.service i).window = (s.service i).window := window_of_core hcore
  rw [Service.defined, hwindow] at hdefined
  rw [howner, h i hdefined, State.ownerOf, State.ownerOf, hexempt, winner_congr he.stands.alerts hg]

/-! ### Preemption's record of the services before (R139) -/

theorem preempts_congr {s t : State} (h : t.services = s.services) (u : State) (i : ServiceIx) :
    t.preempts u i = s.preempts u i := by
  rw [State.preempts, State.preempts, service_congr h]

/-- Preemption looks at the owners the services had before. -/
theorem preempt_congr {s t : State} (h : t.services = s.services) (u : State) : preempt t u = preempt s u := by
  rw [preempt, preempt]
  simp only [preempts_congr h]

/-! ### Alert users (R59) -/

/-- The users of the sources named by a list, changed. -/
def usersChanged (f : Nat → Nat) (l : List SourceIx) (v : Vector Source 32) : Vector Source 32 :=
  l.foldl (fun v k => vset v k { vget v k with alertUsers := f (vget v k).alertUsers }) v

theorem changeUsers_eq (f : Nat → Nat) (g : AlertGroup) (s : State) :
    changeUsers f g s = { s with sources := usersChanged f g.sources s.sources } := by
  have hfold (l : List SourceIx) : ∀ t : State,
      l.foldl (fun t k => t.modSource k fun r => { r with alertUsers := f r.alertUsers }) t
        = { t with sources := usersChanged f l t.sources } := by
    induction l with
    | nil => exact fun _ => rfl
    | cons k l ih => exact fun t => ih _
  exact hfold g.sources s

theorem vget_usersChanged (f : Nat → Nat) (x : SourceIx) : ∀ (l : List SourceIx) (v : Vector Source 32), l.Nodup →
    vget (usersChanged f l v) x
      = if x ∈ l then { vget v x with alertUsers := f (vget v x).alertUsers } else vget v x
  | [], _, _ => rfl
  | k :: l, v, hl => by
    obtain ⟨hnot, hnodup⟩ := List.nodup_cons.mp hl
    rw [usersChanged, List.foldl_cons, ← usersChanged, vget_usersChanged f x l _ hnodup]
    by_cases hx : x = k
    · subst hx
      rw [if_neg hnot, if_pos List.mem_cons_self, vget_vset_self]
    · simp only [vget_vset_ne _ _ hx, List.mem_cons, hx, false_or]

theorem sources_nodup (g : AlertGroup) : g.sources.Nodup := by
  unfold AlertGroup.sources
  cases g.audio with
  | none => cases g.slate <;> simp
  | some a =>
    cases g.slate with
    | none => simp
    | some b =>
      by_cases hab : a = b
      · simp [hab]
      · simp [hab]

theorem changeUsers_source_named {g : AlertGroup} {x : SourceIx} (h : g.audio = some x ∨ g.slate = some x)
    (f : Nat → Nat) (s : State) :
    (changeUsers f g s).source x = { s.source x with alertUsers := f (s.source x).alertUsers } := by
  rw [changeUsers_eq, State.source, vget_usersChanged f x _ _ (sources_nodup g), if_pos ((mem_sources g x).mpr h)]
  rfl

theorem changeUsers_source_other {g : AlertGroup} {x : SourceIx} (h : ¬(g.audio = some x ∨ g.slate = some x))
    (f : Nat → Nat) (s : State) : (changeUsers f g s).source x = s.source x := by
  rw [changeUsers_eq, State.source, vget_usersChanged f x _ _ (sources_nodup g), if_neg (mt (mem_sources g x).mp h)]
  rfl

end Sys2Proof.Machine
end

