-- ==== Sys2Proof/Proofs/Alerts.lean ====
section
/-! PROOF. An alert starts, is raised and ends (R133 to R135, R139, R141 to R145, R150, R151). -/

namespace Sys2Proof.Machine

/-! ### An alert put into force (R134, R135, R145) -/

/-- The ALERT report of an alert in a slot, with the source it names (R145). -/
def alertNote (k : AlertIx) (a : Alert) (sub : Subkind) (second : Stamp) (owned : Nat) (src : Option SourceIx) :
    Report where
  kind := .alert
  subkind := sub.code
  cause := .none
  service := none
  id := some (idBytes (BitVec.ofNat 8 a.group.val) (BitVec.ofNat 8 k.val) (BitVec.ofNat 8 a.level) a.origin.code)
  first := some a.start
  second := some second
  count := BitVec.ofNat 32 owned
  source := src

/-- The end of an activation and of a raise: every service is given its owner, the alert is reported, and what it
preempts ends. -/
def inForce (k : AlertIx) (a : Alert) (sub : Subkind) (second : Stamp) (src : Option SourceIx) (before v : State) :
    State :=
  preempt before (offer (alertNote k a sub second ((recomputeAll v).ownedBy k) src) (recomputeAll v))

/-- The alert an activation puts into a slot (R134). -/
def State.newAlert (s : State) (g : GroupIx) (level : Nat) (origin : AlertOrigin) : Alert where
  group := g
  level := level
  origin := origin
  number := s.activations
  start := s.now
  deadline := s.now + secTicks (s.group g).maxDuration

/-- The state with a new alert in its slot, its users counted (R59, R134). -/
def State.activated (s : State) (k : AlertIx) (g : GroupIx) (a : Alert) : State :=
  { changeUsers (· + 1) (s.group g) s with alerts := vset s.alerts k (some a), activations := s.activations + 1 }

theorem activated_eq (s : State) (k : AlertIx) (g : GroupIx) (a : Alert) :
    s.activated k g a = { s with
      sources := usersChanged (· + 1) (s.group g).sources s.sources
      alerts := vset s.alerts k (some a)
      activations := s.activations + 1 } := by
  rw [State.activated, changeUsers_eq]

theorem activated_services (s : State) (k : AlertIx) (g : GroupIx) (a : Alert) :
    (s.activated k g a).services = s.services := by rw [activated_eq]

theorem activated_groups (s : State) (k : AlertIx) (g : GroupIx) (a : Alert) :
    (s.activated k g a).groups = s.groups := by rw [activated_eq]

theorem activate_eq (k : AlertIx) (g : GroupIx) (level : Nat) (origin : AlertOrigin) (s : State) :
    activate k g level origin s
      = inForce k (s.newAlert g level origin) .started (s.newAlert g level origin).deadline (s.group g).audio s
          (s.activated k g (s.newAlert g level origin)) := by
  let v := s.activated k g (s.newAlert g level origin)
  have hchanged : changeUsers (· + 1) (s.group g)
      { s.setAlert k (some (s.newAlert g level origin)) with activations := s.activations + 1 } = v := by
    simp only [v]
    rw [changeUsers_eq, activated_eq]
    rfl
  have hservices : v.services = s.services := activated_services ..
  have hgroups : (recomputeAll v).groups = s.groups :=
    (recomputeAll_sameButServices v).groups.trans (activated_groups ..)
  rw [inForce, ← preempt_congr hservices, ← group_congr hgroups]
  exact congrArg (fun x => preempt x (offer (alertReport k (s.newAlert g level origin) .started .none
    (s.newAlert g level origin).deadline (BitVec.ofNat 32 ((recomputeAll x).ownedBy k)) (recomputeAll x))
      (recomputeAll x))) hchanged

theorem raiseAlert_eq (k : AlertIx) (a : Alert) (level : Nat) (s : State) :
    raiseAlert k a level s
      = inForce k { a with level := level } .raised s.now (s.group a.group).audio s
          { s with alerts := vset s.alerts k (some { a with level := level }) } := by
  let v := s.setAlert k (some { a with level := level })
  have hgroups : (recomputeAll v).groups = s.groups := (recomputeAll_sameButServices v).groups
  have hnow : (recomputeAll v).now = s.now := (recomputeAll_sameButServices v).now
  calc raiseAlert k a level s
      = preempt v (offer (alertNote k { a with level := level } .raised (recomputeAll v).now ((recomputeAll v).ownedBy k)
          ((recomputeAll v).group a.group).audio) (recomputeAll v)) := rfl
    _ = inForce k { a with level := level } .raised s.now (s.group a.group).audio s v := by
        rw [preempt_congr (s := s) (t := v) rfl, hnow, group_congr hgroups, inForce]

theorem inForce_stands (k : AlertIx) (a : Alert) (sub : Subkind) (second : Stamp) (src : Option SourceIx)
    (before v : State) : Stands v (inForce k a sub second src before v) :=
  (recomputeAll_sameButServices v).stands.trans ((Stands.offer ..).trans (preempt_ends ..).stands)

theorem inForce_inner (k : AlertIx) (a : Alert) (sub : Subkind) (second : Stamp) (src : Option SourceIx)
    (before v : State) : Inner v (inForce k a sub second src before v) :=
  preempt_inner ((recomputeAll_inner .refl).offer _)

theorem inForce_owned (k : AlertIx) (a : Alert) (sub : Subkind) (second : Stamp) (src : Option SourceIx)
    (before v : State) : Owned (inForce k a sub second src before v) :=
  ((recomputeAll_owned v).ends (Ends.offer (fun _ => True) _ _) (offer_groups ..)).ends (preempt_ends ..)
    (preempt_inner .refl).kept.groups

/-! ### What an alert in force leaves -/

/-- An alert stands in a slot, with its owners given; the other slots, the groups, Mode Control and the memory path stand
(R134, R135). -/
def PlacedAt (s : State) (k : AlertIx) (a : Alert) (t : State) : Prop :=
  t.alert k = some a ∧ (∀ j, j ≠ k → t.alert j = s.alert j) ∧ Owned t ∧ t.groups = s.groups
    ∧ t.modeControl = s.modeControl ∧ SamePath s t ∧ SameFixed s t

theorem PlacedAt.complete {s t : State} {k : AlertIx} {a : Alert} (h : PlacedAt s k a t) (q : QueueEntry) (r : Reply) :
    PlacedAt s k a (complete q r t) := by
  obtain ⟨hk, hothers, howned, hgroups, hmode, hpath, hfixed⟩ := h
  have hcomplete := hpath.trans (complete_samePath q r t)
  rw [complete_eq] at hcomplete ⊢
  exact ⟨hk, hothers, howned, hgroups, hmode, hcomplete, hfixed⟩

theorem inForce_placedAt {s v : State} {k : AlertIx} {a : Alert} (halerts : v.alerts = vset s.alerts k (some a))
    (hgroups : v.groups = s.groups) (hmode : v.modeControl = s.modeControl) (hpath : SamePath s v)
    (hfixed : SameFixed s v) (sub : Subkind) (second : Stamp) (src : Option SourceIx) (before : State) :
    PlacedAt s k a (inForce k a sub second src before v) := by
  have hstands := inForce_stands k a sub second src before v
  have hkept := (inForce_inner k a sub second src before v).kept
  have hslots (j : AlertIx) : (inForce k a sub second src before v).alert j = vget (vset s.alerts k (some a)) j :=
    congrArg (vget · j) (hstands.alerts.trans halerts)
  obtain ⟨hpending, hfree, hstraps, hroles⟩ := hkept.fixed
  obtain ⟨hpending', hfree', hstraps', hroles'⟩ := hfixed
  exact ⟨(hslots k).trans (vget_vset_self ..), fun j hj => (hslots j).trans (vget_vset_ne _ _ hj),
    inForce_owned k a sub second src before v,
    hkept.groups.trans hgroups, hstands.modeControl.trans hmode, hpath.trans hkept.path,
    ⟨hpending.trans hpending', hfree.trans hfree', hstraps.trans hstraps', hroles.trans hroles'⟩⟩

/-- An activation has been counted, with its users (R59, R134). -/
def CountedAt (s : State) (g : GroupIx) (t : State) : Prop :=
  t.activations = s.activations + 1
    ∧ ∀ x, ((s.group g).audio = some x ∨ (s.group g).slate = some x →
          (t.source x).alertUsers = (s.source x).alertUsers + 1)
        ∧ (¬((s.group g).audio = some x ∨ (s.group g).slate = some x) →
          (t.source x).alertUsers = (s.source x).alertUsers)

theorem CountedAt.complete {s t : State} {g : GroupIx} (h : CountedAt s g t) (q : QueueEntry) (r : Reply) :
    CountedAt s g (complete q r t) := by
  rw [complete_eq]
  exact h

theorem inForce_countedAt (s : State) (k : AlertIx) (g : GroupIx) (a : Alert) (sub : Subkind) (second : Stamp)
    (src : Option SourceIx) (before : State) :
    CountedAt s g (inForce k a sub second src before (s.activated k g a)) := by
  have hstands := inForce_stands k a sub second src before (s.activated k g a)
  refine ⟨hstands.activations, fun x => ⟨fun h => ?_, fun h => ?_⟩⟩
  · exact (hstands.sources x).2.trans (congrArg Source.alertUsers (changeUsers_source_named h (· + 1) s))
  · exact (hstands.sources x).2.trans (congrArg Source.alertUsers (changeUsers_source_other h (· + 1) s))

/-! ### The checks of an activation request (R133) -/

theorem requestActivation_notActive {g : GroupIx} {level : Nat} {origin : AlertOrigin} {s : State} (hlo : 1 ≤ level)
    (hhi : level ≤ 3) (hm : s.mode ≠ .active) :
    requestActivation { group := g.val, level := level, origin := origin } s = (.refused .mode, s) := by
  rw [requestActivation, dif_pos g.isLt, if_pos ⟨hlo, hhi⟩, if_pos (by simpa using hm)]

theorem requestActivation_active {g : GroupIx} {level : Nat} {origin : AlertOrigin} {s : State} (hlo : 1 ≤ level)
    (hhi : level ≤ 3) (hm : s.mode = .active) (hdef : (s.group g).defined = true) :
    requestActivation { group := g.val, level := level, origin := origin } s = activateOrRaise g level origin s := by
  rw [requestActivation, dif_pos g.isLt, if_pos ⟨hlo, hhi⟩, if_neg (by simp [hm]), if_neg (by simp [hdef])]

theorem activateOrRaise_free {g : GroupIx} {level : Nat} {origin : AlertOrigin} {s : State}
    (h : s.slotOfGroup g = none) : activateOrRaise g level origin s = activateGroup g level origin s := by
  simp only [activateOrRaise, h]

theorem activateOrRaise_busy {g : GroupIx} {level : Nat} {origin : AlertOrigin} {k : AlertIx} {a : Alert} {s : State}
    (h : s.slotOfGroup g = some k) (ha : s.alert k = some a) (hlevel : level ≤ a.level) :
    activateOrRaise g level origin s = (.refused .busy, s) := by
  simp only [activateOrRaise, h, ha, if_neg (Nat.not_lt.mpr hlevel)]

theorem activateOrRaise_raised {g : GroupIx} {level : Nat} {origin : AlertOrigin} {k : AlertIx} {a : Alert} {s : State}
    (h : s.slotOfGroup g = some k) (ha : s.alert k = some a) (hlevel : a.level < level) :
    activateOrRaise g level origin s = (.raised k, raiseAlert k a level s) := by
  simp only [activateOrRaise, h, ha, if_pos hlevel]

theorem activateGroup_refused {g : GroupIx} {level : Nat} {origin : AlertOrigin} {code : RefusalCode} {s : State}
    (h : (s.group g).sourceCheck s = some code) : activateGroup g level origin s = (.refused code, s) := by
  simp only [activateGroup, h]

theorem activateGroup_full {g : GroupIx} {level : Nat} {origin : AlertOrigin} {s : State}
    (h : (s.group g).sourceCheck s = none) (hf : s.freeAlert = none) :
    activateGroup g level origin s = (.refused .full, s) := by
  simp only [activateGroup, h, hf]

theorem activateGroup_started {g : GroupIx} {level : Nat} {origin : AlertOrigin} {k : AlertIx} {s : State}
    (h : (s.group g).sourceCheck s = none) (hf : s.freeAlert = some k) :
    activateGroup g level origin s = (.started k, activate k g level origin s) := by
  simp only [activateGroup, h, hf]

/-! ### ALERT START (R133) -/

theorem cmdAlertStart_eq {p : Params} {g : GroupIx} {level : Nat} {s t : State} {r : Activation}
    (hg : (pByte p 0).toNat = g.val) (hl : (pByte p 1).toNat = level)
    (hr : requestActivation { group := g.val, level := level, origin := .control } s = (r, t)) :
    cmdAlertStart p s = (.answered r.reply, t) := by
  rw [cmdAlertStart, hg, hl, hr]
  rfl

theorem exec_alertStart_refused {now : Stamp} {c : CellCommand} {g : GroupIx} {level : Nat} {code : RefusalCode}
    {s : State} (hi : Idle c s) (hg : (pByte c.params 0).toNat = g.val) (hl : (pByte c.params 1).toNat = level)
    (hr : requestActivation { group := g.val, level := level, origin := .control } (takenState 0x31 now c s)
      = (.refused code, takenState 0x31 now c s)) :
    exec (.alertStart now c) s = .next (afterReply 0x31 now c (.refused code) id s) :=
  exec_afterReply_id (x := .alertStart now c) rfl rfl hi (cmdAlertStart_eq hg hl hr)

/-! ### The link's frames -/

/-- The state in which a complete frame takes effect: it is out of hand (R147). -/
def State.frameTaken (s : State) (now : Stamp) : State := { s with now := now, link := { s.link with frame := none } }

theorem exec_goFrame {now : Stamp} {f : Frame} {s : State} (h : s.completeFrame 0x02 = some f) :
    exec (.goFrame now) s = .next (settle (goEffect (s.frameTaken now))) := by
  simp only [exec, execGoFrame, h]
  rfl

theorem exec_endFrame {now : Stamp} {f : Frame} {s : State} (h : s.completeFrame 0x03 = some f) :
    exec (.endFrame now) s = .next (settle (endEffect f (s.frameTaken now))) := by
  simp only [exec, execEndFrame, h]
  rfl

theorem goEffect_noArm {s : State} (h : s.link.arm = none) :
    goEffect s = offer (linkReport .refused .noArm (some (refusedId 0x02 0 0)) s.now none 0) s := by
  simp only [goEffect, h]

theorem goEffect_armed {a : PendingArm} {s : State} (h : s.link.arm = some a) :
    goEffect s = goReport a
      (requestActivation { group := a.group.val, level := a.level, origin := .link } (clearEffect s)).1
      (requestActivation { group := a.group.val, level := a.level, origin := .link } (clearEffect s)).2 := by
  simp only [goEffect, h]

/-- A GO frame in a state with no action put off, whose activation is not refused. -/
theorem exec_goFrame_activated {now : Stamp} {f : Frame} {g : GroupIx} {level : Nat} {r : Activation} {s t : State}
    (hf : s.completeFrame 0x02 = some f) (harm : s.link.arm = some { group := g, level := level })
    (hd : s.deferred = []) (hc : Calm s)
    (hr : requestActivation { group := g.val, level := level, origin := .link } (clearEffect (s.frameTaken now))
      = (r, t)) (hreport : goReport { group := g, level := level } r t = t) :
    exec (.goFrame now) s = .next t := by
  have hquiet : Quiet (clearEffect (s.frameTaken now)) t := by
    have hrequest : Quiet (clearEffect (s.frameTaken now))
        (requestActivation { group := g.val, level := level, origin := .link } (clearEffect (s.frameTaken now))).2 :=
      requestActivation_quiet .refl
    rw [hr] at hrequest
    exact hrequest
  have hgo : goEffect (s.frameTaken now) = t := by
    rw [goEffect_armed (s := s.frameTaken now) harm, hr]
    exact hreport
  rw [exec_goFrame hf, hgo, settle_nil ((hquiet.put hc).trans hd)]

/-! ### A new owner's components (R137) -/

theorem giveOwner_comps (v : Service) (owner : Option AlertIx) (group : Option AlertGroup) (n : Nat) :
    (v.giveOwner owner group).comps[n]?
      = v.comps[n]?.map fun c => group.elim c.unowned fun g => c.underGroup g := by
  rw [Service.giveOwner, List.getElem?_map]
  cases group <;> rfl

theorem underGroup_covered {g : AlertGroup} {c : Component} (h : g.coversKind c.kind = true) :
    c.underGroup g = { c with alert := if c.alert == .none then .pending else c.alert, cursor := 0 } := by
  rw [Component.underGroup, if_pos h]

theorem underGroup_left {g : AlertGroup} {c : Component} (h : g.coversKind c.kind = false) :
    c.underGroup g = { c with alert := .none } := by
  rw [Component.underGroup, h, if_neg Bool.false_ne_true]

/-! ### The step of preemption (R139) -/

/-- One service's step of `preempt`, at the stamp the preemption begins with. -/
def preemptOne (before t : State) (u : State) (i : ServiceIx) : State :=
  if before.preempts t i then endActiveBreak i .preemptedAlert t.now u else u

theorem preempt_eq_foldl (before t : State) : preempt before t = allServices.foldl (preemptOne before t) t := by
  have hfold (l : List ServiceIx) : ∀ u : State, u.now = t.now →
      l.foldl (fun u i => if before.preempts t i then endActiveBreak i .preemptedAlert u.now u else u) u
        = l.foldl (preemptOne before t) u := by
    induction l with
    | nil => exact fun _ _ => rfl
    | cons i l ih =>
      intro u hu
      have hnow : (preemptOne before t u i).now = t.now := by
        unfold preemptOne
        split
        · exact (endActiveBreak_inner .refl).kept.now.trans hu
        · exact hu
      rw [List.foldl_cons, List.foldl_cons, hu]
      exact ih _ hnow
  exact hfold allServices t rfl

theorem preempts_eq (before t : State) (i : ServiceIx) :
    before.preempts t i
      = ((t.service i).owner != (before.service i).owner
        && ((t.service i).owner.bind t.alert).any fun a => (t.group a.group).preempt) := by
  rw [State.preempts, State.ownerGroup]
  cases (t.service i).owner with
  | none => rfl
  | some k =>
    rw [Option.bind_some, Option.bind_some, State.groupOf]
    cases t.alert k <;> rfl

/-! ### What an activation and a raise leave -/

theorem requestActivation_started {g : GroupIx} {level : Nat} {origin : AlertOrigin} {k : AlertIx} {s : State}
    (hlo : 1 ≤ level) (hhi : level ≤ 3) (hm : s.mode = .active) (hdef : (s.group g).defined = true)
    (hslot : s.slotOfGroup g = none) (hcheck : (s.group g).sourceCheck s = none) (hfree : s.freeAlert = some k) :
    requestActivation { group := g.val, level := level, origin := origin } s
      = (.started k, activate k g level origin s) := by
  rw [requestActivation_active hlo hhi hm hdef, activateOrRaise_free hslot, activateGroup_started hcheck hfree]

theorem requestActivation_raised {g : GroupIx} {level : Nat} {origin : AlertOrigin} {k : AlertIx} {a : Alert}
    {s : State} (hlo : 1 ≤ level) (hhi : level ≤ 3) (hm : s.mode = .active) (hdef : (s.group g).defined = true)
    (hslot : s.slotOfGroup g = some k) (ha : s.alert k = some a) (hlt : a.level < level) :
    requestActivation { group := g.val, level := level, origin := origin } s
      = (.raised k, raiseAlert k a level s) := by
  rw [requestActivation_active hlo hhi hm hdef, activateOrRaise_raised hslot ha hlt]

/-- A state in which a command or a frame takes effect: the alerts, the groups, Mode Control and the memory path are those
of the state before. -/
structure TakenFrom (s u : State) : Prop where
  alerts : u.alerts = s.alerts
  groups : u.groups = s.groups
  mode : u.modeControl = s.modeControl
  path : SamePath s u
  fixed : SameFixed s u

theorem takenState_takenFrom (code : Byte) (now : Stamp) (c : CellCommand) (s : State) :
    TakenFrom s (takenState code now c s) :=
  ⟨rfl, rfl, rfl, ⟨rfl, rfl, rfl, rfl, rfl, .refl s, rfl⟩, ⟨rfl, rfl, rfl, rfl⟩⟩

theorem link_takenFrom (now : Stamp) (l : Link) (s : State) : TakenFrom s { s with now := now, link := l } :=
  ⟨rfl, rfl, rfl, ⟨rfl, rfl, rfl, rfl, rfl, .refl s, rfl⟩, ⟨rfl, rfl, rfl, rfl⟩⟩

theorem activate_placedAt {s u : State} (h : TakenFrom s u) (k : AlertIx) (g : GroupIx) (level : Nat)
    (origin : AlertOrigin) : PlacedAt s k (u.newAlert g level origin) (activate k g level origin u) := by
  rw [activate_eq]
  refine inForce_placedAt ?_ ((activated_groups ..).trans h.groups) ?_ ?_ ?_ ..
  · rw [activated_eq, ← h.alerts]
  · rw [activated_eq]
    exact h.mode
  · rw [activated_eq]
    exact h.path
  · rw [activated_eq]
    exact h.fixed

theorem activate_countedAt (s : State) (k : AlertIx) (g : GroupIx) (level : Nat) (origin : AlertOrigin) :
    CountedAt s g (activate k g level origin s) := by
  rw [activate_eq]
  exact inForce_countedAt ..

theorem raiseAlert_placedAt {s u : State} (h : TakenFrom s u) (k : AlertIx) (a : Alert) (level : Nat) :
    PlacedAt s k { a with level := level } (raiseAlert k a level u) := by
  have halerts : ({ u with alerts := vset u.alerts k (some { a with level := level }) } : State).alerts
      = vset s.alerts k (some { a with level := level }) := by rw [← h.alerts]
  rw [raiseAlert_eq]
  exact inForce_placedAt halerts h.groups h.mode h.path h.fixed .raised u.now _ u

theorem raiseAlert_activations (k : AlertIx) (a : Alert) (level : Nat) (s : State) :
    (raiseAlert k a level s).activations = s.activations := by
  rw [raiseAlert_eq]
  exact (inForce_stands ..).activations

/-- The components under a covering group, by what their alert state was (R137). -/
theorem covered_cases {c : Component} {x : Option Component}
    (h : x = some { c with alert := if c.alert == .none then .pending else c.alert, cursor := 0 }) :
    (c.alert = .none → x = some { c with alert := .pending, cursor := 0 })
      ∧ (c.alert = .pending → x = some { c with cursor := 0 })
      ∧ (c.alert = .taken → x = some { c with cursor := 0 }) := by
  subst h
  refine ⟨fun ha => by simp [ha], fun ha => by simp [ha], fun ha => by simp [ha]⟩

/-! ### ALERT START and GO, the rows of an activation and of a raise -/

/-- An activation by ALERT START, and what it leaves. -/
theorem exec_alertStart_started {now : Stamp} {c : CellCommand} {g : GroupIx} {level : Nat} {k : AlertIx} {s : State}
    (hi : Idle c s) (hc : Calm s) (hg : (pByte c.params 0).toNat = g.val) (hl : (pByte c.params 1).toNat = level)
    (hr : requestActivation { group := g.val, level := level, origin := .control } (takenState 0x31 now c s)
      = (.started k, activate k g level .control (takenState 0x31 now c s))) :
    exec (.alertStart now c) s
      = .next (afterReply 0x31 now c (.done (BitVec.ofNat 32 k.val)) (activate k g level .control) s) :=
  exec_inner (x := .alertStart now c) rfl rfl hi hc (cmdAlertStart_eq hg hl hr) (activate_quiet .refl)

theorem alertStart_started_leaves {now : Stamp} {c : CellCommand} {s : State} (hi : Idle c s) (hc : Calm s)
    (g : GroupIx) (level : Nat) (k : AlertIx) (r : Reply) :
    let t := afterReply 0x31 now c r (activate k g level .control) s
    Answered 0x31 c r s t ∧ PlacedAt s k ((takenState 0x31 now c s).newAlert g level .control) t ∧ CountedAt s g t
      ∧ t.link = s.link := by
  have hquiet : Quiet (takenState 0x31 now c s) (activate k g level .control (takenState 0x31 now c s)) :=
    activate_quiet .refl
  have hlink := hquiet.inner.kept.link
  refine ⟨answered_inner hi hc hquiet,
    (activate_placedAt (takenState_takenFrom 0x31 now c s) k g level .control).complete _ _,
    (activate_countedAt (takenState 0x31 now c s) k g level .control).complete _ _, (complete_link ..).trans hlink⟩

/-- A raise by ALERT START, and what it leaves. -/
theorem exec_alertStart_raised {now : Stamp} {c : CellCommand} {g : GroupIx} {level : Nat} {k : AlertIx} {a : Alert}
    {s : State} (hi : Idle c s) (hc : Calm s) (hg : (pByte c.params 0).toNat = g.val)
    (hl : (pByte c.params 1).toNat = level)
    (hr : requestActivation { group := g.val, level := level, origin := .control } (takenState 0x31 now c s)
      = (.raised k, raiseAlert k a level (takenState 0x31 now c s))) :
    exec (.alertStart now c) s
      = .next (afterReply 0x31 now c (.done (BitVec.ofNat 32 (k.val + 256))) (raiseAlert k a level) s) :=
  exec_inner (x := .alertStart now c) rfl rfl hi hc (cmdAlertStart_eq hg hl hr) (raiseAlert_quiet .refl)

theorem alertStart_raised_leaves {now : Stamp} {c : CellCommand} {s : State} (hi : Idle c s) (hc : Calm s)
    (k : AlertIx) (a : Alert) (level : Nat) (r : Reply) :
    let t := afterReply 0x31 now c r (raiseAlert k a level) s
    Answered 0x31 c r s t ∧ PlacedAt s k { a with level := level } t ∧ t.activations = s.activations := by
  have hquiet : Quiet (takenState 0x31 now c s) (raiseAlert k a level (takenState 0x31 now c s)) :=
    raiseAlert_quiet .refl
  have hactivations := raiseAlert_activations k a level (takenState 0x31 now c s)
  refine ⟨answered_inner hi hc hquiet,
    (raiseAlert_placedAt (takenState_takenFrom 0x31 now c s) k a level).complete _ _,
    (complete_activations ..).trans hactivations⟩

/-! ### The statement of activations -/

/-- Settles O36: an activation and a raise are `inForce`, and its parts are the lemmas on ownership. -/
theorem activationStartsOrRaisesAlert : Obligations.ActivationStartsOrRaisesAlert := by
  refine ⟨?activation, ?refusedFrames, ?lookups, ?owners, ?components, ?recomputation, ?preemption⟩
  case activation =>
    intro now g level k s hd hc hlo hhi hdef fresh named placed counted free start report inForce' started raised gone
    refine ⟨fun c hi hg hl => ?command, fun f hf harm hstart => ?go, fun a hm hslot ha hlt => ?raise⟩
    case command =>
      let u := takenState 0x31 now c s
      refine ⟨fun ⟨hm, ⟨hslot, hcheck⟩, hfree⟩ => ?start, fun hm => ?notActive, fun a hm hslot ha hle => ?busy,
        fun code hm hslot hcheck => ?unfit, fun hm ⟨hslot, hcheck⟩ hfull => ?full⟩
      case start =>
        have hrow := exec_alertStart_started hi hc hg hl
          (requestActivation_started (s := u) hlo hhi hm hdef hslot hcheck hfree)
        have hstarted : activate k g level .control u = started .control u := activate_eq k g level .control u
        obtain ⟨hanswered, hplaced, hcounted, hlink⟩ := alertStart_started_leaves (now := now) hi hc g level k
          (.done (BitVec.ofNat 32 k.val))
        exact ⟨hrow.trans (congrArg (fun t => Host.Outcome.next
          (complete (entryOf 0x31 c) (.done (BitVec.ofNat 32 k.val)) t)) hstarted), _, hrow, hanswered, hplaced, hcounted,
          hlink⟩
      case notActive => exact exec_alertStart_refused hi hg hl (requestActivation_notActive hlo hhi hm)
      case busy =>
        exact exec_alertStart_refused hi hg hl ((requestActivation_active (s := u) hlo hhi hm hdef).trans
          (activateOrRaise_busy (s := u) hslot ha hle))
      case unfit =>
        exact exec_alertStart_refused hi hg hl ((requestActivation_active (s := u) hlo hhi hm hdef).trans
          ((activateOrRaise_free (s := u) hslot).trans (activateGroup_refused (s := u) hcheck)))
      case full =>
        exact exec_alertStart_refused hi hg hl ((requestActivation_active (s := u) hlo hhi hm hdef).trans
          ((activateOrRaise_free (s := u) hslot).trans (activateGroup_full (s := u) hcheck hfull)))
    case go =>
      obtain ⟨hm, ⟨hslot, hcheck⟩, hfree⟩ := hstart
      have hinner : Inner gone (activate k g level .link gone) := activate_inner .refl
      have hrow : exec (.goFrame now) s = .next (activate k g level .link gone) :=
        exec_goFrame_activated hf harm hd hc
          (requestActivation_started (s := gone) hlo hhi hm hdef hslot hcheck hfree) rfl
      have hstarted : activate k g level .link gone = started .link gone := activate_eq k g level .link gone
      exact ⟨hrow.trans (congrArg Host.Outcome.next hstarted), _, hrow,
        activate_placedAt (link_takenFrom now _ s) k g level .link, activate_countedAt gone k g level .link,
        hinner.kept.link, hinner.kept.intake⟩
    case raise =>
      have hgroup : a.group = g := group_of_slotOfGroup hslot ha
      subst hgroup
      refine ⟨fun c hi hg hl => ?raiseCommand, fun f hf harm => ?raiseGo⟩
      case raiseCommand =>
        let u := takenState 0x31 now c s
        have hrow := exec_alertStart_raised hi hc hg hl
          (requestActivation_raised (s := u) hlo hhi hm hdef hslot ha hlt)
        have hraised : raiseAlert k a level u = raised a u := raiseAlert_eq k a level u
        obtain ⟨hanswered, hplaced, hactivations⟩ := alertStart_raised_leaves (now := now) hi hc k a level
          (.done (BitVec.ofNat 32 (k.val + 256)))
        exact ⟨hrow.trans (congrArg (fun t => Host.Outcome.next
          (complete (entryOf 0x31 c) (.done (BitVec.ofNat 32 (k.val + 256))) t)) hraised), _, hrow, hanswered, hplaced,
          hactivations⟩
      case raiseGo =>
        have hraised : raiseAlert k a level gone = raised a gone := raiseAlert_eq k a level gone
        exact (exec_goFrame_activated hf harm hd hc
          (requestActivation_raised (s := gone) hlo hhi hm hdef hslot ha hlt) rfl).trans
          (congrArg Host.Outcome.next hraised)
  case refusedFrames =>
    refine fun now f s hf => ⟨fun harm => ?noArm, fun g level harm hlo hhi hm => ?notActive⟩
    case noArm =>
      rw [exec_goFrame hf, goEffect_noArm (s := s.frameTaken now) harm]
      rfl
    case notActive =>
      rw [exec_goFrame hf, goEffect_armed (s := s.frameTaken now) harm,
        requestActivation_notActive (s := clearEffect (s.frameTaken now)) hlo hhi hm]
      rfl
  case lookups =>
    refine fun g s => ⟨fun k a hk hg hlt => slotOfGroup_eq_some hk hg hlt, slotOfGroup_eq_none, fun k hk hlt =>
      freeAlert_eq_some hk hlt, freeAlert_eq_none, fun hloop => ?loop, fun hfree => ?free, fun hdefined hstream => ?stream⟩
    case loop =>
      exact sourceCheck_none fun x hx => (Source.isLoop_iff _).mpr (hloop x ((mem_sources _ x).mp hx))
    case free =>
      obtain ⟨x, hx, hfree⟩ := hfree
      exact sourceCheck_notDefined ⟨x, (mem_sources _ x).mpr hx, hfree⟩
    case stream =>
      obtain ⟨x, hx, hnot⟩ := hstream
      exact sourceCheck_badParam (fun y hy => hdefined y ((mem_sources _ y).mp hy))
        ⟨x, (mem_sources _ x).mpr hx, Bool.eq_false_iff.mpr (mt (Source.isLoop_iff _).mp hnot)⟩
  case owners =>
    refine fun i first s => ⟨fun h => ownerOf_eq_none h, fun k a hexempt hk hcovers hbeats => ?wins⟩
    refine ownerOf_eq_some hexempt (candidate_eq_some.mpr ⟨hk, hcovers⟩) fun j b hj hb => ?_
    obtain ⟨hb, hbcovers⟩ := candidate_eq_some.mp hb
    exact beats_of_age (hbeats j b hj hb hbcovers)
  case components =>
    refine fun v owner group => ⟨rfl, List.length_map _, fun n c hn => ?_⟩
    have hcomps := giveOwner_comps v owner group n
    rw [hn, Option.map_some] at hcomps
    have hcovered (g : AlertGroup) (hgroup : group = some g) (hkind : g.coversKind c.kind = true) :
        (v.giveOwner owner group).comps[n]?
          = some { c with alert := if c.alert == .none then .pending else c.alert, cursor := 0 } := by
      rw [hcomps, hgroup, Option.elim_some, underGroup_covered hkind]
    have hleft (g : AlertGroup) (hgroup : group = some g) (hkind : g.coversKind c.kind = false) :
        (v.giveOwner owner group).comps[n]? = some { c with alert := .none } := by
      rw [hcomps, hgroup, Option.elim_some, underGroup_left hkind]
    have hnone (hgroup : group = none) : (v.giveOwner owner group).comps[n]? = some { c with alert := .none } := by
      rw [hcomps, hgroup, Option.elim_none]
      rfl
    refine ⟨fun hgroup hkind => ?audio, fun g x hgroup hkind hslate => ?video, fun g hgroup hkind hslate => ?noSlate,
      fun hkind => ?data, hnone⟩
    case audio =>
      obtain ⟨g, hg⟩ := Option.ne_none_iff_exists'.mp hgroup
      exact covered_cases (hcovered g hg (by rw [hkind]; rfl))
    case video => exact covered_cases (hcovered g hgroup (by rw [hkind, AlertGroup.coversKind, hslate]; rfl))
    case noSlate => exact hleft g hgroup (by rw [hkind, AlertGroup.coversKind, hslate]; rfl)
    case data =>
      obtain hgroup | ⟨g, hgroup⟩ := Option.eq_none_or_eq_some group
      · exact hnone hgroup
      · exact hleft g hgroup (by rw [hkind]; rfl)
  case recomputation =>
    refine fun i s => ⟨recompute_same, fun hne hnone => ?noOwner, fun k a hne hk ha => ?newOwner, rfl, ?all,
      recomputeAll_sameButServices s⟩
    case noOwner =>
      rw [recompute_other hne, hnone]
      rfl
    case newOwner =>
      rw [recompute_other hne, hk]
      simp only [State.ownerGroup, Option.bind_some, State.groupOf, ha, Option.map_some]
      rfl
    case all =>
      rw [recomputeAll_service]
      by_cases hw : (s.service i).window = none
      · rw [Service.not_defined_of_window hw, if_neg Bool.false_ne_true, if_pos hw]
      · rw [if_pos (Service.defined_of_window hw), if_neg hw, recompute_service]
  case preemption =>
    intro s t preempting endBreak
    have hstep : preemptOne s t = fun u i => if preempting i then endBreak i u else u := by
      funext u i
      have hpreempts : s.preempts t i = preempting i := by
        rw [preempts_eq]
        simp only [preempting]
        cases (t.service i).owner.bind t.alert <;> rfl
      rw [preemptOne, hpreempts]
      rfl
    rw [preempt_eq_foldl, hstep]
    rfl

end Sys2Proof.Machine
end

