-- ==== Sys2Proof/Proofs/AlertEnds.lean ====
section
/-! PROOF. An alert ends (R141 to R145, R151), and all alerts end (R144). -/

namespace Sys2Proof.Machine

/-! ### One alert ends (R141) -/

/-- The ALERT report ENDED (R145). -/
def endedNote (k : AlertIx) (a : Alert) (cause : Cause) (now : Stamp) (src : Option SourceIx) : Report where
  kind := .alert
  subkind := Subkind.ended.code
  cause := cause
  service := none
  id := some (idBytes (BitVec.ofNat 8 a.group.val) (BitVec.ofNat 8 k.val) (BitVec.ofNat 8 a.level) a.origin.code)
  first := some a.start
  second := some now
  count := now - a.start
  source := src

/-- The state with an alert's end reported (R141, step 1). -/
def State.endReported (s : State) (k : AlertIx) (a : Alert) (cause : Cause) : State :=
  offer (endedNote k a cause s.now (s.group a.group).audio) s

/-- The state with an alert's slot FREE and its users counted down (R141, steps 2 and 3). -/
def State.slotFreed (s : State) (k : AlertIx) (g : AlertGroup) : State :=
  { changeUsers (· - 1) g s with alerts := vset s.alerts k none }

theorem slotFreed_eq (s : State) (k : AlertIx) (g : AlertGroup) :
    s.slotFreed k g = { s with
      sources := usersChanged (· - 1) g.sources s.sources
      alerts := vset s.alerts k none } := by
  rw [State.slotFreed, changeUsers_eq]

theorem slotFreed_activations (s : State) (k : AlertIx) (g : AlertGroup) :
    (s.slotFreed k g).activations = s.activations := by rw [slotFreed_eq]

theorem slotFreed_modeControl (s : State) (k : AlertIx) (g : AlertGroup) :
    (s.slotFreed k g).modeControl = s.modeControl := by rw [slotFreed_eq]

theorem endAlert_none {k : AlertIx} {cause : Cause} {s : State} (h : s.alert k = none) : endAlert k cause s = s := by
  simp only [endAlert, h]

theorem endAlert_some {k : AlertIx} {cause : Cause} {a : Alert} {s : State} (h : s.alert k = some a) :
    endAlert k cause s
      = preempt ((s.endReported k a cause).slotFreed k (s.group a.group))
          (recomputeAll ((s.endReported k a cause).slotFreed k (s.group a.group))) := by
  have hgroup : (s.endReported k a cause).group a.group = s.group a.group := group_congr (offer_groups ..) _
  have hfreed : (changeUsers (· - 1) ((s.endReported k a cause).group a.group) (s.endReported k a cause)).setAlert k none
      = (s.endReported k a cause).slotFreed k (s.group a.group) := by
    rw [hgroup, slotFreed_eq, changeUsers_eq]
    rfl
  simp only [endAlert, h]
  exact congrArg (fun x => preempt x (recomputeAll x)) hfreed

/-- What follows a change of the alerts: every service is given its owner, and what that preempts ends. -/
theorem preempt_recomputeAll_stands (before v : State) : Stands v (preempt before (recomputeAll v)) :=
  (recomputeAll_sameButServices v).stands.trans (preempt_ends ..).stands

theorem preempt_recomputeAll_owned (before v : State) : Owned (preempt before (recomputeAll v)) :=
  (recomputeAll_owned v).ends (preempt_ends ..) (preempt_inner .refl).kept.groups

/-- An alert of a slot has ended: the slot is FREE, every service has its owner, the users are counted down, and the
other slots, the groups, Mode Control and the memory path stand (R141). -/
def EndedAt (s : State) (k : AlertIx) (a : Alert) (t : State) : Prop :=
  t.alert k = none ∧ (∀ j, j ≠ k → t.alert j = s.alert j) ∧ Owned t
    ∧ (∀ x, ((s.group a.group).audio = some x ∨ (s.group a.group).slate = some x →
          (t.source x).alertUsers = (s.source x).alertUsers - 1)
        ∧ ((s.group a.group).audio ≠ some x → (s.group a.group).slate ≠ some x →
          (t.source x).alertUsers = (s.source x).alertUsers))
    ∧ t.activations = s.activations ∧ t.groups = s.groups ∧ t.modeControl = s.modeControl ∧ SamePath s t
    ∧ SameFixed s t

theorem EndedAt.complete {s t : State} {k : AlertIx} {a : Alert} (h : EndedAt s k a t) (q : QueueEntry) (r : Reply) :
    EndedAt s k a (complete q r t) := by
  obtain ⟨hk, hothers, howned, husers, hactivations, hgroups, hmode, hpath, hfixed⟩ := h
  have hcomplete := hpath.trans (complete_samePath q r t)
  rw [complete_eq] at hcomplete ⊢
  exact ⟨hk, hothers, howned, husers, hactivations, hgroups, hmode, hcomplete, hfixed⟩

/-- A state in which an alert's end takes effect, its sources and activation counter those of the state before. -/
structure EndsFrom (s u : State) : Prop where
  taken : TakenFrom s u
  sources : u.sources = s.sources
  activations : u.activations = s.activations

theorem takenState_endsFrom (code : Byte) (now : Stamp) (c : CellCommand) (s : State) :
    EndsFrom s (takenState code now c s) := ⟨takenState_takenFrom code now c s, rfl, rfl⟩

theorem link_endsFrom (now : Stamp) (l : Link) (s : State) : EndsFrom s { s with now := now, link := l } :=
  ⟨link_takenFrom now l s, rfl, rfl⟩

/-- The source records once an alert has ended: those of the users counted down. -/
theorem endAlert_source_users {k : AlertIx} {cause : Cause} {a : Alert} {s : State} (h : s.alert k = some a)
    (x : SourceIx) : ((endAlert k cause s).source x).alertUsers
      = ((changeUsers (· - 1) (s.group a.group) s).source x).alertUsers := by
  have hstands := preempt_recomputeAll_stands ((s.endReported k a cause).slotFreed k (s.group a.group))
    ((s.endReported k a cause).slotFreed k (s.group a.group))
  have hreported : (s.endReported k a cause).sources = s.sources := offer_sources ..
  have hfreed : ((s.endReported k a cause).slotFreed k (s.group a.group)).sources
      = (changeUsers (· - 1) (s.group a.group) s).sources := by
    rw [slotFreed_eq, changeUsers_eq, hreported]
  rw [endAlert_some h]
  exact ((hstands.sources x).2).trans (congrArg (fun v => (vget v x).alertUsers) hfreed)

theorem endAlert_endedAt {s u : State} {k : AlertIx} {a : Alert} (hu : EndsFrom s u) (h : u.alert k = some a)
    (cause : Cause) : EndedAt s k a (endAlert k cause u) := by
  have hkept := (endAlert_inner (k := k) (cause := cause) (Inner.refl (s := u))).kept
  obtain ⟨⟨hualerts, hugroups, humode, hupath, hufixed⟩, husources, huactivations⟩ := hu
  let v := (u.endReported k a cause).slotFreed k (u.group a.group)
  have hstands : Stands v (endAlert k cause u) := by
    rw [endAlert_some h]
    exact preempt_recomputeAll_stands v v
  have howned : Owned (endAlert k cause u) := by
    rw [endAlert_some h]
    exact preempt_recomputeAll_owned v v
  have halerts : v.alerts = vset s.alerts k none :=
    congrArg (vset · k none) ((offer_alerts ..).trans hualerts)
  have hactivations : v.activations = s.activations :=
    (slotFreed_activations ..).trans ((offer_activations ..).trans huactivations)
  have hmode : v.modeControl = s.modeControl :=
    (slotFreed_modeControl ..).trans ((offer_modeControl ..).trans humode)
  have hslot (j : AlertIx) : (endAlert k cause u).alert j = vget (vset s.alerts k none) j :=
    congrArg (vget · j) (hstands.alerts.trans halerts)
  obtain ⟨hpending, hfree, hstraps, hroles⟩ := hkept.fixed
  obtain ⟨hupending, hufree, hustraps, huroles⟩ := hufixed
  have hgroup : u.group a.group = s.group a.group := group_congr hugroups _
  have hsource (x : SourceIx) : u.source x = s.source x := congrArg (vget · x) husources
  refine ⟨(hslot k).trans (vget_vset_self ..), fun j hj => (hslot j).trans (vget_vset_ne _ _ hj), howned,
    fun x => ⟨fun hnamed => ?named, fun haudio hslate => ?other⟩, hstands.activations.trans hactivations,
    hkept.groups.trans hugroups, hstands.modeControl.trans hmode, hupath.trans hkept.path,
    ⟨hpending.trans hupending, hfree.trans hufree, hstraps.trans hustraps, hroles.trans huroles⟩⟩
  case named => rw [endAlert_source_users h, hgroup, changeUsers_source_named hnamed, hsource]
  case other =>
    rw [endAlert_source_users h, hgroup,
      changeUsers_source_other (not_or.mpr ⟨haudio, hslate⟩), hsource]

/-! ### The rows that end an alert -/

/-- With REPORT-OVERFLOW a NOTICE, an end puts no action off. -/
theorem settle_endAlert {k : AlertIx} {cause : Cause} {s : State} (hd : s.deferred = []) (hc : Calm s) :
    settle (endAlert k cause s) = endAlert k cause s := by
  have hquiet : Quiet s (endAlert k cause s) := endAlert_quiet .refl
  exact settle_nil ((hquiet.put hc).trans hd)

theorem exec_maximumDurationExpiry {now : Stamp} {k : AlertIx} {a : Alert} {s : State} (h : s.alert k = some a) :
    exec (.maximumDurationExpiry now k) s
      = .next (if atOrAfter now a.deadline then settle (endAlert k .timeout (s.at now)) else s.at now) := by
  simp only [exec, execMaximumDurationExpiry, h]

theorem endSlot_some {k : AlertIx} {a : Alert} {s : State} (h : s.alert k = some a) :
    endSlot k s = done (s.now - a.start) (endAlert k .command s) := by
  simp only [endSlot, h]

theorem cmdAlertEnd_bySlot {p : Params} {k : AlertIx} {s : State} (h0 : pByte p 0 = 1) (hk : pIndex 4 p 1 = some k) :
    cmdAlertEnd p s = endSlot k s := by
  have hone : (pByte p 0).toNat = 1 := by rw [h0]; rfl
  simp only [cmdAlertEnd, hone, hk]

theorem cmdAlertEnd_byGroup {p : Params} {k : AlertIx} {g : GroupIx} {s : State} (h0 : pByte p 0 = 2)
    (hg : pIndex 8 p 1 = some g) (hk : s.slotOfGroup g = some k) : cmdAlertEnd p s = endSlot k s := by
  have htwo : (pByte p 0).toNat = 2 := by rw [h0]; rfl
  simp only [cmdAlertEnd, htwo, hg, endGroup, hk]

theorem endEffect_ends {f : Frame} {g : GroupIx} {k : AlertIx} {s : State} (hg : (byteAt f.bytes 1).toNat = g.val)
    (hk : s.slotOfGroup g = some k) : endEffect f s = endAlert k .link s := by
  have hlt : (byteAt f.bytes 1).toNat < 8 := hg ▸ g.isLt
  have heq : (⟨(byteAt f.bytes 1).toNat, hlt⟩ : GroupIx) = g := Fin.ext hg
  simp only [endEffect, hlt, heq, hk, dite_true]

theorem endEffect_refused {f : Frame} {g : GroupIx} {s : State} (hg : (byteAt f.bytes 1).toNat = g.val)
    (hk : s.slotOfGroup g = none) : endEffect f s = endRefused (byteAt f.bytes 1) s := by
  have hlt : (byteAt f.bytes 1).toNat < 8 := hg ▸ g.isLt
  have heq : (⟨(byteAt f.bytes 1).toNat, hlt⟩ : GroupIx) = g := Fin.ext hg
  simp only [endEffect, hlt, heq, hk, dite_true]

/-- The row of ALERT END, and what it leaves. -/
theorem exec_alertEnd {now : Stamp} {c : CellCommand} {k : AlertIx} {a : Alert} {s : State} (hi : Idle c s)
    (hc : Calm s) (h : s.alert k = some a)
    (hrun : cmdAlertEnd c.params (takenState 0x32 now c s) = endSlot k (takenState 0x32 now c s)) :
    exec (.alertEnd now c) s
      = .next (afterReply 0x32 now c (.done (now - a.start)) (fun u => endAlert k .command u) s) :=
  exec_inner (x := .alertEnd now c) (f := fun u => endAlert k .command u) rfl rfl hi hc
    (hrun.trans (endSlot_some (s := takenState 0x32 now c s) h)) (endAlert_quiet .refl)

theorem alertEnd_leaves {c : CellCommand} {s : State} (hi : Idle c s) (hc : Calm s) (now : Stamp) {k : AlertIx}
    {a : Alert} (h : s.alert k = some a) (r : Reply) :
    let t := afterReply 0x32 now c r (fun u => endAlert k .command u) s
    Answered 0x32 c r s t ∧ EndedAt s k a t ∧ t.link = s.link := by
  have hquiet : Quiet (takenState 0x32 now c s) (endAlert k .command (takenState 0x32 now c s)) := endAlert_quiet .refl
  have hlink := hquiet.inner.kept.link
  exact ⟨answered_inner hi hc hquiet,
    (endAlert_endedAt (takenState_endsFrom 0x32 now c s) (u := takenState 0x32 now c s) h .command).complete _ _,
    (complete_link ..).trans hlink⟩

/-! ### Every alert ends (R144) -/

/-- The same change of every service's record. -/
theorem forServices_modService (f : Service → Service) (s : State) :
    forServices (fun i t => t.modService i f) s = { s with services := s.services.map f } := by
  have hsame : SameButServices s (forServices (fun i t => t.modService i f) s) :=
    forServices_rel .refl .trans (fun i t => .modService t i f) s
  have hservices : (forServices (fun i t => t.modService i f) s).services = s.services.map f :=
    vget_ext fun i => by
      rw [vget_map]
      exact forServices_service (g := fun _ v => f v) (Inv := fun _ => True)
        (fun i t _ => modService_service_self t i f) (fun i j t hj => modService_service_ne t f hj)
        (fun _ _ _ => trivial) trivial i
  rw [← hservices]
  exact hsame

/-- Settles O37, by `endAlert` as `preempt` over `recomputeAll` of the state with the slot FREE. -/
theorem alertsEndAndFreeTheirSlot : Obligations.AlertsEndAndFreeTheirSlot := by
  refine ⟨fun now k a s h hd hc => ?rows, fun now f g s hf hg hslot => ?refused, fun cause k s =>
    ⟨endAlert_none, fun a h => endAlert_some h⟩, fun f g s x => ?users, fun cause s => forServices_modService ..⟩
  case rows =>
    refine ⟨fun hdue => ?expired, fun hearly => ?early, fun c hi hnamed => ?command, fun f g hf hg hslot => ?frame⟩
    case expired =>
      let u : State := { s with now := now }
      have hrow : exec (.maximumDurationExpiry now k) s = .next (endAlert k .timeout u) := by
        rw [exec_maximumDurationExpiry h, if_pos hdue]
        exact congrArg Host.Outcome.next (settle_endAlert (s := u) hd hc)
      have hinner : Inner u (endAlert k .timeout u) := endAlert_inner .refl
      exact ⟨hrow, _, hrow, endAlert_endedAt (link_endsFrom now s.link s) (u := u) h .timeout, hinner.kept.link,
        hinner.kept.intake⟩
    case early =>
      have hnot : atOrAfter now a.deadline = false := by simpa [before] using hearly
      rw [exec_maximumDurationExpiry h, hnot, if_neg Bool.false_ne_true]
      rfl
    case command =>
      have hrun : cmdAlertEnd c.params (takenState 0x32 now c s) = endSlot k (takenState 0x32 now c s) := by
        obtain ⟨hone, hk⟩ | ⟨htwo, g, hg, hk⟩ := hnamed
        · exact cmdAlertEnd_bySlot hone hk
        · exact cmdAlertEnd_byGroup htwo hg hk
      have hrow := exec_alertEnd hi hc h hrun
      obtain ⟨hanswered, hended, hlink⟩ := alertEnd_leaves hi hc now h (.done (now - a.start))
      exact ⟨hrow, _, hrow, hanswered, hended, hlink⟩
    case frame =>
      let u : State := s.frameTaken now
      have hrow : exec (.endFrame now) s = .next (endAlert k .link u) := by
        rw [exec_endFrame hf, endEffect_ends (s := u) hg hslot]
        exact congrArg Host.Outcome.next (settle_endAlert (s := u) hd hc)
      have hinner : Inner u (endAlert k .link u) := endAlert_inner .refl
      exact ⟨hrow, _, hrow, endAlert_endedAt (link_endsFrom now _ s) (u := u) h .link, hinner.kept.link,
        hinner.kept.intake⟩
  case refused =>
    rw [exec_endFrame hf, endEffect_refused (s := s.frameTaken now) hg hslot]
    rfl
  case users =>
    refine ⟨?only, fun h => changeUsers_source_named h f s,
      fun haudio hslate => changeUsers_source_other (not_or.mpr ⟨haudio, hslate⟩) f s⟩
    case only => rw [changeUsers_eq]

end Sys2Proof.Machine
end

