-- ==== Sys2Proof/Proofs/LongCommands.lean ====
section
/-! PROOF. Read deadlines (R38, R39, R43), and the commands that read memory before they are answered: the start check of a
LOOP source (R46) and ALERT OVERLAY LOAD (R131). -/

namespace Sys2Proof.Machine

/-! ### Reads that become orphans (R39, R40) -/

theorem isOf_iff (x : EntryIx) (o : ReadOwner) : o.isOf x = true ↔ o = .network x ∨ o = .fetch x := by
  cases o with
  | network y => simp only [ReadOwner.isOf, beq_iff_eq, ReadOwner.network.injEq, reduceCtorEq, or_false]; exact eq_comm
  | fetch y => simp only [ReadOwner.isOf, beq_iff_eq, ReadOwner.fetch.injEq, reduceCtorEq, false_or]; exact eq_comm
  | command => simp [ReadOwner.isOf]
  | orphan => simp [ReadOwner.isOf]

theorem isCommand_iff (o : ReadOwner) : o.isCommand = true ↔ o = .command := by
  cases o <;> simp [ReadOwner.isCommand]

/-- A read made an orphan: its owner is gone, and its deadline with it (R40). -/
def IssuedRead.orphaned (r : IssuedRead) : IssuedRead := { read := { r.read with owner := .orphan }, deadline := none }

theorem orphanReads_eq {whose : ReadOwner → Bool} {p : ReadOwner → Prop} [DecidablePred p]
    (h : ∀ o, whose o = true ↔ p o) (s : State) :
    orphanReads whose s
      = { s with outstanding := s.outstanding.map fun r => if p r.read.owner then r.orphaned else r } := by
  have hstep (r : IssuedRead) : (if whose r.read.owner then r.orphaned else r)
      = if p r.read.owner then r.orphaned else r := by simp only [h]
  exact congrArg (fun f => { s with outstanding := s.outstanding.map f }) (funext hstep)

theorem exec_readDeadlineExpiry {now : Stamp} {x : EntryIx} {e : RttEntry} {o : IssuedRead} {s : State}
    (ho : s.timedOut (ReadOwner.isOf x) now = some o) (he : s.entry x = some e) :
    exec (.readDeadlineExpiry now x) s = .next (settle (timeOutEntry x e o.read.addr (s.at now))) := by
  simp only [exec, execReadDeadlineExpiry, ho, he]

theorem timeOutEntry_slot {x : EntryIx} {e : RttEntry} {i : ServiceIx} (hk : e.kind = .slot i) (a : Addr) (s : State) :
    timeOutEntry x e a s
      = raise { kind := .readTimeout, service := some i, requester := some e.requester, addr := some a }
          ((leaveOrder x i (orphanReads (ReadOwner.isOf x) s)).setEntry x (some e.failed)) := by
  simp only [timeOutEntry, timeoutEvent, dropFromOrder, hk]

theorem timeOutEntry_plain {x : EntryIx} {e : RttEntry} (hk : e.kind = .plain) (a : Addr) (s : State) :
    timeOutEntry x e a s
      = raise { kind := .readTimeout, requester := some e.requester, addr := some a }
          ((orphanReads (ReadOwner.isOf x) s).setEntry x (some e.failed)) := by
  simp only [timeOutEntry, timeoutEvent, dropFromOrder, hk]

/-! ### A command answered at an event of its own (R158, R159) -/

theorem completeWork_cons {q : QueueEntry} {more : List QueueEntry} {s : State} (h : s.intake = q :: more) (r : Reply) :
    completeWork r s = settle (runAll (complete q r s)) := by
  simp only [completeWork, h]

theorem exec_internalReadExpiry {now : Stamp} {o : IssuedRead} {s : State}
    (ho : s.timedOut ReadOwner.isCommand now = some o) :
    exec (.internalReadExpiry now) s = .next (timeOutCommand o.read.addr (s.at now)) := by
  simp only [exec, execInternalReadExpiry, ho]

/-- Settles O27: the reads that become orphans are those the statement names. -/
theorem timedOutReadsEndWithReadTimeout : Obligations.TimedOutReadsEndWithReadTimeout := by
  refine ⟨fun now x e o s ho he => ⟨fun i hk => ?slot, fun hk => ?plain⟩, fun now o q more s ho hq => ?command⟩
  case slot =>
    rw [exec_readDeadlineExpiry ho he, timeOutEntry_slot hk, orphanReads_eq (isOf_iff x)]
    rfl
  case plain =>
    rw [exec_readDeadlineExpiry ho he, timeOutEntry_plain hk, orphanReads_eq (isOf_iff x)]
    rfl
  case command =>
    rw [exec_internalReadExpiry ho, timeOutCommand, orphanReads_eq isCommand_iff]
    exact congrArg Host.Outcome.next (completeWork_cons (by exact (raise_intake ..).trans hq) _)

/-! ### A command that takes time, as the row it is -/

/-- A command row that leaves its command in progress, with no action put off. -/
theorem exec_working {x : Instr} {code : Byte} {c : CellCommand} {s t : State} (hx : commandOf x = some (code, c))
    (hw : x.wellFormed = true) (hi : Idle c s)
    (hrun : runCommand (entryOf code c) (takenState code x.now c s) = (.working, t)) (hd : t.deferred = []) :
    exec x s = .next t := by
  rw [exec_commandOf hx hw, takeCommand_working hi hrun, settle_nil hd]

theorem beginRead_deferred (work : Work) (addr : Addr) (s : State) : (beginRead work addr s).deferred = s.deferred :=
  handRead_deferred ..

theorem slotAddr_zero (w : Window) : w.slotAddr 0 = w.base := by simp [Window.slotAddr]

/-- The answer to a command's own read, the oldest on the list. -/
theorem awaitsCommand_of_cons {s : State} {o : IssuedRead} {rest : List IssuedRead} (h : s.outstanding = o :: rest)
    (ho : o.read.owner = .command) : s.awaitsCommand = true := by
  rw [State.awaitsCommand, oldestOwner_of_cons h, ho]
  decide

theorem at_matched {s : State} {o : IssuedRead} {rest : List IssuedRead} (now : Stamp) (h : s.outstanding = o :: rest) :
    (s.at now).matched = { s with now := now, outstanding := rest } := by
  rw [State.matched, at_outstanding, h]
  rfl

/-! ### SOURCE DEFINE of a LOOP source (R45, R46) -/

theorem cmdSourceDefine_loop {p : Params} {k : SourceIx} {w : Window} {s : State} (hp : pIndex 32 p 0 = some k)
    (hfree : (s.source k).config = none) (hmode : pByte p 1 = 2) (hw : pWindow p 4 = some w)
    (hclash : s.windowClash w = false) :
    cmdSourceDefine p s = (.working, beginRead (.startCheck k w) w.base s) := by
  have hloop : sourceModeOfCode (pByte p 1) = some .loop := by rw [hmode]; rfl
  have hdefined : (s.source k).defined = false := by rw [Source.defined, hfree]; rfl
  simp only [cmdSourceDefine, hp, hdefined, if_neg Bool.false_ne_true, defineSource, hloop, hw, defineLoop, hclash,
    slotAddr_zero]

theorem exec_startCheckAnswer {now : Stamp} {status : ReadStatus} {data : SlotData} {k : SourceIx} {w : Window}
    {s : State} (hw : s.work = some (.startCheck k w)) (ha : s.awaitsCommand = true) :
    exec (.startCheckAnswer now status data) s = .next (answerStartCheck k w status data.toList (s.at now)) := by
  simp only [exec, execStartCheckAnswer, hw, ha]

theorem startChecked_good {k : SourceIx} {w : Window} {slot : List Byte} {s : State} (hsync : goodSync slot = true)
    (hstart : startFlag slot = true) :
    startChecked k w slot s = (.done 0, s.modSource k fun _ => Source.fresh .loop w 0) := by
  rw [startChecked, hsync, hstart, Bool.and_self, if_pos rfl]

theorem startChecked_bad {k : SourceIx} {w : Window} {slot : List Byte} {s : State}
    (h : ¬(goodSync slot = true ∧ startFlag slot = true)) : startChecked k w slot s = (.refused .badParam, s) := by
  rw [startChecked, if_neg (by simpa using h)]

/-- Settles O29, by what the start check's read answers. -/
theorem loopSourceDefinedByItsStartCheck : Obligations.LoopSourceDefinedByItsStartCheck := by
  refine ⟨fun now c k w s hi hp hfree hmode hw hclash => ?begun, fun now status data o rest q more k w s ho howner hwork hq =>
    ?answered⟩
  case begun =>
    exact exec_working (x := .sourceDefine now c) rfl rfl hi
      (cmdSourceDefine_loop (s := takenState 0x18 now c s) hp hfree hmode hw hclash)
      ((beginRead_deferred ..).trans (hi.takenState_deferred 0x18 now))
  case answered =>
    have hrow := exec_startCheckAnswer (now := now) (status := status) (data := data) hwork
      (awaitsCommand_of_cons ho howner)
    refine ⟨fun hok hgood => ?good, fun hok hbad => ?bad, fun herror => ?error⟩
    case good =>
      rw [hrow, hok]
      simp only [answerStartCheck, startChecked_good hgood.1 hgood.2, at_matched now ho]
      exact congrArg Host.Outcome.next (completeWork_cons (by exact hq) _)
    case bad =>
      rw [hrow, hok]
      simp only [answerStartCheck, startChecked_bad hbad, at_matched now ho]
      exact congrArg Host.Outcome.next (completeWork_cons (by exact hq) _)
    case error =>
      rw [hrow, herror]
      simp only [answerStartCheck, at_matched now ho]
      exact congrArg Host.Outcome.next (completeWork_cons (by exact hq) _)

/-! ### ALERT OVERLAY LOAD (R131) -/

theorem cmdAlertOverlayLoad_begins {p : Params} {g : GroupIx} {a : Addr} {s : State} (hg : pIndex 8 p 0 = some g)
    (ha : pAddr p 4 = some a) (haligned : a.toNat % 16 = 0) (hfits : a.toNat + 192 ≤ 2 ^ 36)
    (hdef : (s.group g).defined = true) (hpid : (s.group g).overlayPid ≠ none) :
    cmdAlertOverlayLoad p s = (.working, beginRead (.overlayLoad g) a s) := by
  have halign : aligned 16 a = true := by simpa [aligned] using haligned
  have hfit : fits a 192 = true := by simpa [fits] using hfits
  have hsome : (s.group g).overlayPid.isNone = false := by simpa [Option.isSome_iff_ne_none] using hpid
  simp [cmdAlertOverlayLoad, hg, ha, halign, hfit, hdef, hsome]

theorem exec_overlayLoadAnswer {now : Stamp} {status : ReadStatus} {data : SlotData} {g : GroupIx} {s : State}
    (hw : s.work = some (.overlayLoad g)) (ha : s.awaitsCommand = true) :
    exec (.overlayLoadAnswer now status data) s = .next (answerOverlayLoad g status data.toList (s.at now)) := by
  simp only [exec, execOverlayLoadAnswer, hw, ha]

theorem overlayLoaded_good {g : GroupIx} {slot : List Byte} {s : State} (h : goodSync slot = true) :
    overlayLoaded g slot s
      = (.done 0, { s with groups := vset s.groups g { s.group g with store := some (slot.take 188) } }) := by
  rw [overlayLoaded, if_pos h]
  rfl

theorem overlayLoaded_bad {g : GroupIx} {slot : List Byte} {s : State} (h : goodSync slot = false) :
    overlayLoaded g slot s = (.refused .badParam, s) := by
  rw [overlayLoaded, h, if_neg Bool.false_ne_true]

/-- Settles O30, by what the overlay's read answers. -/
theorem overlayStoreLoadedByItsRead : Obligations.OverlayStoreLoadedByItsRead := by
  refine ⟨fun now c g a s hi hg ha haligned hfits hdef hpid => ?begun,
    fun now status data o rest q more g s ho howner hwork hq => ?answered⟩
  case begun =>
    exact exec_working (x := .alertOverlayLoad now c) rfl rfl hi
      (cmdAlertOverlayLoad_begins (s := takenState 0x33 now c s) hg ha haligned hfits hdef hpid)
      ((beginRead_deferred ..).trans (hi.takenState_deferred 0x33 now))
  case answered =>
    have hrow := exec_overlayLoadAnswer (now := now) (status := status) (data := data) hwork
      (awaitsCommand_of_cons ho howner)
    refine ⟨fun hok hgood => ?good, fun hok hbad => ?bad, fun herror => ?error⟩
    case good =>
      rw [hrow, hok]
      simp only [answerOverlayLoad, overlayLoaded_good hgood, at_matched now ho]
      exact congrArg Host.Outcome.next (completeWork_cons (by exact hq) _)
    case bad =>
      rw [hrow, hok]
      simp only [answerOverlayLoad, overlayLoaded_bad hbad, at_matched now ho]
      exact congrArg Host.Outcome.next (completeWork_cons (by exact hq) _)
    case error =>
      rw [hrow, herror]
      simp only [answerOverlayLoad, at_matched now ho]
      exact congrArg Host.Outcome.next (completeWork_cons (by exact hq) _)

end Sys2Proof.Machine
end

