-- ==== Sys2Proof/Proofs/Timers.lean ====
section
/-! PROOF. The events of the station clock: channel expiry with the pre-roll check it starts (R87, R91, R119), stale stamps
(R80), and the arming of a pre-roll (R90). -/

namespace Sys2Proof.Machine

/-! ### Attachment (R55) -/

/-- A source attached to an owner (R55). -/
def State.attachedTo (s : State) (k : SourceIx) (o : InsOwner) : State := s.modSource k (Source.attachTo o)

theorem mode_ne_active {s : State} (h : s.mode = .active) : (s.mode != .active) = false := by simp [h]

theorem attach_attached {k : SourceIx} {o : InsOwner} {s : State} (hm : s.mode = .active)
    (hd : (s.source k).defined = true) (ha : ∀ q, (s.source k).attachment = some q → q = o) :
    attach k o s = (.attached, s.attachedTo k o) := by
  have hanswer : attachAnswer k o s = .attached := by
    unfold attachAnswer
    rw [mode_ne_active hm, hd]
    cases hq : (s.source k).attachment with
    | none => rfl
    | some q => simp [ha q hq]
  rw [attach, hanswer]
  rfl

theorem attach_bypass {k : SourceIx} {o : InsOwner} {s : State} (hm : s.mode ≠ .active) :
    attach k o s = (.mode, s) := by
  have hanswer : attachAnswer k o s = .mode := by simp [attachAnswer, hm]
  rw [attach, hanswer]

theorem attach_noSource {k : SourceIx} {o : InsOwner} {s : State} (hm : s.mode = .active)
    (hd : (s.source k).defined = false) : attach k o s = (.noSource, s) := by
  have hanswer : attachAnswer k o s = .noSource := by simp [attachAnswer, hm, hd]
  rw [attach, hanswer]

theorem attach_busy {k : SourceIx} {o q : InsOwner} {s : State} (hm : s.mode = .active)
    (hd : (s.source k).defined = true) (hq : (s.source k).attachment = some q) (hne : q ≠ o) :
    attach k o s = (.sourceBusy, s) := by
  have hanswer : attachAnswer k o s = .sourceBusy := by simp [attachAnswer, hm, hd, hq, hne]
  rw [attach, hanswer]

/-- A source is refused to an owner for a not-ready cause (R55, R87). -/
def State.Refuses (s : State) (k : SourceIx) (o : InsOwner) : NotReadyCause → Prop
  | .bypass => s.mode ≠ .active
  | .noSource => s.mode = .active ∧ (s.source k).defined = false
  | .sourceBusy => s.mode = .active ∧ (s.source k).defined = true ∧ ∃ q, (s.source k).attachment = some q ∧ q ≠ o

/-- The answer that refuses a source for a cause. -/
def NotReadyCause.answer : NotReadyCause → AttachAnswer
  | .bypass => .mode
  | .noSource => .noSource
  | .sourceBusy => .sourceBusy

theorem answer_notReady (cause : NotReadyCause) : cause.answer.notReady = some cause := by cases cause <;> rfl

theorem attach_refused {k : SourceIx} {o : InsOwner} {cause : NotReadyCause} {s : State} (h : s.Refuses k o cause) :
    attach k o s = (cause.answer, s) := by
  cases cause with
  | bypass => exact attach_bypass h
  | noSource => exact attach_noSource h.1 h.2
  | sourceBusy =>
    obtain ⟨hm, hd, q, hq, hne⟩ := h
    exact attach_busy hm hd hq hne

theorem attachedTo_source (s : State) (k : SourceIx) (o : InsOwner) :
    (s.attachedTo k o).source k = (s.source k).attachTo o := modSource_source_self ..

/-! ### The pre-roll check of a break (R87) -/

theorem mapEntry_mapEntry {ev : EventId} {f g : BreakEntry → BreakEntry} (hf : ∀ x, (f x).event = x.event)
    (l : List BreakEntry) : mapEntry ev g (mapEntry ev f l) = mapEntry ev (fun x => g (f x)) l := by
  rw [mapEntry, mapEntry, mapEntry, List.map_map]
  refine List.map_congr_left fun x _ => ?_
  by_cases hx : x.event = ev
  · simp [hx, hf]
  · simp [hx]

theorem modEntry_modEntry {i : ServiceIx} {ev : EventId} {f g : BreakEntry → BreakEntry}
    (hf : ∀ x, (f x).event = x.event) (s : State) :
    (s.modEntry i ev f).modEntry i ev g = s.modEntry i ev fun x => g (f x) := by
  simp only [State.modEntry, modService_modService, mapEntry_mapEntry hf]

theorem checkEntry_unbound {i : ServiceIx} {e : BreakEntry} {s : State} (h : vget (s.service i).avails e.avail = none) :
    checkEntry i e s = offer (breakReport i e.event .notReady .noSource (some e.splice) (some s.now) 0 none)
      (s.modEntry i e.event fun x => { x with state := .notReady .noSource }) := by
  simp only [checkEntry, resolveEntry, h]
  rfl

theorem checkEntry_attached {i : ServiceIx} {e : BreakEntry} {b : Binding} {s : State}
    (h : vget (s.service i).avails e.avail = some b)
    (ha : attach b.source (.brk i e.event) s = (.attached, s.attachedTo b.source (.brk i e.event))) :
    checkEntry i e s = offer
      (breakReport i e.event .ready (if (s.source b.source).isLow then .lowFill else .none) (some e.splice) (some s.now)
        (s.source b.source).reportedFill (some b.source))
      ((s.attachedTo b.source (.brk i e.event)).modEntry i e.event fun x =>
        { x with binding := some b, state := .ready }) := by
  simp only [checkEntry, resolveEntry, h, ha]
  rw [modEntry_modEntry (f := fun x => { x with binding := some b }) fun _ => rfl]
  have hsource : (((s.attachedTo b.source (.brk i e.event)).modEntry i e.event fun x =>
      { x with binding := some b }).source b.source) = (s.source b.source).attachTo (.brk i e.event) :=
    attachedTo_source s b.source _
  rw [readyReport, hsource]
  rfl

theorem checkEntry_refused {i : ServiceIx} {e : BreakEntry} {b : Binding} {cause : NotReadyCause} {s : State}
    (h : vget (s.service i).avails e.avail = some b) (hr : s.Refuses b.source (.brk i e.event) cause) :
    checkEntry i e s = offer
      (breakReport i e.event .notReady cause.cause (some e.splice) (some s.now) 0 (some b.source))
      (s.modEntry i e.event fun x => { x with state := .notReady cause }) := by
  simp only [checkEntry, resolveEntry, h, attach_refused hr]
  cases cause <;> rfl

/-! ### The pre-roll check of a local slot (R119) -/

theorem checkSlot_loaded {i : ServiceIx} {l : SlotLetter} {p : LocalProg} {s : State}
    (h : (s.service i).slot l = some p) (hp : p.state = .loaded) : checkSlot i l s = checkLoaded i l p s := by
  simp [checkSlot, h, hp]

theorem checkLoaded_attached {i : ServiceIx} {l : SlotLetter} {p : LocalProg} {s : State}
    (ha : attach p.source (.loc i l) s = (.attached, s.attachedTo p.source (.loc i l))) :
    checkLoaded i l p s = offer
      (localReport i l .ready (if (s.source p.source).isLow then .lowFill else .none) (some p.start) (some s.now)
        (s.source p.source).reportedFill p.source)
      ((s.attachedTo p.source (.loc i l)).modSlot i l fun x => { x with state := .ready }) := by
  simp only [checkLoaded, ha, AttachAnswer.notReady, slotReadyReport, attachedTo_source]
  rfl

theorem checkLoaded_refused {i : ServiceIx} {l : SlotLetter} {p : LocalProg} {cause : NotReadyCause} {s : State}
    (hr : s.Refuses p.source (.loc i l) cause) :
    checkLoaded i l p s = offer (localReport i l .notReady cause.cause (some p.start) (some s.now) 0 p.source)
      (s.modSlot i l fun x => { x with state := .notReady cause }) := by
  simp only [checkLoaded, attach_refused hr, answer_notReady]
  rfl

/-! ### Channel expiry (R91) -/

theorem before_eq_true {a b : Stamp} : before a b = true ↔ atOrAfter a b = false := by simp [before]

theorem exec_channelExpiry_early {now : Stamp} {ch : Channel} {rest : List Channel} {s : State} (hb : s.bank = ch :: rest)
    (h : before now ch.deadline = true) : exec (.channelExpiry now) s = .next (s.at now) := by
  simp only [exec, execChannelExpiry, hb, before_eq_true.mp h, Bool.false_eq_true, if_false]

/-- The state in which the check of an expired channel's owner runs. -/
def State.expired (s : State) (now : Stamp) (rest : List Channel) : State := { s with now := now, bank := rest }

theorem exec_channelExpiry_due {now : Stamp} {ch : Channel} {rest : List Channel} {s : State} (hb : s.bank = ch :: rest)
    (hd : s.deferred = []) (hc : Calm s) (h : atOrAfter now ch.deadline = true) :
    exec (.channelExpiry now) s = .next (checkOwner ch.owner (s.expired now rest)) := by
  have hquiet : Quiet (s.expired now rest) (checkOwner ch.owner (s.expired now rest)) := checkOwner_quiet .refl
  have hdeferred : (checkOwner ch.owner (s.expired now rest)).deferred = [] := (hquiet.put hc).trans hd
  have hexpire : expireChannel ch (s.at now) = checkOwner ch.owner (s.expired now rest) :=
    congrArg (fun bank => checkOwner ch.owner (s.expired now bank)) (congrArg List.tail hb)
  simp only [exec, execChannelExpiry, hb, h, if_true, hexpire, settle_nil hdeferred]

/-- Settles O32, by the pre-roll checks of the two kinds of owner. -/
theorem channelExpiryRunsPreRollCheck : Obligations.ChannelExpiryRunsPreRollCheck := by
  intro now ch rest s hb hd hc u refusal attachable reason
  have hreason (cause : NotReadyCause) : reason cause = cause.cause := by cases cause <;> rfl
  have hrefuses {k : SourceIx} {o : InsOwner} {cause : NotReadyCause} (h : refusal k o cause) :
      (s.expired now rest).Refuses k o cause := by cases cause <;> exact h
  have hattach {k : SourceIx} {o : InsOwner} (h : attachable k o) :
      attach k o (s.expired now rest) = (.attached, (s.expired now rest).attachedTo k o) :=
    attach_attached (s := s.expired now rest) h.1 h.2.1 h.2.2
  refine ⟨fun h => exec_channelExpiry_early hb h, fun i ev e h howner hfind hstate => ?brk,
    fun i l p h howner hslot hstate => ?slot⟩
  case brk =>
    have hev : e.event = ev := findEntry_event hfind
    subst hev
    have hexec : exec (.channelExpiry now) s = .next (checkEntry i e (s.expired now rest)) := by
      rw [exec_channelExpiry_due hb hd hc h, howner]
      exact congrArg _ (checkBreak_scheduled (s := s.expired now rest) hfind hstate)
    rw [hexec]
    refine ⟨fun hnone => congrArg _ (checkEntry_unbound (s := s.expired now rest) hnone), fun b hb' => ⟨fun ha => ?_,
      fun cause hr => ?_⟩⟩
    · rw [howner] at ha ⊢
      exact congrArg _ (checkEntry_attached (s := s.expired now rest) hb' (hattach ha))
    · rw [howner] at hr
      rw [hreason]
      exact congrArg _ (checkEntry_refused (s := s.expired now rest) hb' (hrefuses hr))
  case slot =>
    have hexec : exec (.channelExpiry now) s = .next (checkLoaded i l p (s.expired now rest)) := by
      rw [exec_channelExpiry_due hb hd hc h, howner]
      exact congrArg _ (checkSlot_loaded (s := s.expired now rest) hslot hstate)
    rw [hexec, howner]
    refine ⟨fun ha => congrArg _ (checkLoaded_attached (s := s.expired now rest) (hattach ha)), fun cause hr => ?_⟩
    rw [hreason]
    exact congrArg _ (checkLoaded_refused (s := s.expired now rest) (hrefuses hr))

/-! ### Stale stamps (R80) -/

theorem departStale_brk {i : ServiceIx} {ev : EventId} {e : BreakEntry} {s : State}
    (h : (s.service i).findEntry ev = some e) : departStale (.brk i ev) s = staleBreak i e s := by
  simp only [departStale, h]

theorem departStale_loc {i : ServiceIx} {l : SlotLetter} {p : LocalProg} {s : State}
    (h : (s.service i).slot l = some p) : departStale (.loc i l) s = staleSlot i l p s := by
  simp only [departStale, h]

/-- Settles O33, by the owner's kind and state. -/
theorem staleStampsMakeOwnersDepart : Obligations.StaleStampsMakeOwnersDepart := by
  intro now i s u
  have hnow : u.now = now := rfl
  have hexec (o : InsOwner) : exec (.staleStampDeparture now o) s = .next (settle (departStale o u)) := rfl
  refine ⟨fun ev e hfind hstate hfar => ?waiting, fun ev e r hfind hstate hret hfar => ?active,
    fun l p hslot hstate hfar => ?loaded, fun l p hslot hstate hfar => ?running⟩
  case waiting =>
    have hev : e.event = ev := findEntry_event hfind
    rw [hexec, departStale_brk (s := u) hfind]
    simp [staleBreak, stale, isActive_eq_false hstate, hnow, hfar, hev]
  case active =>
    have hev : e.event = ev := findEntry_event hfind
    rw [hexec, departStale_brk (s := u) hfind]
    simp [staleBreak, stale, isActive_iff.mpr hstate, hret, hnow, hfar, hev]
  case loaded =>
    rw [hexec, departStale_loc (s := u) hslot]
    simp [staleSlot, stale, isRunning_eq_false hstate, hnow, hfar]
  case running =>
    rw [hexec, departStale_loc (s := u) hslot]
    simp [staleSlot, stale, isRunning_iff.mpr hstate, hnow, hfar]

/-! ### Arming (R90) -/

/-- A channel is placed before the first one with a later deadline (R89). -/
theorem insertChannel_eq (c : Channel) (l : List Channel) :
    ∃ before_ after, l = before_ ++ after ∧ (∀ x ∈ before_, later x.deadline c.deadline = false)
      ∧ (∀ x ∈ after.head?, later x.deadline c.deadline = true) ∧ insertChannel c l = before_ ++ [c] ++ after := by
  induction l with
  | nil => exact ⟨[], [], rfl, fun _ h => absurd h List.not_mem_nil, fun _ h => absurd h (Option.not_mem_none _), rfl⟩
  | cons x l ih =>
    by_cases hx : later x.deadline c.deadline = true
    · refine ⟨[], x :: l, rfl, fun _ h => absurd h List.not_mem_nil, fun y hy => ?_, if_pos hx⟩
      exact Option.some.inj hy ▸ hx
    · obtain ⟨p, q, hl, hp, hq, hins⟩ := ih
      refine ⟨x :: p, q, congrArg (x :: ·) hl, fun y hy => ?_, hq, ?_⟩
      · cases List.mem_cons.mp hy with
        | inl h => exact h ▸ Bool.eq_false_iff.mpr hx
        | inr h => exact hp y h
      · rw [insertChannel, if_neg hx, hins]
        rfl

/-- Settles O35, by the bank's three answers. -/
theorem preRollIsArmedCheckedOrUntimed : Obligations.PreRollIsArmedCheckedOrUntimed := by
  intro i ev e s h moment
  have harm : armBreak i ev s = armPreRoll moment (.brk i ev) (checkBreak i ev) s := armBreak_of_find h
  rw [harm]
  refine ⟨fun hcome hstate => ?_, fun hlater hroom => ?_, fun hlater hfull => armPreRoll_noTimer _ _ hlater hfull⟩
  · rw [armPreRoll_checks _ _ hcome, checkBreak_scheduled h hstate]
  · obtain ⟨p, q, hl, hp, hq, hins⟩ := insertChannel_eq { deadline := moment, owner := .brk i ev } s.bank
    exact ⟨p, q, hl, hp, hq, (armPreRoll_armed _ _ hlater hroom).trans
      (congrArg (fun bank => { s with bank := bank }) hins)⟩

end Sys2Proof.Machine
end

