-- ==== Sys2Proof/Proofs/LinkFrames.lean ====
section
/-! PROOF. The Alert Link Interface's frames and watchdog (R147 to R154): ARM and CLEAR, the bytes and their answers, the
status read, the discarded frame, the keepalive and the period. -/

namespace Sys2Proof.Machine

/-! ### ARM and CLEAR (R149) -/

theorem armEffect_group {f : Frame} {g : GroupIx} {c level : Byte} (hf : f.bytes = [c, BitVec.ofNat 8 g.val, level])
    (s : State) :
    armEffect f s = { s with link := { s.link with arm := some { group := g, level := level.toNat } } } := by
  have hgroup : (byteAt f.bytes 1).toNat = g.val := by
    rw [hf]
    exact Nat.mod_eq_of_lt (Nat.lt_trans g.isLt (by decide))
  have hlevel : byteAt f.bytes 2 = level := by rw [hf]; rfl
  simp only [armEffect, hgroup, hlevel, g.isLt, dite_true]

/-- Settles O38, by the two frames' effects. -/
theorem armAndClearSetPendingArm : Obligations.ArmAndClearSetPendingArm := by
  refine fun now f s => ⟨fun g level hframe hbytes => ?arm, fun hframe => ?clear⟩
  case arm =>
    have hexec : exec (.armFrame now) s = .next (armEffect f (s.frameTaken now)) := by
      simp only [exec, execArmFrame, hframe]
      rfl
    exact hexec.trans (congrArg _ (armEffect_group hbytes (s.frameTaken now)))
  case clear =>
    simp only [exec, execClearFrame, hframe]
    rfl

/-! ### The keepalive and the period (R154) -/

/-- The state a KEEPALIVE frame marks. -/
def State.keptAlive (s : State) (now : Stamp) : State :=
  { s with now := now, link := { s.link with frame := none, mark := true, lastKeepalive := some now, lost := false } }

theorem exec_keepaliveFrame {now : Stamp} {f : Frame} {s : State} (h : s.completeFrame 0x04 = some f) :
    exec (.keepaliveFrame now) s = .next (settle (keepaliveEffect (s.frameTaken now))) := by
  simp only [exec, execKeepaliveFrame, h]
  rfl

theorem keepaliveEffect_up {now : Stamp} {s : State} (h : s.link.lost = false) :
    keepaliveEffect (s.frameTaken now) = s.keptAlive now := by
  have hlost : (s.frameTaken now).link.lost = false := h
  rw [keepaliveEffect, hlost]
  rfl

theorem keepaliveEffect_lost {now st : Stamp} {s : State} (h : s.link.lost = true) (hst : s.link.lostStamp = some st) :
    keepaliveEffect (s.frameTaken now)
      = offer (linkReport .up .none none now (some st) (now - st)) (s.keptAlive now) := by
  have hlost : (s.frameTaken now).link.lost = true := h
  have hstamp : (s.frameTaken now).link.lostStamp = some st := hst
  rw [keepaliveEffect, hlost, hstamp]
  rfl

theorem exec_periodTimerExpiry {now : Stamp} {p : Period} {s : State} (h : s.link.period = some p) :
    exec (.periodTimerExpiry now) s
      = .next (if atOrAfter now p.expiry then settle (expirePeriod p (s.at now)) else s.at now) := by
  simp only [exec, execPeriodTimerExpiry, h]

theorem expirePeriod_kept {p : Period} {s : State} (h : s.link.mark = true ∨ s.link.lost = true) :
    expirePeriod p s = nextPeriod s := by
  have hcond : (!s.link.mark && !s.link.lost) = false := by
    cases h with
    | inl hmark => rw [hmark]; rfl
    | inr hlost => rw [hlost, Bool.not_true, Bool.and_false]
  rw [expirePeriod, hcond]
  rfl

theorem expirePeriod_loses {p : Period} {s : State} (hmark : s.link.mark = false) (hlost : s.link.lost = false) :
    expirePeriod p s = nextPeriod (loseLink p.seconds s) := by
  rw [expirePeriod, hmark, hlost]
  rfl

theorem loseLink_interval (n : Nat) (s : State) : (loseLink n s).link.interval = s.link.interval := by
  rw [loseLink, offer_link, raise_link]

theorem loseLink_now (n : Nat) (s : State) : (loseLink n s).now = s.now := by
  rw [loseLink, offer_now, raise_now]

/-- Steps 3 and 4 of R154 in a state whose link has this interval and whose clock this stamp. -/
theorem nextPeriod_eq {interval : Nat} {now : Stamp} {s : State} (hi : s.link.interval = interval) (hn : s.now = now) :
    nextPeriod s = { s with link := { s.link with
      mark := false
      period := if interval = 0 then none
        else some { expiry := now + BitVec.ofNat 32 (interval * 90000), seconds := interval } } } := by
  rw [nextPeriod, hi, hn, beginPeriod_eq]

/-- Settles O39, by the two rows' cases. -/
theorem watchdogLosesAndRegainsLink : Obligations.WatchdogLosesAndRegainsLink := by
  intro now s hd hc marked next_ renewed
  refine ⟨fun f hf hlost => ?up, fun f st hf hlost hst => ?regained, fun p hp hdue hkept => ?kept,
    fun p hp hdue hmark hlost => ?loses, fun p hp hearly => ?early⟩
  case up =>
    rw [exec_keepaliveFrame hf, keepaliveEffect_up hlost]
    exact congrArg _ (settle_nil (s := s.keptAlive now) hd)
  case regained =>
    rw [exec_keepaliveFrame hf, keepaliveEffect_lost hlost hst]
    exact congrArg _ (settle_nil ((offer_deferred (s := s.keptAlive now) _ hc).trans hd))
  case kept =>
    rw [exec_periodTimerExpiry hp, if_pos hdue, expirePeriod_kept (s := s.at now) hkept,
      nextPeriod_eq (s := s.at now) rfl rfl]
    exact congrArg _ (settle_nil (s := renewed (s.at now)) hd)
  case loses =>
    rw [exec_periodTimerExpiry hp, if_pos hdue, expirePeriod_loses (s := s.at now) hmark hlost,
      nextPeriod_eq (loseLink_interval p.seconds (s.at now)) (loseLink_now p.seconds (s.at now))]
    rfl
  case early =>
    have hnot : atOrAfter now p.expiry = false := by simpa [before] using hearly
    rw [exec_periodTimerExpiry hp, hnot]
    rfl

/-! ### Bytes (R147, R148) -/

theorem exec_linkByteReceived {now : Stamp} {b : Byte} {s : State} (hframe : s.link.frame ≠ none) :
    exec (.linkByteReceived now false b) s = .next (receiveIn s.frameInHand b (s.at now)) := by
  cases hf : s.link.frame with
  | none => exact absurd hf hframe
  | some f =>
    have hat : (s.at now).link.frame = some f := hf
    simp only [exec, execLinkByteReceived, Bool.false_eq_true, if_false, receiveByte, hat, State.frameInHand, hf,
      Option.getD_some]

theorem exec_linkByteReceived_first {now : Stamp} {b : Byte} {s : State} (hframe : s.link.frame = none) :
    exec (.linkByteReceived now true b) s = .next (receiveIn s.frameInHand b ((s.at now).setFrame (some Frame.begun))) := by
  have hat : (s.at now).link.frame = none := hframe
  simp only [exec, execLinkByteReceived, if_true, startCondition, hat, State.frameInHand, hframe, Option.getD_none]
  rfl

theorem exec_linkByteReceived_unframed {now : Stamp} {b : Byte} {s : State} (hframe : s.link.frame = none) :
    exec (.linkByteReceived now false b) s = .next ((s.at now).emit .linkNak) := by
  have hat : (s.at now).link.frame = none := hframe
  simp only [exec, execLinkByteReceived, Bool.false_eq_true, if_false, receiveByte, hat]

theorem exec_linkByteReceived_next {now : Stamp} {b : Byte} {g : Frame} {s : State} (hframe : s.link.frame = some g) :
    exec (.linkByteReceived now true b) s
      = .next (receiveByte b ((settle (endFrame g (s.at now))).setFrame (some Frame.begun))) := by
  have hat : (s.at now).link.frame = some g := hframe
  simp only [exec, execLinkByteReceived, if_true, startCondition, hat]

/-- The state that holds a frame and has emitted these port events since. -/
def State.holding (s : State) (now : Stamp) (g : Option Frame) (out : List PortEvent) : State :=
  { s with now := now, link := { s.link with frame := g }, emitted := s.emitted ++ out }

/-- A byte received in a frame, with its answer. -/
theorem receiveIn_eq (f : Frame) (b : Byte) (now : Stamp) (g : Option Frame) (s : State) :
    receiveIn f b ((s.at now).setFrame g) = s.holding now (some (f.receive s.link b (linkStatusByte s)))
      [if acked s.link f b then .linkAck else .linkNak] := rfl

/-- The frame in hand is where it is. -/
theorem setFrame_self (s : State) : s.setFrame s.link.frame = s := rfl

/-! ### The end of a frame (R148) -/

theorem endFrame_discarded {f : Frame} {s : State} (hc : f.complete s.link = false)
    (hs : f.statusDone s.link = false) : endFrame f s = discardFrame f s := by
  rw [endFrame, hc, hs]
  rfl

theorem raisesFormat_iff (f : Frame) (l : Link) :
    f.raisesFormat l = true ↔ l.enabled = true ∧ f.nakedDisabled = false := by simp [Frame.raisesFormat]

theorem exec_frameDiscard {now : Stamp} {s : State} (h : s.frameInHand.complete s.link = false) :
    exec (.frameDiscard now) s = .next (settle (endFrame s.frameInHand (s.at now))) := by
  simp only [exec, execFrameDiscard, h, Bool.false_eq_true, if_false]

theorem exec_frameDiscard_complete {now : Stamp} {s : State} (h : s.frameInHand.complete s.link = true) :
    exec (.frameDiscard now) s = .next (s.at now) := by
  simp only [exec, execFrameDiscard, h, if_true]

theorem discardFrame_silent {f : Frame} {s : State} (h : s.link.enabled = false ∨ f.nakedDisabled = true) :
    discardFrame f s = s.setFrame none := by
  have hnot : ¬f.raisesFormat s.link = true := fun hr => by
    obtain ⟨he, hn⟩ := (raisesFormat_iff f s.link).mp hr
    cases h with
    | inl hoff => exact Bool.noConfusion (hoff.symm.trans he)
    | inr hnak => exact Bool.noConfusion (hn.symm.trans hnak)
  simp only [discardFrame, if_neg hnot]

theorem discardFrame_raises {f : Frame} {s : State} (he : s.link.enabled = true) (hn : f.nakedDisabled = false) :
    discardFrame f s = raise { kind := .linkFormat, packet := some (packetHead f.bytes) } (s.setFrame none) := by
  simp only [discardFrame, if_pos ((raisesFormat_iff f s.link).mpr ⟨he, hn⟩)]
  rfl

/-! ### The status read (R152) -/

theorem exec_statusRead_first {now : Stamp} {s : State} (h : s.frameInHand.bytes = []) :
    exec (.statusRead now) s = .next (readStatus (receiveIn s.frameInHand 0x80 (s.at now))) := by
  simp only [exec, execStatusRead, h, List.isEmpty_nil, if_true]

theorem exec_statusRead_further {now : Stamp} {s : State} (h : s.frameInHand.bytes ≠ []) :
    exec (.statusRead now) s = .next (readStatus (s.at now)) := by
  simp only [exec, execStatusRead, List.isEmpty_eq_false_iff.mpr h, Bool.false_eq_true, if_false]

theorem readStatus_sampled {f : Frame} {b : Byte} {s : State} (hf : s.link.frame = some f) (hb : f.sample = some b) :
    readStatus s = sendStatus f b s := by
  simp only [readStatus, hf, hb]

theorem readStatus_unsampled {f : Frame} {s : State} (hf : s.link.frame = some f) (hb : f.sample = none) :
    readStatus s = s := by
  simp only [readStatus, hf, hb]

theorem frameInHand_some {g : Frame} {s : State} (h : s.link.frame = some g) : s.frameInHand = g := by
  rw [State.frameInHand, h, Option.getD_some]

theorem frameInHand_none {s : State} (h : s.link.frame = none) : s.frameInHand = Frame.begun := by
  rw [State.frameInHand, h, Option.getD_none]

/-- The command byte of a status read, received first, on an enabled link. -/
theorem exec_statusRead_enabled {now : Stamp} {s : State} (hf : s.link.frame = none) (he : s.link.enabled = true) :
    exec (.statusRead now) s = .next (s.holding now
      (some { bytes := [0x80], naked := false, nakedDisabled := false, sample := some (linkStatusByte s), sent := 1 })
      [.linkAck, .linkSend (linkStatusByte s)]) := by
  have hin : s.frameInHand = Frame.begun := frameInHand_none hf
  have hack : acked s.link Frame.begun 0x80 = true := by rw [acked, he]; rfl
  have hreceived : Frame.begun.receive s.link 0x80 (linkStatusByte s)
      = { bytes := [0x80], naked := false, nakedDisabled := false, sample := some (linkStatusByte s), sent := 0 } := by
    rw [Frame.receive, hack, he]
    rfl
  rw [exec_statusRead_first (by rw [hin]; rfl), hin]
  have hreceive : receiveIn Frame.begun 0x80 (s.at now) = s.holding now
      (some { bytes := [0x80], naked := false, nakedDisabled := false, sample := some (linkStatusByte s), sent := 0 })
      [.linkAck] := by
    refine (receiveIn_eq Frame.begun 0x80 now s.link.frame s).trans ?_
    rw [hreceived, hack]
    rfl
  rw [hreceive, readStatus_sampled rfl rfl]
  simp [sendStatus, State.holding, State.setFrame, State.emit]

/-- On a disabled link the command byte is NAKed, and nothing is sent. -/
theorem exec_statusRead_disabled {now : Stamp} {s : State} (hf : s.link.frame = none) (he : s.link.enabled = false) :
    exec (.statusRead now) s = .next (s.holding now
      (some { bytes := [0x80], naked := true, nakedDisabled := true, sample := none, sent := 0 }) [.linkNak]) := by
  have hin : s.frameInHand = Frame.begun := frameInHand_none hf
  have hack : acked s.link Frame.begun 0x80 = false := by rw [acked, he]; rfl
  have hreceived : Frame.begun.receive s.link 0x80 (linkStatusByte s)
      = { bytes := [0x80], naked := true, nakedDisabled := true, sample := none, sent := 0 } := by
    rw [Frame.receive, hack, he]
    rfl
  have hreceive : receiveIn Frame.begun 0x80 (s.at now) = s.holding now
      (some { bytes := [0x80], naked := true, nakedDisabled := true, sample := none, sent := 0 }) [.linkNak] := by
    refine (receiveIn_eq Frame.begun 0x80 now s.link.frame s).trans ?_
    rw [hreceived, hack]
    rfl
  rw [exec_statusRead_first (by rw [hin]; rfl), hin, hreceive, readStatus_unsampled rfl rfl]

/-- Settles O40, row by row. -/
theorem linkAnswersBytesAndStatusReads : Obligations.LinkAnswersBytesAndStatusReads := by
  intro now s f hold
  have hin : s.frameInHand = f := rfl
  have hkeep (g : Option Frame) : (s.at now).setFrame g = hold g [] := by
    simp only [hold, List.append_nil]
    rfl
  refine ⟨fun start b hstart => ?byte, fun b hnone => ?unframed, fun b g hg => exec_linkByteReceived_next hg,
    fun g hg hcomplete hdone => ?ended, fun hcomplete => exec_frameDiscard_complete hcomplete,
    fun hcomplete hdone hd => ?read, fun hcomplete hdone hd hoff => ?silent,
    fun hcomplete hdone he hn => ?raised, fun hnone he => exec_statusRead_enabled hnone he,
    fun hnone he => exec_statusRead_disabled hnone he, fun g b hg hbytes hsample => ?further,
    fun g hg hbytes hsample => ?unsampled⟩
  case byte =>
    cases hstart with
    | inl h =>
      obtain ⟨hstart, hnone⟩ := h
      rw [hstart]
      exact (exec_linkByteReceived_first hnone).trans (congrArg _ (receiveIn_eq f b now (some Frame.begun) s))
    | inr h =>
      obtain ⟨hstart, hsome⟩ := h
      rw [hstart]
      exact (exec_linkByteReceived hsome).trans (congrArg _ (receiveIn_eq f b now s.link.frame s))
  case unframed =>
    rw [exec_linkByteReceived_unframed hnone, ← setFrame_self (s.at now)]
    exact congrArg (fun g => Host.Outcome.next (s.holding now g [.linkNak])) hnone
  case ended =>
    rw [endFrame_discarded hcomplete hdone]
    by_cases hr : s.link.enabled = true ∧ g.nakedDisabled = false
    · rw [if_pos hr, discardFrame_raises hr.1 hr.2]
    · rw [if_neg hr]
      refine discardFrame_silent ?_
      cases he : s.link.enabled with
      | false => exact Or.inl rfl
      | true => exact Or.inr (by simpa [he] using hr)
  case read =>
    have hend : endFrame f (s.at now) = (s.at now).setFrame none := by
      have hc : f.complete (s.at now).link = false := hcomplete
      have hs : f.statusDone (s.at now).link = true := hdone
      rw [endFrame, hc, hs]
      rfl
    rw [exec_frameDiscard hcomplete, hin, hend, hkeep]
    exact congrArg _ (settle_nil (s := hold none []) hd)
  case silent =>
    rw [exec_frameDiscard hcomplete, hin, endFrame_discarded (s := s.at now) hcomplete hdone,
      discardFrame_silent (s := s.at now) hoff, hkeep]
    exact congrArg _ (settle_nil (s := hold none []) hd)
  case raised =>
    rw [exec_frameDiscard hcomplete, hin, endFrame_discarded (s := s.at now) hcomplete hdone,
      discardFrame_raises (s := s.at now) he hn, hkeep]
  case further =>
    rw [exec_statusRead_further (by rw [frameInHand_some hg]; exact hbytes),
      readStatus_sampled (s := s.at now) hg hsample]
    simp only [sendStatus, beq_iff_eq]
    rfl
  case unsampled =>
    rw [exec_statusRead_further (by rw [frameInHand_some hg]; exact hbytes),
      readStatus_unsampled (s := s.at now) hg hsample]
    rfl

end Sys2Proof.Machine
end

