-- ==== Sys2Proof/Proofs/PartEnds.lean ====
section
/-! PROOF. DISABLE (R161), over what the end of every alert (R144) and the component reset (R12) leave of a service. -/

namespace Sys2Proof.Machine

/-! ### A service when alerts end -/

/-- What a component record is known by, whatever it shows. -/
def Component.identity (c : Component) : Pid × CompKind × Option (BitVec 4) := (c.pid, c.kind, c.outCc)

/-- Between two records of a service no insertion has begun, and what the service is defined by stands. -/
structure Service.Winds (v w : Service) : Prop where
  held : w.held = v.held
  avails : w.avails = v.avails
  window : w.window = v.window
  track : w.track = v.track
  comps : w.comps.map Component.identity = v.comps.map Component.identity
  schedule : v.schedule = [] → w.schedule = []
  slot : ∀ l, v.slot l = none → w.slot l = none
  activeHead : v.activeHead = none → w.activeHead = none
  running : v.running = none → w.running = none

namespace Service.Winds

theorem refl (v : Service) : v.Winds v := ⟨rfl, rfl, rfl, rfl, rfl, id, fun _ => id, id, id⟩

theorem trans {u v w : Service} (h : u.Winds v) (k : v.Winds w) : u.Winds w where
  held := k.held.trans h.held
  avails := k.avails.trans h.avails
  window := k.window.trans h.window
  track := k.track.trans h.track
  comps := k.comps.trans h.comps
  schedule := k.schedule ∘ h.schedule
  slot l := k.slot l ∘ h.slot l
  activeHead := k.activeHead ∘ h.activeHead
  running := k.running ∘ h.running

/-- A record whose insertions stand and whose components keep what they are known by. -/
theorem recomposed (v : Service) (owner : Option AlertIx) (nulls : BitVec 8) {f : Component → Component}
    (hf : ∀ c, (f c).identity = c.identity) :
    v.Winds { v with owner := owner, overlayNulls := nulls, comps := v.comps.map f } where
  held := rfl
  avails := rfl
  window := rfl
  track := rfl
  comps := by rw [List.map_map]; exact List.map_congr_left fun c _ => hf c
  schedule := id
  slot l h := by cases l <;> exact h
  activeHead := id
  running h := h

end Service.Winds

theorem activeHead_of_nil {v : Service} (h : v.schedule = []) : v.activeHead = none := by
  rw [Service.activeHead, h]

theorem breakEnded_of_idle {v : Service} (h : v.activeHead = none) : v.breakEnded = v := by
  rw [Service.breakEnded, h, Option.elim_none]

/-- A field the end of insertions does not write stands. -/
theorem congr_of_core {α : Type} (f : Service → α) (hf : ∀ v, f v.core = f v) {v w : Service} (h : w.core = v.core) :
    f w = f v := (hf w).symm.trans ((congrArg f h).trans (hf v))

theorem breakEnded_winds (v : Service) : v.Winds v.breakEnded where
  held := congr_of_core Service.held (fun _ => rfl) (breakEnded_core v)
  avails := congr_of_core Service.avails (fun _ => rfl) (breakEnded_core v)
  window := window_of_core (breakEnded_core v)
  track := congr_of_core Service.track (fun _ => rfl) (breakEnded_core v)
  comps := congr_of_core (fun v => v.comps.map Component.identity) (fun _ => rfl) (breakEnded_core v)
  schedule h := by rw [breakEnded_of_idle (activeHead_of_nil h), h]
  slot l h := (breakEnded_slot v l).trans h
  activeHead h := by rw [breakEnded_of_idle h, h]
  running h := (breakEnded_running v).trans h

theorem underGroup_identity (g : AlertGroup) (c : Component) : (c.underGroup g).identity = c.identity := by
  unfold Component.underGroup
  split <;> rfl

theorem giveOwner_winds (v : Service) (owner : Option AlertIx) (group : Option AlertGroup) :
    v.Winds (v.giveOwner owner group) := by
  cases group with
  | none => exact .recomposed v owner 0 (f := Component.unowned) fun _ => rfl
  | some g => exact .recomposed v owner 0 (underGroup_identity g)

theorem recomputed_winds (s : State) (i : ServiceIx) (v : Service) : v.Winds (s.recomputed i v) := by
  unfold State.recomputed
  split
  · exact .refl v
  · exact giveOwner_winds ..

/-- The record with the overlay null counter cleared (R144). -/
def Service.nullsCleared (v : Service) : Service := { v with overlayNulls := 0 }

theorem nullsCleared_winds (v : Service) : v.Winds v.nullsCleared :=
  ⟨rfl, rfl, rfl, rfl, rfl, id, fun l h => by cases l <;> exact h, id, fun h => h⟩

/-- The record with every component reset (R12). -/
def Service.componentsReset (v : Service) : Service := { v with comps := v.comps.map Component.resetState }

theorem componentsReset_winds (v : Service) : v.Winds v.componentsReset :=
  .recomposed v v.owner v.overlayNulls (f := Component.resetState) fun _ => rfl

/-! ### A state when alerts end -/

/-- Between two states alerts have ended: no insertion has begun, and the definitions and Mode Control stand. -/
structure Winds (s t : State) : Prop where
  services : ∀ i, (s.service i).Winds (t.service i)
  configs : ∀ k, (t.source k).config = (s.source k).config
  modeControl : t.modeControl = s.modeControl

theorem Winds.refl (s : State) : Winds s s := ⟨fun _ => .refl _, fun _ => rfl, rfl⟩

theorem Winds.trans {s t u : State} (h : Winds s t) (k : Winds t u) : Winds s u where
  services i := (h.services i).trans (k.services i)
  configs x := (k.configs x).trans (h.configs x)
  modeControl := k.modeControl.trans h.modeControl

/-- The services stand when the others have the same definitions. -/
theorem Winds.ofServices {s t : State} (h : t.services = s.services) (hc : ∀ k, (t.source k).config = (s.source k).config)
    (hm : t.modeControl = s.modeControl) : Winds s t :=
  ⟨fun i => by rw [service_congr h i]; exact .refl _, hc, hm⟩

theorem Winds.ofStands {s t : State} (h : ∀ i, (s.service i).Winds (t.service i)) (hs : Stands s t) : Winds s t :=
  ⟨h, fun k => (hs.sources k).1, hs.modeControl⟩

theorem offer_winds (r : Report) (s : State) : Winds s (offer r s) :=
  .ofServices (offer_services ..) (fun k => ((Stands.offer r s).sources k).1) (offer_modeControl ..)

theorem changeUsers_config (f : Nat → Nat) (g : AlertGroup) (s : State) (x : SourceIx) :
    ((changeUsers f g s).source x).config = (s.source x).config := by
  by_cases h : g.audio = some x ∨ g.slate = some x
  · rw [changeUsers_source_named h]
  · rw [changeUsers_source_other h]

theorem slotFreed_winds (s : State) (k : AlertIx) (g : AlertGroup) : Winds s (s.slotFreed k g) :=
  .ofServices (by rw [slotFreed_eq]) (changeUsers_config _ g s) (slotFreed_modeControl ..)

theorem preempt_recomputeAll_winds (before s : State) : Winds s (preempt before (recomputeAll s)) := by
  refine .ofStands (fun i => ?_) (preempt_recomputeAll_stands before s)
  have hrecomputed : (s.service i).Winds ((recomputeAll s).service i) := by
    rw [recomputeAll_service]
    split
    · exact recomputed_winds ..
    · exact .refl _
  refine hrecomputed.trans ?_
  rw [preempt_service]
  split
  · exact breakEnded_winds _
  · exact .refl _

theorem endAlert_winds (k : AlertIx) (cause : Cause) (s : State) : Winds s (endAlert k cause s) := by
  cases h : s.alert k with
  | none =>
    rw [endAlert_none h]
    exact .refl s
  | some a =>
    rw [endAlert_some h]
    exact ((offer_winds _ s).trans (slotFreed_winds ..)).trans (preempt_recomputeAll_winds ..)

/-- The slots once an alert has ended. -/
theorem endAlert_alert (k : AlertIx) (cause : Cause) (s : State) (j : AlertIx) :
    (endAlert k cause s).alert j = if j = k then none else s.alert j := by
  cases h : s.alert k with
  | none =>
    rw [endAlert_none h]
    by_cases hj : j = k
    · rw [if_pos hj, hj, h]
    · rw [if_neg hj]
  | some a =>
    rw [endAlert_some h]
    have halerts := (preempt_recomputeAll_stands ((s.endReported k a cause).slotFreed k (s.group a.group))
      ((s.endReported k a cause).slotFreed k (s.group a.group))).alerts
    have hfreed : ((s.endReported k a cause).slotFreed k (s.group a.group)).alerts = vset s.alerts k none :=
      congrArg (vset · k none) (offer_alerts ..)
    rw [State.alert, halerts.trans hfreed, vget_vset]
    by_cases hj : j = k <;> simp [hj, State.alert]

/-! ### Every alert ends (R144) -/

theorem foldl_endAlert_winds (cause : Cause) (l : List AlertIx) :
    ∀ s : State, Winds s (l.foldl (fun t k => endAlert k cause t) s) := by
  induction l with
  | nil => exact .refl
  | cons k l ih => exact fun s => (endAlert_winds k cause s).trans (ih _)

theorem foldl_endAlert_alert (cause : Cause) (j : AlertIx) (l : List AlertIx) :
    ∀ s : State, j ∈ l ∨ s.alert j = none → (l.foldl (fun t k => endAlert k cause t) s).alert j = none := by
  induction l with
  | nil => exact fun s h => h.elim (fun hmem => absurd hmem List.not_mem_nil) id
  | cons k l ih =>
    refine fun s h => ih _ ?_
    by_cases hj : j = k
    · exact .inr ((endAlert_alert k cause s j).trans (if_pos hj))
    · rw [List.mem_cons, or_assoc] at h
      obtain heq | hmem | hnone := h
      · exact absurd heq hj
      · exact .inl hmem
      · exact .inr (((endAlert_alert k cause s j).trans (if_neg hj)).trans hnone)

theorem endAllAlerts_eq (cause : Cause) (s : State) :
    endAllAlerts cause s
      = { allAlerts.foldl (fun t k => endAlert k cause t) s with
          services := (allAlerts.foldl (fun t k => endAlert k cause t) s).services.map Service.nullsCleared } :=
  forServices_modService Service.nullsCleared _

theorem endAllAlerts_service (cause : Cause) (s : State) (i : ServiceIx) :
    (endAllAlerts cause s).service i
      = ((allAlerts.foldl (fun t k => endAlert k cause t) s).service i).nullsCleared := by
  rw [endAllAlerts_eq]
  exact vget_map ..

theorem endAllAlerts_winds (cause : Cause) (s : State) : Winds s (endAllAlerts cause s) := by
  have hfold := foldl_endAlert_winds cause allAlerts s
  refine ⟨fun i => ?_, fun k => ?_, ?_⟩
  · rw [endAllAlerts_service]
    exact (hfold.services i).trans (nullsCleared_winds _)
  · rw [endAllAlerts_eq]
    exact hfold.configs k
  · rw [endAllAlerts_eq]
    exact hfold.modeControl

theorem endAllAlerts_alert (cause : Cause) (s : State) (k : AlertIx) : (endAllAlerts cause s).alert k = none := by
  have hfold := foldl_endAlert_alert cause k allAlerts s (.inl (List.mem_finRange k))
  rw [endAllAlerts_eq]
  exact hfold

theorem endAllAlerts_overlayNulls (cause : Cause) (s : State) (i : ServiceIx) :
    ((endAllAlerts cause s).service i).overlayNulls = 0 := by
  rw [endAllAlerts_service]
  rfl

/-! ### Every component is reset (R12) -/

theorem resetComponents_eq (s : State) :
    resetComponents s = { s with services := s.services.map Service.componentsReset } :=
  forServices_modService Service.componentsReset s

theorem resetComponents_service (s : State) (i : ServiceIx) :
    (resetComponents s).service i = (s.service i).componentsReset := by
  rw [resetComponents_eq]
  exact vget_map ..

theorem resetComponents_winds (s : State) : Winds s (resetComponents s) := by
  refine ⟨fun i => ?_, fun k => ?_, ?_⟩
  · rw [resetComponents_service]
    exact componentsReset_winds _
  · rw [resetComponents_eq]
    rfl
  · rw [resetComponents_eq]

theorem resetComponents_alert (s : State) (k : AlertIx) : (resetComponents s).alert k = s.alert k := by
  rw [resetComponents_eq]
  rfl

/-- A reset component shows the network, and nothing of an alert. -/
def Component.Shows (c : Component) : Prop := c.cur = .network ∧ c.rejoin = false ∧ c.ccOffset = 0 ∧ c.alert = .none

theorem componentsReset_shows (v : Service) : ∀ c ∈ v.componentsReset.comps, c.Shows := by
  intro c hc
  obtain ⟨d, -, rfl⟩ := List.mem_map.mp hc
  exact ⟨rfl, rfl, rfl, rfl⟩

/-! ### An event on every service, seen at one of them -/

theorem foldl_establishes {f : ServiceIx → State → State} {Q : Service → Prop} {i : ServiceIx} {v : Service}
    (hself : ∀ t : State, t.service i = v → Q ((f i t).service i))
    (hother : ∀ j t, j ≠ i → (f j t).service i = t.service i) :
    ∀ (l : List ServiceIx) (t : State), l.Nodup → (i ∈ l ∧ t.service i = v ∨ i ∉ l ∧ Q (t.service i)) →
      Q ((l.foldl (fun t j => f j t) t).service i)
  | [], t, _, h => h.elim (fun h => absurd h.1 List.not_mem_nil) (·.2)
  | j :: l, t, hl, h => by
    obtain ⟨hnot, hnodup⟩ := List.nodup_cons.mp hl
    refine foldl_establishes hself hother l (f j t) hnodup ?_
    by_cases hij : j = i
    · subst hij
      obtain ⟨-, hv⟩ | ⟨hout, -⟩ := h
      · exact .inr ⟨hnot, hself t hv⟩
      · exact absurd List.mem_cons_self hout
    · rw [hother j t hij]
      obtain ⟨hmem, hv⟩ | ⟨hout, hq⟩ := h
      · exact .inl ⟨(List.mem_cons.mp hmem).resolve_left (Ne.symm hij), hv⟩
      · exact .inr ⟨fun hmem => hout (List.mem_cons_of_mem j hmem), hq⟩

/-- An event whose step on every other service leaves a service alone leaves of it what its own step does. -/
theorem forServices_establishes {f : ServiceIx → State → State} {Q : Service → Prop} {i : ServiceIx} {s : State}
    (hself : ∀ t : State, t.service i = s.service i → Q ((f i t).service i))
    (hother : ∀ j t, j ≠ i → (f j t).service i = t.service i) : Q ((forServices f s).service i) :=
  foldl_establishes hself hother allServices s (List.nodup_finRange 48) (.inl ⟨List.mem_finRange i, rfl⟩)

/-! ### DISABLE (R161) -/

theorem disableServices_ends (s : State) : Ends (fun _ => True) s (disableServices s) := by
  refine forServices_rel .refl .trans (fun i t => ?_) s
  split
  · exact ((clearSchedule_ends ..).trans (clearSlots_ends ..)).mono fun _ _ => trivial
  · exact .refl t

/-- A DEFINED service has neither entries nor local programmes left. -/
def Service.Cleared (v : Service) : Prop := v.schedule = [] ∧ v.slotA = none ∧ v.slotB = none

theorem Service.Winds.cleared {v w : Service} (h : v.Winds w) (hv : v.Cleared) : w.Cleared :=
  ⟨h.schedule hv.1, h.slot .a hv.2.1, h.slot .b hv.2.2⟩

theorem disableServices_cleared {s : State} {i : ServiceIx} (h : (s.service i).window ≠ none) :
    ((disableServices s).service i).Cleared := by
  refine forServices_establishes (fun t ht => ?self) (fun j t hj => ?other)
  case self =>
    have hdefined : (t.service i).defined = true := by rw [ht]; exact Option.isSome_iff_ne_none.mpr h
    rw [if_pos hdefined]
    exact ⟨(clearSlots_schedule ..).trans (clearSchedule_schedule ..), clearSlots_slots ..⟩
  case other =>
    split
    · exact ((clearSchedule_ends j _ t).trans (clearSlots_ends ..)).others i (Ne.symm hj)
    · rfl

/-- The state DISABLE leaves of the one it executes in (R161). -/
def disabled (s : State) : State := disableMode (resetComponents (endAllAlerts .disabled (disableServices s)))

theorem cmdDisable_passive {s : State} (h : s.mode = .passive) : cmdDisable s = refuse .mode s := by
  rw [cmdDisable, h, if_pos (by decide)]

theorem cmdDisable_running {s : State} (h : s.mode ≠ .passive) :
    cmdDisable s = done (BitVec.ofNat 32 s.insertions) (disabled s) := by
  rw [cmdDisable, if_neg (by simpa using h)]
  rfl

theorem disableMode_service (s : State) (i : ServiceIx) : (disableMode s).service i = s.service i := offer_service ..

theorem disableMode_source (s : State) (k : SourceIx) : (disableMode s).source k = s.source k :=
  congrArg (vget · k) (offer_sources ..)

theorem disableMode_alert (s : State) (k : AlertIx) : (disableMode s).alert k = s.alert k :=
  alert_congr (offer_alerts ..) k

theorem disableMode_modeControl (s : State) :
    (disableMode s).modeControl = { s.modeControl with mode := .passive, timer := none } := offer_modeControl ..

theorem disableMode_quiet {s t : State} (h : Quiet s t) : Quiet s (disableMode t) := (h.part _).offer _

theorem disabled_quiet (s : State) : Quiet s (disabled s) := by
  have hservices : Quiet s (disableServices s) := forServices_quiet (fun t i h => by
    split
    · exact clearSlots_quiet (clearSchedule_quiet h)
    · exact h) .refl
  exact disableMode_quiet (resetComponents_quiet (endAllAlerts_quiet hservices))

/-- The services before the components are reset. -/
theorem disabled_service (s : State) (i : ServiceIx) :
    (disabled s).service i = ((endAllAlerts .disabled (disableServices s)).service i).componentsReset :=
  (disableMode_service ..).trans (resetComponents_service ..)

theorem disabled_winds (s : State) (i : ServiceIx) :
    ((disableServices s).service i).Winds ((disabled s).service i) := by
  rw [disabled_service]
  exact ((endAllAlerts_winds ..).services i).trans (componentsReset_winds _)

theorem disabled_cleared {s : State} {i : ServiceIx} (h : (s.service i).window ≠ none) :
    ((disabled s).service i).Cleared := (disabled_winds s i).cleared (disableServices_cleared h)

theorem disabled_shows (s : State) (i : ServiceIx) : ∀ c ∈ ((disabled s).service i).comps, c.Shows := by
  rw [disabled_service]
  exact componentsReset_shows _

theorem disabled_identities (s : State) (i : ServiceIx) :
    ((disabled s).service i).comps.map Component.identity = (s.service i).comps.map Component.identity :=
  (disabled_winds s i).comps.trans
    (congr_of_core (fun v => v.comps.map Component.identity) (fun _ => rfl) ((disableServices_ends s).record i))

theorem disabled_keeps (s : State) (i : ServiceIx) :
    ((disabled s).service i).held = (s.service i).held ∧ ((disabled s).service i).avails = (s.service i).avails
      ∧ ((disabled s).service i).window = (s.service i).window
      ∧ ((disabled s).service i).track = (s.service i).track := by
  have hcore := (disableServices_ends s).record i
  have hwinds := disabled_winds s i
  exact ⟨hwinds.held.trans (congr_of_core Service.held (fun _ => rfl) hcore),
    hwinds.avails.trans (congr_of_core Service.avails (fun _ => rfl) hcore),
    hwinds.window.trans (window_of_core hcore), hwinds.track.trans (congr_of_core Service.track (fun _ => rfl) hcore)⟩

theorem disabled_alert (s : State) (k : AlertIx) : (disabled s).alert k = none :=
  (disableMode_alert ..).trans ((resetComponents_alert ..).trans (endAllAlerts_alert ..))

theorem disabled_config (s : State) (k : SourceIx) : ((disabled s).source k).config = (s.source k).config := by
  have hends := (disableServices_ends s).stands.sources k
  have hwinds := ((endAllAlerts_winds .disabled (disableServices s)).trans (resetComponents_winds _)).configs k
  exact ((congrArg Source.config (disableMode_source ..)).trans hwinds).trans hends.1

theorem disabled_modeControl (s : State) :
    (disabled s).modeControl = { s.modeControl with mode := .passive, timer := none } := by
  have hends := (disableServices_ends s).stands.modeControl
  have hwinds := ((endAllAlerts_winds .disabled (disableServices s)).trans (resetComponents_winds _)).modeControl
  rw [disabled, disableMode_modeControl, hwinds.trans hends]

/-- The policies of the Error Log stand (R166). -/
theorem Inner.policy {s t : State} (h : Inner s t) (k : Fin 22) :
    (vget t.kinds k).masked = (vget s.kinds k).masked ∧ (vget t.kinds k).severity = (vget s.kinds k).severity := by
  have hpolicy := congrArg (fun v => vget v k) h.policies
  simpa only [vget_map, Prod.mk.injEq] using hpolicy

/-- What holds of a service holds of it once a command is complete. -/
theorem complete_at {Q : Service → Prop} {s : State} {i : ServiceIx} (h : Q (s.service i)) (q : QueueEntry) (r : Reply) :
    Q ((complete q r s).service i) := by
  rw [complete_service]
  exact h

theorem complete_kinds (q : QueueEntry) (r : Reply) (s : State) : (complete q r s).kinds = s.kinds := by
  rw [complete_eq]

theorem complete_alerts (q : QueueEntry) (r : Reply) (s : State) :
    (complete q r s).groups = s.groups ∧ (complete q r s).alerts = s.alerts := by
  obtain ⟨hgroups, halerts, -, -⟩ := complete_sameAlerts q r (s := s) (t := s) ⟨rfl, rfl, rfl, rfl⟩
  exact ⟨hgroups, halerts⟩

/-- Settles O42, by what `disabled` leaves of each part of the state. -/
theorem disableEmptiesPartToPassive : Obligations.DisableEmptiesPartToPassive := by
  intro now c s hi hc
  refine ⟨fun hm => ?disabled, fun hm => ?passive⟩
  case passive =>
    exact exec_afterReply_id (x := .disable now c) rfl rfl hi (cmdDisable_passive (s := takenState 0x02 now c s) hm)
  case disabled =>
    let u := takenState 0x02 now c s
    have hquiet : Quiet u (disabled u) := disabled_quiet u
    have hrun : runCommand (entryOf 0x02 c) u = (.answered (.done (BitVec.ofNat 32 u.insertions)), disabled u) :=
      cmdDisable_running (s := u) hm
    have hkept := hquiet.inner.kept
    have hanswered := answered_inner (r := .done (BitVec.ofNat 32 u.insertions)) hi hc hquiet
    have hsource (k : SourceIx) := complete_source (entryOf 0x02 c) (.done (BitVec.ofNat 32 u.insertions)) (disabled u) k
    have hkinds := complete_kinds (entryOf 0x02 c) (.done (BitVec.ofNat 32 u.insertions)) (disabled u)
    have hpath := (takenState_takenFrom 0x02 now c s).path.trans (hkept.path.trans
      (complete_samePath (entryOf 0x02 c) (.done (BitVec.ofNat 32 u.insertions)) (disabled u)))
    have hlink := (complete_link (entryOf 0x02 c) (.done (BitVec.ofNat 32 u.insertions)) (disabled u)).trans hkept.link
    have hgroupsKept := hkept.groups
    obtain ⟨hgroups, halerts⟩ := complete_alerts (entryOf 0x02 c) (.done (BitVec.ofNat 32 u.insertions)) (disabled u)
    refine ⟨_, exec_inner (x := .disable now c) (f := disabled) rfl rfl hi hc hrun hquiet, hanswered,
      (complete_modeControl ..).trans (disabled_modeControl u),
      fun i hw => complete_at (Q := Service.Cleared) (disabled_cleared (s := u) hw) _ _,
      fun i => complete_at (Q := fun v => ∀ c ∈ v.comps, c.Shows) (disabled_shows u i) _ _,
      fun i => complete_at (Q := fun v => v.comps.map Component.identity = (u.service i).comps.map Component.identity)
        (disabled_identities u i) _ _,
      fun i => complete_at (Q := fun v => v.held = (u.service i).held ∧ v.avails = (u.service i).avails
        ∧ v.window = (u.service i).window ∧ v.track = (u.service i).track)
        (disabled_keeps u i) _ _,
      fun k => (alert_congr halerts k).trans (disabled_alert u k),
      fun k => (congrArg Source.config (hsource k)).trans (disabled_config u k), fun k => ?policies,
      hgroups.trans hgroupsKept, hlink, hpath,
      complete_sameFixed (entryOf 0x02 c) _ hkept.fixed⟩
    case policies =>
      have hpolicy := hquiet.inner.policy k
      rw [← hkinds] at hpolicy
      exact hpolicy

end Sys2Proof.Machine
end

