-- ==== Sys2Proof/Proofs/ErrorLog.lean ====
section
/-! PROOF. The Report Writer (R174, R175), the Error Log (R164, R165) and the severity actions (R165). -/

namespace Sys2Proof.Machine

/-! ### A record written (R174) -/

/-- A write to memory does not depend on the ring. -/
theorem handWrite_ring_eq (i : Bool) (a : Addr) (bs : List LaneByte) (s : State) (g : Ring) :
    handWrite i a bs { s with ring := g } = { handWrite i a bs s with ring := g } := by
  by_cases h : s.issueQueue.isEmpty = true
  · rw [handWrite, handWrite, if_pos h, if_pos (by exact h)]
    rfl
  · rw [handWrite, handWrite, if_neg h, if_neg (by exact h)]

/-- The record and the producer index written, and the ring with its new producer index. -/
def State.recorded (s : State) (d : RingDef) (r : Report) : State :=
  handWrite true (s.strapBase + 0x020) (enabledBytes (beBytes 4 (nextSlot d.count s.ring.producer)))
    (handWrite true (d.base + BitVec.ofNat 36 (32 * s.ring.producer)) (enabledBytes r.bytes) s)

theorem putRecord_eq (d : RingDef) (r : Report) (s : State) :
    putRecord d r s
      = { s.recorded d r with ring := { s.ring with producer := nextSlot d.count s.ring.producer } } := by
  let w := handWrite true (d.base + BitVec.ofNat 36 (32 * s.ring.producer)) (enabledBytes r.bytes) s
  have hstraps : w.straps = s.straps := handWrite_straps ..
  have hring : w.ring = s.ring := handWrite_ring ..
  have hput : putRecord d r s
      = handWrite true (w.strapBase + 0x020) (enabledBytes (beBytes 4 (nextSlot d.count w.ring.producer)))
          { w with ring := { w.ring with producer := nextSlot d.count w.ring.producer } } := rfl
  rw [hput, handWrite_ring_eq, hring, State.strapBase, hstraps]
  rfl

theorem keepReport_eq (d : RingDef) (r : Report) (s : State) :
    keepReport d r s
      = { s.recorded d r with
          ring := { s.ring with producer := nextSlot d.count s.ring.producer, overflow := false } } := by
  rw [keepReport, putRecord_eq]

/-- What is written depends on the ring by its producer index alone. -/
theorem recorded_congr (s : State) (d : RingDef) (r : Report) {g : Ring} (h : g.producer = s.ring.producer) :
    ({ s with ring := g } : State).recorded d r = { s.recorded d r with ring := g } := by
  simp only [State.recorded, handWrite_ring_eq, h]
  rfl

/-! ### A report offered (R174) -/

theorem offer_undefined {r : Report} {s : State} (h : s.ring.defn = none) : offer r s = dropReport s := by
  simp only [offer, h]

theorem offer_written {r : Report} {d : RingDef} {s : State} (h : s.ring.defn = some d) (hd : s.ring.dropped = 0)
    (hf : 1 ≤ s.ring.free d.count) : offer r s = keepReport d r s := by
  simp [offer, h, hd, hf]

theorem offer_afterGap {r : Report} {d : RingDef} {s : State} (h : s.ring.defn = some d) (hd : s.ring.dropped ≠ 0)
    (hf : 2 ≤ s.ring.free d.count) : offer r s = keepReport d r (putGap d s) := by
  have hzero : ¬s.ring.dropped = 0#32 := hd
  simp [offer, h, hzero, hf]

/-- No position is free for a report: none at all, or only one while reports have been dropped. -/
def Ring.Full (g : Ring) (n : Nat) : Prop := g.free n = 0 ∨ g.dropped ≠ 0 ∧ g.free n < 2

theorem offer_full {r : Report} {d : RingDef} {s : State} (h : s.ring.defn = some d) (hf : s.ring.Full d.count) :
    offer r s = overflowReport s := by
  have hfirst : ¬(s.ring.dropped == 0 && decide (1 ≤ s.ring.free d.count)) = true := by
    simp only [Bool.and_eq_true, beq_iff_eq, decide_eq_true_eq]
    rintro ⟨hzero, hone⟩
    obtain hnone | ⟨hne, -⟩ := hf
    · omega
    · exact hne hzero
  have hsecond : ¬(s.ring.dropped != 0 && decide (2 ≤ s.ring.free d.count)) = true := by
    simp only [Bool.and_eq_true, decide_eq_true_eq]
    rintro ⟨-, htwo⟩
    obtain hnone | ⟨-, hless⟩ := hf <;> omega
  simp only [offer, h]
  rw [if_neg hfirst, if_neg hsecond]

/-! ### An error counted, captured and its action put off (R164, R165) -/

/-- The actions an error puts off by its kind's severity (R165). -/
def ErrorEvent.actions (e : ErrorEvent) : Severity → List Deferred
  | .notice => []
  | .service => [.hold e.service]
  | .fatal => [.fatal e.kind]

/-- A kind's log with one more error counted. -/
def KindLog.counted (l : KindLog) : KindLog := { l with status := true, counter := stickyInc16 l.counter }

/-- The state with an error counted and its action put off. -/
def State.logged (s : State) (e : ErrorEvent) : State :=
  { s with
    kinds := vset s.kinds e.kind.ix (s.kindLog e.kind).counted
    deferred := s.deferred ++ e.actions (s.kindLog e.kind).severity }

theorem logged_kindLog (s : State) (e : ErrorEvent) : (s.logged e).kindLog e.kind = (s.kindLog e.kind).counted :=
  vget_vset_self ..

theorem ErrorKind.ix_injective : Function.Injective ErrorKind.ix := by
  intro j k h
  cases j <;> cases k <;> first | rfl | exact absurd h (by decide)

theorem logged_kindLog_ne {s : State} {e : ErrorEvent} {k : ErrorKind} (h : k ≠ e.kind) :
    (s.logged e).kindLog k = s.kindLog k := vget_vset_ne _ _ (mt (ErrorKind.ix_injective ·) h)

theorem deferAction_countKind (e : ErrorEvent) (s : State) : deferAction e (countKind e.kind s) = s.logged e := by
  have hcounted : (countKind e.kind s).kindLog e.kind = (s.kindLog e.kind).counted := vget_vset_self ..
  have hseverity : ((countKind e.kind s).kindLog e.kind).severity = (s.kindLog e.kind).severity := by
    rw [hcounted]
    rfl
  unfold deferAction
  rw [hseverity, State.logged]
  cases (s.kindLog e.kind).severity with
  | notice => simp only [ErrorEvent.actions, List.append_nil]; rfl
  | service => rfl
  | fatal => rfl

theorem raise_masked {e : ErrorEvent} {s : State} (h : (s.kindLog e.kind).masked = true) : raise e s = s.logged e := by
  simp only [raise, deferAction_countKind, logged_kindLog]
  rw [if_pos (by exact h)]

theorem raise_reporting {e : ErrorEvent} {s : State} (h : (s.kindLog e.kind).masked = false) :
    raise e s = offer (errorReport e (s.logged e)) (captureError e (s.logged e)) := by
  simp only [raise, deferAction_countKind, logged_kindLog]
  rw [if_neg (by simp [KindLog.counted, h])]

theorem raiseOverflow_masked {s : State} (h : (s.kindLog .reportOverflow).masked = true) :
    raiseOverflow s = s.logged overflowEvent := by
  have hlogged := deferAction_countKind overflowEvent s
  have hmasked : ((s.logged overflowEvent).kindLog .reportOverflow).masked = true :=
    (congrArg KindLog.masked (logged_kindLog s overflowEvent)).trans h
  simp only [raiseOverflow]
  rw [show deferAction overflowEvent (countKind .reportOverflow s) = s.logged overflowEvent from hlogged, if_pos hmasked]

theorem raiseOverflow_reporting {s : State} (h : (s.kindLog .reportOverflow).masked = false) :
    raiseOverflow s = dropReport (captureError overflowEvent (s.logged overflowEvent)) := by
  have hlogged := deferAction_countKind overflowEvent s
  have hmasked : ((s.logged overflowEvent).kindLog .reportOverflow).masked = false :=
    (congrArg KindLog.masked (logged_kindLog s overflowEvent)).trans h
  simp only [raiseOverflow]
  rw [show deferAction overflowEvent (countKind .reportOverflow s) = s.logged overflowEvent from hlogged, hmasked]
  rfl

theorem captureError_first {e : ErrorEvent} {s : State} (h : s.firstError = none) :
    captureError e s
      = { s with
          firstError := some
            { kind := e.kind, stamp := s.now, service := e.service, requester := e.requester, addr := e.addr,
              packet := e.packet } } := by
  simp only [captureError, h]

theorem captureError_further {e : ErrorEvent} {s : State} (h : s.firstError ≠ none) :
    captureError e s = { s with multiple := true } := by
  obtain ⟨f, hf⟩ := Option.ne_none_iff_exists'.mp h
  simp only [captureError, hf]

/-- The ERROR report of an error just logged (R175). -/
theorem errorReport_logged (e : ErrorEvent) (s : State) :
    errorReport e (s.logged e)
      = { kind := .error, subkind := BitVec.ofNat 8 (e.kind.ix.val + 1), cause := .action (actionTaken e s),
          service := e.service, id := e.requester.map fun q => BitVec.ofNat 32 q.val, first := some s.now,
          second := none, count := BitVec.ofNat 32 (stickyInc16 (s.kindLog e.kind).counter).toNat,
          source := e.source } := by
  have haction : actionTaken e (s.logged e) = actionTaken e s := by
    simp only [actionTaken, logged_kindLog]
    rfl
  have hid (q : RequesterId) : idByte (BitVec.ofNat 8 q.val) = BitVec.ofNat 32 q.val := by
    rw [idByte]
    refine BitVec.eq_of_toNat_eq ?_
    have := q.isLt
    simp only [BitVec.toNat_setWidth, BitVec.toNat_ofNat]
    omega
  have hcount (n : BitVec 16) : n.setWidth 32 = BitVec.ofNat 32 n.toNat := BitVec.eq_of_toNat_eq (by simp)
  simp only [errorReport, haction, logged_kindLog, hid, hcount, KindLog.counted, ErrorKind.code]
  rfl

theorem actionTaken_eq {e : ErrorEvent} {s : State}
    (h : (s.kindLog e.kind).severity ≠ .service ∨ ∃ i, e.service = some i ∧ (s.service i).window ≠ none) :
    actionTaken e s = (s.kindLog e.kind).severity := by
  unfold actionTaken
  cases hseverity : (s.kindLog e.kind).severity with
  | notice => rfl
  | fatal => rfl
  | service =>
    obtain ⟨i, hi, hw⟩ := h.resolve_left (not_not_intro hseverity)
    simp [hi, Service.defined, Option.isSome_iff_ne_none.mpr hw]

theorem actionTaken_notice {e : ErrorEvent} {s : State} (hs : (s.kindLog e.kind).severity = .service)
    (h : ¬∃ i, e.service = some i ∧ (s.service i).window ≠ none) : actionTaken e s = .notice := by
  unfold actionTaken
  rw [hs]
  cases hi : e.service with
  | none => rfl
  | some i =>
    have hw : (s.service i).window = none := by
      by_contra hne
      exact h ⟨i, hi, hne⟩
    simp [Service.defined, hw]

/-! ### What a report leaves of the Error Log -/

/-- Between two states reports have been offered: no kind but REPORT-OVERFLOW is counted, the first error and the
multiple flag stand once set, and actions are put off behind those in hand. -/
structure LogStands (s t : State) : Prop where
  kinds : ∀ k, k ≠ .reportOverflow → t.kindLog k = s.kindLog k
  first : s.firstError ≠ none → t.firstError = s.firstError
  multiple : s.multiple = true → t.multiple = true
  deferred : s.deferred <+: t.deferred

theorem LogStands.of_eq {s t : State} (hk : t.kinds = s.kinds) (hf : t.firstError = s.firstError)
    (hm : t.multiple = s.multiple) (hd : t.deferred = s.deferred) : LogStands s t :=
  ⟨fun k _ => congrArg (vget · k.ix) hk, fun _ => hf, fun h => hm.trans h, hd ▸ List.prefix_rfl⟩

theorem LogStands.trans {s t u : State} (h : LogStands s t) (k : LogStands t u) : LogStands s u where
  kinds x hx := (k.kinds x hx).trans (h.kinds x hx)
  first hf := (k.first ((h.first hf).symm ▸ hf)).trans (h.first hf)
  multiple hm := k.multiple (h.multiple hm)
  deferred := h.deferred.trans k.deferred

theorem keepReport_logStands (d : RingDef) (r : Report) (s : State) : LogStands s (keepReport d r s) := by
  rw [keepReport_eq]
  refine .of_eq ?_ ?_ ?_ ?_ <;> simp [State.recorded]

theorem putGap_logStands (d : RingDef) (s : State) : LogStands s (putGap d s) := by
  rw [putGap, putRecord_eq]
  refine .of_eq ?_ ?_ ?_ ?_ <;> simp [State.recorded]

theorem logged_overflow_logStands (s : State) : LogStands s (s.logged overflowEvent) :=
  ⟨fun _ hk => logged_kindLog_ne hk, fun _ => rfl, id, List.prefix_append ..⟩

theorem captureError_logStands (e : ErrorEvent) (s : State) : LogStands s (captureError e s) := by
  by_cases h : s.firstError = none
  · rw [captureError_first h]
    exact ⟨fun _ _ => rfl, fun hne => absurd h hne, id, List.prefix_rfl⟩
  · rw [captureError_further h]
    exact ⟨fun _ _ => rfl, fun _ => rfl, fun _ => rfl, List.prefix_rfl⟩

theorem raiseOverflow_logStands (s : State) : LogStands s (raiseOverflow s) := by
  cases h : (s.kindLog .reportOverflow).masked with
  | true =>
    rw [raiseOverflow_masked h]
    exact logged_overflow_logStands s
  | false =>
    rw [raiseOverflow_reporting h]
    exact ((logged_overflow_logStands s).trans (captureError_logStands ..)).trans (.of_eq rfl rfl rfl rfl)

/-- The state in which REPORT-OVERFLOW is raised for a dropped report. -/
def State.overflowing (s : State) : State :=
  { s with ring := { s.ring with dropped := stickyInc32 s.ring.dropped, overflow := true } }

theorem overflowReport_again {s : State} (h : s.ring.overflow = true) : overflowReport s = dropReport s := by
  have hdrop : (dropReport s).ring.overflow = true := h
  simp only [overflowReport, hdrop, if_true]

theorem overflowReport_first {s : State} (h : s.ring.overflow = false) :
    overflowReport s = raiseOverflow s.overflowing := by
  have hdrop : (dropReport s).ring.overflow = false := h
  simp only [overflowReport, hdrop, Bool.false_eq_true, if_false]
  rfl

theorem offer_logStands (r : Report) (s : State) : LogStands s (offer r s) := by
  unfold offer
  split
  · exact .of_eq rfl rfl rfl rfl
  · split
    · exact keepReport_logStands ..
    · split
      · exact (putGap_logStands ..).trans (keepReport_logStands ..)
      · cases h : s.ring.overflow with
        | true => rw [overflowReport_again h]; exact .of_eq rfl rfl rfl rfl
        | false =>
          rw [overflowReport_first h]
          have hdrop : LogStands s s.overflowing := .of_eq rfl rfl rfl rfl
          exact hdrop.trans (raiseOverflow_logStands _)

/-! ### REPORT-OVERFLOW (R174) -/

/-- What a raise of REPORT-OVERFLOW leaves in the ring and the Error Log. -/
theorem raiseOverflow_leaves (s : State) :
    (raiseOverflow s).ring
        = { s.ring with
            dropped := if (s.kindLog .reportOverflow).masked then s.ring.dropped else stickyInc32 s.ring.dropped }
      ∧ (raiseOverflow s).kindLog .reportOverflow = (s.kindLog .reportOverflow).counted
      ∧ (raiseOverflow s).emitted = s.emitted ∧ (raiseOverflow s).issueQueue = s.issueQueue := by
  have hkind : (s.logged overflowEvent).kindLog .reportOverflow = (s.kindLog .reportOverflow).counted :=
    logged_kindLog s overflowEvent
  cases h : (s.kindLog .reportOverflow).masked with
  | true =>
    rw [raiseOverflow_masked h, if_pos rfl]
    exact ⟨rfl, hkind, rfl, rfl⟩
  | false =>
    rw [raiseOverflow_reporting h, if_neg Bool.false_ne_true]
    by_cases hfirst : s.firstError = none
    · rw [captureError_first (s := s.logged overflowEvent) hfirst]
      exact ⟨rfl, hkind, rfl, rfl⟩
    · rw [captureError_further (s := s.logged overflowEvent) hfirst]
      exact ⟨rfl, hkind, rfl, rfl⟩

/-- What a raise of REPORT-OVERFLOW leaves in the first-error record. -/
theorem raiseOverflow_records (s : State) :
    ((s.kindLog .reportOverflow).masked = false → s.firstError = none → (raiseOverflow s).firstError =
        some { kind := .reportOverflow, stamp := s.now, service := none, requester := none, addr := none,
               packet := none })
      ∧ ((s.kindLog .reportOverflow).masked = false → s.firstError ≠ none →
        (raiseOverflow s).firstError = s.firstError ∧ (raiseOverflow s).multiple = true)
      ∧ ((s.kindLog .reportOverflow).masked = true →
        (raiseOverflow s).firstError = s.firstError ∧ (raiseOverflow s).multiple = s.multiple) := by
  refine ⟨fun hm hfirst => ?_, fun hm hfirst => ?_, fun hm => ?_⟩
  · rw [raiseOverflow_reporting hm, captureError_first (s := s.logged overflowEvent) hfirst]
    rfl
  · rw [raiseOverflow_reporting hm, captureError_further (s := s.logged overflowEvent) hfirst]
    exact ⟨rfl, rfl⟩
  · rw [raiseOverflow_masked hm]
    exact ⟨rfl, rfl⟩

theorem stickyInc32_eq (n : BitVec 32) : stickyInc32 n = if n = 0xFFFFFFFF then 0xFFFFFFFF else n + 1 := by
  by_cases h : n = 0xFFFFFFFF
  · simp [stickyInc32, h]
  · simp only [stickyInc32, beq_iff_eq, if_neg h]

theorem stickyInc16_eq (n : BitVec 16) : stickyInc16 n = if n = 0xFFFF then 0xFFFF else n + 1 := by
  by_cases h : n = 0xFFFF
  · simp [stickyInc16, h]
  · simp only [stickyInc16, beq_iff_eq, if_neg h]

/-! ### Severity actions (R165) -/

/-- Carrying out an action puts none off while REPORT-OVERFLOW is a NOTICE. -/
theorem runAction_deferred {d : Deferred} {s : State} (hc : Calm s) : (runAction d s).deferred = s.deferred :=
  (runAction_quiet (.refl (s := s))).put hc

theorem settle_cons {d : Deferred} {more : List Deferred} {s : State} (hc : Calm s) (h : s.deferred = d :: more) :
    settle s = settle (runAction d { s with deferred := more }) := by
  have hdeferred : (runAction d { s with deferred := more }).deferred = more :=
    runAction_deferred (s := { s with deferred := more }) hc
  have hstep (n : Nat) : settleIn (n + 1) s = settleIn n (runAction d { s with deferred := more }) := by
    rw [settleIn, h]
  rw [settle, settle, h, hdeferred, List.length_cons, Nat.add_right_comm, hstep]

theorem runAction_undefined {i : ServiceIx} {s : State} (h : (s.service i).window = none) :
    runAction (.hold (some i)) s = s := by
  have hdefined : (s.service i).defined = false := by rw [Service.defined, h]; rfl
  simp only [runAction, hdefined, Bool.false_eq_true, if_false]

theorem runAction_defined {i : ServiceIx} {s : State} (h : (s.service i).window ≠ none) :
    runAction (.hold (some i)) s = setHeld i .error s := by
  have hdefined : (s.service i).defined = true := Option.isSome_iff_ne_none.mpr h
  simp only [runAction, hdefined, if_true]

/-- The state with a service's held flag set. -/
def State.flaggedHeld (s : State) (i : ServiceIx) (cause : HeldCause) : State :=
  s.modService i fun v => { v with held := some cause }

theorem setHeld_again {i : ServiceIx} {cause : HeldCause} {s : State} (h : (s.service i).held ≠ none) :
    setHeld i cause s = s.flaggedHeld i cause := by
  have hheld : (s.service i).held.isSome = true := Option.isSome_iff_ne_none.mpr h
  simp only [setHeld, hheld, if_true]
  rfl

theorem setHeld_first {i : ServiceIx} {cause : HeldCause} {s : State} (h : (s.service i).held = none) :
    setHeld i cause s
      = holdEnds i (offer (serviceReport i .held cause.cause 0 (s.flaggedHeld i cause)) (s.flaggedHeld i cause)) := by
  have hheld : (s.service i).held.isSome = false := by rw [h]; rfl
  simp only [setHeld, hheld, Bool.false_eq_true, if_false]
  rfl

theorem holdEnds_eq {i : ServiceIx} {now : Stamp} {s : State} (h : s.now = now) :
    holdEnds i s = (endRunningSlot i .held now (endActiveBreak i .held now s)).modService i fun v =>
      { v with mode := .network } := by
  have hnow : (endActiveBreak i .held now s).now = now :=
    ((endActiveBreak_inner (.refl (s := s))).kept.now).trans h
  rw [holdEnds, h, hnow]

theorem fatalAction_passive {k : ErrorKind} {s : State} (h : s.mode = .passive) : fatalAction k s = s := by
  rw [fatalAction, h]

theorem fatalAction_active {k : ErrorKind} {s : State} (h : s.mode = .active) : fatalAction k s = enterBypass k s := by
  rw [fatalAction, h]

theorem fatalAction_bypass {k : ErrorKind} {s : State} (h : s.mode = .bypass) :
    fatalAction k s = if s.modeControl.timer.isSome then startRecovery s else s := by
  rw [fatalAction, h]

end Sys2Proof.Machine
end

