-- ==== Sys2Proof/Proofs/Logging.lean ====
section
/-! PROOF. Reports and errors are logged, and the actions they put off carried out (R164, R165, R174, R175). -/

namespace Sys2Proof.Machine

/-- A report is written whatever the overflow flag, which it clears. -/
theorem keepReport_overflow (d : RingDef) (r : Report) (s : State) (b : Bool) :
    keepReport d r { s with ring := { s.ring with overflow := b } } = keepReport d r s := by
  have hrecorded := recorded_congr s d r (g := { s.ring with overflow := b }) rfl
  let g : Ring := { s.ring with producer := nextSlot d.count s.ring.producer, overflow := false }
  calc keepReport d r { s with ring := { s.ring with overflow := b } }
      = { ({ s with ring := { s.ring with overflow := b } } : State).recorded d r with ring := g } := keepReport_eq ..
    _ = { s.recorded d r with ring := g } := congrArg (fun w : State => { w with ring := g }) hrecorded
    _ = keepReport d r s := (keepReport_eq d r s).symm

/-- The overflow flag is set and REPORT-OVERFLOW raised by the first report that finds no position (R174). -/
theorem offer_overflows {r : Report} {d : RingDef} {s : State} (h : s.ring.defn = some d) (hf : s.ring.Full d.count)
    (ho : s.ring.overflow = false) : offer r s = raiseOverflow s.overflowing := by
  rw [offer_full h hf, overflowReport_first ho]

/-- The ring once a report has set the overflow flag. -/
theorem overflowing_ring (s : State) :
    (raiseOverflow s.overflowing).ring
      = { s.ring with
          overflow := true
          dropped := if (s.kindLog .reportOverflow).masked then stickyInc32 s.ring.dropped
            else stickyInc32 (stickyInc32 s.ring.dropped) } := (raiseOverflow_leaves s.overflowing).1

theorem raise_fatal_mem {e : ErrorEvent} {s : State} {d : Deferred}
    (h : d ∈ e.actions (s.kindLog e.kind).severity) : d ∈ (raise e s).deferred := by
  have hlogged : d ∈ (s.logged e).deferred := List.mem_append_right _ h
  cases hm : (s.kindLog e.kind).masked with
  | true => exact raise_masked hm ▸ hlogged
  | false =>
    rw [raise_reporting hm]
    exact ((captureError_logStands e _).trans (offer_logStands _ _)).deferred.subset hlogged

/-- The log of a kind that has been raised; the report it brings about counts no other kind. -/
theorem raise_kindLog {e : ErrorEvent} {s : State} (h : e.kind ≠ .reportOverflow) :
    (raise e s).kindLog e.kind = (s.kindLog e.kind).counted := by
  cases hm : (s.kindLog e.kind).masked with
  | true => rw [raise_masked hm, logged_kindLog]
  | false =>
    rw [raise_reporting hm,
      ((captureError_logStands e (s.logged e)).trans (offer_logStands _ _)).kinds e.kind h, logged_kindLog]

theorem raise_firstError {e : ErrorEvent} {s : State} (hm : (s.kindLog e.kind).masked = false)
    (h : s.firstError = none) :
    (raise e s).firstError = some
      { kind := e.kind, stamp := s.now, service := e.service, requester := e.requester, addr := e.addr,
        packet := e.packet } := by
  rw [raise_reporting hm, captureError_first (s := s.logged e) h]
  exact (offer_logStands _ _).first (Option.some_ne_none _)

theorem raise_furtherError {e : ErrorEvent} {s : State} (hm : (s.kindLog e.kind).masked = false)
    (h : s.firstError ≠ none) : (raise e s).firstError = s.firstError ∧ (raise e s).multiple = true := by
  rw [raise_reporting hm, captureError_further (s := s.logged e) h]
  exact ⟨(offer_logStands _ _).first h, (offer_logStands _ _).multiple rfl⟩

/-- The actions put off are those of the statement's table. -/
theorem logged_eq {e : ErrorEvent} {s : State} {action : List Deferred}
    (h : e.actions (s.kindLog e.kind).severity = action) :
    s.logged e = { s with
      kinds := vset s.kinds e.kind.ix (s.kindLog e.kind).counted, deferred := s.deferred ++ action } := by
  rw [State.logged, h]

/-- Settles O48: the offers, the raises, the actions, and what a raise leaves whatever its report does. -/
theorem reportsAndErrorsAreLogged : Obligations.ReportsAndErrorsAreLogged := by
  refine ⟨fun r s => ?offers, fun e s => ?raises, fun d more s => ?actions, fun e s hk => ?leaves⟩
  case offers =>
    intro fill put gap gapped more lost
    have hlost : dropReport s = lost := by
      rw [dropReport, stickyInc32_eq]
    refine ⟨fun h => (offer_undefined h).trans hlost, fun d h hd hf => ?written, fun d h hd hf => ?afterGap,
      fun d h hf ho => ?again, fun d h hf ho => ?first⟩
    case written => exact (offer_written h hd hf).trans (keepReport_eq d r s)
    case afterGap =>
      have hgapped : gapped d = { putGap d s with ring := { (putGap d s).ring with overflow := false } } := by
        rw [putGap, putRecord_eq]
        rfl
      calc offer r s = keepReport d r (putGap d s) := offer_afterGap h hd hf
        _ = keepReport d r { putGap d s with ring := { (putGap d s).ring with overflow := false } } :=
          (keepReport_overflow d r (putGap d s) false).symm
        _ = keepReport d r (gapped d) := congrArg (keepReport d r) hgapped.symm
        _ = put d r (gapped d) := keepReport_eq d r (gapped d)
    case again => rw [offer_full h hf, overflowReport_again ho, hlost]
    case first =>
      have hreported := offer_reported r s
      obtain ⟨-, hkind, hemitted, hqueue⟩ := raiseOverflow_leaves s.overflowing
      obtain ⟨hfirst, hfurther, hmasked⟩ := raiseOverflow_records s.overflowing
      have hmore (n : BitVec 32) : stickyInc32 n = more n := stickyInc32_eq n
      have hring := overflowing_ring s
      rw [hmore, hmore] at hring
      intro t l
      have ht : t = raiseOverflow s.overflowing := offer_overflows h hf ho
      have hcounted : t.kindLog .reportOverflow = l.counted := (congrArg (State.kindLog · .reportOverflow) ht).trans hkind
      have hschedule : SameSchedule s t := ⟨hreported.services, hreported.sources, hreported.bank⟩
      have halerts : SameAlerts s t := ⟨hreported.groups, hreported.alerts, hreported.activations, hreported.link⟩
      rw [hcounted]
      refine ⟨(congrArg State.ring ht).trans hring, rfl, stickyInc16_eq _, ?_, ?_, ?_,
        (congrArg State.emitted ht).trans hemitted, (congrArg State.issueQueue ht).trans hqueue, hschedule, halerts⟩
      · exact ht ▸ hfirst
      · exact ht ▸ hfurther
      · exact ht ▸ hmasked
  case raises =>
    intro l count action logged captured report held
    have hactions : e.actions l.severity = action := by
      cases hseverity : l.severity <;> simp only [ErrorEvent.actions, action, hseverity]
    have hcount : stickyInc16 l.counter = count := stickyInc16_eq l.counter
    have hlogged : s.logged e = logged := by
      rw [logged_eq hactions, KindLog.counted, hcount]
    have hcaptured : captureError e (s.logged e) = captured := by
      rw [hlogged]
      by_cases hfirst : s.firstError = none
      · rw [captureError_first (s := logged) hfirst]
        exact (if_pos hfirst).symm
      · rw [captureError_further (s := logged) hfirst]
        exact (if_neg hfirst).symm
    have hreport (taken : Severity) (ht : actionTaken e s = taken) : errorReport e (s.logged e) = report taken := by
      rw [errorReport_logged, ht, hcount]
    refine ⟨fun hm => (raise_masked hm).trans hlogged, fun hm hs => ?_, fun hm hs hnot => ?_⟩
    · rw [raise_reporting hm, hcaptured, hreport _ (actionTaken_eq hs)]
    · rw [raise_reporting hm, hcaptured, hreport _ (actionTaken_notice hs hnot)]
  case actions =>
    intro u restarted
    refine ⟨fun h => settle_nil h, fun hc h => settle_cons hc h, fun h => h ▸ rfl, fun i h hw => ?undefined,
      fun i h hw => ?held, fun k h hm => ?passive, fun k h hm ht => ?bypass, fun k h hm ht => ?restarts,
      fun k h hm => ?active⟩
    case undefined => exact h ▸ runAction_undefined (s := u) hw
    case held =>
      intro flagged ended
      rw [h, runAction_defined (s := u) hw]
      refine ⟨fun hheld => setHeld_again (s := u) hheld, fun hheld => ?_⟩
      rw [setHeld_first (s := u) hheld]
      exact holdEnds_eq (offer_now ..)
    case passive => exact h ▸ fatalAction_passive (s := u) hm
    case bypass =>
      have htimer : u.modeControl.timer.isSome = false := by rw [show u.modeControl.timer = none from ht]; rfl
      rw [h, runAction, fatalAction_bypass (s := u) hm, htimer, if_neg Bool.false_ne_true]
    case restarts =>
      have htimer : u.modeControl.timer.isSome = true := Option.isSome_iff_ne_none.mpr ht
      rw [h, runAction, fatalAction_bypass (s := u) hm, htimer, if_pos rfl]
      rfl
    case active => exact h ▸ fatalAction_active (s := u) hm
  case leaves =>
    intro t l
    have hcounted : t.kindLog e.kind = l.counted := raise_kindLog hk
    rw [hcounted]
    refine ⟨rfl, stickyInc16_eq _, raise_firstError, raise_furtherError, fun hm => ?_, fun hs => ?_, fun hs => ?_⟩
    · have ht : t = s.logged e := raise_masked hm
      rw [ht]
      exact ⟨rfl, rfl, rfl, rfl, rfl⟩
    · exact raise_fatal_mem (by rw [hs]; exact List.mem_singleton_self _)
    · exact raise_fatal_mem (by rw [hs]; exact List.mem_singleton_self _)

end Sys2Proof.Machine
end

