-- ==== Sys2Proof/Proofs/Bypass.lean ====
section
/-! PROOF. The entry to BYPASS a READ-TIMEOUT brings about (R88, R126, R165, R169). -/

namespace Sys2Proof.Machine

/-! ### A schedule at entry to BYPASS (R88) -/

/-- The step of `bypassSchedule` on the entry of one event ID. -/
def bypassEntry (i : ServiceIx) (t : State) (ev : EventId) : State :=
  match (t.service i).findEntry ev with
  | some e =>
    if e.isActive then leaveBreak i ev (.ended .bypass t.now) t
    else if e.state == .ready then bypassReady i e t
    else t
  | none => t

theorem bypassSchedule_eq_foldl (i : ServiceIx) (s : State) :
    bypassSchedule i s = (s.service i).events.foldl (bypassEntry i) s := rfl

/-- An entry that is READY no more at entry to BYPASS (R88). -/
def BreakEntry.bypassed (x : BreakEntry) : BreakEntry := { x with state := .notReady .bypass, binding := none }

/-- The record of a service whose READY entry is READY no more (R88). -/
def Service.unready (e : BreakEntry) (v : Service) : Service :=
  { v with schedule := mapEntry e.event BreakEntry.bypassed v.schedule }

theorem bypassReady_service (i : ServiceIx) (e : BreakEntry) (s : State) :
    (bypassReady i e s).service i = (s.service i).unready e := by
  rw [bypassReady, offer_service, State.modEntry, modService_service_self, detachEntry_service]
  rfl

theorem bypassReady_ends (i : ServiceIx) (e : BreakEntry) (s : State) : Ends (· = i) s (bypassReady i e s) :=
  (Ends.detachEntry _ i e s).trans ((Ends.modService _ rfl).trans (Ends.offer _ _ _))

theorem bypassEntry_none {i : ServiceIx} {t : State} {ev : EventId} (h : (t.service i).findEntry ev = none) :
    bypassEntry i t ev = t := by
  simp only [bypassEntry, h]

theorem bypassEntry_active {i : ServiceIx} {t : State} {ev : EventId} {e : BreakEntry}
    (h : (t.service i).findEntry ev = some e) (ha : e.isActive = true) :
    bypassEntry i t ev = leaveBreak i ev (.ended .bypass t.now) t := by
  simp only [bypassEntry, h, ha, if_true]

theorem bypassEntry_idle {i : ServiceIx} {t : State} {ev : EventId} {e : BreakEntry}
    (h : (t.service i).findEntry ev = some e) (ha : e.isActive = false) :
    bypassEntry i t ev = if e.state == .ready then bypassReady i e t else t := by
  simp only [bypassEntry, h, ha, Bool.false_eq_true, if_false]

theorem bypassEntry_ends (i : ServiceIx) (t : State) (ev : EventId) : Ends (· = i) t (bypassEntry i t ev) := by
  unfold bypassEntry
  split
  · split
    · exact leaveBreak_ends ..
    · split
      · exact bypassReady_ends ..
      · exact .refl t
  · exact .refl t

/-- The entry found for an event ID is not ACTIVE. -/
def Service.Idles (v : Service) (ev : EventId) : Prop := ∀ e, v.findEntry ev = some e → e.isActive = false

theorem find?_filter_event_ne {ev ev' : EventId} (h : ev' ≠ ev) (l : List BreakEntry) :
    (l.filter fun x => x.event != ev).find? (fun x => x.event == ev') = l.find? fun x => x.event == ev' := by
  rw [List.find?_filter]
  refine List.find?_congr fun x _ => ?_
  by_cases hx : x.event = ev'
  · simp [hx, h]
  · simp [hx]

theorem find?_mapEntry_ne {ev ev' : EventId} {f : BreakEntry → BreakEntry} (hf : ∀ x, (f x).event = x.event)
    (h : ev' ≠ ev) (l : List BreakEntry) :
    (mapEntry ev f l).find? (fun x => x.event == ev') = l.find? fun x => x.event == ev' := by
  induction l with
  | nil => rfl
  | cons x l ih =>
    rw [mapEntry] at ih ⊢
    rw [List.map_cons, List.find?_cons, List.find?_cons, ih]
    have hne : (ev == ev') = false := beq_eq_false_iff_ne.mpr (Ne.symm h)
    by_cases hx : x.event = ev
    · simp [hx, hf, hne]
    · simp [hx]

theorem afterBreak_idles {v : Service} {e : BreakEntry} {ev : EventId} (h : v.Idles ev ∨ ev = e.event) :
    (v.afterBreak e).Idles ev := by
  by_cases hev : ev = e.event
  · subst hev
    intro y hy
    rw [afterBreak_findEntry] at hy
    exact absurd hy (Option.some_ne_none y).symm
  · intro y hy
    refine h.resolve_right hev y ?_
    exact (find?_filter_event_ne hev v.schedule).symm.trans hy

theorem unready_idles {v : Service} {e : BreakEntry} {ev : EventId} (hfind : v.findEntry e.event = some e)
    (h : v.Idles ev ∨ ev = e.event) : (v.unready e).Idles ev := by
  by_cases hev : ev = e.event
  · subst hev
    intro y hy
    have hfound := find_mapEntry (f := BreakEntry.bypassed) (fun _ => rfl) hfind
    exact (Option.some.inj (hfound.symm.trans hy)) ▸ rfl
  · intro y hy
    refine h.resolve_right hev y ?_
    exact (find?_mapEntry_ne (f := BreakEntry.bypassed) (fun _ => rfl) hev v.schedule).symm.trans hy

/-- The step leaves the entry of its event ID, and any other that was, not ACTIVE. -/
theorem bypassEntry_idles {i : ServiceIx} {t : State} {ev ev' : EventId} (h : (t.service i).Idles ev' ∨ ev' = ev) :
    ((bypassEntry i t ev).service i).Idles ev' := by
  cases hfind : (t.service i).findEntry ev with
  | none =>
    rw [bypassEntry_none hfind]
    refine h.elim id fun heq e he => ?_
    rw [heq, hfind] at he
    exact absurd he (Option.some_ne_none e).symm
  | some e =>
    have hev : e.event = ev := findEntry_event hfind
    rw [← hev] at h hfind
    by_cases hactive : e.isActive = true
    · rw [← hev, bypassEntry_active hfind hactive, leaveBreak_service hfind]
      exact afterBreak_idles h
    · have hidle : e.isActive = false := Bool.eq_false_iff.mpr hactive
      rw [← hev, bypassEntry_idle hfind hidle]
      split
      · rw [bypassReady_service]
        exact unready_idles hfind h
      · refine h.elim id fun heq y hy => ?_
        rw [heq, hfind] at hy
        exact Option.some.inj hy ▸ hidle

theorem unready_events (v : Service) (e : BreakEntry) : (v.unready e).events = v.events := by
  rw [Service.events, Service.unready, mapEntry, List.map_map]
  refine List.map_congr_left fun x _ => ?_
  by_cases hx : x.event = e.event <;> simp [hx, BreakEntry.bypassed]

/-- The step brings no event ID in. -/
theorem bypassEntry_events {i : ServiceIx} {t : State} {ev x : EventId}
    (h : x ∈ ((bypassEntry i t ev).service i).events) : x ∈ (t.service i).events := by
  cases hfind : (t.service i).findEntry ev with
  | none => exact bypassEntry_none hfind ▸ h
  | some e =>
    by_cases hactive : e.isActive = true
    · rw [bypassEntry_active hfind hactive, leaveBreak_service hfind] at h
      obtain ⟨y, hy, rfl⟩ := List.mem_map.mp h
      exact List.mem_map_of_mem (List.mem_filter.mp hy).1
    · rw [bypassEntry_idle hfind (Bool.eq_false_iff.mpr hactive)] at h
      split at h
      · rw [bypassReady_service, unready_events] at h
        exact h
      · exact h

theorem foldl_bypassEntry_ends (i : ServiceIx) (evs : List EventId) :
    ∀ s : State, Ends (· = i) s (evs.foldl (bypassEntry i) s) := by
  induction evs with
  | nil => exact .refl
  | cons ev evs ih => exact fun s => (bypassEntry_ends i s ev).trans (ih _)

theorem foldl_bypassEntry_events {i : ServiceIx} {x : EventId} (evs : List EventId) :
    ∀ s : State, x ∈ ((evs.foldl (bypassEntry i) s).service i).events → x ∈ (s.service i).events := by
  induction evs with
  | nil => exact fun _ => id
  | cons ev evs ih => exact fun s h => bypassEntry_events (ih _ h)

theorem foldl_bypassEntry_idles {i : ServiceIx} {x : EventId} (evs : List EventId) :
    ∀ s : State, (s.service i).Idles x ∨ x ∈ evs → ((evs.foldl (bypassEntry i) s).service i).Idles x := by
  induction evs with
  | nil => exact fun s h => h.resolve_right List.not_mem_nil
  | cons ev evs ih =>
    refine fun s h => ih _ ?_
    rw [List.mem_cons, ← or_assoc] at h
    exact h.imp_left bypassEntry_idles

theorem bypassSchedule_ends (i : ServiceIx) (s : State) : Ends (· = i) s (bypassSchedule i s) :=
  foldl_bypassEntry_ends ..

/-- No entry is ACTIVE any more. -/
theorem bypassSchedule_activeHead (i : ServiceIx) (s : State) : ((bypassSchedule i s).service i).activeHead = none := by
  rw [bypassSchedule_eq_foldl]
  refine Option.eq_none_iff_forall_ne_some.mpr fun e he => ?_
  have hactive := activeHead_isActive he
  have hfind := findEntry_activeHead he
  have hmem : e.event ∈ (s.service i).events :=
    foldl_bypassEntry_events _ s (List.mem_map_of_mem (List.mem_of_find?_eq_some hfind))
  have hidle := foldl_bypassEntry_idles _ s (.inr hmem) e hfind
  exact Bool.noConfusion (hidle.symm.trans hactive)

/-! ### Local programmes at entry to BYPASS (R126) -/

/-- The step of `bypassSlots` on the slot at one letter. -/
def bypassSlot (i : ServiceIx) (t : State) (l : SlotLetter) : State :=
  match (t.service i).slot l with
  | some p =>
    if p.isRunning then leaveSlot i l (.ended .bypass t.now) t
    else if p.state == .ready then bypassReadySlot i l p t
    else t
  | none => t

theorem bypassSlots_eq (i : ServiceIx) (s : State) :
    bypassSlots i s
      = bypassSlot i (bypassSlot i s (s.service i).current) (otherLetter (s.service i).current) := rfl

theorem bypassReadySlot_service (i : ServiceIx) (l : SlotLetter) (p : LocalProg) (s : State) :
    (bypassReadySlot i l p s).service i
      = (s.service i).setSlot l (((s.service i).slot l).map fun x => { x with state := .notReady .bypass }) := by
  rw [bypassReadySlot, offer_service, State.modSlot, modService_service_self, detach_service]

theorem bypassReadySlot_ends (i : ServiceIx) (l : SlotLetter) (p : LocalProg) (s : State) :
    Ends (· = i) s (bypassReadySlot i l p s) :=
  (Ends.detach _ p.source (.loc i l) s).trans ((Ends.modService _ (setSlot_core ..)).trans (Ends.offer _ _ _))

theorem bypassSlot_ends (i : ServiceIx) (t : State) (l : SlotLetter) : Ends (· = i) t (bypassSlot i t l) := by
  unfold bypassSlot
  split
  · split
    · exact leaveSlot_ends ..
    · split
      · exact bypassReadySlot_ends ..
      · exact .refl t
  · exact .refl t

/-- The slot at a letter is not RUNNING. -/
def Service.Rests (v : Service) (l : SlotLetter) : Prop := ∀ p, v.slot l = some p → p.isRunning = false

theorem rests_of_none {v : Service} {l : SlotLetter} (h : v.slot l = none) : v.Rests l := fun p hp =>
  absurd (h.symm.trans hp) (Option.some_ne_none p).symm

theorem setSlot_slot_self (v : Service) (l : SlotLetter) (p : Option LocalProg) : (v.setSlot l p).slot l = p := by
  cases l <;> rfl

theorem setSlot_slot_other (v : Service) (l : SlotLetter) (p : Option LocalProg) :
    (v.setSlot l p).slot (otherLetter l) = v.slot (otherLetter l) := by cases l <;> rfl

/-- The step leaves its slot not RUNNING, and the other slot and the schedule as they are. -/
theorem bypassSlot_rests (i : ServiceIx) (t : State) (l : SlotLetter) :
    ((bypassSlot i t l).service i).Rests l
      ∧ ((bypassSlot i t l).service i).slot (otherLetter l) = (t.service i).slot (otherLetter l)
      ∧ ((bypassSlot i t l).service i).schedule = (t.service i).schedule := by
  unfold bypassSlot
  split
  next p hp =>
    split
    next => exact ⟨rests_of_none (leaveSlot_slot_self ..), leaveSlot_slot_other .., leaveSlot_schedule ..⟩
    next hrunning =>
      split
      next =>
        rw [bypassReadySlot_service]
        refine ⟨fun q hq => ?_, setSlot_slot_other .., setSlot_schedule ..⟩
        rw [setSlot_slot_self, hp] at hq
        exact Option.some.inj hq ▸ rfl
      next => exact ⟨fun q hq => Option.some.inj (hp.symm.trans hq) ▸ Bool.eq_false_iff.mpr hrunning, rfl, rfl⟩
  next hnone => exact ⟨rests_of_none hnone, rfl, rfl⟩

theorem bypassSlots_ends (i : ServiceIx) (s : State) : Ends (· = i) s (bypassSlots i s) :=
  (bypassSlot_ends ..).trans (bypassSlot_ends ..)

theorem running_of_rests {v : Service} (h : ∀ l, v.Rests l) : v.running = none := by
  refine Option.eq_none_iff_forall_ne_some.mpr fun x hx => ?_
  obtain ⟨hslot, hrunning⟩ := slot_running (l := x.1) (p := x.2) hx
  exact Bool.noConfusion ((h x.1 x.2 hslot).symm.trans hrunning)

theorem forall_letter {P : SlotLetter → Prop} {l : SlotLetter} (h : P l) (h' : P (otherLetter l)) (m : SlotLetter) :
    P m := by
  cases l <;> cases m
  · exact h
  · exact h'
  · exact h'
  · exact h

theorem bypassSlots_running (i : ServiceIx) (s : State) : ((bypassSlots i s).service i).running = none := by
  rw [bypassSlots_eq]
  obtain ⟨hfirst, -, -⟩ := bypassSlot_rests i s (s.service i).current
  obtain ⟨hsecond, hother, -⟩ := bypassSlot_rests i (bypassSlot i s (s.service i).current) (otherLetter (s.service i).current)
  rw [otherLetter_otherLetter] at hother
  refine running_of_rests (forall_letter (l := (s.service i).current) (fun p hp => ?_) hsecond)
  exact hfirst p (hother.symm.trans hp)

theorem bypassSlots_schedule (i : ServiceIx) (s : State) :
    ((bypassSlots i s).service i).schedule = (s.service i).schedule := by
  rw [bypassSlots_eq, (bypassSlot_rests ..).2.2, (bypassSlot_rests ..).2.2]

/-! ### Entry to BYPASS (R169) -/

theorem activeHead_congr {v w : Service} (h : w.schedule = v.schedule) : w.activeHead = v.activeHead := by
  rw [Service.activeHead, h, ← Service.activeHead]

/-- A service has no insertion on air. -/
def Service.OffAir (v : Service) : Prop := v.activeHead = none ∧ v.running = none

theorem bypassServices_offAir {s : State} {i : ServiceIx} (h : (s.service i).window ≠ none) :
    ((bypassServices s).service i).OffAir := by
  refine forServices_establishes (fun t ht => ?self) (fun j t hj => ?other)
  case self =>
    have hdefined : (t.service i).defined = true := by rw [ht]; exact Option.isSome_iff_ne_none.mpr h
    rw [if_pos hdefined]
    exact ⟨(activeHead_congr (bypassSlots_schedule ..)).trans (bypassSchedule_activeHead i t), bypassSlots_running ..⟩
  case other =>
    split
    · exact ((bypassSchedule_ends j t).trans (bypassSlots_ends ..)).others i (Ne.symm hj)
    · rfl

theorem bypassServices_ends (s : State) : Ends (fun _ => True) s (bypassServices s) := by
  refine forServices_rel .refl .trans (fun i t => ?_) s
  split
  · exact ((bypassSchedule_ends ..).trans (bypassSlots_ends ..)).mono fun _ _ => trivial
  · exact .refl t

/-- The state steps 1 to 4 of entry to BYPASS leave. -/
def bypassed (kind : ErrorKind) (s : State) : State :=
  resetComponents (endAllAlerts .bypass (bypassServices (bypassMode kind s)))

theorem bypassed_modeControl (kind : ErrorKind) (s : State) :
    (bypassed kind s).modeControl = { s.modeControl with mode := .bypass, bypassStamp := some s.now } := by
  have hends := (bypassServices_ends (bypassMode kind s)).stands.modeControl
  have hwinds := ((endAllAlerts_winds .bypass (bypassServices (bypassMode kind s))).trans
    (resetComponents_winds _)).modeControl
  exact (hwinds.trans hends).trans (offer_modeControl ..)

theorem bypassed_service (kind : ErrorKind) (s : State) (i : ServiceIx) :
    (bypassed kind s).service i
      = ((endAllAlerts .bypass (bypassServices (bypassMode kind s))).service i).componentsReset :=
  resetComponents_service ..

/-- What is off the air when the alerts end stays so. -/
theorem endAllAlerts_offAir {cause : Cause} {s : State} {i : ServiceIx} (h : (s.service i).OffAir) :
    (((endAllAlerts cause s).service i).componentsReset).OffAir := by
  have hwinds := ((endAllAlerts_winds cause s).services i).trans (componentsReset_winds _)
  exact ⟨hwinds.activeHead h.1, hwinds.running h.2⟩

theorem componentsReset_overlayNulls (v : Service) : v.componentsReset.overlayNulls = v.overlayNulls := rfl

theorem bypassed_offAir {kind : ErrorKind} {s : State} {i : ServiceIx} (h : (s.service i).window ≠ none) :
    ((bypassed kind s).service i).OffAir ∧ ((bypassed kind s).service i).overlayNulls = 0 := by
  have hservice : (bypassMode kind s).service i = s.service i := offer_service ..
  have hwindow : ((bypassMode kind s).service i).window ≠ none := by rw [hservice]; exact h
  have hnulls := endAllAlerts_overlayNulls .bypass (bypassServices (bypassMode kind s)) i
  rw [bypassed_service]
  exact ⟨endAllAlerts_offAir (bypassServices_offAir hwindow), (componentsReset_overlayNulls _).trans hnulls⟩

theorem bypassed_shows (kind : ErrorKind) (s : State) (i : ServiceIx) :
    ∀ c ∈ ((bypassed kind s).service i).comps, c.Shows := by
  rw [bypassed_service]
  exact componentsReset_shows _

theorem bypassed_alert (kind : ErrorKind) (s : State) (k : AlertIx) : (bypassed kind s).alert k = none :=
  (resetComponents_alert ..).trans (endAllAlerts_alert ..)

theorem bypassed_quiet (kind : ErrorKind) (s : State) : Quiet s (bypassed kind s) :=
  resetComponents_quiet (endAllAlerts_quiet (bypassServices_quiet (bypassMode_quiet .refl)))

/-- The recovery timer once the part is in BYPASS (R169). -/
def ModeControl.recovering (m : ModeControl) (now : Stamp) : ModeControl :=
  { m with timer := if m.holdOnFault then m.timer else some (now + secTicks m.interval) }

theorem startRecovery_unlessHeld {s : State} {m : ModeControl} (hm : s.modeControl.recovering s.now = m) :
    (if s.modeControl.holdOnFault then s else startRecovery s) = { s with modeControl := m } := by
  subst hm
  by_cases h : s.modeControl.holdOnFault = true
  · rw [if_pos h, ModeControl.recovering, if_pos h]
  · rw [if_neg h, ModeControl.recovering, if_neg h]
    rfl

/-- Mode Control of a part that has entered BYPASS (R169). -/
def State.bypassControl (s : State) : ModeControl :=
  ({ s.modeControl with mode := .bypass, bypassStamp := some s.now } : ModeControl).recovering s.now

/-- Entry to BYPASS changes Mode Control alone after that. -/
theorem enterBypass_eq (kind : ErrorKind) (s : State) :
    enterBypass kind s = { bypassed kind s with modeControl := s.bypassControl } := by
  have hmode := bypassed_modeControl kind s
  have hnow : (bypassed kind s).now = s.now := (bypassed_quiet kind s).inner.kept.now
  rw [enterBypass, ← bypassed]
  exact startRecovery_unlessHeld (by rw [hmode, hnow, State.bypassControl])

theorem enterBypass_service (kind : ErrorKind) (s : State) (i : ServiceIx) :
    (enterBypass kind s).service i = (bypassed kind s).service i :=
  service_congr (by rw [enterBypass_eq]) i

theorem enterBypass_alert (kind : ErrorKind) (s : State) (k : AlertIx) : (enterBypass kind s).alert k = none :=
  (alert_congr (by rw [enterBypass_eq]) k).trans (bypassed_alert kind s k)

theorem enterBypass_modeControl (kind : ErrorKind) (s : State) :
    (enterBypass kind s).modeControl = s.bypassControl := by rw [enterBypass_eq]

theorem enterBypass_shows (kind : ErrorKind) (s : State) (i : ServiceIx) :
    ∀ c ∈ ((enterBypass kind s).service i).comps, c.Shows := by
  rw [enterBypass_service]
  exact bypassed_shows kind s i

theorem enterBypass_offAir {kind : ErrorKind} {s : State} {i : ServiceIx} (h : (s.service i).window ≠ none) :
    ((enterBypass kind s).service i).activeHead = none ∧ ((enterBypass kind s).service i).running = none
      ∧ ((enterBypass kind s).service i).overlayNulls = 0 := by
  obtain ⟨⟨hhead, hrunning⟩, hnulls⟩ := bypassed_offAir (kind := kind) h
  rw [enterBypass_service]
  exact ⟨hhead, hrunning, hnulls⟩

/-! ### READ-TIMEOUT (R38, R39) -/

/-- READ-TIMEOUT, FATAL and reported, puts its action off. -/
theorem raise_timeout_deferred {e : ErrorEvent} {s : State} (hk : e.kind = .readTimeout) (hf : TimeoutFatal s)
    (hc : Calm s) : (raise e s).deferred = s.deferred ++ [.fatal .readTimeout] := by
  obtain ⟨hfatal, hreported⟩ := hf
  rw [← hk] at hfatal hreported
  have hcalm : Calm (captureError e (s.logged e)) := by
    have hkept : Reported s (captureError e (deferAction e (countKind e.kind s))) :=
      ((Reported.refl s).countKind e.kind).deferAction e |>.captureError e
    rw [deferAction_countKind] at hkept
    exact hkept.calm hc
  rw [raise_reporting hreported, offer_deferred _ hcalm, captureError_deferred, State.logged, hfatal]
  exact congrArg (fun k => s.deferred ++ [Deferred.fatal k]) hk

/-- The action of a FATAL error, put off alone, takes an ACTIVE part to BYPASS. -/
theorem settle_fatal {kind : ErrorKind} {s : State} (h : s.deferred = [.fatal kind]) (hc : Calm s)
    (hm : s.mode = .active) : settle s = enterBypass kind { s with deferred := [] } := by
  have hrun : runAction (.fatal kind) { s with deferred := [] } = enterBypass kind { s with deferred := [] } :=
    fatalAction_active (s := { s with deferred := [] }) hm
  have hdeferred : (runAction (.fatal kind) { s with deferred := [] }).deferred = [] :=
    runAction_deferred (s := { s with deferred := [] }) hc
  rw [settle_cons hc h, settle_nil hdeferred, hrun]

/-- The state in which the timeout of an entry's read is raised (R39). -/
def timingOut (x : EntryIx) (e : RttEntry) (s : State) : State :=
  (dropFromOrder x e (orphanReads (ReadOwner.isOf x) s)).setEntry x (some e.failed)

/-- What the timeout of an entry's read leaves alone. -/
structure Waits (s t : State) : Prop where
  services : t.services = s.services
  modeControl : t.modeControl = s.modeControl
  now : t.now = s.now
  kinds : t.kinds = s.kinds
  deferred : t.deferred = s.deferred
  fixed : SameFixed s t
  groups : t.groups = s.groups
  link : t.link = s.link
  intake : t.intake = s.intake
  cells : t.cells = s.cells

theorem timingOut_waits (x : EntryIx) (e : RttEntry) (s : State) : Waits s (timingOut x e s) := by
  unfold timingOut dropFromOrder
  cases e.kind with
  | slot i => exact ⟨rfl, rfl, rfl, rfl, rfl, ⟨rfl, rfl, rfl, rfl⟩, rfl, rfl, rfl, rfl⟩
  | plain => exact ⟨rfl, rfl, rfl, rfl, rfl, ⟨rfl, rfl, rfl, rfl⟩, rfl, rfl, rfl, rfl⟩

/-- The state in which the part enters BYPASS: the timeout raised, and no action in hand. -/
def timedOutState (x : EntryIx) (e : RttEntry) (addr : Addr) (s : State) : State :=
  { timeOutEntry x e addr s with deferred := [] }

theorem timedOutState_leaves (x : EntryIx) (e : RttEntry) (addr : Addr) (s : State) :
    (timedOutState x e addr s).services = s.services ∧ (timedOutState x e addr s).modeControl = s.modeControl
      ∧ (timedOutState x e addr s).now = s.now ∧ SameFixed s (timedOutState x e addr s)
      ∧ (timedOutState x e addr s).groups = s.groups ∧ (timedOutState x e addr s).link = s.link
      ∧ (timedOutState x e addr s).intake = s.intake ∧ (timedOutState x e addr s).cells = s.cells := by
  have hw := timingOut_waits x e s
  have hr := raise_reported (timeoutEvent e addr) (timingOut x e s)
  obtain ⟨hpending, hfree, hstraps, hroles⟩ := hw.fixed
  exact ⟨hr.services.trans hw.services, hr.modeControl.trans hw.modeControl, hr.now.trans hw.now,
    ⟨hr.pending.trans hpending, hr.freeIndex.trans hfree, hr.straps.trans hstraps, hr.roles.trans hroles⟩,
    hr.groups.trans hw.groups, hr.link.trans hw.link, hr.intake.trans hw.intake, hr.cells.trans hw.cells⟩

theorem settle_timeOutEntry {x : EntryIx} {e : RttEntry} {addr : Addr} {s : State} (hm : s.mode = .active)
    (hf : TimeoutFatal s) (hc : Calm s) (hd : s.deferred = []) :
    settle (timeOutEntry x e addr s) = enterBypass .readTimeout (timedOutState x e addr s) := by
  have hw := timingOut_waits x e s
  have hfatal : TimeoutFatal (timingOut x e s) := by rw [TimeoutFatal, State.kindLog, hw.kinds]; exact hf
  have hcalm : Calm (timingOut x e s) := by rw [Calm, State.kindLog, hw.kinds]; exact hc
  have hdeferred : (timeOutEntry x e addr s).deferred = [.fatal .readTimeout] := by
    have hraised := raise_timeout_deferred (e := timeoutEvent e addr) rfl hfatal hcalm
    rw [hw.deferred, hd] at hraised
    exact hraised
  have hactive : (timeOutEntry x e addr s).mode = .active := by
    have hmode : (timeOutEntry x e addr s).modeControl = s.modeControl := (raise_modeControl ..).trans hw.modeControl
    rw [State.mode, hmode]
    exact hm
  exact settle_fatal hdeferred ((raise_reported ..).calm hcalm) hactive

/-- Settles O28, by what entry to BYPASS leaves of the state in which the timeout has been raised. -/
theorem readTimeoutTakesActivePartToBypass : Obligations.ReadTimeoutTakesActivePartToBypass := by
  intro now x e o s ho he hm hf hc hd
  let u := timedOutState x e o.read.addr (s.at now)
  obtain ⟨hservices, hmode, hnow, hfixed, hgroups, hlink, hintake, hcells⟩ :=
    timedOutState_leaves x e o.read.addr (s.at now)
  have hexec : exec (.readDeadlineExpiry now x) s = .next (enterBypass .readTimeout u) := by
    rw [exec_readDeadlineExpiry ho he, settle_timeOutEntry (s := s.at now) hm hf hc hd]
  have hquiet : Quiet u (enterBypass .readTimeout u) := enterBypass_quiet .refl
  have hkept := hquiet.inner.kept
  obtain ⟨hpending, hfree, hstraps, hroles⟩ := hkept.fixed
  obtain ⟨hpending', hfree', hstraps', hroles'⟩ := hfixed
  have hwindow (i : ServiceIx) : u.service i = s.service i := service_congr (s := s) hservices i
  have hcontrol := enterBypass_modeControl .readTimeout u
  refine ⟨_, hexec, congrArg ModeControl.mode hcontrol, ?stamp, ?timer, enterBypass_alert .readTimeout u,
    fun i hw => enterBypass_offAir (by rw [hwindow]; exact hw), enterBypass_shows .readTimeout u,
    ⟨hpending.trans hpending', hfree.trans hfree', hstraps.trans hstraps', hroles.trans hroles'⟩,
    hkept.groups.trans hgroups, hkept.link.trans hlink, hkept.intake.trans hintake, hkept.cells.trans hcells⟩
  case stamp =>
    have hstamp : u.bypassControl.bypassStamp = some u.now := rfl
    rw [hcontrol, hstamp, hnow]
    rfl
  case timer =>
    have htimer : u.bypassControl.timer = if u.modeControl.holdOnFault then u.modeControl.timer
        else some (u.now + secTicks u.modeControl.interval) := rfl
    rw [hcontrol, htimer, hmode, hnow]
    rfl

end Sys2Proof.Machine
end

