-- ==== Sys2Proof/Proofs/BreakCommands.lean ====
section
/-! PROOF. BREAK INSERT, BREAK RETURN, BREAK CANCEL and BREAK END NOW (R86, R104), and LOCAL CANCEL (R125): what their requests
come to, as rows. -/

namespace Sys2Proof.Machine

/-! ### A command whose effect may put an action off (R158, R165) -/

theorem exec_settled {x : Instr} {code : Byte} {c : CellCommand} {r : Reply} {f : State → State} {s : State}
    (hx : commandOf x = some (code, c)) (hw : x.wellFormed = true) (hi : Idle c s)
    (hrun : runCommand (entryOf code c) (takenState code x.now c s) = (.answered r, f (takenState code x.now c s))) :
    exec x s = .next (settle (afterReply code x.now c r f s)) := by
  rw [exec_commandOf hx hw, takeCommand_answered hi hrun]
  rfl

theorem passive_eq_false {s : State} (h : s.mode ≠ .passive) : (s.mode == .passive) = false := beq_eq_false_iff_ne.mpr h

/-! ### BREAK INSERT (R81, R82, R86) -/

theorem cmdBreakInsert_eq {p : Params} {i : ServiceIx} {a : AvailIx} {r : OutOutcome} {s t : State}
    (hp : pIndex 48 p 0 = some i) (ha : pIndex 16 p 14 = some a) (hm : s.mode ≠ .passive)
    (hw : (s.service i).window ≠ none) (h : takeOut i (pOut p a s.now) s = (r, t)) :
    cmdBreakInsert p s = (.answered r.reply, t) := by
  simp only [cmdBreakInsert, hp, ha, passive_eq_false hm, Service.defined_of_window hw, h, Bool.not_true,
    Bool.false_eq_true, if_false]
  rfl

theorem durationOf_eq (w : BitVec 32) : durationOf w = if w = 0 then none else some w := by
  simp only [durationOf, beq_iff_eq]

theorem durationOf_getD (w : BitVec 32) : (durationOf w).getD 0 = w := by
  rw [durationOf_eq]
  by_cases h : w = 0
  · rw [if_pos h, h, Option.getD_none]
  · rw [if_neg h, Option.getD_some]

theorem outIsLate_iff_late {v : Service} {splice now : Stamp} : outIsLate v splice now = true
    ↔ before splice (now - BitVec.ofNat 32 (v.lateWindow * 90)) = true ∨ farAfter splice now = true := by
  rw [outIsLate, Bool.or_eq_true, msTicks]

/-- The state with a request's entry inserted and its intake number taken (R78, R79, R81). -/
def insertedEntry (i : ServiceIx) (e : BreakEntry) (s : State) : State :=
  s.modService i fun v =>
    { v with schedule := placeEntry e v.schedule, intakeCounter := v.intakeCounter + 1 }

/-- The entry a request gives a service (R78). -/
def OutRequest.entryIn (o : OutRequest) (v : Service) : BreakEntry := o.entry v.intakeCounter (v.clampSplice o.splice)

theorem insertOut_eq (i : ServiceIx) (o : OutRequest) (s : State) :
    insertOut i o s = armBreak i o.event (insertedEntry i (o.entryIn (s.service i)) s) := rfl

theorem findEntry_inserted {i : ServiceIx} {e : BreakEntry} {s : State} (h : (s.service i).findEntry e.event = none) :
    ((insertedEntry i e s).service i).findEntry e.event = some e := by
  rw [insertedEntry, modService_service_self]
  exact find?_placeEntry (p := fun x => x.event == e.event) (by simp) h

/-- The pre-roll moment of an entry inserted, as the service has it. -/
theorem preRollMoment_inserted (i : ServiceIx) (e : BreakEntry) (s : State) :
    preRollMoment ((insertedEntry i e s).service i) e.splice
      = e.splice - BitVec.ofNat 32 ((s.service i).preRoll * 90) := by
  rw [insertedEntry, modService_service_self]
  rfl

theorem armBreak_inserted {i : ServiceIx} {e : BreakEntry} {s : State} (h : (s.service i).findEntry e.event = none) :
    armBreak i e.event (insertedEntry i e s)
      = armPreRoll (e.splice - BitVec.ofNat 32 ((s.service i).preRoll * 90)) (.brk i e.event) (checkBreak i e.event)
          (insertedEntry i e s) := by
  rw [armBreak_of_find (findEntry_inserted h), preRollMoment_inserted]

/-! ### BREAK RETURN, BREAK CANCEL and BREAK END NOW (R83, R84, R104) -/

theorem cmdBreakReturn_eq {p : Params} {i : ServiceIx} {a : AvailIx} {r : InOutcome} {s t : State}
    (hp : pIndex 48 p 0 = some i) (ha : pIndex 16 p 14 = some a) (hm : s.mode ≠ .passive)
    (hw : (s.service i).window ≠ none)
    (h : takeIn i (pWord p 2) (requestStamp (pWord p 6) (pByte p 15) s.now) s = (r, t)) :
    cmdBreakReturn p s = (.answered r.reply, t) := by
  simp only [cmdBreakReturn, hp, ha, passive_eq_false hm, Service.defined_of_window hw, h, Bool.not_true,
    Bool.false_eq_true, if_false]
  rfl

theorem cmdBreakCancel_eq {p : Params} {i : ServiceIx} {r : CancelOutcome} {s t : State}
    (hp : pIndex 48 p 0 = some i) (ha : (pByte p 14).toNat < 16) (hw : (s.service i).window ≠ none)
    (h : takeCancel i (pWord p 2) s = (r, t)) : cmdBreakCancel p s = (.answered r.reply, t) := by
  have hindex : pIndex 16 p 14 = some ⟨(pByte p 14).toNat, ha⟩ := pIndex_of_toNat_eq rfl
  simp only [cmdBreakCancel, hp, hindex, Service.defined_of_window hw, h, Bool.not_true, Bool.false_eq_true, if_false]
  rfl

theorem cmdBreakEndNow_ends {p : Params} {i : ServiceIx} {e : BreakEntry} {s : State}
    (hp : pIndex 48 p 0 = some i) (hm : s.mode ≠ .passive) (hw : (s.service i).window ≠ none)
    (he : (s.service i).activeHead = some e) (hev : e.event = pWord p 2) : cmdBreakEndNow p s = endNow i e s := by
  simp only [cmdBreakEndNow, hp, passive_eq_false hm, Service.defined_of_window hw, he, hev, Bool.not_true,
    Bool.false_eq_true, if_false, beq_self_eq_true, if_true]

theorem cmdBreakEndNow_unmatched {p : Params} {i : ServiceIx} {s : State} (hp : pIndex 48 p 0 = some i)
    (hm : s.mode ≠ .passive) (hw : (s.service i).window ≠ none)
    (h : ∀ e, (s.service i).activeHead = some e → e.event ≠ pWord p 2) :
    cmdBreakEndNow p s = refuse .notDefined s := by
  simp only [cmdBreakEndNow, hp, passive_eq_false hm, Service.defined_of_window hw, Bool.not_true, Bool.false_eq_true,
    if_false]
  cases he : (s.service i).activeHead with
  | none => rfl
  | some e => simp only [beq_eq_false_iff_ne.mpr (h e he), Bool.false_eq_true, if_false]

/-! ### LOCAL CANCEL (R125) -/

theorem cmdLocalCancel_slot {p : Params} {i : ServiceIx} {l : SlotLetter} {q : LocalProg} {s : State}
    (hp : pIndex 48 p 0 = some i) (hl : letterOfCode (pByte p 1) = some l) (hw : (s.service i).window ≠ none)
    (hq : (s.service i).slot l = some q) (hstart : q.start = pWord p 6) :
    cmdLocalCancel p s = if q.isRunning then done 2 (leaveSlot i l (.ended .cancelled s.now) s)
      else done 1 (leaveSlot i l .cancelled s) := by
  simp only [cmdLocalCancel, hp, hl, Service.defined_of_window hw, hq, hstart, Bool.not_true, Bool.false_eq_true,
    if_false, bne_self_eq_false]

theorem cmdLocalCancel_unmatched {p : Params} {i : ServiceIx} {l : SlotLetter} {s : State}
    (hp : pIndex 48 p 0 = some i) (hl : letterOfCode (pByte p 1) = some l) (hw : (s.service i).window ≠ none)
    (h : ∀ q, (s.service i).slot l = some q → q.start ≠ pWord p 6) : cmdLocalCancel p s = refuse .notDefined s := by
  simp only [cmdLocalCancel, hp, hl, Service.defined_of_window hw, Bool.not_true, Bool.false_eq_true, if_false]
  cases hq : (s.service i).slot l with
  | none => rfl
  | some q => simp only [bne_iff_ne.mpr (h q hq), if_true]

/-- Settles O58, by the request each command hands over. -/
theorem cancelCommandsMakeOwnersLeave : Obligations.CancelCommandsMakeOwnersLeave := by
  intro now c i s hi hc hp hw v ev
  refine ⟨fun e ha hfind hstate => ?waiting, fun e ha hfind hstate => ?active, fun ha hnone => ?unmatched,
    fun e out hm hhead hev hout => ?endNow, fun hm hother => ?endNowUnmatched, fun l p hl hslot hstart => ?slot,
    fun l hl hother => ?slotUnmatched⟩
  case waiting =>
    exact exec_inner (x := .breakCancel now c) (f := leaveBreak i ev .cancelled) rfl rfl hi hc
      (cmdBreakCancel_eq (s := takenState 0x26 now c s) hp ha hw
        (takeCancel_waiting (s := takenState 0x26 now c s) hfind hstate))
      (leaveBreak_quiet .refl)
  case active =>
    exact exec_inner (x := .breakCancel now c) (f := leaveBreak i ev (.ended .cancelled now)) rfl rfl hi hc
      (cmdBreakCancel_eq (s := takenState 0x26 now c s) hp ha hw
        (takeCancel_active (s := takenState 0x26 now c s) hfind hstate)) (leaveBreak_quiet .refl)
  case unmatched =>
    exact exec_afterReply_id (x := .breakCancel now c) rfl rfl hi
      (cmdBreakCancel_eq (s := takenState 0x26 now c s) hp ha hw (takeCancel_unmatched (s := takenState 0x26 now c s) hnone))
  case endNow =>
    have hended : endNow i e (takenState 0x27 now c s)
        = (.answered (.done (now - out)), leaveBreak i ev (.ended .controlEnd now) (takenState 0x27 now c s)) := by
      rw [endNow, hout, hev]
      rfl
    exact exec_inner (x := .breakEndNow now c) (f := leaveBreak i ev (.ended .controlEnd now)) rfl rfl hi hc
      ((cmdBreakEndNow_ends (s := takenState 0x27 now c s) hp hm hw hhead hev).trans hended) (leaveBreak_quiet .refl)
  case endNowUnmatched =>
    exact exec_afterReply_id (x := .breakEndNow now c) rfl rfl hi
      (cmdBreakEndNow_unmatched (s := takenState 0x27 now c s) hp hm hw hother)
  case slot =>
    have hcancel := cmdLocalCancel_slot (s := takenState 0x2D now c s) hp hl hw hslot hstart
    refine ⟨fun hstate => ?_, fun hstate => ?_⟩
    · rw [if_pos (isRunning_iff.mpr hstate)] at hcancel
      exact exec_inner (x := .localCancel now c) (f := leaveSlot i l (.ended .cancelled now)) rfl rfl hi hc hcancel
        (leaveSlot_quiet .refl)
    · rw [if_neg (mt isRunning_iff.mp hstate)] at hcancel
      exact exec_inner (x := .localCancel now c) (f := leaveSlot i l .cancelled) rfl rfl hi hc hcancel
        (leaveSlot_quiet .refl)
  case slotUnmatched =>
    exact exec_afterReply_id (x := .localCancel now c) rfl rfl hi
      (cmdLocalCancel_unmatched (s := takenState 0x2D now c s) hp hl hw hother)

end Sys2Proof.Machine
end

