-- ==== Sys2Proof/Proofs/BreakInsert.lean ====
section
/-! PROOF. BREAK INSERT and BREAK RETURN as rows, outcome by outcome (R81 to R83, R86, R90). -/

namespace Sys2Proof.Machine

/-- BREAK INSERT hands its request to the Schedule Unit. -/
theorem runCommand_breakInsert {now : Stamp} {c : CellCommand} {i : ServiceIx} {a : AvailIx} {r : OutOutcome}
    {s t : State} (hp : pIndex 48 c.params 0 = some i) (ha : pIndex 16 c.params 14 = some a) (hm : s.mode ≠ .passive)
    (hw : (s.service i).window ≠ none)
    (h : takeOut i (pOut c.params a now) (takenState 0x24 now c s) = (r, t)) :
    runCommand (entryOf 0x24 c) (takenState 0x24 now c s) = (.answered r.reply, t) :=
  cmdBreakInsert_eq (s := takenState 0x24 now c s) hp ha hm hw h

/-- An insertion that puts no action off. -/
theorem exec_breakInsert_quiet {now : Stamp} {c : CellCommand} {i : ServiceIx} {a : AvailIx} {r : OutOutcome}
    {f : State → State} {s : State} (hi : Idle c s) (hp : pIndex 48 c.params 0 = some i)
    (ha : pIndex 16 c.params 14 = some a) (hm : s.mode ≠ .passive) (hw : (s.service i).window ≠ none)
    (h : takeOut i (pOut c.params a now) (takenState 0x24 now c s) = (r, f (takenState 0x24 now c s)))
    (hd : (f (takenState 0x24 now c s)).deferred = (takenState 0x24 now c s).deferred) :
    exec (.breakInsert now c) s = .next (afterReply 0x24 now c r.reply f s) :=
  exec_afterReply (x := .breakInsert now c) rfl rfl hi (runCommand_breakInsert hp ha hm hw h)
    (hd.trans (hi.takenState_deferred 0x24 now))

theorem exec_breakInsert_settled {now : Stamp} {c : CellCommand} {i : ServiceIx} {a : AvailIx} {r : OutOutcome}
    {f : State → State} {s : State} (hi : Idle c s) (hp : pIndex 48 c.params 0 = some i)
    (ha : pIndex 16 c.params 14 = some a) (hm : s.mode ≠ .passive) (hw : (s.service i).window ≠ none)
    (h : takeOut i (pOut c.params a now) (takenState 0x24 now c s) = (r, f (takenState 0x24 now c s))) :
    exec (.breakInsert now c) s = .next (settle (afterReply 0x24 now c r.reply f s)) :=
  exec_settled (x := .breakInsert now c) rfl rfl hi (runCommand_breakInsert hp ha hm hw h)

/-- The request of a BREAK INSERT names a new event that the schedule has room for and that is not late. -/
structure Inserts (i : ServiceIx) (o : OutRequest) (s : State) : Prop where
  unmatched : (s.service i).findEntry o.event = none
  room : (s.service i).schedule.length < 4
  timely : outIsLate (s.service i) o.splice s.now = false

/-- The pre-roll moment of the entry a request gives a service (R90). -/
def OutRequest.moment (o : OutRequest) (v : Service) : Stamp :=
  (o.entryIn v).splice - BitVec.ofNat 32 (v.preRoll * 90)

theorem takeOut_inserts {i : ServiceIx} {o : OutRequest} {s : State} (h : Inserts i o s) :
    takeOut i o s = (.inserted, armPreRoll (o.moment (s.service i)) (.brk i o.event) (checkBreak i o.event)
      (insertedEntry i (o.entryIn (s.service i)) s)) := by
  have hnone : (s.service i).findEntry (o.entryIn (s.service i)).event = none := h.unmatched
  rw [takeOut_inserted h.unmatched h.room h.timely, insertOut_eq]
  exact congrArg (OutOutcome.inserted, ·) (armBreak_inserted hnone)

theorem takeOut_armed {i : ServiceIx} {o : OutRequest} {s : State} (h : Inserts i o s)
    (hlater : later (o.moment (s.service i)) s.now = true) (hroom : s.bank.length < 64) :
    takeOut i o s = (.inserted, armChannel (o.moment (s.service i)) (.brk i o.event)
      (insertedEntry i (o.entryIn (s.service i)) s)) := by
  rw [takeOut_inserts h]
  exact congrArg (OutOutcome.inserted, ·) (armPreRoll_armed (s := insertedEntry i (o.entryIn (s.service i)) s) _ _ hlater hroom)

theorem takeOut_checked {i : ServiceIx} {o : OutRequest} {s : State} (h : Inserts i o s)
    (hcome : later (o.moment (s.service i)) s.now = false) :
    takeOut i o s = (.inserted, checkEntry i (o.entryIn (s.service i)) (insertedEntry i (o.entryIn (s.service i)) s)) := by
  have hnone : (s.service i).findEntry (o.entryIn (s.service i)).event = none := h.unmatched
  rw [takeOut_inserts h]
  refine congrArg (OutOutcome.inserted, ·) ?_
  exact (armPreRoll_checks (s := insertedEntry i (o.entryIn (s.service i)) s) _ _ hcome).trans
    (checkBreak_scheduled (findEntry_inserted hnone) rfl)

theorem takeOut_untimed {i : ServiceIx} {o : OutRequest} {s : State} (h : Inserts i o s)
    (hlater : later (o.moment (s.service i)) s.now = true) (hfull : 64 ≤ s.bank.length) :
    takeOut i o s = (.inserted, raise { kind := .noTimer, service := some i }
      (insertedEntry i (o.entryIn (s.service i)) s)) := by
  rw [takeOut_inserts h]
  exact congrArg (OutOutcome.inserted, ·)
    (armPreRoll_noTimer (s := insertedEntry i (o.entryIn (s.service i)) s) _ _ hlater hfull)

/-- The entry of a BREAK INSERT, its duration absent when the field is 0. -/
theorem pOut_entryIn {p : Params} {a : AvailIx} {now : Stamp} {v : Service} {splice : Stamp}
    (h : v.clampSplice (requestStamp (pWord p 6) (pByte p 15) now) = splice) :
    (pOut p a now).entryIn v
      = { event := pWord p 2, intake := v.intakeCounter, avail := a, splice := splice,
          duration := if pWord p 10 = 0 then none else some (pWord p 10), ret := none, state := .scheduled,
          binding := none, actualOut := none, actualIn := none, pcrOffset := none, underruns := 0 } := by
  rw [← durationOf_eq, ← h]
  rfl

/-- A return stamp set in the entries of an event. -/
theorem modEntry_ret_eq (i : ServiceIx) (ev : EventId) (r : ReturnStamp) (s : State) :
    (s.modEntry i ev fun x => { x with ret := some r })
      = { s with
          services := vset s.services i
            { s.service i with
              schedule := (s.service i).schedule.map fun y => if y.event = ev then { y with ret := some r } else y } } := by
  have hmap (l : List BreakEntry) : (mapEntry ev (fun x => { x with ret := some r }) l)
      = l.map fun y => if y.event = ev then { y with ret := some r } else y := by
    simp only [mapEntry, beq_iff_eq]
  rw [State.modEntry, State.modService, ← hmap]
  rfl

/-- Settles O57, by the outcomes of the request the Schedule Unit takes. -/
theorem breakInsertAndReturnWriteSchedule : Obligations.BreakInsertAndReturnWriteSchedule := by
  intro now c i a s hi hc hp ha hm hw v ev stamp late entry
  let u := takenState 0x24 now c s
  let o := pOut c.params a now
  have hentry : o.entryIn v = entry := pOut_entryIn rfl
  have hlate : outIsLate v stamp now = true ↔ late := outIsLate_iff_late
  have hinserts (hnone : v.findEntry ev = none) (hroom : v.schedule.length < 4) (hl : ¬late) : Inserts i o u :=
    ⟨hnone, hroom, Bool.eq_false_iff.mpr (mt hlate.mp hl)⟩
  have hmoment : o.moment v = entry.splice - BitVec.ofNat 32 (v.preRoll * 90) := by rw [OutRequest.moment, hentry]
  refine ⟨fun hnone hroom hl => ?inserted, fun hnone hroom hl => ?missed, fun hnone hfull => ?full,
    fun e hfind hstate => ?busy, fun e hfind hstate => ?updated, fun e hfind hret => ?set, fun e r hfind hret hafter => ?kept,
    fun hnone => ?unmatched⟩
  case inserted =>
    have hin := hinserts hnone hroom hl
    refine ⟨fun hlater hbank => ?armed, fun hcome => ?checked, fun hlater hbank => ?untimed⟩
    case armed =>
      have htake : takeOut i o u = (.inserted, armChannel (o.moment v) (.brk i ev) (insertedEntry i (o.entryIn v) u)) :=
        takeOut_armed hin (by exact hmoment ▸ hlater) hbank
      rw [hentry, hmoment] at htake
      exact exec_breakInsert_quiet (r := .inserted) hi hp ha hm hw
        (f := fun u => armChannel (entry.splice - BitVec.ofNat 32 (v.preRoll * 90)) (.brk i ev) (insertedEntry i entry u))
        htake rfl
    case checked =>
      have htake : takeOut i o u = (.inserted, checkEntry i (o.entryIn v) (insertedEntry i (o.entryIn v) u)) :=
        takeOut_checked hin (by exact hmoment ▸ hcome)
      rw [hentry] at htake
      have hquiet : Quiet (insertedEntry i entry u) (checkEntry i entry (insertedEntry i entry u)) :=
        checkEntry_quiet .refl
      exact exec_breakInsert_quiet (r := .inserted) hi hp ha hm hw
        (f := fun u => checkEntry i entry (insertedEntry i entry u))
        htake (hquiet.put hc)
    case untimed =>
      have htake : takeOut i o u = (.inserted, raise { kind := .noTimer, service := some i }
          (insertedEntry i (o.entryIn v) u)) := takeOut_untimed hin (by exact hmoment ▸ hlater) hbank
      rw [hentry] at htake
      exact exec_breakInsert_settled (r := .inserted) hi hp ha hm hw
        (f := fun u => raise { kind := .noTimer, service := some i } (insertedEntry i entry u)) htake
  case missed =>
    exact exec_breakInsert_quiet (r := .missedLate) hi hp ha hm hw
      (f := offer (breakReport i ev .missed .late (some stamp) (some now) 0 none))
      (takeOut_late (s := u) hnone hroom (hlate.mpr hl)) (offer_deferred (s := u) _ hc)
  case full =>
    exact exec_breakInsert_quiet (r := .full) (f := id) hi hp ha hm hw (takeOut_full (s := u) hnone hfull) rfl
  case busy =>
    exact exec_breakInsert_quiet (r := .duplicate) (f := id) hi hp ha hm hw (takeOut_active (s := u) hfind hstate) rfl
  case updated =>
    intro updated replaced report afresh
    have hev : e.event = ev := findEntry_event hfind
    have htake : takeOut i o u = updateOut i o e u := takeOut_update (s := u) hfind hstate
    have hupdated : e.updatedBy v o = updated := by
      have hduration : o.duration = entry.duration := durationOf_eq _
      rw [BreakEntry.updatedBy, hduration]
      rfl
    have hplaced : placedAgain i o e u = replaced u := by
      have hplaced : placedAgain i o e u = (disarm (.brk i ev) u).modService i fun w =>
        { w with schedule := placeEntry (e.updatedBy v o) (w.schedule.filter fun y => y.event != ev) } := rfl
      rw [hplaced, hupdated]
    have hreport : updatedReport i (e.updatedBy (u.service i) o) = report :=
      (updatedReport_updatedBy hev).trans (congrArg (fun d => breakReport i ev .updated .none (some entry.splice)
        (e.ret.map ReturnStamp.stamp) d none) (durationOf_getD (pWord c.params 10)))
    have htimely (hl : ¬late) : outIsLate (u.service i) o.splice u.now = false :=
      Bool.eq_false_iff.mpr (mt hlate.mp hl)
    refine ⟨fun hl => ?late, fun hl hready havail => ?ready, fun hl hafresh => ?afresh⟩
    case late =>
      have hquiet : Quiet u (leaveBreak i ev (.missed .late now) u) := leaveBreak_quiet .refl
      exact exec_breakInsert_quiet (r := .missedLate) hi hp ha hm hw (f := leaveBreak i ev (.missed .late now))
        (htake.trans (updateOut_late (s := u) hfind (hlate.mpr hl))) (hquiet.put hc)
    case ready =>
      have hkept := updateOut_kept (o := o) hev (htimely hl) hready havail
      rw [hreport, hplaced] at hkept
      exact exec_breakInsert_quiet (r := .updated) hi hp ha hm hw (f := fun u => offer report (replaced u))
        (htake.trans hkept) (offer_deferred (s := replaced u) _ hc)
    case afresh =>
      have harmed := updateOut_afresh (o := o) hev (htimely hl) hafresh
      rw [hreport, hplaced] at harmed
      exact exec_breakInsert_settled (r := .updated) hi hp ha hm hw
        (f := fun u => offer report (afresh (replaced u))) (htake.trans harmed)
  case set =>
    have htake := takeIn_set (s := takenState 0x25 now c s) (stamp := stamp) hfind hret
    rw [modEntry_ret_eq] at htake
    exact exec_afterReply (x := .breakReturn now c) (r := .done 1)
      (f := fun u => { u with
        services := vset u.services i
          { v with
            schedule := v.schedule.map fun y =>
              if y.event = ev then { y with ret := some { stamp := stamp, origin := .cueIn } } else y } })
      rfl rfl hi (cmdBreakReturn_eq (s := takenState 0x25 now c s) hp ha hm hw htake) (hi.takenState_deferred 0x25 now)
  case kept =>
    have hnot : before stamp r.stamp = false := by rw [before, hafter]; rfl
    exact exec_afterReply_id (x := .breakReturn now c) rfl rfl hi (cmdBreakReturn_eq (s := takenState 0x25 now c s) hp ha
      hm hw (takeIn_kept (s := takenState 0x25 now c s) hfind hret hnot))
  case unmatched =>
    exact exec_afterReply_id (x := .breakReturn now c) rfl rfl hi (cmdBreakReturn_eq (s := takenState 0x25 now c s) hp ha
      hm hw (takeIn_unmatched (s := takenState 0x25 now c s) stamp hnone))

end Sys2Proof.Machine
end

