-- ==== Sys2Proof/Proofs/LocalLoad.lean ====
section
/-! PROOF. LOCAL LOAD (R117, R118), check by check and by the state of the slot it fills. -/

namespace Sys2Proof.Machine

/-! ### A programme put into its slot and armed (R118, R90) -/

/-- The state with a programme in a slot of a service whose record was `v`. -/
def State.withSlot (s : State) (i : ServiceIx) (v : Service) (l : SlotLetter) (q : LocalProg) : State :=
  { s with services := vset s.services i (v.setSlot l (some q)) }

/-- The pre-roll moment of a programme (R90, R118). -/
def LocalProg.moment (q : LocalProg) (v : Service) : Stamp := q.start - BitVec.ofNat 32 (v.preRoll * 90)

/-- A programme put into its slot and armed at a stamp, as the moment and the bank have it. -/
def armedLoad (i : ServiceIx) (v : Service) (l : SlotLetter) (q : LocalProg) (now : Stamp) (s : State) : State :=
  if later (q.moment v) now = false then checkLoaded i l q (s.withSlot i v l q)
  else if s.bank.length < 64 then
    { s.withSlot i v l q with bank := insertChannel { deadline := q.moment v, owner := .loc i l } s.bank }
  else raise { kind := .noTimer, service := some i } (s.withSlot i v l q)

theorem setSlot_slot (v : Service) (l : SlotLetter) (p : Option LocalProg) : (v.setSlot l p).slot l = p := by
  cases l <;> rfl

theorem setSlot_preRoll (v : Service) (l : SlotLetter) (p : Option LocalProg) : (v.setSlot l p).preRoll = v.preRoll := by
  cases l <;> rfl

theorem withSlot_service (s : State) (i : ServiceIx) (v : Service) (l : SlotLetter) (q : LocalProg) :
    (s.withSlot i v l q).service i = v.setSlot l (some q) := vget_vset_self ..

theorem armSlot_withSlot {i : ServiceIx} {v : Service} {l : SlotLetter} {q : LocalProg} {s : State} :
    armSlot i l (s.withSlot i v l q) = armPreRoll (q.moment v) (.loc i l) (checkSlot i l) (s.withSlot i v l q) := by
  have hslot : ((s.withSlot i v l q).service i).slot l = some q := by rw [withSlot_service, setSlot_slot]
  have hmoment : preRollMoment ((s.withSlot i v l q).service i) q.start = q.moment v := by
    rw [withSlot_service, preRollMoment, setSlot_preRoll]
    rfl
  simp only [armSlot, hslot, hmoment]

theorem loadSlot_eq {i : ServiceIx} {v : Service} {l : SlotLetter} {q : LocalProg} {now : Stamp} {s : State}
    (hv : s.service i = v) (hn : s.now = now) (hq : q.state = .loaded) :
    loadSlot i l q s = armedLoad i v l q now s := by
  have hplaced : (s.modService i fun v => v.setSlot l (some q)) = s.withSlot i v l q := by
    rw [State.withSlot, ← hv]
    rfl
  have hnow : (s.withSlot i v l q).now = now := hn
  have hslot : ((s.withSlot i v l q).service i).slot l = some q := by rw [withSlot_service, setSlot_slot]
  rw [loadSlot, hplaced, armSlot_withSlot, armedLoad]
  by_cases hcome : later (q.moment v) now = false
  · rw [if_pos hcome, armPreRoll_checks _ _ (by rw [hnow]; exact hcome), checkSlot_loaded hslot hq]
  · have hlater : later (q.moment v) (s.withSlot i v l q).now = true := by
      rw [hnow]
      exact Bool.eq_true_of_not_eq_false hcome
    rw [if_neg hcome]
    by_cases hbank : s.bank.length < 64
    · rw [if_pos hbank, armPreRoll_armed (s := s.withSlot i v l q) _ _ hlater hbank]
      rfl
    · rw [if_neg hbank, armPreRoll_noTimer (s := s.withSlot i v l q) _ _ hlater (Nat.not_lt.mp hbank)]
      rfl

/-! ### The load by the slot's state before it (R118) -/

theorem applyLoad_empty {i : ServiceIx} {l : SlotLetter} {q : LocalProg} {s : State}
    (h : (s.service i).slot l = none) : applyLoad i l q s = loadSlot i l q s := by
  simp only [applyLoad, h]

theorem applyLoad_kept {i : ServiceIx} {l : SlotLetter} {q p : LocalProg} {s : State}
    (h : (s.service i).slot l = some p) (hp : p.state = .ready) (hk : p.source = q.source) :
    applyLoad i l q s
      = s.withSlot i (s.service i) l { p with start := q.start, stop := q.stop, remap := q.remap } := by
  have happly : applyLoad i l q s
      = s.modSlot i l fun x => { x with start := q.start, stop := q.stop, remap := q.remap } := by
    simp only [applyLoad, h, hp, hk, beq_self_eq_true, if_true]
  rw [happly, State.modSlot, State.withSlot]
  refine congrArg (fun w => { s with services := vset s.services i ((s.service i).setSlot l w) }) ?_
  exact congrArg (Option.map fun x : LocalProg => { x with start := q.start, stop := q.stop, remap := q.remap }) h

theorem applyLoad_detached {i : ServiceIx} {l : SlotLetter} {q p : LocalProg} {s : State}
    (h : (s.service i).slot l = some p) (hp : p.state = .ready) (hk : p.source ≠ q.source) :
    applyLoad i l q s = loadSlot i l q (detach p.source (.loc i l) s) := by
  simp only [applyLoad, h, hp, beq_self_eq_true, if_true, beq_eq_false_iff_ne.mpr hk, Bool.false_eq_true, if_false]

theorem applyLoad_disarmed {i : ServiceIx} {l : SlotLetter} {q p : LocalProg} {s : State}
    (h : (s.service i).slot l = some p) (hp : p.state ≠ .ready) :
    applyLoad i l q s = loadSlot i l q (disarm (.loc i l) s) := by
  simp only [applyLoad, h, beq_eq_false_iff_ne.mpr hp, Bool.false_eq_true, if_false]

/-! ### The checks of R117 -/

/-- LOCAL LOAD's fields name a service, a source and a selector. -/
structure LoadNames (p : Params) (i : ServiceIx) (k : SourceIx) (sel : Selector) : Prop where
  service : pIndex 48 p 0 = some i
  source : pIndex 32 p 2 = some k
  selector : selectorOfCode (pByte p 1) = some sel

/-- The part, the service and the source let a LOCAL LOAD pass checks 2 to 4 of R117. -/
structure LoadReady (s : State) (i : ServiceIx) (k : SourceIx) : Prop where
  mode : s.mode ≠ .passive
  service : (s.service i).window ≠ none
  source : (s.source k).config ≠ none

theorem cmdLocalLoad_passive {p : Params} {i : ServiceIx} {k : SourceIx} {sel : Selector} {s : State}
    (h : LoadNames p i k sel) (hm : s.mode = .passive) : cmdLocalLoad p s = refuse .mode s := by
  simp only [cmdLocalLoad, h.service, h.source, h.selector, hm, beq_self_eq_true, if_true]

theorem cmdLocalLoad_noService {p : Params} {i : ServiceIx} {k : SourceIx} {sel : Selector} {s : State}
    (h : LoadNames p i k sel) (hm : s.mode ≠ .passive) (hw : (s.service i).window = none) :
    cmdLocalLoad p s = refuse .notDefined s := by
  have hdefined : (s.service i).defined = false := by rw [Service.defined, hw]; rfl
  simp only [cmdLocalLoad, h.service, h.source, h.selector, passive_eq_false hm, hdefined, Bool.not_false,
    Bool.false_eq_true, if_false, if_true]

theorem cmdLocalLoad_noSource {p : Params} {i : ServiceIx} {k : SourceIx} {sel : Selector} {s : State}
    (h : LoadNames p i k sel) (hm : s.mode ≠ .passive) (hw : (s.service i).window ≠ none)
    (hk : (s.source k).config = none) : cmdLocalLoad p s = refuse .notDefined s := by
  have hdefined : (s.source k).defined = false := by rw [Source.defined, hk]; rfl
  simp only [cmdLocalLoad, h.service, h.source, h.selector, passive_eq_false hm, Service.defined_of_window hw, hdefined,
    Bool.not_true, Bool.not_false, Bool.false_eq_true, if_false, if_true]

theorem cmdLocalLoad_ready {p : Params} {i : ServiceIx} {k : SourceIx} {sel : Selector} {s : State}
    (h : LoadNames p i k sel) (hr : LoadReady s i k) : cmdLocalLoad p s = loadChecked i sel k p s := by
  have hdefined : (s.source k).defined = true := Option.isSome_iff_ne_none.mpr hr.source
  simp only [cmdLocalLoad, h.service, h.source, h.selector, passive_eq_false hr.mode, Service.defined_of_window hr.service,
    hdefined, Bool.not_true, Bool.false_eq_true, if_false]

/-- The remap pairs of a LOCAL LOAD, within the service's components. -/
def loadPairs (p : Params) (v : Service) : Option (List RemapPair) :=
  pPairs p fun n => decide (n.val < v.comps.length)

theorem loadChecked_badParam {i : ServiceIx} {sel : Selector} {k : SourceIx} {p : Params} {s : State}
    (h : loadPairs p (s.service i) = none ∨ stampsOk (pWord p 6) (pWord p 10) s.now = false) :
    loadChecked i sel k p s = refuse .badParam s := by
  rw [loadPairs] at h
  cases hpairs : pPairs p fun n => decide (n.val < (s.service i).comps.length) with
  | none => simp only [loadChecked, hpairs]
  | some list =>
    have hstamps : stampsOk (pWord p 6) (pWord p 10) s.now = false :=
      h.resolve_left fun hnone => Option.some_ne_none list (hpairs.symm.trans hnone)
    simp only [loadChecked, hpairs, hstamps, Bool.false_eq_true, if_false]

theorem loadChecked_passes {i : ServiceIx} {sel : Selector} {k : SourceIx} {p : Params} {list : List RemapPair}
    {s : State} (hpairs : loadPairs p (s.service i) = some list)
    (hstamps : stampsOk (pWord p 6) (pWord p 10) s.now = true) :
    loadChecked i sel k p s = loadChosen i sel (LocalProg.fresh k (pWord p 6) (pWord p 10) list) s := by
  rw [loadPairs] at hpairs
  simp only [loadChecked, hpairs, hstamps, if_true]

theorem loadChosen_refused {i : ServiceIx} {sel : Selector} {q : LocalProg} {code : RefusalCode} {s : State}
    (h : chooseSlot (s.service i) sel = .error code) : loadChosen i sel q s = refuse code s := by
  simp only [loadChosen, h]

theorem loadChosen_overlap {i : ServiceIx} {sel : Selector} {q : LocalProg} {l : SlotLetter} {s : State}
    (h : chooseSlot (s.service i) sel = .ok l) (ho : slotOrderOk (s.service i) l q.start q.stop = false) :
    loadChosen i sel q s = refuse .overlap s := by
  simp only [loadChosen, h, ho, Bool.false_eq_true, if_false]

theorem loadChosen_loads {i : ServiceIx} {sel : Selector} {q : LocalProg} {l : SlotLetter} {s : State}
    (h : chooseSlot (s.service i) sel = .ok l) (ho : slotOrderOk (s.service i) l q.start q.stop = true) :
    loadChosen i sel q s = done (idByte (letterCode l)) (applyLoad i l q s) := by
  simp only [loadChosen, h, ho, if_true]

theorem cmdLocalLoad_badParam {p : Params} {s : State}
    (h : pIndex 48 p 0 = none ∨ pIndex 32 p 2 = none ∨ 2 < (pByte p 1).toNat) :
    cmdLocalLoad p s = refuse .badParam s := by
  unfold cmdLocalLoad
  split
  next i k sel hi hk hsel =>
    obtain hnone | hnone | hlarge := h
    · exact absurd (hi.symm.trans hnone) (Option.some_ne_none i)
    · exact absurd (hk.symm.trans hnone) (Option.some_ne_none k)
    · have hcode : selectorOfCode (pByte p 1) = none := by
        unfold selectorOfCode
        split <;> first | rfl | omega
      exact absurd (hsel.symm.trans hcode) (Option.some_ne_none sel)
  next => rfl

/-! ### The load as a row -/

theorem exec_localLoad_refused {now : Stamp} {c : CellCommand} {code : RefusalCode} {s : State} (hi : Idle c s)
    (h : cmdLocalLoad c.params (takenState 0x2C now c s) = refuse code (takenState 0x2C now c s)) :
    exec (.localLoad now c) s = .next (afterReply 0x2C now c (.refused code) id s) :=
  exec_afterReply_id (x := .localLoad now c) rfl rfl hi h

/-- LOCAL LOAD passes every check of R117, its programme `q` going into the slot `l`. -/
structure Loads (p : Params) (i : ServiceIx) (l : SlotLetter) (q : LocalProg) (s : State) : Prop where
  runs : cmdLocalLoad p s = done (idByte (letterCode l)) (applyLoad i l q s)
  loaded : q.state = .loaded

theorem cmdLocalLoad_loads {p : Params} {i : ServiceIx} {k : SourceIx} {sel : Selector} {l : SlotLetter}
    {list : List RemapPair} {s : State} (h : LoadNames p i k sel) (hr : LoadReady s i k)
    (hpairs : loadPairs p (s.service i) = some list) (hstamps : stampsOk (pWord p 6) (pWord p 10) s.now = true)
    (hchoose : chooseSlot (s.service i) sel = .ok l)
    (horder : slotOrderOk (s.service i) l (pWord p 6) (pWord p 10) = true) :
    Loads p i l (LocalProg.fresh k (pWord p 6) (pWord p 10) list) s :=
  ⟨(cmdLocalLoad_ready h hr).trans ((loadChecked_passes hpairs hstamps).trans
    (loadChosen_loads (q := LocalProg.fresh k (pWord p 6) (pWord p 10) list) hchoose horder)), rfl⟩

theorem exec_localLoad_settled {now : Stamp} {c : CellCommand} {i : ServiceIx} {l : SlotLetter} {q : LocalProg}
    {word : BitVec 32} {f : State → State} {s : State} (hi : Idle c s)
    (hword : idByte (letterCode l) = word) (h : Loads c.params i l q (takenState 0x2C now c s))
    (hf : applyLoad i l q (takenState 0x2C now c s) = f (takenState 0x2C now c s)) :
    exec (.localLoad now c) s = .next (settle (afterReply 0x2C now c (.done word) f s)) := by
  subst hword
  exact exec_settled (x := .localLoad now c) rfl rfl hi (h.runs.trans (congrArg (done (idByte (letterCode l))) hf))

theorem exec_localLoad_quiet {now : Stamp} {c : CellCommand} {i : ServiceIx} {l : SlotLetter} {q : LocalProg}
    {word : BitVec 32} {f : State → State} {s : State} (hi : Idle c s)
    (hword : idByte (letterCode l) = word) (h : Loads c.params i l q (takenState 0x2C now c s))
    (hf : applyLoad i l q (takenState 0x2C now c s) = f (takenState 0x2C now c s))
    (hd : (f (takenState 0x2C now c s)).deferred = (takenState 0x2C now c s).deferred) :
    exec (.localLoad now c) s = .next (afterReply 0x2C now c (.done word) f s) := by
  subst hword
  exact exec_afterReply (x := .localLoad now c) rfl rfl hi (h.runs.trans (congrArg (done (idByte (letterCode l))) hf))
    (hd.trans (hi.takenState_deferred 0x2C now))

theorem letterWord_eq (l : SlotLetter) : idByte (letterCode l) = (match l with | .a => 1 | .b => 2 : BitVec 32) := by
  cases l <;> rfl

/-! ### The slot chosen and the stamps (R116, R117) -/

theorem chooseSlot_current {v : Service} (h : v.slot v.current = none) : chooseSlot v .nextFree = .ok v.current := by
  simp only [chooseSlot, h, Option.isNone_none, if_true]

theorem chooseSlot_other {v : Service} (h : v.slot v.current ≠ none) (ho : v.slot (otherLetter v.current) = none) :
    chooseSlot v .nextFree = .ok (otherLetter v.current) := by
  simp [chooseSlot, h, ho]

theorem chooseSlot_full {v : Service} (h : v.slot v.current ≠ none) (ho : v.slot (otherLetter v.current) ≠ none) :
    chooseSlot v .nextFree = .error .full := by
  simp [chooseSlot, h, ho]

theorem chooseSlot_empty {v : Service} {l : SlotLetter} (h : v.slot l = none) :
    chooseSlot v (.reload l) = .error .notDefined := by
  simp only [chooseSlot, h]

theorem chooseSlot_running {v : Service} {l : SlotLetter} {p : LocalProg} (h : v.slot l = some p)
    (hp : p.state = .running) : chooseSlot v (.reload l) = .error .busy := by
  simp only [chooseSlot, h, isRunning_iff.mpr hp, if_true]

theorem chooseSlot_reload {v : Service} {l : SlotLetter} {p : LocalProg} (h : v.slot l = some p)
    (hp : p.state ≠ .running) : chooseSlot v (.reload l) = .ok l := by
  simp only [chooseSlot, h, isRunning_eq_false hp, Bool.false_eq_true, if_false]

theorem stampsOk_iff {start stop now : Stamp} : stampsOk start stop now = true
    ↔ 1 ≤ (stop - start).toNat ∧ (stop - start).toNat < 2 ^ 31 ∧ 1 ≤ (stop - now).toNat
      ∧ (stop - now).toNat < 2 ^ 30 := by
  simp only [stampsOk, Bool.and_eq_true, decide_eq_true_eq, and_assoc]

theorem slotOrderOk_alone {v : Service} {l : SlotLetter} (start stop : Stamp) (h : v.slot (otherLetter l) = none) :
    slotOrderOk v l start stop = true := by
  simp only [slotOrderOk, h]

theorem slotOrderOk_current {v : Service} {l : SlotLetter} {p : LocalProg} (start stop : Stamp)
    (h : v.slot (otherLetter l) = some p) (hl : l = v.current) :
    slotOrderOk v l start stop = atOrAfter p.start stop := by
  simp only [slotOrderOk, h, beq_iff_eq, if_pos hl]

theorem slotOrderOk_other {v : Service} {l : SlotLetter} {p : LocalProg} (start stop : Stamp)
    (h : v.slot (otherLetter l) = some p) (hl : l ≠ v.current) :
    slotOrderOk v l start stop = atOrAfter start p.stop := by
  simp only [slotOrderOk, h, beq_iff_eq, if_neg hl]

/-- Settles O59, by the checks in their order and the slot's state. -/
theorem localLoadFillsChosenSlot : Obligations.LocalLoadFillsChosenSlot := by
  refine ⟨fun now c i k sel s hi hc hp hk hsel => ?rows, fun now c s hi hbad =>
    exec_localLoad_refused hi (cmdLocalLoad_badParam hbad), fun v l start stop now => ?facts⟩
  case facts =>
    intro other
    have hother (m : SlotLetter) : other m = otherLetter m := by cases m <;> rfl
    rw [hother, hother]
    exact ⟨⟨rfl, rfl, rfl⟩, chooseSlot_current, chooseSlot_other, chooseSlot_full, chooseSlot_empty,
      fun p => chooseSlot_running, fun p => chooseSlot_reload, stampsOk_iff, slotOrderOk_alone start stop,
      fun p => slotOrderOk_current start stop, fun p => slotOrderOk_other start stop⟩
  case rows =>
    intro v start stop pairs refused ready
    let u := takenState 0x2C now c s
    have hnames : LoadNames c.params i k sel := ⟨hp, hk, hsel⟩
    have hready (hr : ready) : LoadReady u i k := ⟨hr.1, hr.2.1, hr.2.2⟩
    have hsome (hpairs : pairs ≠ none) : ∃ list, loadPairs c.params (u.service i) = some list :=
      Option.ne_none_iff_exists'.mp hpairs
    have hpasses {list : List RemapPair} (hr : ready) (hpairs : loadPairs c.params (u.service i) = some list)
        (hstamps : stampsOk start stop now = true) :
        cmdLocalLoad c.params u = loadChosen i sel (LocalProg.fresh k start stop list) u :=
      (cmdLocalLoad_ready hnames (hready hr)).trans (loadChecked_passes hpairs hstamps)
    refine ⟨fun hm => exec_localLoad_refused hi (cmdLocalLoad_passive (s := u) hnames hm),
      fun hm hw => exec_localLoad_refused hi (cmdLocalLoad_noService (s := u) hnames hm hw),
      fun hm hw hnone => exec_localLoad_refused hi (cmdLocalLoad_noSource (s := u) hnames hm hw hnone),
      fun hr hbad => exec_localLoad_refused hi
        ((cmdLocalLoad_ready hnames (hready hr)).trans (loadChecked_badParam (s := u) hbad)),
      fun code hr hpairs hstamps hchoose => ?refusedSlot, fun l hr hpairs hstamps hchoose horder => ?overlap,
      fun l list hr hpairs hstamps hchoose horder => ?loads⟩
    case refusedSlot =>
      obtain ⟨list, hlist⟩ := hsome hpairs
      exact exec_localLoad_refused hi ((hpasses hr hlist hstamps).trans (loadChosen_refused (s := u) hchoose))
    case overlap =>
      obtain ⟨list, hlist⟩ := hsome hpairs
      exact exec_localLoad_refused hi ((hpasses hr hlist hstamps).trans (loadChosen_overlap (s := u) hchoose horder))
    case loads =>
      intro word prog moment loaded placed armed
      have hword : idByte (letterCode l) = word := letterWord_eq l
      have hloads : Loads c.params i l prog u := cmdLocalLoad_loads hnames (hready hr) hpairs hstamps hchoose horder
      have hload {t : State} (hv : t.service i = v) (hn : t.now = now) : loadSlot i l prog t = armed t :=
        loadSlot_eq hv hn rfl
      refine ⟨fun hnone hlater hbank => ?armed, fun hnone hcome => ?checked, fun hnone hlater hbank => ?untimed,
        fun p hslot hstate hsource => ?kept, fun p hslot hstate hsource => ?detached, fun p hslot hstate => ?disarmed⟩
      case armed =>
        refine exec_localLoad_quiet hi hword hloads (f := fun u =>
          { placed u with bank := insertChannel { deadline := moment, owner := .loc i l } u.bank }) ?_ rfl
        rw [applyLoad_empty (s := u) hnone, hload (t := u) rfl rfl]
        exact (if_neg (by rw [hlater]; exact Bool.noConfusion)).trans (if_pos hbank)
      case checked =>
        have hquiet : Quiet (placed u) (checkLoaded i l prog (placed u)) := checkLoaded_quiet .refl
        refine exec_localLoad_quiet hi hword hloads (f := fun u => checkLoaded i l prog (placed u)) ?_ (hquiet.put hc)
        rw [applyLoad_empty (s := u) hnone, hload (t := u) rfl rfl]
        exact if_pos hcome
      case untimed =>
        refine exec_localLoad_settled hi hword hloads
          (f := fun u => raise { kind := .noTimer, service := some i } (placed u)) ?_
        rw [applyLoad_empty (s := u) hnone, hload (t := u) rfl rfl]
        exact (if_neg (by rw [hlater]; exact Bool.noConfusion)).trans (if_neg (Nat.not_lt.mpr hbank))
      case kept =>
        exact exec_localLoad_quiet hi hword hloads
          (f := fun u => u.withSlot i v l { p with start := start, stop := stop, remap := list })
          (applyLoad_kept (s := u) (q := prog) hslot hstate hsource) rfl
      case detached =>
        refine exec_localLoad_settled hi hword hloads (f := fun u => armed (detach p.source (.loc i l) u)) ?_
        have hnow : (detach p.source (.loc i l) u).now = now := (detach_inner (.refl (s := u))).kept.now
        rw [applyLoad_detached (s := u) (q := prog) hslot hstate hsource]
        exact hload (detach_service ..) hnow
      case disarmed =>
        refine exec_localLoad_settled hi hword hloads (f := fun u => armed (disarm (.loc i l) u)) ?_
        rw [applyLoad_disarmed (s := u) (q := prog) hslot hstate]
        exact hload rfl rfl

end Sys2Proof.Machine
end

