-- ==== Sys2Proof/Proofs/Layout.lean ====
section
/-! PROOF. The layout of a record of bytes: where a run of bytes stands in it, and the number a big-endian field holds
(spec/00, section 1.5). -/

namespace Sys2Proof.Machine

/-! ### A run of bytes in its place -/

/-- The bytes `bs` stand at an offset of a record. -/
def Laid (r : List Byte) (off : Nat) (bs : List Byte) : Prop := bs <+: r.drop off

theorem Laid.take {r bs : List Byte} {off : Nat} (h : Laid r off bs) : (r.drop off).take bs.length = bs :=
  (List.prefix_iff_eq_take.mp h).symm

theorem Laid.fieldAt {r bs : List Byte} {off n : Nat} (h : Laid r off bs) (hn : bs.length = n) :
    fieldAt r off n = beNat bs := by
  rw [Machine.fieldAt, ← hn, h.take]

/-- What stands in a part of the record stands in the record. -/
theorem Laid.trans {r bs cs : List Byte} {a b : Nat} (h : Laid r a bs) (k : Laid bs b cs) : Laid r (a + b) cs := by
  rw [Laid, ← List.drop_drop]
  exact List.IsPrefix.trans k (List.IsPrefix.drop h b)

theorem Laid.self (r : List Byte) : Laid r 0 r := List.prefix_rfl

/-- What stands before a record is padded stands in it after. -/
theorem Laid.padTo {r bs : List Byte} {off n : Nat} (h : Laid r off bs) (ho : off ≤ r.length) (hn : r.length ≤ n) :
    Laid (padTo n r) off bs := by
  have hpad : Machine.padTo n r = r ++ (zeros n).take (n - r.length) := by
    rw [Machine.padTo, List.take_append, List.take_of_length_le hn]
  rw [Laid, hpad, List.drop_append_of_le_length ho]
  exact List.IsPrefix.trans h (List.prefix_append ..)

theorem length_zeros (n : Nat) : (zeros n).length = n := List.length_replicate

@[simp] theorem length_padTo (n : Nat) (bs : List Byte) : (padTo n bs).length = n := by
  simp [padTo, length_zeros]

/-- Each segment of a record stands behind those before it. -/
theorem laid_flatten : ∀ (segs : List (List Byte)) (j : Nat) {bs : List Byte}, segs[j]? = some bs →
    Laid segs.flatten ((segs.map List.length).take j).sum bs
  | [], _, _, h => absurd h (by simp)
  | s :: segs, 0, bs, h => by
    have hs : s = bs := Option.some.inj h
    rw [List.take_zero, List.sum_nil, Laid, List.drop_zero, List.flatten_cons, hs]
    exact List.prefix_append ..
  | s :: segs, j + 1, bs, h => by
    have hlaid := laid_flatten segs j (bs := bs) h
    rw [List.map_cons, List.take_succ_cons, List.sum_cons, Laid, List.flatten_cons, ← List.drop_drop, List.drop_left]
    exact hlaid

/-! ### A record as its fields in order -/

/-- At an offset of a record stand fields, in order, of given lengths. -/
structure Fields (r : List Byte) (base : Nat) (segs : List (List Byte)) (lens : List Nat) : Prop where
  laid : Laid r base segs.flatten
  lengths : segs.map List.length = lens

theorem Fields.segment {r : List Byte} {base : Nat} {segs : List (List Byte)} {lens : List Nat}
    (h : Fields r base segs lens) (j : Nat) {bs : List Byte} (hseg : segs[j]? = some bs) {off : Nat}
    (hoff : base + (lens.take j).sum = off) : Laid r off bs := by
  rw [← hoff, ← h.lengths]
  exact h.laid.trans (laid_flatten segs j hseg)

/-- The number in a field. -/
theorem Fields.field {r : List Byte} {base : Nat} {segs : List (List Byte)} {lens : List Nat}
    (h : Fields r base segs lens) (j : Nat) {bs : List Byte} (hseg : segs[j]? = some bs) {off n : Nat}
    (hoff : base + (lens.take j).sum = off) (hn : lens[j]? = some n) : fieldAt r off n = beNat bs := by
  refine (h.segment j hseg hoff).fieldAt ?_
  rw [← h.lengths, List.getElem?_map, hseg] at hn
  exact Option.some.inj hn

theorem fields_padTo {n : Nat} {segs : List (List Byte)} {lens : List Nat} (hlens : segs.map List.length = lens)
    (hn : lens.sum ≤ n) : Fields (padTo n segs.flatten) 0 segs lens := by
  refine ⟨(Laid.self _).padTo (Nat.zero_le _) ?_, hlens⟩
  rw [List.length_flatten, hlens]
  exact hn

/-! ### A list of records of one length -/

theorem laid_flatMap {α : Type} {f : α → List Byte} {k : Nat} (hf : ∀ x, (f x).length = k) (l : List α) (n : Nat)
    {x : α} (h : l[n]? = some x) : Laid (l.flatMap f) (k * n) (f x) := by
  have hlaid := laid_flatten (l.map f) n (bs := f x) (by rw [List.getElem?_map, h]; rfl)
  have hlens : (l.map f).map List.length = List.replicate l.length k := by
    rw [List.map_map]
    exact List.map_eq_replicate_iff.mpr fun y _ => hf y
  have hle : n ≤ l.length := Nat.le_of_lt (List.getElem?_eq_some_iff.mp h).1
  rw [hlens, List.take_replicate, List.sum_replicate, smul_eq_mul, Nat.min_eq_left hle, Nat.mul_comm] at hlaid
  rw [List.flatMap_def]
  exact hlaid

theorem length_flatMap_const {α : Type} {f : α → List Byte} {k : Nat} (hf : ∀ x, (f x).length = k) (l : List α) :
    (l.flatMap f).length = k * l.length := by
  induction l with
  | nil => rfl
  | cons x l ih => rw [List.flatMap_cons, List.length_append, ih, hf, List.length_cons]; ring

theorem take_drop_zeros {a b n : Nat} (h : a + b ≤ n) : ((zeros n).drop a).take b = zeros b := by
  rw [zeros, List.drop_replicate, List.take_replicate, Nat.min_eq_left (by omega)]
  rfl

/-- The places of a padded list of records: the record, or zeros where the list has none. -/
theorem laid_places {α : Type} {f : α → List Byte} {k m n : Nat} (hf : ∀ x, (f x).length = k) (l : List α) (hn : n < m) :
    Laid (padTo (k * m) (l.flatMap f)) (k * n) ((l[n]?).elim (zeros k) f) := by
  have hplace : k * n + k ≤ k * m := by
    rw [← Nat.mul_succ]
    exact Nat.mul_le_mul_left k hn
  have hlen := length_flatMap_const hf l
  cases h : l[n]? with
  | some x =>
    have hlt : n < l.length := (List.getElem?_eq_some_iff.mp h).1
    have hlaid := laid_flatMap hf l n h
    have hin : k * n + k ≤ (l.flatMap f).length := by
      rw [hlen, ← Nat.mul_succ]
      exact Nat.mul_le_mul_left k hlt
    have hpadded : Laid (l.flatMap f ++ zeros (k * m)) (k * n) (f x) := by
      rw [Laid, List.drop_append_of_le_length (by omega)]
      exact List.IsPrefix.trans hlaid (List.prefix_append ..)
    rw [Option.elim_some, Laid, padTo, List.drop_take]
    refine List.prefix_take_iff.mpr ⟨hpadded, ?_⟩
    rw [hf]
    omega
  | none =>
    have hge : l.length ≤ n := List.getElem?_eq_none_iff.mp h
    have hout : (l.flatMap f).length ≤ k * n := by
      rw [hlen]
      exact Nat.mul_le_mul_left k hge
    rw [Option.elim_none, Laid, padTo, List.drop_take, List.drop_append, List.drop_of_length_le hout, List.nil_append]
    refine List.prefix_iff_eq_take.mpr ?_
    rw [length_zeros, List.take_take, Nat.min_eq_left (by omega)]
    exact (take_drop_zeros (by omega)).symm

/-! ### The number a field holds -/

theorem beNat_foldl (bs : List Byte) : ∀ a : Nat,
    bs.foldl (fun acc b => acc * 256 + b.toNat) a = a * 256 ^ bs.length + beNat bs := by
  induction bs with
  | nil => intro a; simp [beNat]
  | cons b bs ih =>
    intro a
    rw [beNat, List.foldl_cons, List.foldl_cons, ih, ih, List.length_cons]
    ring

theorem beNat_cons (b : Byte) (bs : List Byte) : beNat (b :: bs) = b.toNat * 256 ^ bs.length + beNat bs := by
  rw [beNat, List.foldl_cons, beNat_foldl, Nat.zero_mul, Nat.zero_add]

theorem beNat_byte (b : Byte) : beNat [b] = b.toNat := by simp [beNat]

@[simp] theorem length_beBytes (n v : Nat) : (beBytes n v).length = n := by
  induction n with
  | zero => rfl
  | succ n ih => rw [beBytes, List.length_cons, ih]

theorem beNat_beBytes (n v : Nat) : beNat (beBytes n v) = v % 256 ^ n := by
  induction n with
  | zero => rw [beBytes, pow_zero, Nat.mod_one]; rfl
  | succ n ih =>
    have hpow : 2 ^ (8 * n) = 256 ^ n := by rw [pow_mul]; norm_num
    have hsplit : v % (256 ^ n * 256) = v % 256 ^ n + 256 ^ n * (v / 256 ^ n % 256) := Nat.mod_mul
    rw [beBytes, beNat_cons, length_beBytes, ih, BitVec.toNat_ofNat, Nat.shiftRight_eq_div_pow, hpow, pow_succ 256 n, hsplit,
      Nat.mul_comm, Nat.add_comm]

theorem beNat_beBytes_of_lt {n v : Nat} (h : v < 256 ^ n) : beNat (beBytes n v) = v := by
  rw [beNat_beBytes, Nat.mod_eq_of_lt h]

theorem beNat_natByte (n : Nat) : beNat [natByte n] = n % 256 := by
  rw [beNat_byte, natByte, BitVec.toNat_ofNat]

theorem beNat_natByte_of_lt {n : Nat} (h : n < 256) : beNat [natByte n] = n := by
  rw [beNat_natByte, Nat.mod_eq_of_lt h]

theorem beNat_flagByte (b : Bool) : beNat [flagByte b] = b.toNat := by cases b <;> rfl

theorem beNat_word4 (w : BitVec 32) : beNat (word4 w) = w.toNat := beNat_beBytes_of_lt w.isLt

theorem beNat_wordBytes (w : Option (BitVec 32)) : beNat (wordBytes w) = (w.getD 0).toNat :=
  beNat_beBytes_of_lt (w.getD 0).isLt

theorem flagBits_toNat : ∀ a b c d : Bool,
    (flagBits a b c d).toNat = a.toNat + 2 * b.toNat + 4 * c.toNat + 8 * d.toNat := by decide

@[simp] theorem length_word4 (w : BitVec 32) : (word4 w).length = 4 := length_beBytes ..

@[simp] theorem length_addr5 (a : Addr) : (addr5 a).length = 5 := length_beBytes ..

@[simp] theorem length_wordBytes (w : Option (BitVec 32)) : (wordBytes w).length = 4 := length_beBytes ..

end Sys2Proof.Machine
end

