-- ==== Sys2Proof/Proofs/SnapshotRecords.lean ====
section
/-! PROOF. The snapshot records as their fields in order (R180). -/

namespace Sys2Proof.Machine

/-! ### The service record -/

theorem length_pidBytes (p : Option Pid) : (pidBytes p).length = 2 := by cases p <;> rfl

theorem windowBytes_eq (w : Option Window) :
    windowBytes w = beBytes 5 (w.elim 0 (·.base.toNat)) ++ beBytes 3 (w.elim 0 (·.slots)) := by
  cases w <;> rfl

theorem trackBytes_eq (t : Option ClockTrack) :
    trackBytes t = [flagByte t.isSome] ++ beBytes 5 (t.elim 0 (·.base.toNat)) ++ [0] ++ wordBytes (t.map (·.stamp)) := by
  cases t <;> rfl

theorem length_component (c : Component) : c.bytes.length = 10 := by
  simp only [Component.bytes, List.length_append, length_beBytes, List.length_cons, List.length_nil]

theorem length_breakEntry (e : BreakEntry) : e.bytes.length = 12 := by
  rw [BreakEntry.bytes, List.length_append, List.length_append, length_word4, length_word4]
  rfl

theorem length_slotBytes (p : Option LocalProg) : (slotBytes p).length = 12 := by cases p <;> rfl

/-- The fields of the service record, in order. -/
def serviceFields (i : ServiceIx) (v : Service) : List (List Byte) :=
  [[natByte i.val], [flagByte v.defined], [v.mode.code], [heldByte v.held], [ownerByte v.owner], [flagByte v.exempt],
    [natByte v.comps.length], [pointerByte v.current],
    beBytes 5 (v.window.elim 0 (·.base.toNat)), beBytes 3 (v.window.elim 0 (·.slots)),
    pidBytes v.cuePid, beBytes 2 v.preRoll, beBytes 2 v.lateWindow,
    [natByte v.underrunLimit], [v.overlayCc.setWidth 8], [v.overlayNulls],
    [flagByte v.track.isSome], beBytes 5 (v.track.elim 0 (·.base.toNat)), [0], wordBytes (v.track.map (·.stamp)),
    word4 v.classified, word4 v.substituted, word4 v.stuffed, word4 v.overlaid, zeros 4,
    padTo 80 (v.comps.flatMap Component.bytes), padTo 48 (v.schedule.flatMap BreakEntry.bytes),
    slotBytes v.slotA, slotBytes v.slotB]

/-- Their lengths. -/
def serviceLengths : List Nat :=
  [1, 1, 1, 1, 1, 1, 1, 1, 5, 3, 2, 2, 2, 1, 1, 1, 1, 5, 1, 4, 4, 4, 4, 4, 4, 80, 48, 12, 12]

theorem serviceSnapshot_eq (i : ServiceIx) (v : Service) :
    serviceSnapshot i v = padTo 256 (serviceFields i v).flatten := by
  simp only [serviceSnapshot, serviceFields, windowBytes_eq, trackBytes_eq, List.flatten_cons, List.flatten_nil,
    List.append_assoc, List.cons_append, List.nil_append, List.append_nil]

theorem serviceSnapshot_fields (i : ServiceIx) (v : Service) :
    Fields (serviceSnapshot i v) 0 (serviceFields i v) serviceLengths := by
  rw [serviceSnapshot_eq]
  refine fields_padTo ?_ (by decide)
  simp only [serviceFields, List.map_cons, List.map_nil, length_beBytes, length_pidBytes, length_wordBytes, length_word4,
    length_padTo, length_slotBytes, length_zeros, List.length_cons, List.length_nil, Nat.zero_add, serviceLengths]

/-- The fields of a component record, in order. -/
def componentFields (c : Component) : List (List Byte) :=
  [beBytes 2 c.pid.toNat, [c.descriptor], [c.cur.code], [c.outCc.elim 0xFF (·.setWidth 8)], [c.ccOffset.setWidth 8],
    [c.alert.code ||| (flagByte c.rejoin <<< 7)], beBytes 2 c.cursor, [0]]

theorem component_fields {r : List Byte} {base : Nat} {c : Component} (h : Laid r base c.bytes) :
    Fields r base (componentFields c) [2, 1, 1, 1, 1, 1, 2, 1] := by
  have hbytes : c.bytes = (componentFields c).flatten := by
    cases hcc : c.outCc <;>
      simp only [componentFields, Component.bytes, hcc, Option.elim_none, Option.elim_some, List.flatten_cons,
        List.flatten_nil, List.append_assoc, List.cons_append, List.nil_append]
  refine ⟨hbytes ▸ h, ?_⟩
  simp only [componentFields, List.map_cons, List.map_nil, length_beBytes, List.length_cons, List.length_nil, Nat.zero_add]

/-- A record of a code, three bytes 0 and two 32-bit fields, which break entries and local slots have. -/
theorem coded_fields {r bs : List Byte} {base : Nat} {code : Byte} {a b : BitVec 32}
    (hbs : bs = [code, 0, 0, 0] ++ word4 a ++ word4 b) (h : Laid r base bs) :
    Fields r base [[code], zeros 3, word4 a, word4 b] [1, 3, 4, 4] := by
  have hflat : [code, 0, 0, 0] ++ word4 a ++ word4 b = [[code], zeros 3, word4 a, word4 b].flatten := by
    simp [zeros, List.replicate]
  refine ⟨?_, ?_⟩
  · rw [← hflat, ← hbs]
    exact h
  · simp only [List.map_cons, List.map_nil, length_word4, length_zeros, List.length_cons, List.length_nil, Nat.zero_add]

/-! ### The source record -/

/-- The service of an attachment, as a number; 0 for none. -/
def attachmentService (o : Option InsOwner) : Nat := o.elim 0 fun q => (ownerService q).val

/-- The fields of the source record, in order. -/
def sourceFields (k : SourceIx) (q : Source) : List (List Byte) :=
  [[natByte k.val], [flagByte q.defined], [sourceModeByte q.config], [natByte q.alertUsers],
    beBytes 5 (q.config.elim 0 (·.window.base.toNat)), beBytes 3 (q.config.elim 0 (·.window.slots)),
    beBytes 4 q.writeIx, beBytes 4 q.readIx, beBytes 4 q.fill, beBytes 4 q.minFill, beBytes 4 q.cursor,
    [attachmentByte q.attachment], [natByte (attachmentService q.attachment)], [flagByte q.overrunRun], [0],
    wordBytes (q.attachment.map ownerId), word4 q.overruns, word4 q.underruns, word4 q.discarded]

/-- Their lengths. -/
def sourceLengths : List Nat := [1, 1, 1, 1, 5, 3, 4, 4, 4, 4, 4, 1, 1, 1, 1, 4, 4, 4, 4]

theorem natByte_zero : natByte 0 = 0 := rfl

theorem sourceSnapshot_eq (k : SourceIx) (q : Source) :
    sourceSnapshot k q = padTo 256 (sourceFields k q).flatten := by
  have hwindow : windowBytes (q.config.map (·.window))
      = beBytes 5 (q.config.elim 0 (·.window.base.toNat)) ++ beBytes 3 (q.config.elim 0 (·.window.slots)) := by
    cases q.config <;> rfl
  cases ha : q.attachment <;>
    simp only [sourceSnapshot, sourceFields, Source.attachedService, attachmentService, natByte_zero, ha, hwindow,
      Option.map_none, Option.map_some, Option.elim_none, Option.elim_some, List.flatten_cons, List.flatten_nil, List.append_assoc,
      List.cons_append, List.nil_append, List.append_nil]

theorem sourceSnapshot_fields (k : SourceIx) (q : Source) :
    Fields (sourceSnapshot k q) 0 (sourceFields k q) sourceLengths := by
  rw [sourceSnapshot_eq]
  refine fields_padTo ?_ (by decide)
  simp only [sourceFields, List.map_cons, List.map_nil, length_beBytes, length_wordBytes, length_word4, List.length_cons,
    List.length_nil, Nat.zero_add, sourceLengths]

/-! ### The part record -/

theorem length_kindLog (l : KindLog) : l.bytes.length = 4 := by
  rw [KindLog.bytes, List.length_append, length_beBytes]
  rfl

theorem length_alertBytes (a : Option Alert) : (alertBytes a).length = 16 := by cases a <;> rfl

theorem length_firstErrorBytes (e : Option FirstError) : (firstErrorBytes e).length = 29 := by
  cases e with
  | none => rfl
  | some e =>
    simp only [firstErrorBytes, List.length_append, length_beBytes, length_word4, length_padTo, List.length_cons,
      List.length_nil]

theorem length_kinds (s : State) : (s.kinds.toList.flatMap KindLog.bytes).length = 88 := by
  rw [length_flatMap_const length_kindLog, Vector.length_toList]

theorem length_alerts (s : State) : (s.alerts.toList.flatMap alertBytes).length = 64 := by
  rw [length_flatMap_const length_alertBytes, Vector.length_toList]

theorem armBytes_eq (a : Option PendingArm) :
    armBytes a = [natByte (a.elim 0xFF (·.group.val))] ++ [natByte (a.elim 0 (·.level))] := by
  cases a <;> rfl

/-- The fields of the part record, in order. -/
def partFields (s : State) : List (List Byte) :=
  [[s.modeControl.mode.code], [flagByte s.modeControl.holdOnFault], [natByte s.modeControl.interval],
    [natByte s.intake.length], word4 s.ring.dropped, beBytes 2 (s.ring.defn.elim 0 (·.count)), beBytes 2 s.ring.producer,
    beBytes 2 s.ring.consumer, beBytes 5 (s.ring.defn.elim 0 (·.base.toNat)), [flagByte s.multiple],
    firstErrorBytes s.firstError, zeros 7, s.kinds.toList.flatMap KindLog.bytes, s.alerts.toList.flatMap alertBytes,
    [flagByte s.link.enabled], [natByte s.link.interval], [natByte (s.link.arm.elim 0xFF (·.group.val))],
    [natByte (s.link.arm.elim 0 (·.level))], [flagByte s.link.lost], [flagByte s.link.mark], [flagByte s.link.period.isSome],
    [0], wordBytes s.link.lastKeepalive, wordBytes s.link.lostStamp,
    [flagBits s.link.lastKeepalive.isSome s.link.lostStamp.isSome false false], zeros 3,
    wordBytes s.modeControl.timer, wordBytes s.modeControl.bypassStamp,
    [flagBits s.modeControl.timer.isSome s.modeControl.bypassStamp.isSome false false]]

/-- Their lengths. -/
def partLengths : List Nat :=
  [1, 1, 1, 1, 4, 2, 2, 2, 5, 1, 29, 7, 88, 64, 1, 1, 1, 1, 1, 1, 1, 1, 4, 4, 1, 3, 4, 4, 1]

theorem partSnapshot_eq (s : State) : partSnapshot s = padTo 256 (partFields s).flatten := by
  simp only [partSnapshot, partFields, ringBytes, linkBytes, armBytes_eq, List.flatten_cons, List.flatten_nil,
    List.append_assoc, List.cons_append, List.nil_append, List.append_nil]

theorem partSnapshot_fields (s : State) : Fields (partSnapshot s) 0 (partFields s) partLengths := by
  rw [partSnapshot_eq]
  refine fields_padTo ?_ (by decide)
  simp only [partFields, List.map_cons, List.map_nil, length_beBytes, length_wordBytes, length_word4,
    length_firstErrorBytes, length_kinds, length_alerts, length_zeros, List.length_cons, List.length_nil, Nat.zero_add,
    partLengths]

/-- The fields of a first-error record, in order. -/
def firstErrorFields (e : FirstError) : List (List Byte) :=
  [[e.kind.code], [flagBits e.service.isSome e.requester.isSome e.addr.isSome e.packet.isSome],
    [natByte (e.service.elim 0 (·.val))], [natByte (e.requester.elim 0 (·.val))], beBytes 5 (e.addr.elim 0 (·.toNat)),
    word4 e.stamp, padTo 16 (e.packet.getD [])]

theorem firstError_fields {r : List Byte} {base : Nat} {e : FirstError} (h : Laid r base (firstErrorBytes (some e))) :
    Fields r base (firstErrorFields e) [1, 1, 1, 1, 5, 4, 16] := by
  have hbytes : firstErrorBytes (some e) = (firstErrorFields e).flatten := by
    have hservice : firstErrorBytes.sourceByteOr e.service = natByte (e.service.elim 0 (·.val)) := by
      cases e.service <;> rfl
    simp only [firstErrorFields, firstErrorBytes, hservice, List.flatten_cons, List.flatten_nil, List.append_assoc,
      List.cons_append, List.nil_append, List.append_nil]
  refine ⟨hbytes ▸ h, ?_⟩
  simp only [firstErrorFields, List.map_cons, List.map_nil, length_beBytes, length_word4, length_padTo, List.length_cons,
    List.length_nil, Nat.zero_add]

theorem kindLog_fields {r : List Byte} {base : Nat} {l : KindLog} (h : Laid r base l.bytes) :
    Fields r base [[flagBits l.status l.masked false false], [l.severity.code], beBytes 2 l.counter.toNat] [1, 1, 2] :=
  ⟨by simpa only [KindLog.bytes, List.flatten_cons, List.flatten_nil, List.append_nil, List.append_assoc,
      List.cons_append, List.nil_append] using h,
    by simp only [List.map_cons, List.map_nil, length_beBytes, List.length_cons, List.length_nil, Nat.zero_add]⟩

theorem alert_fields {r : List Byte} {base : Nat} {a : Alert} (h : Laid r base (alertBytes (some a))) :
    Fields r base [[1], [natByte a.group.val], [natByte a.level], [a.origin.code], word4 a.number, word4 a.start,
      word4 a.deadline] [1, 1, 1, 1, 4, 4, 4] :=
  ⟨by simpa only [alertBytes, List.flatten_cons, List.flatten_nil, List.append_nil, List.append_assoc, List.cons_append,
      List.nil_append] using h,
    by simp only [List.map_cons, List.map_nil, length_word4, List.length_cons, List.length_nil, Nat.zero_add]⟩

end Sys2Proof.Machine
end

