-- ==== Sys2Proof/Proofs/Snapshot.lean ====
section
/-! PROOF. STATUS SNAPSHOT is written whole and in order (R163), and what its records hold (R180). -/

namespace Sys2Proof.Machine

/-! ### The beats of a record (R163) -/

theorem writeBeats_eq (dest : Addr) (record : List Byte) (first last : Nat) (s : State) :
    writeBeats dest record first last s
      = (List.range' first (last - first)).foldl (fun t k => writeBeat dest record k t) s := by
  rw [writeBeats, List.range'_eq_map_range, List.foldl_map]

/-- The beats before a place and those from it on are the beats of the record. -/
theorem writeBeats_append {n : Nat} (dest : Addr) (record : List Byte) (s : State) (hn : n ≤ 16) :
    writeBeats dest record n 16 (writeBeats dest record 0 n s) = writeBeats dest record 0 16 s := by
  have hsplit : List.range' 0 16 = List.range' 0 n ++ List.range' n (16 - n) := by
    have happend := List.range'_append_1 (s := 0) (m := n) (n := 16 - n)
    rw [Nat.zero_add, Nat.add_sub_cancel' hn] at happend
    exact happend.symm
  rw [writeBeats_eq, writeBeats_eq, writeBeats_eq, Nat.sub_zero, Nat.sub_zero, hsplit, List.foldl_append]

theorem writeBeats_frame {α : Type} (g : State → α) (hg : ∀ i a bs t, g (handWrite i a bs t) = g t) (dest : Addr)
    (record : List Byte) (first last : Nat) (s : State) : g (writeBeats dest record first last s) = g s := by
  have hfold (l : List Nat) : ∀ t, g (l.foldl (fun t k => writeBeat dest record k t) t) = g t := by
    induction l with
    | nil => exact fun _ => rfl
    | cons k l ih => exact fun t => (ih _).trans (hg ..)
  rw [writeBeats_eq]
  exact hfold _ s

theorem writeBeats_deferred (dest : Addr) (record : List Byte) (first last : Nat) (s : State) :
    (writeBeats dest record first last s).deferred = s.deferred :=
  writeBeats_frame State.deferred handWrite_deferred dest record first last s

theorem writeBeats_intake (dest : Addr) (record : List Byte) (first last : Nat) (s : State) :
    (writeBeats dest record first last s).intake = s.intake :=
  writeBeats_frame State.intake handWrite_intake dest record first last s

theorem cmdStatusSnapshot_begins {p : Params} {record : List Byte} {dest : Addr} {s : State}
    (hr : snapshotRecord (pByte p 0) p s = some record) (hd : pAddr p 4 = some dest) (ha : dest.toNat % 16 = 0)
    (hf : dest.toNat + 256 ≤ 2 ^ 36) (hc : s.snapshotClash dest = false) :
    cmdStatusSnapshot p s = (.working, beginSnapshot dest record s) := by
  have haligned : aligned 16 dest = true := beq_iff_eq.mpr ha
  have hfits : fits dest 256 = true := decide_eq_true hf
  simp only [cmdStatusSnapshot, hr, hd, haligned, hfits, hc, Bool.not_true, Bool.or_self, Bool.false_eq_true, if_false]

theorem exec_snapshotWriteComplete {now : Stamp} {dest : Addr} {record : List Byte} {n : Nat} {s : State}
    (h : s.work = some (.snapshot dest record n)) :
    exec (.snapshotWriteComplete now) s = .next (finishSnapshot dest record n (s.at now)) := by
  simp only [exec, execSnapshotWriteComplete, h]

/-! ### The codes of R180 -/

theorem beNat_byte_of_lt {n : Nat} {b : BitVec n} (h : n ≤ 8) : beNat [b.setWidth 8] = b.toNat := by
  rw [beNat_byte, BitVec.toNat_setWidth]
  exact Nat.mod_eq_of_lt (Nat.lt_of_lt_of_le b.isLt (Nat.pow_le_pow_right (by decide) h))

theorem elim_bits_lt {α : Type} {w : Nat} (o : Option α) (f : α → BitVec w) (hw : w ≤ 40) :
    o.elim 0 (fun x => (f x).toNat) < 256 ^ 5 := by
  cases o with
  | none => exact Nat.pow_pos (by decide)
  | some x => exact Nat.lt_of_lt_of_le (f x).isLt (Nat.le_trans (Nat.pow_le_pow_right Nat.two_pos hw) (by decide))

theorem elim_fin_lt {n : Nat} (o : Option (Fin n)) {d : Nat} (hd : d < 256) (hn : n ≤ 256) : o.elim d (·.val) < 256 := by
  cases o with
  | none => exact hd
  | some x => exact Nat.lt_of_lt_of_le x.isLt hn

theorem beNat_ownerByte (o : Option AlertIx) : beNat [ownerByte o] = o.elim 0xFF (·.val) := by
  cases o with
  | none => rfl
  | some k => exact beNat_natByte_of_lt (Nat.lt_of_lt_of_le k.isLt (by decide))

theorem beNat_pidBytes (p : Option Pid) : beNat (pidBytes p) = p.elim 0xFFFF (·.toNat) := by
  cases p with
  | none => rfl
  | some p => exact beNat_beBytes_of_lt (Nat.lt_of_lt_of_le p.isLt (by decide))

theorem beNat_outCc (o : Option (BitVec 4)) : beNat [o.elim 0xFF (·.setWidth 8)] = o.elim 0xFF (·.toNat) := by
  cases o with
  | none => rfl
  | some n => exact beNat_byte_of_lt (by decide)

theorem beNat_flagBits_two (a b : Bool) : beNat [flagBits a b false false] = a.toNat + 2 * b.toNat := by
  rw [beNat_byte, flagBits_toNat]
  rfl

theorem beNat_descriptor (c : Component) :
    beNat [c.descriptor] = c.kind.code.toNat + 16 * c.lead.toNat + 32 * c.pcr.toNat := by
  rw [beNat_byte, Component.descriptor]
  cases c.kind <;> cases c.lead <;> cases c.pcr <;> rfl

theorem beNat_alertState (c : Component) :
    beNat [c.alert.code ||| (flagByte c.rejoin <<< 7)] = c.alert.code.toNat + 128 * c.rejoin.toNat := by
  rw [beNat_byte]
  cases c.alert <;> cases c.rejoin <;> rfl

theorem beNat_kindCode (k : ErrorKind) : beNat [k.code] = k.ix.val + 1 := by
  rw [beNat_byte, ErrorKind.code, BitVec.toNat_ofNat]
  exact Nat.mod_eq_of_lt (Nat.lt_of_le_of_lt k.ix.isLt (by decide))

theorem attachmentService_lt (o : Option InsOwner) : attachmentService o < 256 := by
  cases o with
  | none => decide
  | some q => exact Nat.lt_of_lt_of_le (ownerService q).isLt (by decide)

theorem slotBytes_none : slotBytes none = zeros 12 := rfl

theorem firstErrorBytes_none : firstErrorBytes none = zeros 29 := rfl

theorem alertBytes_none : alertBytes none = zeros 16 := rfl

/-- Where a place holds zeros the record reads zeros. -/
theorem Laid.zeros {r : List Byte} {off n : Nat} (h : Laid r off (zeros n)) : (r.drop off).take n = zeros n := by
  have htake := h.take
  rwa [length_zeros] at htake

theorem laid_vector {α : Type} {f : α → List Byte} {k m : Nat} (hf : ∀ x, (f x).length = k) (v : Vector α m) (n : Fin m) :
    Laid (v.toList.flatMap f) (k * n.val) (f (vget v n)) := by
  refine laid_flatMap hf v.toList n.val ?_
  rw [Vector.getElem?_toList, Vector.getElem?_eq_getElem n.isLt]
  rfl

/-- Settles O31, by the fields of the three records in order. -/
theorem snapshotIsWrittenWholeInOrder : Obligations.SnapshotIsWrittenWholeInOrder := by
  unfold Obligations.SnapshotIsWrittenWholeInOrder
  intro handed
  have hhanded (dest : Addr) (record : List Byte) (first last : Nat) (u : State) :
      writeBeats dest record first last u = handed dest record first last u := writeBeats_eq ..
  refine ⟨fun now c dest record s hi hr hd ha hf hclash => ?begun, fun now dest record n q more s hw hn hq => ?written,
    fun dest record n u hn => ?whole, fun p i u hp => ?service, fun p k u hp => ?source, fun p u => ?part⟩
  case begun =>
    have hrun := cmdStatusSnapshot_begins (s := takenState 0x04 now c s) hr hd ha hf hclash
    have hdeferred := (writeBeats_deferred dest record 0 (Config.snapshotBeatsFirst s.freeIndex).val
      (takenState 0x04 now c s).drawn).trans (hi.takenState_deferred 0x04 now)
    refine ⟨(Config.snapshotBeatsFirst s.freeIndex).val, Nat.le_of_lt (Fin.isLt _), ?_⟩
    rw [← hhanded]
    exact exec_working (x := .statusSnapshot now c) rfl rfl hi hrun hdeferred
  case written =>
    have hintake := (writeBeats_intake dest record n 16 (s.at now)).trans hq
    rw [exec_snapshotWriteComplete hw, finishSnapshot, completeWork_cons hintake, hhanded]
    rfl
  case whole =>
    rw [← hhanded, ← hhanded, ← hhanded]
    exact writeBeats_append dest record u hn
  case service =>
    intro v number
    have h := serviceSnapshot_fields i v
    refine ⟨serviceSnapshot i v, ?_, ?_, ?_⟩
    · simp only [snapshotRecord, hp]
      rfl
    · rw [serviceSnapshot_eq, length_padTo]
    intro f
    refine ⟨(h.field 0 rfl rfl rfl).trans (beNat_natByte_of_lt (Nat.lt_of_lt_of_le i.isLt (by decide))),
      (h.field 1 rfl rfl rfl).trans (beNat_flagByte _),
      (h.field 2 rfl rfl rfl).trans ?mode, (h.field 3 rfl rfl rfl).trans ?held,
      (h.field 4 rfl rfl rfl).trans (beNat_ownerByte _), (h.field 5 rfl rfl rfl).trans (beNat_flagByte _),
      (h.field 6 rfl rfl rfl).trans (beNat_natByte _), (h.field 7 rfl rfl rfl).trans ?pointer,
      (h.field 8 rfl rfl rfl).trans (beNat_beBytes_of_lt (elim_bits_lt v.window Window.base (by decide))),
      (h.field 9 rfl rfl rfl).trans (beNat_beBytes ..), (h.field 10 rfl rfl rfl).trans (beNat_pidBytes _),
      (h.field 11 rfl rfl rfl).trans (beNat_beBytes ..), (h.field 12 rfl rfl rfl).trans (beNat_beBytes ..),
      (h.field 13 rfl rfl rfl).trans (beNat_natByte _),
      (h.field 14 rfl rfl rfl).trans (beNat_byte_of_lt (by decide)), (h.field 15 rfl rfl rfl).trans (beNat_byte _),
      (h.field 16 rfl rfl rfl).trans (beNat_flagByte _), ?trackBase, (h.field 19 rfl rfl rfl).trans (beNat_wordBytes _),
      (h.field 20 rfl rfl rfl).trans (beNat_word4 _), (h.field 21 rfl rfl rfl).trans (beNat_word4 _),
      (h.field 22 rfl rfl rfl).trans (beNat_word4 _), (h.field 23 rfl rfl rfl).trans (beNat_word4 _),
      fun n hn => ?component, fun n hn => ?entry, fun l => ?slot⟩
    case mode => cases v.mode <;> rfl
    case held =>
      cases v.held with
      | none => rfl
      | some cause => cases cause <;> rfl
    case pointer => cases v.current <;> rfl
    case trackBase =>
      exact (h.field 17 rfl rfl rfl).trans (beNat_beBytes_of_lt (elim_bits_lt v.track ClockTrack.base (by decide)))
    case component =>
      intro o
      have hplace := (h.segment 25 rfl rfl).trans (laid_places (k := 10) (m := 8) length_component v.comps hn)
      refine ⟨fun hnone => ?unused, fun c hc => ?used⟩
      case unused =>
        rw [hnone, Option.elim_none] at hplace
        exact hplace.zeros
      case used =>
        rw [hc, Option.elim_some] at hplace
        have hf := component_fields hplace
        refine ⟨(hf.field 0 rfl rfl rfl).trans (beNat_beBytes_of_lt (Nat.lt_of_lt_of_le c.pid.isLt (by decide))),
          ((hf.field 1 rfl rfl rfl).trans (beNat_descriptor c)).trans ?kind, (hf.field 2 rfl rfl rfl).trans ?cur,
          (hf.field 3 rfl rfl rfl).trans (beNat_outCc _),
          (hf.field 4 rfl rfl rfl).trans (beNat_byte_of_lt (by decide)),
          ((hf.field 5 rfl rfl rfl).trans (beNat_alertState c)).trans ?alert,
          (hf.field 6 rfl rfl rfl).trans (beNat_beBytes ..), hf.field 7 rfl rfl rfl⟩
        case kind => cases c.kind <;> rfl
        case cur => cases c.cur <;> rfl
        case alert => cases c.alert <;> rfl
    case entry =>
      intro o
      have hplace := (h.segment 26 rfl rfl).trans (laid_places (k := 12) (m := 4) length_breakEntry v.schedule hn)
      refine ⟨fun hnone => ?unused, fun e he => ?used⟩
      case unused =>
        rw [hnone, Option.elim_none] at hplace
        exact hplace.zeros
      case used =>
        rw [he, Option.elim_some] at hplace
        have hf := coded_fields rfl hplace
        refine ⟨(hf.field 0 rfl rfl rfl).trans ?state, (hf.field 2 rfl rfl rfl).trans (beNat_word4 _),
          (hf.field 3 rfl rfl rfl).trans (beNat_word4 _)⟩
        case state => cases e.state <;> rfl
    case slot =>
      intro o
      have hplace : Laid (serviceSnapshot i v) o (slotBytes (v.slot l)) := by
        cases l with
        | a => exact h.segment 27 rfl rfl
        | b => exact h.segment 28 rfl rfl
      refine ⟨fun hnone => ?unused, fun q hq => ?used⟩
      case unused =>
        rw [hnone, slotBytes_none] at hplace
        exact hplace.zeros
      case used =>
        rw [hq] at hplace
        have hf := coded_fields rfl hplace
        refine ⟨(hf.field 0 rfl rfl rfl).trans ?state, (hf.field 2 rfl rfl rfl).trans (beNat_word4 _),
          (hf.field 3 rfl rfl rfl).trans (beNat_word4 _)⟩
        case state => cases q.state <;> rfl
  case source =>
    intro q
    have h := sourceSnapshot_fields k q
    refine ⟨sourceSnapshot k q, ?_, ?_, ?_⟩
    · simp only [snapshotRecord, hp]
      rfl
    · rw [sourceSnapshot_eq, length_padTo]
    intro f
    refine ⟨(h.field 0 rfl rfl rfl).trans (beNat_natByte_of_lt (Nat.lt_of_lt_of_le k.isLt (by decide))),
      (h.field 1 rfl rfl rfl).trans (beNat_flagByte _), (h.field 2 rfl rfl rfl).trans ?mode,
      (h.field 3 rfl rfl rfl).trans (beNat_natByte _),
      (h.field 4 rfl rfl rfl).trans (beNat_beBytes_of_lt (elim_bits_lt q.config (·.window.base) (by decide))),
      (h.field 5 rfl rfl rfl).trans (beNat_beBytes ..), (h.field 6 rfl rfl rfl).trans (beNat_beBytes ..),
      (h.field 7 rfl rfl rfl).trans (beNat_beBytes ..), (h.field 8 rfl rfl rfl).trans (beNat_beBytes ..),
      (h.field 9 rfl rfl rfl).trans (beNat_beBytes ..), (h.field 10 rfl rfl rfl).trans (beNat_beBytes ..),
      (h.field 11 rfl rfl rfl).trans ?attachment,
      ((h.field 12 rfl rfl rfl).trans (beNat_natByte_of_lt (attachmentService_lt _))).trans ?service,
      (h.field 13 rfl rfl rfl).trans (beNat_flagByte _),
      ((h.field 15 rfl rfl rfl).trans (beNat_wordBytes _)).trans ?owner,
      (h.field 16 rfl rfl rfl).trans (beNat_word4 _), (h.field 17 rfl rfl rfl).trans (beNat_word4 _),
      (h.field 18 rfl rfl rfl).trans (beNat_word4 _)⟩
    case mode =>
      cases q.config with
      | none => rfl
      | some config => cases hm : config.mode <;> simp [sourceModeByte, hm, beNat_byte]
    case attachment =>
      cases q.attachment with
      | none => rfl
      | some o => cases o <;> rfl
    case service =>
      cases q.attachment with
      | none => rfl
      | some o => cases o <;> rfl
    case owner =>
      cases q.attachment with
      | none => rfl
      | some o =>
        cases o with
        | brk i ev => rfl
        | loc i l => cases l <;> rfl
  case part =>
    intro m l number
    have h := partSnapshot_fields u
    refine ⟨partSnapshot u, rfl, ?_, ?_⟩
    · rw [partSnapshot_eq, length_padTo]
    intro f
    refine ⟨(h.field 0 rfl rfl rfl).trans ?mode, (h.field 1 rfl rfl rfl).trans (beNat_flagByte _),
      (h.field 2 rfl rfl rfl).trans (beNat_natByte _), (h.field 3 rfl rfl rfl).trans (beNat_natByte _),
      (h.field 4 rfl rfl rfl).trans (beNat_word4 _), (h.field 5 rfl rfl rfl).trans (beNat_beBytes ..),
      (h.field 6 rfl rfl rfl).trans (beNat_beBytes ..), (h.field 7 rfl rfl rfl).trans (beNat_beBytes ..),
      (h.field 8 rfl rfl rfl).trans (beNat_beBytes_of_lt (elim_bits_lt u.ring.defn (·.base) (by decide))),
      (h.field 9 rfl rfl rfl).trans (beNat_flagByte _), fun hnone => ?noError, fun e he => ?firstError,
      fun k => ?kind, fun k => ?alert, (h.field 14 rfl rfl rfl).trans (beNat_flagByte _),
      (h.field 15 rfl rfl rfl).trans (beNat_natByte _),
      (h.field 16 rfl rfl rfl).trans (beNat_natByte_of_lt ?armGroup), (h.field 17 rfl rfl rfl).trans (beNat_natByte _),
      (h.field 18 rfl rfl rfl).trans (beNat_flagByte _), (h.field 19 rfl rfl rfl).trans (beNat_flagByte _),
      (h.field 20 rfl rfl rfl).trans (beNat_flagByte _), h.field 21 rfl rfl rfl,
      (h.field 22 rfl rfl rfl).trans (beNat_wordBytes _), (h.field 23 rfl rfl rfl).trans (beNat_wordBytes _),
      (h.field 24 rfl rfl rfl).trans (beNat_flagBits_two ..), (h.field 26 rfl rfl rfl).trans (beNat_wordBytes _),
      (h.field 27 rfl rfl rfl).trans (beNat_wordBytes _), (h.field 28 rfl rfl rfl).trans (beNat_flagBits_two ..)⟩
    case mode => cases u.modeControl.mode <;> rfl
    case noError =>
      have hplace := h.segment 10 rfl rfl
      rw [hnone, firstErrorBytes_none] at hplace
      exact hplace.zeros
    case firstError =>
      have hplace := h.segment 10 rfl rfl
      rw [he] at hplace
      have hf := firstError_fields hplace
      refine ⟨(hf.field 0 rfl rfl rfl).trans (beNat_kindCode _),
        (hf.field 1 rfl rfl rfl).trans ((beNat_byte _).trans (flagBits_toNat ..)),
        (hf.field 2 rfl rfl rfl).trans (beNat_natByte_of_lt (elim_fin_lt _ (by decide) (by decide))),
        (hf.field 3 rfl rfl rfl).trans (beNat_natByte_of_lt (elim_fin_lt _ (by decide) (by decide))),
        (hf.field 4 rfl rfl rfl).trans (beNat_beBytes_of_lt (elim_bits_lt e.addr id (by decide))),
        (hf.field 5 rfl rfl rfl).trans (beNat_word4 _), ?packet⟩
      have hpacket := (hf.segment 6 rfl rfl).take
      rwa [length_padTo] at hpacket
    case kind =>
      have hf := kindLog_fields ((h.segment 12 rfl rfl).trans (laid_vector length_kindLog u.kinds k))
      refine ⟨(hf.field 0 rfl rfl rfl).trans (beNat_flagBits_two ..), (hf.field 1 rfl rfl rfl).trans ?severity,
        (hf.field 2 rfl rfl rfl).trans (beNat_beBytes_of_lt (BitVec.isLt _))⟩
      case severity => cases (vget u.kinds k).severity <;> rfl
    case alert =>
      have hplace := (h.segment 13 rfl rfl).trans (laid_vector length_alertBytes u.alerts k)
      refine ⟨fun hnone => ?unused, fun a ha => ?used⟩
      case unused =>
        rw [show vget u.alerts k = none from hnone, alertBytes_none] at hplace
        exact hplace.zeros
      case used =>
        rw [show vget u.alerts k = some a from ha] at hplace
        have hf := alert_fields hplace
        refine ⟨hf.field 0 rfl rfl rfl,
          (hf.field 1 rfl rfl rfl).trans (beNat_natByte_of_lt (Nat.lt_of_lt_of_le a.group.isLt (by decide))),
          (hf.field 2 rfl rfl rfl).trans (beNat_natByte _), (hf.field 3 rfl rfl rfl).trans ?origin,
          (hf.field 4 rfl rfl rfl).trans (beNat_word4 _), (hf.field 5 rfl rfl rfl).trans (beNat_word4 _),
          (hf.field 6 rfl rfl rfl).trans (beNat_word4 _)⟩
        case origin => cases a.origin <;> rfl
    case armGroup =>
      cases u.link.arm with
      | none => decide
      | some arm => exact Nat.lt_of_lt_of_le arm.group.isLt (by decide)

end Sys2Proof.Machine
end

