-- ==== Sys2Proof/Proofs/Classification.lean ====
section
/-! PROOF. The classification of a SLOT read (R33, R95): its row, what follows the decision, and the packets the part lets
pass (R96, R105, R106). -/

namespace Sys2Proof.Machine

/-! ### The row (R33) -/

/-- The answer to a SLOT entry's network read, the oldest on the list. -/
theorem exec_classification {now : Stamp} {data : SlotData} {o : IssuedRead} {rest : List IssuedRead} {x : EntryIx}
    {e : RttEntry} {i : ServiceIx} {s : State} (h : s.outstanding = o :: rest) (ho : o.read.owner = .network x)
    (he : s.entry x = some e) (hk : e.kind = .slot i) :
    exec (.classification now data) s
      = .next (settle (classify x e i data.toList { s with now := now, outstanding := rest })) := by
  simp only [exec, execClassification, awaitedSlot_of_network h ho he hk, at_matched now h]

/-- What a classification knows of an entry's read. -/
def RttEntry.readInfo (e : RttEntry) (i : ServiceIx) : ReadInfo where
  service := i
  requester := e.requester
  addr := e.addr

theorem service_defined_iff (v : Service) : v.defined = true ↔ v.window ≠ none := Option.isSome_iff_ne_none

theorem classify_unused {x : EntryIx} {e : RttEntry} {i : ServiceIx} {slot : List Byte} {s : State}
    (h : (s.service i).window = none ∨ e.stale = true) : classify x e i slot s = classifyUnused x e slot s := by
  have hlive : ((s.service i).defined && !e.stale) = false := by
    obtain h | h := h
    · rw [Service.defined, h]
      rfl
    · rw [h, Bool.not_true, Bool.and_false]
  rw [classify, hlive]
  rfl

theorem classify_live {x : EntryIx} {e : RttEntry} {i : ServiceIx} {slot : List Byte} {s : State}
    (hw : (s.service i).window ≠ none) (he : e.stale = false) :
    classify x e i slot s = enterRewriteOrder x i e slot (classifySlot (e.readInfo i) slot s).1
      (classifySlot (e.readInfo i) slot s).2.1 (classifySlot (e.readInfo i) slot s).2.2 := by
  have hlive : ((s.service i).defined && !e.stale) = true := by
    rw [(service_defined_iff _).mpr hw, he]
    rfl
  rw [classify, if_pos hlive]
  rfl

theorem classifySlot_badSync {r : ReadInfo} {slot : List Byte} {s : State} (h : goodSync slot = false) :
    classifySlot r slot s = (false, plainVerdict .pass, raise (networkFormatEvent r slot) s) := by
  rw [classifySlot, h]
  rfl

theorem classifySlot_goodSync {r : ReadInfo} {slot : List Byte} {s : State} (h : goodSync slot = true) :
    classifySlot r slot s = classifyPacket r slot s := if_pos h

/-! ### What follows the decision (R17, R33) -/

theorem fetchReserved_deferred (x : EntryIx) (d : Verdict) (s : State) : (fetchReserved x d s).deferred = s.deferred := by
  unfold fetchReserved
  split
  · exact handRead_deferred ..
  · rfl

@[simp] theorem enterRewriteOrder_deferred (x : EntryIx) (i : ServiceIx) (e : RttEntry) (slot : List Byte)
    (boundary : Bool) (d : Verdict) (s : State) : (enterRewriteOrder x i e slot boundary d s).deferred = s.deferred :=
  fetchReserved_deferred ..

/-- An entry decided with no error put off. -/
theorem settle_enterRewriteOrder {x : EntryIx} {i : ServiceIx} {e : RttEntry} {slot : List Byte} {boundary : Bool}
    {d : Verdict} {s : State} (h : s.deferred = []) :
    settle (enterRewriteOrder x i e slot boundary d s) = enterRewriteOrder x i e slot boundary d s :=
  settle_nil ((enterRewriteOrder_deferred ..).trans h)

theorem enterRewriteOrder_plain {x : EntryIx} {i : ServiceIx} {e : RttEntry} {slot : List Byte} {boundary : Bool}
    {d : Verdict} {s : State} (h : d.reserved = none) :
    enterRewriteOrder x i e slot boundary d s = { s with
      rtt := vset s.rtt x (some { e with
        network := slot, phase := .awaitTurn, decision := some d.decision, reserved := none,
        snapshot := takenSet (s.service i).comps, sequence := some (vget s.sequence i), overlay := d.overlay,
        boundary := boundary, insRef := d.insRef, binding := d.binding })
      services := vset s.services i { s.service i with classified := (s.service i).classified + 1 }
      sequence := vset s.sequence i (vget s.sequence i + 1)
      rewriteOrder := vset s.rewriteOrder i (vget s.rewriteOrder i ++ [x]) } := by
  simp only [enterRewriteOrder, fetchReserved, h, RttEntry.classified, Option.isSome_none, Bool.false_eq_true, if_false,
    modService_service_self]
  rfl

/-! ### The decision at a packet that is no lead start packet (R95) -/

/-- A packet at which the Schedule Unit is not consulted. -/
theorem classifyPacket_plain {r : ReadInfo} {slot : List Byte} {s : State}
    (h : s.mode = .passive ∨ (s.service r.service).leadStart slot = false) (hm : s.mode ≠ .active) :
    classifyPacket r slot s = (false, plainVerdict .pass, s) := by
  have hconsult : ((s.service r.service).leadStart slot && s.mode != .passive) = false := by
    obtain h | h := h
    · simp [h]
    · rw [h, Bool.false_and]
  have hactive : (s.mode == .active) = false := beq_eq_false_iff_ne.mpr hm
  simp only [classifyPacket, hconsult, Bool.false_eq_true, if_false, hactive]

/-- In ACTIVE a packet is decided after what the Schedule Unit did at it. -/
theorem classifyPacket_decided {r : ReadInfo} {slot : List Byte} {s : State}
    (h : (s.service r.service).leadStart slot = false ∨ consult r.service (slotStamp slot) s = (false, s))
    (hm : s.mode = .active) : classifyPacket r slot s = (false, (decidePacket r slot s).1, (decidePacket r slot s).2) := by
  have hconsult : (if (s.service r.service).leadStart slot && s.mode != .passive then
      consult r.service (slotStamp slot) s else (false, s)) = (false, s) := by
    obtain h | h := h
    · simp [h]
    · rw [h, ite_self]
  have hactive : (s.mode == .active) = true := by rw [hm]; rfl
  simp only [classifyPacket, hconsult, hactive, if_true]

/-! ### The decision of a packet in ACTIVE (R105, R106) -/

theorem decidePacket_managed {r : ReadInfo} {slot : List Byte} {n : Nat} {s : State}
    (h : compIndex (packetPid slot) (s.service r.service).comps = some n) :
    decidePacket r slot s = decideManaged r n (startFlag slot) s := by
  simp only [decidePacket, h]

theorem decidePacket_null {r : ReadInfo} {slot : List Byte} {s : State}
    (h : compIndex (packetPid slot) (s.service r.service).comps = none) (hp : packetPid slot = nullPid) :
    decidePacket r slot s = decideNull r s := by
  have hnull : (packetPid slot == nullPid) = true := beq_iff_eq.mpr hp
  simp only [decidePacket, h, hnull, if_true]

theorem decidePacket_unmanaged {r : ReadInfo} {slot : List Byte} {s : State}
    (h : compIndex (packetPid slot) (s.service r.service).comps = none) (hp : packetPid slot ≠ nullPid) :
    decidePacket r slot s = (plainVerdict .pass, s) := by
  have hnull : (packetPid slot == nullPid) = false := beq_eq_false_iff_ne.mpr hp
  simp only [decidePacket, h, hnull, Bool.false_eq_true, if_false]

theorem decideNull_pass {r : ReadInfo} {s : State} (h : s.overlayOf r.service = none) :
    decideNull r s = (plainVerdict .pass, s) := by
  simp only [decideNull, h]

theorem modService_self {i : ServiceIx} {f : Service → Service} {s : State} (h : f (s.service i) = s.service i) :
    s.modService i f = s := by
  have hvset : vset s.services i (f (vget s.services i)) = s.services :=
    (congrArg (vset s.services i) h).trans (vset_vget ..)
  rw [State.modService, hvset]

theorem comp_modComp (v : Service) (n m : Nat) (f : Component → Component) :
    (v.modComp n f).comp m = if n = m then (v.comp m).map f else v.comp m := by
  rw [Service.comp, Service.modComp, List.getElem?_modify]
  by_cases hm : n = m
  · simp [hm, Service.comp]
  · simp [hm, Service.comp]

theorem comp_modComp_self {v : Service} {n : Nat} {c : Component} {f : Component → Component} (h : v.comp n = some c) :
    (v.modComp n f).comp n = some (f c) := by
  rw [comp_modComp, if_pos rfl, h]
  rfl

theorem modComp_self {v : Service} {n : Nat} {c : Component} {f : Component → Component} (h : v.comp n = some c)
    (hf : f c = c) : v.modComp n f = v := by
  have hmodify : (v.modComp n f).comps = v.comps := by
    refine List.ext_getElem? fun m => (comp_modComp v n m f).trans ?_
    by_cases hm : n = m
    · rw [if_pos hm, ← hm, h, Option.map_some, hf]
      exact h.symm
    · exact if_neg hm
  exact congrArg (fun cs => { v with comps := cs }) hmodify

theorem takenAt_self {start : Bool} {c : Component} (h : c.alert = .pending → start = false) : c.takenAt start = c := by
  rw [Component.takenAt]
  by_cases hp : c.alert = .pending
  · rw [h hp, Bool.and_false]
    rfl
  · rw [beq_eq_false_iff_ne.mpr hp]
    rfl

theorem decideManaged_steady {r : ReadInfo} {n : Nat} {c : Component} {start : Bool} {s : State}
    (h : (s.service r.service).comp n = some c) (hs : c.alert = .pending → start = false) :
    decideManaged r n start s = if c.alert == .taken then drawAlert r n c s else decideScheduled r n s := by
  have hself : s.modService r.service (fun v => v.modComp n (Component.takenAt start)) = s :=
    modService_self (modComp_self h (takenAt_self hs))
  simp only [decideManaged, hself, h]

/-- Orders 2 to 4 of R105 decide a component no alert has taken. -/
theorem decideManaged_scheduled {r : ReadInfo} {n : Nat} {c : Component} {start : Bool} {s : State}
    (h : (s.service r.service).comp n = some c) (ht : c.alert ≠ .taken) (hs : c.alert = .pending → start = false) :
    decideManaged r n start s = decideScheduled r n s := by
  rw [decideManaged_steady h hs, beq_eq_false_iff_ne.mpr ht]
  rfl

theorem decideScheduled_network {r : ReadInfo} {n : Nat} {s : State} (h : (s.service r.service).mode = .network) :
    decideScheduled r n s = (plainVerdict .pass, s) := by
  simp only [decideScheduled, h]

/-- In ACTIVE the part lets a packet pass: unmanaged, or of a component nothing has taken (R105, R106). -/
theorem decidePacket_pass {r : ReadInfo} {slot : List Byte} {s : State}
    (h : (compIndex (packetPid slot) (s.service r.service).comps = none
        ∧ (packetPid slot ≠ nullPid ∨ s.overlayOf r.service = none))
      ∨ ∃ n c, compIndex (packetPid slot) (s.service r.service).comps = some n ∧ (s.service r.service).comp n = some c
        ∧ c.alert = .none ∧ (s.service r.service).mode = .network) :
    decidePacket r slot s = (plainVerdict .pass, s) := by
  obtain ⟨hi, h⟩ | ⟨n, c, hi, hc, ha, hm⟩ := h
  · by_cases hp : packetPid slot = nullPid
    · rw [decidePacket_null hi hp, decideNull_pass (h.resolve_left (not_not_intro hp))]
    · exact decidePacket_unmanaged hi hp
  · rw [decidePacket_managed hi, decideManaged_scheduled hc (by simp [ha]) (by simp [ha]), decideScheduled_network hm]

/-- Settles O21, by whether the service is there, the sync byte, and the mode. -/
theorem classificationLetsPacketsPass : Obligations.ClassificationLetsPacketsPass := by
  unfold Obligations.ClassificationLetsPacketsPass
  intro now data o rest x e i s h ho he hk hd slot v passed u unmanaged untouched passes
  rw [exec_classification h ho he hk]
  refine ⟨fun hun => ?unused, fun hw hs hgood hpass => ?passes, fun hw hs hbad => ?badSync⟩
  case unused =>
    rw [classify_unused (s := u) hun]
    exact congrArg Host.Outcome.next (settle_nil hd)
  case passes =>
    have hpacket : classifyPacket (e.readInfo i) slot u = (false, plainVerdict .pass, u) := by
      by_cases hm : u.mode = .active
      · obtain hp | ⟨hl, hb | ⟨-, hp⟩⟩ := hpass
        · exact absurd (hp.symm.trans hm) (by decide)
        · exact absurd (hb.symm.trans hm) (by decide)
        · rw [classifyPacket_decided (.inl hl) hm, decidePacket_pass (r := e.readInfo i) (s := u) hp]
      · exact classifyPacket_plain (hpass.imp_right And.left) hm
    rw [classify_live (s := u) hw hs, classifySlot_goodSync hgood, hpacket, settle_enterRewriteOrder (s := u) hd,
      enterRewriteOrder_plain rfl]
    rfl
  case badSync =>
    rw [classify_live (s := u) hw hs, classifySlot_badSync hbad]
    rfl

end Sys2Proof.Machine
end

