-- ==== Sys2Proof/Proofs/Draws.lean ====
section
/-! PROOF. What a classification draws (R105 to R108, R138, R140), and how its entry is placed (R17, R33). -/

namespace Sys2Proof.Machine

/-! ### A lead start packet with nothing scheduled (R97) -/

theorem slot_of_free {v : Service} (ha : v.slotA = none) (hb : v.slotB = none) (l : SlotLetter) : v.slot l = none := by
  cases l with
  | a => exact ha
  | b => exact hb

theorem consult_idle {i : ServiceIx} (t : Stamp) {s : State} (hs : (s.service i).schedule = [])
    (ha : (s.service i).slotA = none) (hb : (s.service i).slotB = none) : consult i t s = (false, s) := by
  have hslot := slot_of_free ha hb (s.service i).current
  have hend : localEndAt i t s = (false, s) := by
    simp only [localEndAt, Service.running, hslot]
  have hexamine : examineSlot i t s = (.waits, s) := by
    simp only [examineSlot, hslot]
  have hback : breakReturnAt i t s = (false, s) := by
    simp only [breakReturnAt, activeHead_of_nil hs]
  have hstart : breakStartAt i t s = (false, s) := by
    simp only [breakStartAt, Service.dueEvents, hs, List.filter_nil, List.map_nil, List.getLast?_nil]
  simp only [consult, localSteps, localStartAt, hend, hexamine, hback, hstart, Bool.or_self]

/-! ### A slot reserved (R52, R54) -/

theorem reserve_loop {k : SourceIx} {w : Window} {s : State}
    (h : (s.source k).config = some { mode := .loop, window := w }) :
    reserve k s = (some (w.slotAddr (s.source k).cursor),
      s.modSource k fun r => { r with cursor := nextSlot w.slots r.cursor }) := by
  simp only [reserve, h]

theorem reserve_stream {k : SourceIx} {w : Window} {s : State}
    (h : (s.source k).config = some { mode := .stream, window := w }) (hf : (s.source k).fill ≠ 0) :
    reserve k s = (some (w.slotAddr (s.source k).readIx), s.modSource k (Source.taken w.slots)) := by
  have hfill : ((s.source k).fill == 0) = false := beq_eq_false_iff_ne.mpr hf
  simp only [reserve, h, hfill, Bool.false_eq_true, if_false]

theorem reserve_empty {k : SourceIx} {w : Window} {s : State}
    (h : (s.source k).config = some { mode := .stream, window := w }) (hf : (s.source k).fill = 0) :
    reserve k s = (none, s.modSource k fun r => { r with underruns := r.underruns + 1 }) := by
  have hfill : ((s.source k).fill == 0) = true := beq_iff_eq.mpr hf
  simp only [reserve, h, hfill, if_true]

theorem taken_eq (slots : Nat) : Source.taken slots = fun r => { r with
    readIx := nextSlot slots r.readIx
    fill := r.fill - 1
    overrunRun := if r.fill = slots then false else r.overrunRun } := by
  funext r
  simp only [Source.taken, beq_iff_eq]

/-! ### Drawing for a break (R107, R108) -/

theorem modEntry_underrunLimit (i : ServiceIx) (ev : EventId) (f : BreakEntry → BreakEntry) (s : State) :
    ((s.modEntry i ev f).service i).underrunLimit = (s.service i).underrunLimit := by
  rw [State.modEntry, modService_service_self]

theorem decideScheduled_break {r : ReadInfo} {n : Nat} {e : BreakEntry} {b : Binding} {s : State}
    (hm : (s.service r.service).mode = .brk) (he : (s.service r.service).activeHead = some e)
    (hb : e.binding = some b) :
    decideScheduled r n s = if b.replaceSet.getLsbD n then drawBreak r e b s else (plainVerdict .pass, s) := by
  simp only [decideScheduled, hm, he, hb]

/-- What a break's entry records of a slot drawn for it. -/
def breakVerdict (e : BreakEntry) (b : Binding) (a : Addr) : Verdict where
  decision := .substituteBreak
  reserved := some { source := b.source, addr := a }
  insRef := some e.ref
  binding := some { remap := b.remap, replaceSet := some b.replaceSet }
  overlay := []

theorem drawBreak_drawn {r : ReadInfo} {e : BreakEntry} {b : Binding} {a : Addr} {s t : State}
    (h : reserve b.source s = (some a, t)) :
    drawBreak r e b s = (breakVerdict e b a, t.modEntry r.service e.event fun x => { x with underruns := 0 }) := by
  simp only [drawBreak, h, breakVerdict]

theorem drawBreak_stuffed {r : ReadInfo} {e : BreakEntry} {b : Binding} {s t : State} (h : reserve b.source s = (none, t))
    (hl : stickyIncUnderrun e.underruns < (t.service r.service).underrunLimit) :
    drawBreak r e b s = ({ plainVerdict .stuffNull with insRef := some e.ref },
      t.modEntry r.service e.event fun x => { x with underruns := stickyIncUnderrun e.underruns }) := by
  simp only [drawBreak, h, stuffBreak, atLimit, modEntry_underrunLimit, decide_eq_true_eq, if_neg (Nat.not_le.mpr hl)]

theorem drawBreak_ended {r : ReadInfo} {e : BreakEntry} {b : Binding} {s t : State} (h : reserve b.source s = (none, t))
    (hl : (t.service r.service).underrunLimit ≤ stickyIncUnderrun e.underruns) :
    drawBreak r e b s = ({ plainVerdict .stuffNull with insRef := some e.ref },
      raise (underrunEvent r) (leaveBreak r.service e.event (.ended .underrun t.now)
        (t.modEntry r.service e.event fun x => { x with underruns := stickyIncUnderrun e.underruns }))) := by
  simp only [drawBreak, h, stuffBreak, atLimit, modEntry_underrunLimit, decide_eq_true_eq, if_pos hl]
  rfl

/-! ### Drawing for a local programme (R107, R108, R124) -/

theorem modSlot_underrunLimit (i : ServiceIx) (l : SlotLetter) (f : LocalProg → LocalProg) (s : State) :
    ((s.modSlot i l f).service i).underrunLimit = (s.service i).underrunLimit := by
  rw [State.modSlot, modService_service_self]
  cases l <;> rfl

theorem decideScheduled_local {r : ReadInfo} {n : Nat} {l : SlotLetter} {p : LocalProg} {s : State}
    (hm : (s.service r.service).mode = .loc) (hp : (s.service r.service).running = some (l, p)) :
    decideScheduled r n s = drawLocal r l p s := by
  simp only [decideScheduled, hm, hp]

/-- What a local programme's entry records of a slot drawn for it. -/
def localVerdict (l : SlotLetter) (p : LocalProg) (a : Addr) : Verdict where
  decision := .substituteLocal
  reserved := some { source := p.source, addr := a }
  insRef := some (p.ref l)
  binding := some { remap := p.remap, replaceSet := none }
  overlay := []

theorem drawLocal_drawn {r : ReadInfo} {l : SlotLetter} {p : LocalProg} {a : Addr} {s t : State}
    (h : reserve p.source s = (some a, t)) :
    drawLocal r l p s = (localVerdict l p a, t.modSlot r.service l fun x => { x with underruns := 0 }) := by
  simp only [drawLocal, h, localVerdict]

theorem drawLocal_stuffed {r : ReadInfo} {l : SlotLetter} {p : LocalProg} {s t : State} (h : reserve p.source s = (none, t))
    (hl : stickyIncUnderrun p.underruns < (t.service r.service).underrunLimit) :
    drawLocal r l p s = ({ plainVerdict .stuffNull with insRef := some (p.ref l) },
      t.modSlot r.service l fun x => { x with underruns := stickyIncUnderrun p.underruns }) := by
  simp only [drawLocal, h, stuffLocal, atLimit, modSlot_underrunLimit, decide_eq_true_eq, if_neg (Nat.not_le.mpr hl)]

theorem drawLocal_ended {r : ReadInfo} {l : SlotLetter} {p : LocalProg} {s t : State} (h : reserve p.source s = (none, t))
    (hl : (t.service r.service).underrunLimit ≤ stickyIncUnderrun p.underruns) :
    drawLocal r l p s = ({ plainVerdict .stuffNull with insRef := some (p.ref l) },
      raise (underrunEvent r) (leaveSlot r.service l (.ended .underrun t.now)
        (t.modSlot r.service l fun x => { x with underruns := stickyIncUnderrun p.underruns }))) := by
  simp only [drawLocal, h, stuffLocal, atLimit, modSlot_underrunLimit, decide_eq_true_eq, if_pos hl]
  rfl

/-! ### Drawing for an alert (R138) -/

theorem decideManaged_taken {r : ReadInfo} {n : Nat} {c : Component} {start : Bool} {s : State}
    (h : (s.service r.service).comp n = some c) (ht : c.alert = .taken) :
    decideManaged r n start s = drawAlert r n c s := by
  rw [decideManaged_steady h (by simp [ht]), ht]
  rfl

/-- A component an alert takes, with its cursor at 0 (R138). -/
def Component.begun (c : Component) : Component := { c with alert := .taken, cursor := 0 }

theorem takenAt_begun {c : Component} (h : c.alert = .pending) : c.takenAt true = c.begun := by
  rw [Component.takenAt, h]
  rfl

theorem decideManaged_begun {r : ReadInfo} {n : Nat} {c : Component} {s : State}
    (h : (s.service r.service).comp n = some c) (ha : c.alert = .pending) :
    decideManaged r n true s
      = drawAlert r n c.begun (s.modService r.service fun v => v.modComp n (Component.takenAt true)) := by
  have hcomp : ((s.modService r.service fun v => v.modComp n (Component.takenAt true)).service r.service).comp n
      = some c.begun := by
    rw [modService_service_self, comp_modComp_self h, takenAt_begun ha]
  simp only [decideManaged, hcomp]
  rfl

theorem drawAlert_drawn {r : ReadInfo} {n : Nat} {c : Component} {k : SourceIx} {w : Window} {s : State}
    (h : s.alertSource r.service c.kind = some (k, w)) :
    drawAlert r n c s = (
      { plainVerdict .substituteAlert with reserved := some { source := k, addr := w.slotAddr c.cursor } },
      s.modService r.service fun v => v.modComp n fun x => { x with cursor := nextSlot w.slots c.cursor }) := by
  simp only [drawAlert, h]

/-- An alert's source does not depend on the components. -/
theorem alertSource_modComp (i : ServiceIx) (n : Nat) (f : Component → Component) (kind : CompKind) (s : State) :
    (s.modService i fun v => v.modComp n f).alertSource i kind = s.alertSource i kind := by
  simp only [State.alertSource, modService_service_self]
  rfl

theorem modComp_modComp {v : Service} {n : Nat} {c : Component} {f g h : Component → Component} (hc : v.comp n = some c)
    (hfg : g (f c) = h c) : (v.modComp n f).modComp n g = v.modComp n h := by
  have hcomps : ((v.modComp n f).modComp n g).comps = (v.modComp n h).comps := by
    refine List.ext_getElem? fun m => (comp_modComp (v.modComp n f) n m g).trans (Eq.trans ?_ (comp_modComp v n m h).symm)
    by_cases hm : n = m
    · rw [if_pos hm, if_pos hm, ← hm, comp_modComp_self hc, hc, Option.map_some, Option.map_some, hfg]
    · rw [if_neg hm, if_neg hm, comp_modComp, if_neg hm]
  exact congrArg (fun cs => { v with comps := cs }) hcomps

theorem modService_congr {i : ServiceIx} {f g : Service → Service} {s : State} (h : f (s.service i) = g (s.service i)) :
    s.modService i f = s.modService i g :=
  congrArg (fun v => { s with services := vset s.services i v }) h

theorem drawAlert_begun {r : ReadInfo} {n : Nat} {c : Component} {k : SourceIx} {w : Window} {s : State}
    (hc : (s.service r.service).comp n = some c) (ha : c.alert = .pending)
    (h : s.alertSource r.service c.kind = some (k, w)) :
    drawAlert r n c.begun (s.modService r.service fun v => v.modComp n (Component.takenAt true))
      = ({ plainVerdict .substituteAlert with reserved := some { source := k, addr := w.slotAddr 0 } },
        s.modService r.service fun v => v.modComp n fun x =>
          { x with alert := .taken, cursor := nextSlot w.slots 0 }) := by
  rw [drawAlert_drawn (c := c.begun) ((alertSource_modComp ..).trans h), modService_modService]
  refine congrArg (Prod.mk _) (modService_congr (modComp_modComp hc ?_))
  rw [takenAt_begun ha]
  rfl

/-! ### The overlay (R140) -/

theorem overlayOf_eq {i : ServiceIx} {j : AlertIx} {a : Alert} {pid : Pid} {store : List Byte} {s : State}
    (hj : (s.service i).owner = some j) (ha : s.alert j = some a) (hp : (s.group a.group).overlayPid = some pid)
    (hs : (s.group a.group).store = some store) :
    s.overlayOf i = some (pid, store, (s.group a.group).cadence) := by
  have hgroup : s.ownerGroup (s.service i).owner = some (s.group a.group) := by
    rw [hj, State.ownerGroup, Option.bind_some, State.groupOf, ha]
    rfl
  simp only [State.overlayOf, hgroup, hp, hs]

theorem decideNull_overlay {r : ReadInfo} {pid : Pid} {store : List Byte} {cadence : Nat} {s : State}
    (h : s.overlayOf r.service = some (pid, store, cadence))
    (hc : ((s.service r.service).overlayNulls + 1).toNat = cadence) :
    decideNull r s = ({ plainVerdict .overlay with overlay := setPid store pid },
      s.modService r.service fun v => { v with overlayNulls := 0 }) := by
  simp only [decideNull, h, beq_iff_eq, if_pos hc]

theorem decideNull_counted {r : ReadInfo} {pid : Pid} {store : List Byte} {cadence : Nat} {s : State}
    (h : s.overlayOf r.service = some (pid, store, cadence))
    (hc : ((s.service r.service).overlayNulls + 1).toNat ≠ cadence) :
    decideNull r s = (plainVerdict .pass,
      s.modService r.service fun v => { v with overlayNulls := (s.service r.service).overlayNulls + 1 }) := by
  simp only [decideNull, h, beq_iff_eq, if_neg hc]

/-- A lead start packet is a managed packet (R95). -/
theorem leadStart_of_unmanaged {v : Service} {slot : List Byte} (h : compIndex (packetPid slot) v.comps = none) :
    v.leadStart slot = false := by
  have hnone : ∀ c ∈ v.comps, (c.pid == packetPid slot) = false := List.findIdx?_eq_none_iff.mp h
  have hany : (v.comps.any fun c => c.lead && c.pid == packetPid slot) = false := by
    refine List.any_eq_false.mpr fun c hc => ?_
    rw [hnone c hc, Bool.and_false]
    exact Bool.false_ne_true
  rw [Service.leadStart, hany, Bool.and_false]

/-! ### The components an entry records as taken (R33) -/

theorem getLsbD_cast_shiftLeft (m : Nat) {n : Nat} (hn : n < 8) :
    (((1 <<< m : Nat) : BitVec 8)).getLsbD n = decide (m = n) := by
  rw [BitVec.natCast_eq_ofNat, BitVec.getLsbD_ofNat, Nat.one_shiftLeft, Nat.testBit_two_pow, decide_eq_true hn,
    Bool.true_and]

/-- The bits gathered from a list of places. -/
theorem getLsbD_foldl_taken {n : Nat} (hn : n < 8) (l : List (Component × Nat)) : ∀ acc : BitVec 8,
    (l.foldl (fun acc q => if q.1.alert == .taken then acc ||| ((1 <<< q.2 : Nat) : BitVec 8) else acc) acc).getLsbD n
      = (acc.getLsbD n || l.any fun q => q.1.alert == .taken && decide (q.2 = n)) := by
  induction l with
  | nil => exact fun acc => (Bool.or_false _).symm
  | cons q l ih =>
    intro acc
    rw [List.foldl_cons, ih, List.any_cons]
    cases ht : q.1.alert == .taken with
    | false => rfl
    | true => rw [if_pos rfl, BitVec.getLsbD_or, getLsbD_cast_shiftLeft _ hn, Bool.true_and, Bool.or_assoc]

theorem takenSet_getLsbD (cs : List Component) {n : Nat} (hn : n < 8) :
    (takenSet cs).getLsbD n = true ↔ ∃ c, cs[n]? = some c ∧ c.alert = .taken := by
  have hzero : BitVec.getLsbD (0 : BitVec 8) n = false := BitVec.getLsbD_zero
  rw [takenSet, getLsbD_foldl_taken hn, hzero, Bool.false_or, List.any_eq_true]
  constructor
  · rintro ⟨⟨c, m⟩, hmem, hbit⟩
    obtain ⟨ht, hm⟩ := Bool.and_eq_true_iff.mp hbit
    obtain rfl := of_decide_eq_true hm
    exact ⟨c, List.mem_zipIdx_iff_getElem?.mp hmem, beq_iff_eq.mp ht⟩
  · rintro ⟨c, hc, ht⟩
    exact ⟨(c, n), List.mem_zipIdx_iff_getElem?.mpr hc, by simp [ht]⟩

theorem enterRewriteOrder_fetch {x : EntryIx} {i : ServiceIx} {e : RttEntry} {slot : List Byte} {boundary : Bool}
    {d : Verdict} {w : Reserved} {s : State} (h : d.reserved = some w) :
    enterRewriteOrder x i e slot boundary d s = handRead { owner := .fetch x, addr := w.addr, beats := 12 } { s with
      rtt := vset s.rtt x (some { e with
        network := slot, phase := .awaitSource, decision := some d.decision, reserved := some w,
        snapshot := takenSet (s.service i).comps, sequence := some (vget s.sequence i), overlay := d.overlay,
        boundary := boundary, insRef := d.insRef, binding := d.binding })
      services := vset s.services i { s.service i with classified := (s.service i).classified + 1 }
      sequence := vset s.sequence i (vget s.sequence i + 1)
      rewriteOrder := vset s.rewriteOrder i (vget s.rewriteOrder i ++ [x]) } := by
  simp only [enterRewriteOrder, fetchReserved, h, RttEntry.classified, Option.isSome_some, if_true,
    modService_service_self]
  rfl

end Sys2Proof.Machine
end

