-- ==== Sys2Proof/Proofs/ClassifiedDraws.lean ====
section
/-! PROOF. The packets of a service with an insertion in place: what is drawn, stuffed or let pass, and how the read is
placed (R33, R105 to R108, R138, R140). -/

namespace Sys2Proof.Machine

/-- A packet of a DEFINED service decided in ACTIVE, with nothing scheduled to do at it. -/
theorem classify_decided {x : EntryIx} {e : RttEntry} {i : ServiceIx} {slot : List Byte} {d : Verdict} {s t : State}
    (hw : (s.service i).window ≠ none) (he : e.stale = false) (hg : goodSync slot = true) (hm : s.mode = .active)
    (hl : (s.service i).leadStart slot = false ∨ (s.service i).schedule = [] ∧ (s.service i).slotA = none
      ∧ (s.service i).slotB = none)
    (hd : decidePacket (e.readInfo i) slot s = (d, t)) :
    classify x e i slot s = enterRewriteOrder x i e slot false d t := by
  have hpacket : classifyPacket (e.readInfo i) slot s = (false, d, t) := by
    rw [classifyPacket_decided (r := e.readInfo i) (hl.imp_right fun ⟨hs, ha, hb⟩ => consult_idle _ hs ha hb) hm, hd]
  rw [classify_live hw he, classifySlot_goodSync hg, hpacket]

/-- Settles O22, by what has the packet's component: a break, a programme, an alert, or none. -/
theorem classificationDrawsFromInsertion : Obligations.ClassificationDrawsFromInsertion := by
  unfold Obligations.ClassificationDrawsFromInsertion
  intro now data o rest x e i s h ho he hk hd slot v hw hs hgood hm u passing stuffed underrun taken wrapped refused
  rw [exec_classification h ho he hk]
  refine ⟨fun n c hl hi hc => ⟨fun b d win hsch hmode hact hb => ?brk, fun l p win hsch hmode hrun => ?loc,
    fun k win hat hk => ?taken, fun k win hap hstart hk => ?pending⟩,
    fun j a pid store hi hp hj ha hpid hstore => ?overlay, fun boundary d t => ?placed⟩
  case brk =>
    have hrule : decidePacket (e.readInfo i) slot u
        = if d.replaceSet.getLsbD n then drawBreak (e.readInfo i) b d u else (plainVerdict .pass, u) := by
      rw [decidePacket_managed (r := e.readInfo i) (s := u) hi,
        decideManaged_scheduled (r := e.readInfo i) (s := u) hc hsch.1 hsch.2,
        decideScheduled_break (r := e.readInfo i) (s := u) hmode hact hb]
    intro k count drawn set
    refine ⟨fun hout => ?outside, fun hin hloop => ?loop, fun hin hstream => ⟨fun hfill => ?drawn,
      fun hempty hlim => ?stuffed, fun hempty hlim => ?ended⟩⟩
    case outside =>
      rw [classify_decided (s := u) hw hs hgood hm hl (hrule.trans (if_neg (by simp [hout])))]
      exact congrArg _ (settle_enterRewriteOrder (by exact hd))
    case loop =>
      have hdraw := drawBreak_drawn (r := e.readInfo i) (e := b) (reserve_loop (s := u) hloop)
      rw [classify_decided (s := u) hw hs hgood hm hl (hrule.trans ((if_pos hin).trans hdraw))]
      exact congrArg _ (settle_enterRewriteOrder (by exact hd))
    case drawn =>
      have hdraw := drawBreak_drawn (r := e.readInfo i) (e := b) (reserve_stream (s := u) hstream hfill)
      rw [classify_decided (s := u) hw hs hgood hm hl (hrule.trans ((if_pos hin).trans hdraw)), taken_eq]
      exact congrArg _ (settle_enterRewriteOrder (by exact hd))
    case stuffed =>
      have hdraw := drawBreak_stuffed (r := e.readInfo i) (e := b) (reserve_empty (s := u) hstream hempty) hlim
      rw [classify_decided (s := u) hw hs hgood hm hl (hrule.trans ((if_pos hin).trans hdraw))]
      exact congrArg _ (settle_enterRewriteOrder (by exact hd))
    case ended =>
      have hdraw := drawBreak_ended (r := e.readInfo i) (e := b) (reserve_empty (s := u) hstream hempty) hlim
      rw [classify_decided (s := u) hw hs hgood hm hl (hrule.trans ((if_pos hin).trans hdraw))]
      rfl
  case loc =>
    have hrule : decidePacket (e.readInfo i) slot u = drawLocal (e.readInfo i) l p u := by
      rw [decidePacket_managed (r := e.readInfo i) (s := u) hi,
        decideManaged_scheduled (r := e.readInfo i) (s := u) hc hsch.1 hsch.2,
        decideScheduled_local (r := e.readInfo i) (s := u) hmode hrun]
    intro k count ref drawn set
    refine ⟨fun hloop => ?loop, fun hstream => ⟨fun hfill => ?drawn, fun hempty hlim => ?stuffed,
      fun hempty hlim => ?ended⟩⟩
    case loop =>
      have hdraw := drawLocal_drawn (r := e.readInfo i) (l := l) (reserve_loop (s := u) hloop)
      rw [classify_decided (s := u) hw hs hgood hm hl (hrule.trans hdraw)]
      exact congrArg _ (settle_enterRewriteOrder (by exact hd))
    case drawn =>
      have hdraw := drawLocal_drawn (r := e.readInfo i) (l := l) (reserve_stream (s := u) hstream hfill)
      rw [classify_decided (s := u) hw hs hgood hm hl (hrule.trans hdraw), taken_eq]
      exact congrArg _ (settle_enterRewriteOrder (by exact hd))
    case stuffed =>
      have hdraw := drawLocal_stuffed (r := e.readInfo i) (l := l) (reserve_empty (s := u) hstream hempty) hlim
      rw [classify_decided (s := u) hw hs hgood hm hl (hrule.trans hdraw)]
      exact congrArg _ (settle_enterRewriteOrder (by exact hd))
    case ended =>
      have hdraw := drawLocal_ended (r := e.readInfo i) (l := l) (reserve_empty (s := u) hstream hempty) hlim
      rw [classify_decided (s := u) hw hs hgood hm hl (hrule.trans hdraw)]
      rfl
  case taken =>
    have hrule := (decidePacket_managed (r := e.readInfo i) (s := u) hi).trans
      ((decideManaged_taken (r := e.readInfo i) (s := u) hc hat).trans (drawAlert_drawn (r := e.readInfo i) (s := u) hk))
    rw [classify_decided (s := u) hw hs hgood hm hl hrule]
    exact congrArg _ (settle_enterRewriteOrder (by exact hd))
  case pending =>
    have hrule : decidePacket (e.readInfo i) slot u = _ := (decidePacket_managed (r := e.readInfo i) (s := u) hi).trans
      ((congrArg (decideManaged (e.readInfo i) n · u) hstart).trans
      ((decideManaged_begun (r := e.readInfo i) (s := u) hc hap).trans
        (drawAlert_begun (r := e.readInfo i) (s := u) hc hap hk)))
    rw [classify_decided (s := u) hw hs hgood hm hl hrule]
    exact congrArg _ (settle_enterRewriteOrder (by exact hd))
  case overlay =>
    have hl : v.leadStart slot = false := leadStart_of_unmanaged hi
    have hover : u.overlayOf i = some (pid, store, (s.group a.group).cadence) := overlayOf_eq (s := u) hj ha hpid hstore
    have hnull := decidePacket_null (r := e.readInfo i) (s := u) hi hp
    intro count counted
    refine ⟨fun hcad => ?emitted, fun hcad => ?counted⟩
    case emitted =>
      have hrule := hnull.trans (decideNull_overlay (r := e.readInfo i) (s := u) hover hcad)
      rw [classify_decided (s := u) hw hs hgood hm (.inl hl) hrule]
      exact congrArg _ (settle_enterRewriteOrder (by exact hd))
    case counted =>
      have hrule := hnull.trans (decideNull_counted (r := e.readInfo i) (s := u) hover hcad)
      rw [classify_decided (s := u) hw hs hgood hm (.inl hl) hrule]
      exact congrArg _ (settle_enterRewriteOrder (by exact hd))
  case placed =>
    intro after placed
    refine ⟨fun w hres => ?fetch, fun hres => ?turn, fun n hn => takenSet_getLsbD _ hn⟩
    case fetch =>
      rw [enterRewriteOrder_fetch hres, ← hres]
    case turn =>
      rw [enterRewriteOrder_plain hres, ← hres]

end Sys2Proof.Machine
end

