-- ==== Sys2Proof/Proofs/Rewriting.lean ====
section
/-! PROOF. The rewrite's row, its bytes, and the re-label at a boundary (R11, R34, R109). -/

namespace Sys2Proof.Machine

/-! ### The bytes of a packet (R176) -/

theorem padTo_self {n : Nat} {bs : List Byte} (h : bs.length = n) : padTo n bs = bs := by
  rw [padTo, ← h, List.take_left]

theorem length_packetOf {slot : List Byte} (h : slot.length = 192) : (packetOf slot).length = 188 := by
  rw [packetOf, List.length_take, h]
  rfl

theorem length_nullPacket : nullPacket.length = 188 := by
  rw [nullPacket, List.length_append, List.length_replicate]
  rfl

@[simp] theorem length_setCc (p : List Byte) (cc : BitVec 4) : (setCc p cc).length = p.length := List.length_set

@[simp] theorem length_setPid (p : List Byte) (pid : Pid) : (setPid p pid).length = p.length := by simp [setPid]

@[simp] theorem length_setPcrBase (p : List Byte) (base : PcrBase) : (setPcrBase p base).length = p.length := by
  simp [setPcrBase]

theorem byteAt_set_ne {p : List Byte} {m n : Nat} {b : Byte} (h : m ≠ n) : byteAt (p.set m b) n = byteAt p n := by
  rw [byteAt, byteAt, List.getD_eq_getElem?_getD, List.getD_eq_getElem?_getD, List.getElem?_set_ne h]

theorem byteAt_set_self {p : List Byte} {n : Nat} {b : Byte} (h : n < p.length) : byteAt (p.set n b) n = b := by
  rw [byteAt, List.getD_eq_getElem?_getD, List.getElem?_set_self h, Option.getD_some]

/-- The continuity count is no part of the adaptation control. -/
theorem hasAdaptation_setCc {p : List Byte} (cc : BitVec 4) (h : 3 < p.length) :
    hasAdaptation (setCc p cc) = hasAdaptation p := by
  rw [hasAdaptation, hasAdaptation, setCc, byteAt_set_self h]
  simp

theorem carriesPcr_setCc {p : List Byte} (cc : BitVec 4) (h : 3 < p.length) : carriesPcr (setCc p cc) = carriesPcr p := by
  rw [carriesPcr, carriesPcr, hasAdaptation_setCc cc h, setCc, byteAt_set_ne (by decide), byteAt_set_ne (by decide)]

theorem carriesPcr_setPid (p : List Byte) (pid : Pid) : carriesPcr (setPid p pid) = carriesPcr p := by
  simp only [carriesPcr, hasAdaptation, setPid, byteAt_set_ne (show 1 ≠ 3 by decide), byteAt_set_ne (show 2 ≠ 3 by decide),
    byteAt_set_ne (show 1 ≠ 4 by decide), byteAt_set_ne (show 2 ≠ 4 by decide), byteAt_set_ne (show 1 ≠ 5 by decide),
    byteAt_set_ne (show 2 ≠ 5 by decide)]

/-- The PCR lies behind the header. -/
theorem pcrBase_set {p : List Byte} {n : Nat} {b : Byte} (h : n < 6) : pcrBase (p.set n b) = pcrBase p := by
  rw [pcrBase, pcrBase, fieldAt, fieldAt, List.drop_set_of_lt h]

/-- A packet moved to a PID and a count. -/
def movedPacket (packet : List Byte) (pid : Pid) (cc : BitVec 4) : List Byte := setCc (setPid packet pid) cc

theorem length_movedPacket (packet : List Byte) (pid : Pid) (cc : BitVec 4) :
    (movedPacket packet pid cc).length = packet.length := by rw [movedPacket, length_setCc, length_setPid]

theorem pcrBase_movedPacket (packet : List Byte) (pid : Pid) (cc : BitVec 4) :
    pcrBase (movedPacket packet pid cc) = pcrBase packet := by
  rw [movedPacket, setCc, setPid, pcrBase_set (by decide), pcrBase_set (by decide), pcrBase_set (by decide)]

theorem carriesPcr_movedPacket {packet : List Byte} (pid : Pid) (cc : BitVec 4) (h : packet.length = 188) :
    carriesPcr (movedPacket packet pid cc) = carriesPcr packet := by
  rw [movedPacket, carriesPcr_setCc cc (by rw [length_setPid, h]; decide), carriesPcr_setPid]

/-! ### The row (R34) -/

theorem exec_rewrite {now : Stamp} {x : EntryIx} {e : RttEntry} {i : ServiceIx} {s : State}
    (h : s.rewritable x = some (e, i)) :
    exec (.rewrite now x) s = .next (settle (rewriteEntry x e i (s.at now))) := by
  simp only [exec, execRewrite, h]

/-- An entry rewritten: it is READY with its bytes and the stamp it read, and leaves its service's rewrite order. -/
theorem rewriteEntry_of_bytes {x : EntryIx} {e : RttEntry} {i : ServiceIx} {out : List Byte} {s t : State}
    (h : rewriteBytes (rewriteJob e i s) e s = (out, t)) (hl : out.length = 188) :
    rewriteEntry x e i s = { t with
      rewriteOrder := vset t.rewriteOrder i ((vget t.rewriteOrder i).filter fun y => y != x)
      rtt := vset t.rtt x
        (some { e with phase := .ready, result := out ++ (e.network.drop 188).take 4 }) } := by
  rw [rewriteEntry, h, padTo_self hl]
  rfl

theorem rewriteJob_live_iff (e : RttEntry) (i : ServiceIx) (s : State) :
    (rewriteJob e i s).live = true ↔ (s.service i).window ≠ none ∧ e.stale = false := by
  rw [rewriteJob, Bool.and_eq_true, service_defined_iff, Bool.not_eq_true']

theorem rewriteJob_dead {e : RttEntry} {i : ServiceIx} {s : State}
    (h : ¬((s.service i).window ≠ none ∧ e.stale = false)) : (rewriteJob e i s).live = false :=
  Bool.eq_false_iff.mpr (mt (rewriteJob_live_iff e i s).mp h)

/-! ### The re-label (R11) -/

/-- A service at a boundary: the components but the target that show an insertion are re-labelled. -/
def Service.relabelled (on : Bool) (target : Option Nat) (v : Service) : Service :=
  { v with comps := if on then relabelOthers target v.comps else v.comps }

theorem relabelled_true (target : Option Nat) :
    Service.relabelled true target = fun v => { v with comps := relabelOthers target v.comps } := rfl

theorem relabelled_false (target : Option Nat) : Service.relabelled false target = id := rfl

theorem relabelOthers_eq (target : Option Nat) (cs : List Component) :
    relabelOthers target cs = cs.zipIdx.map fun q =>
      if some q.2 = target ∨ q.1.cur ≠ .brk ∧ q.1.cur ≠ .loc then q.1
      else { q.1 with cur := .network, rejoin := true } := by
  refine List.map_congr_left fun q _ => ?_
  by_cases ht : some q.2 = target
  · rw [if_pos (beq_iff_eq.mpr ht), if_pos (.inl ht)]
  · rw [if_neg (mt beq_iff_eq.mp ht), Component.relabel]
    by_cases hc : q.1.cur = .brk ∨ q.1.cur = .loc
    · rw [if_pos (by simpa using hc), if_neg (by tauto)]
    · rw [if_neg (by simpa using hc), if_pos (.inr (not_or.mp hc))]

theorem relabel_live {j : Job} (target : Option Nat) {s : State} (h : j.live = true) :
    relabel j target s = s.modService j.service (Service.relabelled (j.boundary && s.mode == .active) target) := by
  rw [relabel]
  cases j.boundary && s.mode == .active with
  | true => exact if_pos h
  | false => exact (modService_self rfl).symm

theorem relabel_dead {j : Job} (target : Option Nat) {s : State} (h : j.live = false) : relabel j target s = s := by
  rw [relabel, Job.update, h]
  exact ite_self s

/-! ### Nulls (R17) -/

theorem emitNull_live {j : Job} {s : State} (h : j.live = true) :
    emitNull j s = (nullPacket,
      (s.modService j.service (Service.relabelled (j.boundary && s.mode == .active) none)).modService j.service
        fun v => { v with stuffed := v.stuffed + 1 }) := by
  rw [emitNull, relabel_live none h, Job.update, if_pos h]

theorem emitNull_dead {j : Job} {s : State} (h : j.live = false) : emitNull j s = (nullPacket, s) := by
  rw [emitNull, relabel_dead none h, Job.update, h]
  rfl

/-! ### The component a packet is emitted on (R8) -/

theorem managed_live {j : Job} {pid : Pid} {n : Nat} {c : Component} {s : State} (h : j.live = true)
    (hi : compIndex pid (s.service j.service).comps = some n) (hc : (s.service j.service).comp n = some c) :
    j.managed pid s = some (n, c) := by
  simp only [Job.managed, h, if_true, hi, hc, Option.map_some]

theorem managed_unmanaged {j : Job} {pid : Pid} {s : State} (hi : compIndex pid (s.service j.service).comps = none) :
    j.managed pid s = none := by
  simp only [Job.managed, hi, ite_self]

theorem managed_dead {j : Job} {pid : Pid} {s : State} (h : j.live = false) : j.managed pid s = none := by
  simp only [Job.managed, h, Bool.false_eq_true, if_false]

end Sys2Proof.Machine
end

