-- ==== Sys2Proof/Proofs/PassedAndStuffed.lean ====
section
/-! PROOF. Rewrites of packets that are passed, stuffed or overlaid (R14, R109, R140). -/

namespace Sys2Proof.Machine

/-! ### PASS (R14, R96, R106) -/

theorem rewriteBytes_pass {j : Job} {e : RttEntry} {s : State} (h : e.decision = some .pass) :
    rewriteBytes j e s = rewritePass j e.network s := by
  simp only [rewriteBytes, h, Option.getD_some]

theorem rewritePass_plain {j : Job} {network : List Byte} {s : State}
    (h : goodSync (packetOf network) = false ∨ j.managed (packetPid (packetOf network)) s = none) :
    rewritePass j network s = (packetOf network, relabel j none s) := by
  rw [rewritePass]
  cases hg : goodSync (packetOf network) with
  | false => rfl
  | true => simp only [if_true, h.resolve_left (by simp [hg])]

theorem rewritePass_managed {j : Job} {network : List Byte} {n : Nat} {c : Component} {s : State}
    (hg : goodSync (packetOf network) = true) (hm : j.managed (packetPid (packetOf network)) s = some (n, c)) :
    rewritePass j network s = passManaged j n c (packetOf network) s := by
  simp only [rewritePass, hg, if_true, hm]

theorem passed_eq (m : Mode) (off cc : BitVec 4) : Component.passed (m == .active) off cc = fun c => { c with
    ccOffset := off
    outCc := some cc
    cur := if m = .active then .network else c.cur
    rejoin := if m = .active then false else c.rejoin } := by
  funext c
  simp only [Component.passed, beq_iff_eq]

theorem passManaged_live {j : Job} {n : Nat} {c : Component} {packet : List Byte} {off : BitVec 4} {s : State}
    (h : j.live = true) (hoff : c.passOffset (s.mode == .active) (packetCc packet) (hasPayload packet) = off) :
    passManaged j n c packet s = (setCc packet (packetCc packet + off), s.modService j.service fun v =>
      (v.relabelled (j.boundary && s.mode == .active) (some n)).modComp n
        (Component.passed (s.mode == .active) off (packetCc packet + off))) := by
  have hmode : (relabel j (some n) s).mode = s.mode := by
    rw [relabel_live _ h]
    rfl
  simp only [passManaged, hmode, hoff]
  rw [relabel_live _ h, modService_modService]

/-! ### STUFF-NULL and OVERLAY -/

theorem rewriteBytes_stuffNull {j : Job} {e : RttEntry} {s : State} (h : e.decision = some .stuffNull) :
    rewriteBytes j e s = emitNull j s := by
  simp only [rewriteBytes, h, Option.getD_some]

theorem rewriteBytes_overlay {j : Job} {e : RttEntry} {s : State} (h : e.decision = some .overlay) :
    rewriteBytes j e s = rewriteOverlay j e.overlay s := by
  simp only [rewriteBytes, h, Option.getD_some]

theorem rewriteOverlay_live {j : Job} {packet : List Byte} {s : State} (h : j.live = true) :
    rewriteOverlay j packet s = (setCc packet (overlayCount (s.service j.service).overlayCc (hasPayload packet)),
      s.modService j.service fun v =>
        { v.relabelled (j.boundary && s.mode == .active) none with
          overlayCc := overlayCount (s.service j.service).overlayCc (hasPayload packet)
          overlaid := v.overlaid + 1 }) := by
  have hcc : ((relabel j none s).service j.service).overlayCc = (s.service j.service).overlayCc := by
    rw [relabel_live _ h, modService_service_self]
    rfl
  simp only [rewriteOverlay, h, if_true, hcc]
  rw [relabel_live _ h, modService_modService]
  rfl

theorem rewriteOverlay_dead {j : Job} {packet : List Byte} {s : State} (h : j.live = false) :
    rewriteOverlay j packet s = (packet, s) := by
  simp only [rewriteOverlay, h, Bool.false_eq_true, if_false, relabel_dead _ h]

/-- Settles O25, by the entry's decision and whether its records are live. -/
theorem rewritePassesAndStuffs : Obligations.RewritePassesAndStuffs := by
  unfold Obligations.RewritePassesAndStuffs
  intro now x e i s h hlen hd v live active packet null u begun
  have hpacket : packet.length = 188 := length_packetOf hlen
  have hbegun (target : Option Nat) : begun target = v.relabelled (e.boundary && s.mode == .active) target := by
    by_cases hon : e.boundary = true ∧ active
    · have hboundary : (e.boundary && s.mode == .active) = true := by simpa using hon
      simp only [begun, if_pos hon, hboundary, Service.relabelled, if_true, relabelOthers_eq]
    · have hboundary : (e.boundary && s.mode == .active) = false := by simpa using hon
      simp only [begun, if_neg hon, hboundary, Service.relabelled, Bool.false_eq_true, if_false]
  have hself : vset s.services i v = s.services := vset_vget ..
  have hlive (hl : live) : (rewriteJob e i (s.at now)).live = true :=
    (rewriteJob_live_iff e i (s.at now)).mpr hl
  have hdead (hl : ¬live) : (rewriteJob e i (s.at now)).live = false :=
    rewriteJob_dead (s := s.at now) hl
  rw [exec_rewrite h]
  refine ⟨fun hl hdec hplain => ?plain, fun n c hl hdec hg hi hc => ?managed, fun hl hdec => ?stuffed,
    fun hl hdec hover => ?overlay, fun hl => ⟨fun hdec => ?deadPass, fun hdec => ?deadStuffed,
      fun hdec hover => ?deadOverlay⟩⟩
  case plain =>
    have hnone : goodSync (packetOf e.network) = false
        ∨ (rewriteJob e i (s.at now)).managed (packetPid (packetOf e.network)) (s.at now) = none :=
      hplain.imp_right fun hi => managed_unmanaged (s := s.at now) hi
    have hbytes := (rewriteBytes_pass (j := rewriteJob e i (s.at now)) hdec).trans
      ((rewritePass_plain hnone).trans (congrArg (Prod.mk _) (relabel_live none (hlive hl))))
    rw [rewriteEntry_of_bytes hbytes hpacket, settle_nil (by exact hd), hbegun]
    rfl
  case managed =>
    intro off
    have hoff : c.passOffset (s.mode == .active) (packetCc packet) (hasPayload packet) = off := by
      have hwhen : (s.mode == .active && (c.cur != .network || c.rejoin)) = true
          ↔ active ∧ (c.cur ≠ .network ∨ c.rejoin = true) := by simp [active]
      refine if_congr hwhen ?_ rfl
      cases c.outCc <;> rfl
    have hmanaged := managed_live (s := s.at now) (hlive hl) hi hc
    have hbytes := (rewriteBytes_pass (j := rewriteJob e i (s.at now)) hdec).trans
      ((rewritePass_managed hg hmanaged).trans (passManaged_live (hlive hl) hoff))
    rw [rewriteEntry_of_bytes hbytes ((length_setCc ..).trans hpacket), settle_nil (by exact hd), hbegun, passed_eq]
    rfl
  case stuffed =>
    have hbytes := (rewriteBytes_stuffNull (j := rewriteJob e i (s.at now)) hdec).trans
      (emitNull_live (s := s.at now) (hlive hl))
    rw [modService_modService] at hbytes
    rw [rewriteEntry_of_bytes hbytes length_nullPacket, settle_nil (by exact hd), hbegun]
    rfl
  case overlay =>
    intro cc
    have hbytes := (rewriteBytes_overlay (j := rewriteJob e i (s.at now)) hdec).trans
      (rewriteOverlay_live (s := s.at now) (hlive hl))
    rw [rewriteEntry_of_bytes hbytes ((length_setCc ..).trans hover), settle_nil (by exact hd), hbegun]
    rfl
  case deadPass =>
    have hbytes := (rewriteBytes_pass (j := rewriteJob e i (s.at now)) hdec).trans
      ((rewritePass_plain (.inr (managed_dead (s := s.at now) (hdead hl)))).trans
        (congrArg (Prod.mk _) (relabel_dead none (hdead hl))))
    rw [rewriteEntry_of_bytes hbytes hpacket, settle_nil (by exact hd)]
    simp only [u, hself]
    rfl
  case deadStuffed =>
    have hbytes := (rewriteBytes_stuffNull (j := rewriteJob e i (s.at now)) hdec).trans
      (emitNull_dead (s := s.at now) (hdead hl))
    rw [rewriteEntry_of_bytes hbytes length_nullPacket, settle_nil (by exact hd)]
    simp only [u, hself]
    rfl
  case deadOverlay =>
    have hbytes := (rewriteBytes_overlay (j := rewriteJob e i (s.at now)) hdec).trans
      (rewriteOverlay_dead (s := s.at now) (hdead hl))
    rw [rewriteEntry_of_bytes hbytes hover, settle_nil (by exact hd)]
    simp only [u, hself]
    rfl

end Sys2Proof.Machine
end

