-- ==== Sys2Proof/Proofs/Substituted.lean ====
section
/-! PROOF. Rewrites of packets drawn from a source (R13, R109 to R114, R138). -/

namespace Sys2Proof.Machine

/-! ### Packets turned into nulls (R110, R111) -/

/-- The entry draws from a break's or a local programme's source. -/
def RttEntry.Inserted (e : RttEntry) : Prop := e.decision = some .substituteBreak ∨ e.decision = some .substituteLocal

/-- The source an inserted packet is of. -/
def RttEntry.insertedKind (e : RttEntry) : CurSource := if e.decision = some .substituteBreak then .brk else .loc

theorem rewriteBytes_inserted {j : Job} {e : RttEntry} {s : State} (h : e.Inserted) :
    rewriteBytes j e s = rewriteInsertion j e.insertedKind (e.insRef.getD (.brk 0 0))
      (e.binding.getD { remap := [], replaceSet := none }) e.sourceFailed (packetOf e.fetched) s := by
  obtain h | h := h <;> simp [rewriteBytes, RttEntry.insertedKind, h]

theorem rewriteBytes_alert {j : Job} {e : RttEntry} {s : State} (h : e.decision = some .substituteAlert) :
    rewriteBytes j e s = rewriteAlert j e.network e.sourceFailed (packetOf e.fetched) s := by
  simp only [rewriteBytes, h, Option.getD_some]

/-- A failed fetch or a null packet is emitted as a null. -/
theorem rewriteBytes_blank {j : Job} {e : RttEntry} {s : State} (hd : e.Inserted ∨ e.decision = some .substituteAlert)
    (h : e.sourceFailed = true ∨ goodSync (packetOf e.fetched) = true ∧ packetPid (packetOf e.fetched) = nullPid) :
    rewriteBytes j e s = emitNull j s := by
  have hinsertion (kind : CurSource) (ref : InsRef) (b : InsBinding) :
      rewriteInsertion j kind ref b e.sourceFailed (packetOf e.fetched) s = emitNull j s := by
    obtain h | ⟨hg, hp⟩ := h
    · simp [rewriteInsertion, h]
    · simp [rewriteInsertion, hg, hp]
  have halert : rewriteAlert j e.network e.sourceFailed (packetOf e.fetched) s = emitNull j s := by
    obtain h | ⟨hg, hp⟩ := h
    · simp [rewriteAlert, h]
    · simp [rewriteAlert, hg, hp]
  obtain hd | hd := hd
  · rw [rewriteBytes_inserted hd, hinsertion]
  · rw [rewriteBytes_alert hd, halert]

/-- A packet with a bad sync byte is emitted as a null, with SOURCE-FORMAT. -/
theorem rewriteBytes_badSync {j : Job} {e : RttEntry} {s : State} (hd : e.Inserted ∨ e.decision = some .substituteAlert)
    (hf : e.sourceFailed = false) (hg : goodSync (packetOf e.fetched) = false) :
    rewriteBytes j e s = emitNullError .sourceFormat j (packetOf e.fetched) s := by
  obtain hd | hd := hd
  · simp [rewriteBytes_inserted hd, rewriteInsertion, hf, hg]
  · simp [rewriteBytes_alert hd, rewriteAlert, hf, hg]

theorem rewriteBytes_mapped {j : Job} {e : RttEntry} {s : State} (hd : e.Inserted) (hf : e.sourceFailed = false)
    (hg : goodSync (packetOf e.fetched) = true) (hp : packetPid (packetOf e.fetched) ≠ nullPid) :
    rewriteBytes j e s = emitMapped j e.insertedKind (e.insRef.getD (.brk 0 0))
      (e.binding.getD { remap := [], replaceSet := none }) (packetOf e.fetched) s := by
  simp [rewriteBytes_inserted hd, rewriteInsertion, hf, hg, hp]

theorem rewriteBytes_alertPacket {j : Job} {e : RttEntry} {s : State} (hd : e.decision = some .substituteAlert)
    (hf : e.sourceFailed = false) (hg : goodSync (packetOf e.fetched) = true)
    (hp : packetPid (packetOf e.fetched) ≠ nullPid) :
    rewriteBytes j e s = emitAlert j (packetPid e.network) (packetOf e.fetched) s := by
  simp [rewriteBytes_alert hd, rewriteAlert, hf, hg, hp]

theorem emitNullError_live {k : ErrorKind} {j : Job} {packet : List Byte} {s : State} (h : j.live = true) :
    emitNullError k j packet s = (nullPacket, raise (rewriteEvent k j packet)
      ((s.modService j.service (Service.relabelled (j.boundary && s.mode == .active) none)).modService j.service
        fun v => { v with stuffed := v.stuffed + 1 })) := by
  rw [emitNullError, emitNull_live h]

theorem emitNullError_dead {k : ErrorKind} {j : Job} {packet : List Byte} {s : State} (h : j.live = false) :
    emitNullError k j packet s = (nullPacket, raise (rewriteEvent k j packet) s) := by
  rw [emitNullError, emitNull_dead h]

/-! ### The target of a packet (R110) -/

/-- A binding accepts a component for a packet: it is there, in the replace set, and no alert has taken it. -/
def InsBinding.Accepts (b : InsBinding) (n : ComponentIx) (cs : List Component) (snapshot : BitVec 8) : Prop :=
  n.val < cs.length ∧ (∀ set, b.replaceSet = some set → set.getLsbD n.val = true) ∧ snapshot.getLsbD n.val = false

theorem targetOk_iff (j : Job) (b : InsBinding) (n : ComponentIx) (cs : List Component) :
    targetOk j b n cs = true ↔ b.Accepts n cs j.snapshot := by
  rw [targetOk, InsBinding.Accepts]
  cases b.replaceSet <;> simp [and_assoc]

theorem emitMapped_unmapped {j : Job} {kind : CurSource} {ref : InsRef} {b : InsBinding} {fetched : List Byte} {s : State}
    (h : j.live = true → ∀ q, (b.remap.find? fun q => q.pid == packetPid fetched) = some q →
      ¬b.Accepts q.comp (s.service j.service).comps j.snapshot) :
    emitMapped j kind ref b fetched s = emitNullError .unmappedPid j fetched s := by
  unfold emitMapped
  cases hq : b.remap.find? fun q => q.pid == packetPid fetched with
  | none => rfl
  | some q =>
    have hreject : (j.live && targetOk j b q.comp (s.service j.service).comps) = false := by
      cases hl : j.live with
      | false => rfl
      | true => exact Bool.eq_false_iff.mpr (mt (targetOk_iff j b q.comp _).mp (h hl q hq))
    cases hc : (s.service j.service).comp q.comp.val with
    | none => simp only [hc]
    | some c => simp only [hc, hreject, Bool.false_eq_true, if_false]

theorem emitMapped_accepted {j : Job} {kind : CurSource} {ref : InsRef} {b : InsBinding} {fetched : List Byte}
    {q : RemapPair} {c : Component} {s : State} (hl : j.live = true)
    (hq : (b.remap.find? fun q => q.pid == packetPid fetched) = some q)
    (ha : b.Accepts q.comp (s.service j.service).comps j.snapshot)
    (hc : (s.service j.service).comp q.comp.val = some c) :
    emitMapped j kind ref b fetched s = emitOnTarget j kind ref q.comp.val c fetched s := by
  have haccept : (j.live && targetOk j b q.comp (s.service j.service).comps) = true := by
    rw [hl, Bool.true_and]
    exact (targetOk_iff j b q.comp _).mpr ha
  simp only [emitMapped, hq, hc, haccept, if_true]

/-! ### The PCR (R113, R114) -/

theorem adjustInsertionPcr_still {j : Job} {ref : InsRef} {fetched packet : List Byte} {s : State}
    (h : ¬(carriesPcr packet = true ∧ (s.service j.service).offsetHome ref ≠ .nowhere)) :
    adjustInsertionPcr j ref fetched packet s = (packet, s) := by
  have hstill : (!carriesPcr packet || (s.service j.service).offsetHome ref == .nowhere) = true := by
    by_cases hc : carriesPcr packet = true
    · simp [not_not.mp (not_and.mp h hc)]
    · simp [hc]
  simp only [adjustInsertionPcr, hstill, if_true]

/-- A packet with a PCR of an insertion that has a home for its offset. -/
def State.movesPcr (s : State) (j : Job) (ref : InsRef) (packet : List Byte) : Prop :=
  carriesPcr packet = true ∧ (s.service j.service).offsetHome ref ≠ .nowhere

theorem movesPcr_cond {s : State} {j : Job} {ref : InsRef} {packet : List Byte} (h : s.movesPcr j ref packet) :
    (!carriesPcr packet || (s.service j.service).offsetHome ref == .nowhere) = false := by
  rw [h.1, beq_eq_false_iff_ne.mpr h.2]
  rfl

theorem adjustInsertionPcr_offset {j : Job} {ref : InsRef} {fetched packet : List Byte} {o : PcrBase} {s : State}
    (h : s.movesPcr j ref packet)
    (ho : (s.service j.service).offsetAt ((s.service j.service).offsetHome ref) = some o) :
    adjustInsertionPcr j ref fetched packet s = (setPcrBase packet (pcrBase packet + o), s) := by
  simp only [adjustInsertionPcr, movesPcr_cond h, Bool.false_eq_true, if_false, ho]

theorem estimate_track {v : Service} {k : ClockTrack} (t : Stamp) (h : v.track = some k) :
    v.estimate t = some (k.estimate t) := by
  rw [Service.estimate, h]
  rfl

theorem estimate_noTrack {v : Service} (t : Stamp) (h : v.track = none) : v.estimate t = none := by
  rw [Service.estimate, h]
  rfl

theorem adjustInsertionPcr_first {j : Job} {ref : InsRef} {fetched packet : List Byte} {k : ClockTrack} {s : State}
    (h : s.movesPcr j ref packet)
    (ho : (s.service j.service).offsetAt ((s.service j.service).offsetHome ref) = none)
    (hk : (s.service j.service).track = some k) :
    adjustInsertionPcr j ref fetched packet s = (setPcrBase packet (k.estimate j.stamp), s.modService j.service fun v =>
      v.setOffset ((s.service j.service).offsetHome ref) (k.estimate j.stamp - pcrBase packet)) := by
  simp only [adjustInsertionPcr, movesPcr_cond h, Bool.false_eq_true, if_false, ho, estimate_track _ hk]

theorem adjustInsertionPcr_noClock {j : Job} {ref : InsRef} {fetched packet : List Byte} {s : State}
    (h : s.movesPcr j ref packet)
    (ho : (s.service j.service).offsetAt ((s.service j.service).offsetHome ref) = none)
    (hk : (s.service j.service).track = none) :
    adjustInsertionPcr j ref fetched packet s = (packet, raise (rewriteEvent .noClock j fetched) s) := by
  simp only [adjustInsertionPcr, movesPcr_cond h, Bool.false_eq_true, if_false, ho, estimate_noTrack _ hk]

theorem adjustAlertPcr_still {j : Job} {fetched packet : List Byte} {s : State} (h : carriesPcr packet = false) :
    adjustAlertPcr j fetched packet s = (packet, s) := by
  rw [adjustAlertPcr, h]
  rfl

theorem adjustAlertPcr_clock {j : Job} {fetched packet : List Byte} {k : ClockTrack} {s : State}
    (h : carriesPcr packet = true) (hk : (s.service j.service).track = some k) :
    adjustAlertPcr j fetched packet s = (setPcrBase packet (k.estimate j.stamp), s) := by
  simp only [adjustAlertPcr, h, Bool.not_true, Bool.false_eq_true, if_false, estimate_track _ hk]

theorem adjustAlertPcr_noClock {j : Job} {fetched packet : List Byte} {s : State} (h : carriesPcr packet = true)
    (hk : (s.service j.service).track = none) :
    adjustAlertPcr j fetched packet s = (packet, raise (rewriteEvent .noClock j fetched) s) := by
  simp only [adjustAlertPcr, h, Bool.not_true, Bool.false_eq_true, if_false, estimate_noTrack _ hk]

/-! ### Emitting on a component (R11, R13, R112) -/

/-- The count a packet is emitted with on a component. -/
def Component.nextCount (c : Component) (packet : List Byte) : BitVec 4 :=
  substitutedCc c.outCc (packetCc packet) (hasPayload packet)

/-- The state of a packet emitted on component n: the component's count and source, and the packet counted. -/
def State.emittedOn (s : State) (i : ServiceIx) (n : Nat) (active : Bool) (kind : CurSource) (cc : BitVec 4) : State :=
  s.modService i fun v => { v.modComp n (Component.substituted active kind cc) with substituted := v.substituted + 1 }

/-- The state in which a packet of component n meets its PCR: the others are re-labelled at a boundary. -/
def State.atTarget (s : State) (j : Job) (n : Nat) : State :=
  s.modService j.service (Service.relabelled (j.boundary && s.mode == .active) (some n))

theorem emitOnTarget_live {j : Job} {kind : CurSource} {ref : InsRef} {n : Nat} {c : Component}
    {fetched out : List Byte} {s t : State} (h : j.live = true)
    (hpcr : adjustInsertionPcr j ref fetched (movedPacket fetched c.pid (c.nextCount fetched)) (s.atTarget j n)
      = (out, t)) :
    emitOnTarget j kind ref n c fetched s
      = (out, t.emittedOn j.service n (s.mode == .active) kind (c.nextCount fetched)) := by
  have hrelabel : relabel j (some n) s = s.atTarget j n := relabel_live _ h
  rw [emitOnTarget, hrelabel]
  exact congrArg (fun r : List Byte × State =>
    (r.1, r.2.emittedOn j.service n (s.mode == .active) kind (c.nextCount fetched))) hpcr

theorem emitAlert_live {j : Job} {pid : Pid} {n : Nat} {c : Component} {fetched out : List Byte} {s t : State}
    (h : j.live = true) (hm : j.managed pid s = some (n, c))
    (hpcr : adjustAlertPcr j fetched (movedPacket fetched pid (c.nextCount fetched)) (s.atTarget j n) = (out, t)) :
    emitAlert j pid fetched s = (out, t.emittedOn j.service n (s.mode == .active) .alert (c.nextCount fetched)) := by
  have hrelabel : relabel j (some n) s = s.atTarget j n := relabel_live _ h
  simp only [emitAlert, hm, hrelabel]
  exact congrArg (fun r : List Byte × State =>
    (r.1, r.2.emittedOn j.service n (s.mode == .active) .alert (c.nextCount fetched))) hpcr

theorem emitAlert_dead {j : Job} {pid : Pid} {fetched : List Byte} {s : State} (h : j.live = false) :
    emitAlert j pid fetched s = (setPid fetched pid, s) := by
  simp only [emitAlert, managed_dead h, relabel_dead _ h]

theorem substituted_eq (m : Mode) (kind : CurSource) (cc : BitVec 4) :
    Component.substituted (m == .active) kind cc = fun c =>
      { c with outCc := some cc, cur := if m = .active then kind else c.cur } := by
  funext c
  simp only [Component.substituted, beq_iff_eq]

end Sys2Proof.Machine
end

