-- ==== Sys2Proof/Proofs/MappedPackets.lean ====
section
/-! PROOF. An entry that draws from a source is rewritten (R109 to R114, R138). -/

namespace Sys2Proof.Machine

/-- The state with an entry READY and out of its service's rewrite order (R34). -/
def State.readied (t : State) (x : EntryIx) (i : ServiceIx) (e : RttEntry) (out : List Byte) : State :=
  { t with
    rewriteOrder := vset t.rewriteOrder i ((vget t.rewriteOrder i).filter fun y => y != x)
    rtt := vset t.rtt x (some { e with phase := .ready, result := out ++ (e.network.drop 188).take 4 }) }

theorem exec_rewrite_bytes {now : Stamp} {x : EntryIx} {e : RttEntry} {i : ServiceIx} {out : List Byte} {s t : State}
    (h : s.rewritable x = some (e, i)) (hb : rewriteBytes (rewriteJob e i (s.at now)) e (s.at now) = (out, t))
    (hl : out.length = 188) : exec (.rewrite now x) s = .next (settle (t.readied x i e out)) := by
  rw [exec_rewrite h, rewriteEntry_of_bytes hb hl, State.readied]

/-- A rewrite that raises nothing. -/
theorem exec_rewrite_calm {now : Stamp} {x : EntryIx} {e : RttEntry} {i : ServiceIx} {out : List Byte} {s t : State}
    (h : s.rewritable x = some (e, i)) (hb : rewriteBytes (rewriteJob e i (s.at now)) e (s.at now) = (out, t))
    (hl : out.length = 188) (hd : t.deferred = []) : exec (.rewrite now x) s = .next (t.readied x i e out) := by
  rw [exec_rewrite_bytes h hb hl, settle_nil (s := t.readied x i e out) hd]

/-- Settles O26, by what the fetched packet is, the target it maps to and the PCR it carries. -/
theorem rewriteSubstitutesMappedPacket : Obligations.RewriteSubstitutesMappedPacket := by
  unfold Obligations.RewriteSubstitutesMappedPacket
  intro now x e i s h hd v live inserted drawn packet blank bad whole null ready u begun stuffed counted count estimate
    ev acceptable
  have hlive (hl : live) : (rewriteJob e i (s.at now)).live = true := (rewriteJob_live_iff e i (s.at now)).mpr hl
  have hdead (hl : ¬live) : (rewriteJob e i (s.at now)).live = false := rewriteJob_dead (s := s.at now) hl
  have hbegun (target : Option Nat) :
      begun target = u.modService i (Service.relabelled (e.boundary && s.mode == .active) target) := by
    by_cases hon : e.boundary = true ∧ s.mode = .active
    · have hboundary : (e.boundary && s.mode == .active) = true := by simpa using hon
      simp only [begun, if_pos hon, hboundary, relabelled_true, relabelOthers_eq]
    · have hboundary : (e.boundary && s.mode == .active) = false := by simpa using hon
      simp only [begun, if_neg hon, hboundary, relabelled_false]
      exact (modService_self rfl).symm
  have hevent (kind : ErrorKind) {r : Reserved} (hr : e.reserved = some r) :
      rewriteEvent kind (rewriteJob e i (s.at now)) packet = ev kind r := by
    simp only [rewriteEvent, rewriteJob, hr, Option.map_some, Option.getD_some, ev]
  have hcount (c : Component) : c.nextCount packet = count c := by
    cases hcc : c.outCc <;> simp only [Component.nextCount, substitutedCc, count, hcc]
  have hcounted (n : Nat) (cc : BitVec 4) (kind : CurSource) (t : State) :
      t.emittedOn i n (s.mode == .active) kind cc = counted n cc kind t := by
    rw [State.emittedOn, substituted_eq]
  have htarget (n : Nat) : (s.at now).atTarget (rewriteJob e i (s.at now)) n = begun (some n) := (hbegun _).symm
  have hstuffed : ((s.at now).modService i (Service.relabelled (e.boundary && s.mode == .active) none)).modService i
      (fun w => { w with stuffed := w.stuffed + 1 }) = stuffed := by
    simp only [stuffed, hbegun]
    rfl
  have hbeganAs (n : Nat) : (begun (some n)).service i
      = v.relabelled (e.boundary && s.mode == .active) (some n) := by
    rw [hbegun, modService_service_self]
    rfl
  have hbeganCalm (n : Nat) : (begun (some n)).deferred = [] := by
    rw [hbegun]
    exact hd
  refine ⟨fun hl hdraw hblank => ?blank, fun r hl hdraw hbad hr => ?bad, fun r b hl hins hwhole hb hr hno => ?unmapped,
    fun ref b pair c hl hins hwhole hlen href hb hq ha hc => ?mapped, fun n c hl hdec hwhole hlen hi hc => ?alert,
    fun hl hdraw => ⟨fun hblank => ?deadBlank, fun r hbad hr => ?deadBad, fun r hins hwhole hr => ?deadUnmapped,
      fun hdec hwhole hlen => ?deadAlert⟩⟩
  case blank =>
    have hbytes := (rewriteBytes_blank hdraw hblank).trans (emitNull_live (s := s.at now) (hlive hl))
    refine (exec_rewrite_calm h hbytes length_nullPacket (by exact hd)).trans ?_
    exact congrArg (fun t : State => Host.Outcome.next (t.readied x i e nullPacket)) hstuffed
  case bad =>
    have hbytes := (rewriteBytes_badSync hdraw hbad.1 hbad.2).trans (emitNullError_live (s := s.at now) (hlive hl))
    rw [exec_rewrite_bytes h hbytes length_nullPacket]
    exact congrArg₂ (fun (t : State) (k : ErrorEvent) => Host.Outcome.next (settle ((raise k t).readied x i e nullPacket)))
      hstuffed (hevent .sourceFormat hr)
  case unmapped =>
    have hno' : (rewriteJob e i (s.at now)).live = true → ∀ q,
        ((e.binding.getD { remap := [], replaceSet := none }).remap.find? fun q => q.pid == packetPid packet) = some q →
        ¬(e.binding.getD { remap := [], replaceSet := none }).Accepts q.comp ((s.at now).service i).comps e.snapshot := by
      rw [hb]
      exact fun _ => hno
    have hbytes := (rewriteBytes_mapped (s := s.at now) hins hwhole.1 hwhole.2.1 hwhole.2.2).trans
      ((emitMapped_unmapped hno').trans (emitNullError_live (hlive hl)))
    rw [exec_rewrite_bytes h hbytes length_nullPacket]
    exact congrArg₂ (fun (t : State) (k : ErrorEvent) => Host.Outcome.next (settle ((raise k t).readied x i e nullPacket)))
      hstuffed (hevent .unmappedPid hr)
  case mapped =>
    intro out kind home moved t finished
    have hpacket : packet.length = 188 := length_packetOf hlen
    have hout : movedPacket packet c.pid (c.nextCount packet) = out := by
      rw [hcount]
      rfl
    have hlength : out.length = 188 := by rw [← hout, length_movedPacket, hpacket]
    have hcarries : carriesPcr out = carriesPcr packet := by rw [← hout, carriesPcr_movedPacket _ _ hpacket]
    have hbase : pcrBase out = pcrBase packet := by rw [← hout, pcrBase_movedPacket]
    have hhome : (t.service i).offsetHome ref = home := by
      rw [hbeganAs]
      rfl
    have hoffset : (t.service i).offsetAt home = v.offsetAt home := by
      rw [hbeganAs]
      rfl
    have htrack : (t.service i).track = v.track := by
      rw [hbeganAs]
      rfl
    have hbytes {sent : List Byte} {w : State}
        (hpcr : adjustInsertionPcr (rewriteJob e i (s.at now)) ref packet out t = (sent, w)) :
        rewriteBytes (rewriteJob e i (s.at now)) e (s.at now) = (sent, finished w) := by
      have htargeted : adjustInsertionPcr (rewriteJob e i (s.at now)) ref packet
          (movedPacket packet c.pid (c.nextCount packet)) ((s.at now).atTarget (rewriteJob e i (s.at now)) pair.comp.val)
            = (sent, w) := by
        rw [hout, htarget]
        exact hpcr
      have hemit := emitOnTarget_live (kind := kind) (s := s.at now) (hlive hl) htargeted
      have hmapped := emitMapped_accepted (kind := kind) (ref := ref) (s := s.at now) (hlive hl) hq ha hc
      refine (rewriteBytes_mapped (s := s.at now) hins hwhole.1 hwhole.2.1 hwhole.2.2).trans ?_
      rw [href, hb]
      refine hmapped.trans (hemit.trans (congrArg (Prod.mk sent) ?_))
      rw [hcount]
      exact hcounted ..
    have hmoves (hm : moved) : t.movesPcr (rewriteJob e i (s.at now)) ref out :=
      ⟨hcarries.trans hm.1, fun hn => hm.2 (hhome.symm.trans hn)⟩
    refine ⟨fun hstill => ?still, fun p hm hp => ?offset, fun k hm hp hk => ?first, fun r hm hp hk hr => ?noClock⟩
    case still =>
      have hstays : ¬(carriesPcr out = true ∧ (t.service i).offsetHome ref ≠ .nowhere) := by
        rw [hcarries, hhome]
        exact hstill
      exact exec_rewrite_calm h (hbytes (adjustInsertionPcr_still hstays)) hlength (hbeganCalm _)
    case offset =>
      have hpcr := adjustInsertionPcr_offset (fetched := packet) (hmoves hm)
        ((congrArg _ hhome).trans (hoffset.trans hp))
      rw [hbase] at hpcr
      exact exec_rewrite_calm h (hbytes hpcr) ((length_setPcrBase ..).trans hlength) (hbeganCalm _)
    case first =>
      have hpcr := adjustInsertionPcr_first (fetched := packet) (hmoves hm)
        ((congrArg _ hhome).trans (hoffset.trans hp)) (htrack.trans hk)
      rw [hbase, show (t.service (rewriteJob e i (s.at now)).service).offsetHome ref = home from hhome] at hpcr
      exact exec_rewrite_calm h (hbytes hpcr) ((length_setPcrBase ..).trans hlength) (hbeganCalm _)
    case noClock =>
      have hpcr := adjustInsertionPcr_noClock (fetched := packet) (hmoves hm)
        ((congrArg _ hhome).trans (hoffset.trans hp)) (htrack.trans hk)
      rw [hevent .noClock hr] at hpcr
      exact exec_rewrite_bytes h (hbytes hpcr) hlength
  case alert =>
    intro out t finished
    have hpacket : packet.length = 188 := length_packetOf hlen
    have hout : movedPacket packet (packetPid e.network) (c.nextCount packet) = out := by
      rw [hcount]
      rfl
    have hlength : out.length = 188 := by rw [← hout, length_movedPacket, hpacket]
    have hcarries : carriesPcr out = carriesPcr packet := by rw [← hout, carriesPcr_movedPacket _ _ hpacket]
    have htrack : (t.service i).track = v.track := by
      rw [hbeganAs]
      rfl
    have hbytes {sent : List Byte} {w : State}
        (hpcr : adjustAlertPcr (rewriteJob e i (s.at now)) packet out t = (sent, w)) :
        rewriteBytes (rewriteJob e i (s.at now)) e (s.at now) = (sent, finished w) := by
      have hmanaged := managed_live (s := s.at now) (hlive hl) hi hc
      have htargeted : adjustAlertPcr (rewriteJob e i (s.at now)) packet
          (movedPacket packet (packetPid e.network) (c.nextCount packet))
          ((s.at now).atTarget (rewriteJob e i (s.at now)) n) = (sent, w) := by
        rw [hout, htarget]
        exact hpcr
      have hemit := emitAlert_live (s := s.at now) (hlive hl) hmanaged htargeted
      refine (rewriteBytes_alertPacket hdec hwhole.1 hwhole.2.1 hwhole.2.2).trans
        (hemit.trans (congrArg (Prod.mk sent) ?_))
      rw [hcount]
      exact hcounted ..
    refine ⟨fun hno => ?still, fun k hcar hk => ?clock, fun r hcar hk hr => ?noClock⟩
    case still =>
      exact exec_rewrite_calm h (hbytes (adjustAlertPcr_still (hcarries.trans hno))) hlength (hbeganCalm _)
    case clock =>
      have hpcr := adjustAlertPcr_clock (j := rewriteJob e i (s.at now)) (fetched := packet) (hcarries.trans hcar)
        (htrack.trans hk)
      exact exec_rewrite_calm h (hbytes hpcr) ((length_setPcrBase ..).trans hlength) (hbeganCalm _)
    case noClock =>
      have hpcr := adjustAlertPcr_noClock (j := rewriteJob e i (s.at now)) (fetched := packet) (hcarries.trans hcar)
        (htrack.trans hk)
      rw [hevent .noClock hr] at hpcr
      exact exec_rewrite_bytes h (hbytes hpcr) hlength
  case deadBlank =>
    have hbytes := (rewriteBytes_blank hdraw hblank).trans (emitNull_dead (s := s.at now) (hdead hl))
    exact exec_rewrite_calm h hbytes length_nullPacket hd
  case deadBad =>
    have hbytes := (rewriteBytes_badSync hdraw hbad.1 hbad.2).trans (emitNullError_dead (s := s.at now) (hdead hl))
    rw [exec_rewrite_bytes h hbytes length_nullPacket]
    exact congrArg (fun k : ErrorEvent => Host.Outcome.next (settle ((raise k u).readied x i e nullPacket)))
      (hevent .sourceFormat hr)
  case deadUnmapped =>
    have hbytes := (rewriteBytes_mapped (s := s.at now) hins hwhole.1 hwhole.2.1 hwhole.2.2).trans
      ((emitMapped_unmapped fun hon => absurd hon (by rw [hdead hl]; decide)).trans (emitNullError_dead (hdead hl)))
    rw [exec_rewrite_bytes h hbytes length_nullPacket]
    exact congrArg (fun k : ErrorEvent => Host.Outcome.next (settle ((raise k u).readied x i e nullPacket)))
      (hevent .unmappedPid hr)
  case deadAlert =>
    have hbytes := (rewriteBytes_alertPacket (s := s.at now) hdec hwhole.1 hwhole.2.1 hwhole.2.2).trans
      (emitAlert_dead (hdead hl))
    exact exec_rewrite_calm h hbytes ((length_setPid ..).trans (length_packetOf hlen)) hd

end Sys2Proof.Machine
end

