-- ==== Sys2Proof/Proofs/LeadStart.lean ====
section
/-! PROOF. The steps of the Schedule Unit at a lead start packet, each by itself (R97 to R102, R121 to R123). -/

namespace Sys2Proof.Machine

/-! ### The end of a local programme (R121) -/

theorem running_of_current {v : Service} {l : SlotLetter} {p : LocalProg} (hc : v.current = l) (hp : v.slot l = some p)
    (hr : p.state = .running) : v.running = some (l, p) := by
  simp only [Service.running, hc, hp, isRunning_iff.mpr hr, if_true]

theorem running_current {v : Service} {l : SlotLetter} {p : LocalProg} (h : v.running = some (l, p)) : v.current = l := by
  unfold Service.running at h
  split at h
  next q _ =>
    by_cases hq : q.isRunning = true
    · rw [if_pos hq, Option.some.injEq, Prod.mk.injEq] at h
      exact h.1
    · rw [if_neg hq] at h
      exact absurd h (Option.some_ne_none _).symm
  next => exact absurd h (Option.some_ne_none _).symm

theorem localEndAt_ended {i : ServiceIx} {t : Stamp} {l : SlotLetter} {p : LocalProg} {s : State}
    (h : (s.service i).running = some (l, p)) (ht : atOrAfter t p.stop = true) :
    localEndAt i t s = (true, leaveSlot i l (.ended .endStamp t) s) := by
  simp only [localEndAt, h, ht, if_true]

theorem localEndAt_of_none {i : ServiceIx} {t : Stamp} {s : State} (h : (s.service i).running = none) :
    localEndAt i t s = (false, s) := by
  simp only [localEndAt, h]

theorem localEndAt_runsOn {i : ServiceIx} {t : Stamp} {s : State}
    (h : ∀ p, (s.service i).slot (s.service i).current = some p → p.state = .running → atOrAfter t p.stop = false) :
    localEndAt i t s = (false, s) := by
  cases hr : (s.service i).running with
  | none => exact localEndAt_of_none hr
  | some x =>
    obtain ⟨l, p⟩ := x
    obtain ⟨hp, hrunning⟩ := slot_running hr
    have ht := h p (running_current hr ▸ hp) (isRunning_iff.mp hrunning)
    simp only [localEndAt, hr, ht, Bool.false_eq_true, if_false]

/-! ### The start of a local programme (R122, R123) -/

theorem isDue_iff {p : LocalProg} {t : Stamp} : p.isDue t = true ↔ p.state ≠ .running ∧ later p.start t = false := by
  simp [LocalProg.isDue, LocalProg.isRunning, atOrBefore]

theorem examineSlot_waits {i : ServiceIx} {t : Stamp} {s : State}
    (h : ∀ p, (s.service i).slot (s.service i).current = some p → p.state = .running ∨ later p.start t = true) :
    examineSlot i t s = (.waits, s) := by
  cases hp : (s.service i).slot (s.service i).current with
  | none => simp only [examineSlot, hp]
  | some p =>
    have hdue : p.isDue t = false := by
      refine Bool.eq_false_iff.mpr fun hdue => ?_
      obtain ⟨hr, hl⟩ := isDue_iff.mp hdue
      exact absurd ((h p hp).resolve_left hr) (by rw [hl]; decide)
    simp only [examineSlot, hp, hdue, Bool.false_eq_true, if_false]

/-- The current slot is due. -/
structure State.DueSlot (s : State) (i : ServiceIx) (t : Stamp) (l : SlotLetter) (p : LocalProg) : Prop where
  current : (s.service i).current = l
  slot : (s.service i).slot l = some p
  due : p.isDue t = true

theorem examineSlot_missed {i : ServiceIx} {t : Stamp} {l : SlotLetter} {p : LocalProg} {cause : Cause} {s : State}
    (h : s.DueSlot i t l p) (hm : slotMissedBefore (s.service i) p t s = some cause) :
    examineSlot i t s = (.missed, leaveSlot i l (.missed cause t) s) := by
  simp only [examineSlot, h.current, h.slot, h.due, if_true, hm]

theorem examineSlot_started {i : ServiceIx} {t : Stamp} {l : SlotLetter} {p : LocalProg} {s u : State}
    (h : s.DueSlot i t l p) (hm : slotMissedBefore (s.service i) p t s = none)
    (hr : resolveSlot i l p s = (none, u)) : examineSlot i t s = (.started, startSlot i l p t u) := by
  simp only [examineSlot, h.current, h.slot, h.due, if_true, hm, hr]

/-- A due slot whose source is refused leaves as MISSED. -/
theorem examineSlot_refused {i : ServiceIx} {t : Stamp} {l : SlotLetter} {p : LocalProg} {cause : NotReadyCause}
    {s : State} (h : s.DueSlot i t l p) (hm : slotMissedBefore (s.service i) p t s = none) (hp : p.state ≠ .ready)
    (hr : s.Refuses p.source (.loc i l) cause) :
    examineSlot i t s = (.missed, leaveSlot i l (.missed cause.cause t) s) := by
  have hready : (p.state == .ready) = false := beq_eq_false_iff_ne.mpr hp
  have hrefused : (disarm (.loc i l) s).Refuses p.source (.loc i l) cause := by
    cases cause <;> exact hr
  have hresolve : resolveSlot i l p s = (some cause.cause, disarm (.loc i l) s) := by
    simp only [resolveSlot, hready, Bool.false_eq_true, if_false, attach_refused hrefused, answer_notReady,
      Option.map_some]
  simp only [examineSlot, h.current, h.slot, h.due, if_true, hm, hresolve, leaveSlot_disarm h.slot]

theorem resolveSlot_ready {i : ServiceIx} {l : SlotLetter} {p : LocalProg} {s : State} (h : p.state = .ready) :
    resolveSlot i l p s = (none, s) := by
  simp only [resolveSlot, h, beq_self_eq_true, if_true]

theorem resolveSlot_attached {i : ServiceIx} {l : SlotLetter} {p : LocalProg} {s : State} (h : p.state ≠ .ready)
    (hm : s.mode = .active) (hd : (s.source p.source).defined = true)
    (ha : ∀ q, (s.source p.source).attachment = some q → q = .loc i l) :
    resolveSlot i l p s = (none, (disarm (.loc i l) s).attachedTo p.source (.loc i l)) := by
  have hready : (p.state == .ready) = false := beq_eq_false_iff_ne.mpr h
  have hattach := attach_attached (s := disarm (.loc i l) s) hm hd ha
  simp only [resolveSlot, hready, Bool.false_eq_true, if_false, hattach]
  rfl

theorem localStartAt_started {i : ServiceIx} {t : Stamp} {s w : State} (h : examineSlot i t s = (.started, w)) :
    localStartAt i t s = (true, w) := by
  simp only [localStartAt, h]

theorem localStartAt_waits {i : ServiceIx} {t : Stamp} {s w : State} (h : examineSlot i t s = (.waits, w)) :
    localStartAt i t s = (false, w) := by
  simp only [localStartAt, h]

theorem localStartAt_missed {i : ServiceIx} {t : Stamp} {s w : State} (h : examineSlot i t s = (.missed, w)) :
    localStartAt i t s = ((examineSlot i t w).1 == .started, (examineSlot i t w).2) := by
  simp only [localStartAt, h]
  obtain ⟨exam, u⟩ := examineSlot i t w
  cases exam <;> rfl

/-! ### The return of a break (R98) -/

theorem breakReturnAt_returned {i : ServiceIx} {t : Stamp} {e : BreakEntry} {r : ReturnStamp} {s : State}
    (h : (s.service i).activeHead = some e) (hr : e.ret = some r) (ht : atOrAfter t r.stamp = true) :
    breakReturnAt i t s = (true, leaveBreak i e.event (.ended r.origin.cause t) s) := by
  simp only [breakReturnAt, h, hr, ht, if_true]

theorem breakReturnAt_stays {i : ServiceIx} {t : Stamp} {s : State}
    (h : ∀ e r, (s.service i).activeHead = some e → e.ret = some r → atOrAfter t r.stamp = false) :
    breakReturnAt i t s = (false, s) := by
  cases he : (s.service i).activeHead with
  | none => simp only [breakReturnAt, he]
  | some e =>
    cases hr : e.ret with
    | none => simp only [breakReturnAt, he, hr]
    | some r => simp only [breakReturnAt, he, hr, h e r he hr, Bool.false_eq_true, if_false]

/-! ### The candidate (R99) -/

theorem breakStartAt_none {i : ServiceIx} {t : Stamp} {s : State} (h : (s.service i).dueEvents t = []) :
    breakStartAt i t s = (false, s) := by
  simp only [breakStartAt, h, List.getLast?_nil]

theorem breakStartAt_last {i : ServiceIx} {t : Stamp} {evs : List EventId} {ev : EventId} {s : State}
    (h : (s.service i).dueEvents t = evs ++ [ev]) :
    breakStartAt i t s = ((((supersede i t evs s).service i).findEntry ev).elim (false, supersede i t evs s)
      fun e => examineCandidate i e t (supersede i t evs s)) := by
  simp only [breakStartAt, h, List.getLast?_concat, List.dropLast_concat]
  cases ((supersede i t evs s).service i).findEntry ev <;> rfl

theorem examineCandidate_missed {i : ServiceIx} {e : BreakEntry} {t : Stamp} {cause : Cause} {s : State}
    (h : missedBefore i e t s = some cause) :
    examineCandidate i e t s = (false, leaveBreak i e.event (.missed cause t) s) := by
  simp only [examineCandidate, h]

theorem examineCandidate_settled {i : ServiceIx} {e : BreakEntry} {t : Stamp} {s u : State}
    (h : missedBefore i e t s = none) (hs : settleSource i e s = (none, u)) :
    examineCandidate i e t s = if entryEmpty i e.event u then (false, leaveBreak i e.event (.missed .notReadyEmpty t) u)
      else (true, startBreak i e.event t u) := by
  simp only [examineCandidate, h, hs]

theorem examineCandidate_unsettled {i : ServiceIx} {e : BreakEntry} {t : Stamp} {cause : Cause} {s : State}
    (h : missedBefore i e t s = none) (he : (s.service i).findEntry e.event = some e)
    (hs : settleSource i e s = (some cause, disarm (.brk i e.event) s)) :
    examineCandidate i e t s = (false, leaveBreak i e.event (.missed cause t) s) := by
  simp only [examineCandidate, h, hs, leaveBreak_disarm he]

/-! ### The candidate's source settled (R101) -/

theorem settleSource_ready {i : ServiceIx} {e : BreakEntry} {s : State} (h : e.state = .ready) :
    settleSource i e s = (none, s) := by
  simp only [settleSource, h, beq_self_eq_true, if_true]

theorem settleSource_unbound {i : ServiceIx} {e : BreakEntry} {s : State} (h : e.state ≠ .ready)
    (hb : vget (s.service i).avails e.avail = none) :
    settleSource i e s = (some .noSource, disarm (.brk i e.event) s) := by
  have hready : (e.state == .ready) = false := beq_eq_false_iff_ne.mpr h
  have hresolve : resolveEntry i e (disarm (.brk i e.event) s) = (.unbound, disarm (.brk i e.event) s) := by
    simp only [resolveEntry, disarm_service, hb]
  simp only [settleSource, hready, Bool.false_eq_true, if_false, hresolve]
  rfl

theorem settleSource_refused {i : ServiceIx} {e : BreakEntry} {b : Binding} {cause : NotReadyCause} {s : State}
    (h : e.state ≠ .ready) (hb : vget (s.service i).avails e.avail = some b)
    (hr : s.Refuses b.source (.brk i e.event) cause) :
    settleSource i e s = (some cause.cause, disarm (.brk i e.event) s) := by
  have hready : (e.state == .ready) = false := beq_eq_false_iff_ne.mpr h
  have hrefused : (disarm (.brk i e.event) s).Refuses b.source (.brk i e.event) cause := by
    cases cause <;> exact hr
  have hattach := attach_refused hrefused
  cases cause <;>
    simp only [settleSource, hready, Bool.false_eq_true, if_false, resolveEntry, disarm_service, hb, hattach,
      NotReadyCause.answer] <;> rfl

theorem settleSource_attached {i : ServiceIx} {e : BreakEntry} {b : Binding} {s : State} (h : e.state ≠ .ready)
    (hb : vget (s.service i).avails e.avail = some b) (hm : s.mode = .active)
    (hd : (s.source b.source).defined = true)
    (ha : ∀ q, (s.source b.source).attachment = some q → q = .brk i e.event) :
    settleSource i e s = (none, ((disarm (.brk i e.event) s).attachedTo b.source (.brk i e.event)).modEntry i e.event
      fun y => { y with binding := some b }) := by
  have hready : (e.state == .ready) = false := beq_eq_false_iff_ne.mpr h
  have hattach := attach_attached (s := disarm (.brk i e.event) s) hm hd ha
  simp only [settleSource, hready, Bool.false_eq_true, if_false, resolveEntry, disarm_service, hb, hattach]
  rfl

theorem entryEmpty_bound {i : ServiceIx} {ev : EventId} {e : BreakEntry} {b : Binding} {s : State}
    (he : (s.service i).findEntry ev = some e) (hb : e.binding = some b) :
    entryEmpty i ev s = (s.source b.source).isEmpty := by
  simp only [entryEmpty, he, BreakEntry.attachedSource, hb, Option.map_some]

theorem attachTo_isEmpty (o : InsOwner) (r : Source) : (r.attachTo o).isEmpty = r.isEmpty := rfl

/-! ### The start of a break (R102) -/

theorem started_event (t : Stamp) (e : BreakEntry) : (e.started t).event = e.event := rfl

theorem find?_filter_ne {ev k : EventId} (h : k ≠ ev) (l : List BreakEntry) :
    ((l.filter fun x => x.event != k).find? fun x => x.event == ev) = l.find? fun x => x.event == ev := by
  rw [List.find?_filter]
  refine congrArg (fun f => List.find? f l) (funext fun x => ?_)
  by_cases hx : x.event = ev
  · simp [hx, Ne.symm h]
  · simp [hx]

/-- The end of another entry leaves the entry in its place. -/
theorem endActiveBreak_findEntry {i : ServiceIx} {ev : EventId} {cause : Cause} {t : Stamp} {s : State}
    (h : ∀ x, (s.service i).activeHead = some x → x.event ≠ ev) :
    ((endActiveBreak i cause t s).service i).findEntry ev = (s.service i).findEntry ev := by
  rw [endActiveBreak_service, Service.breakEnded]
  cases hx : (s.service i).activeHead with
  | none => rfl
  | some x => exact find?_filter_ne (h x hx) _

/-- A bound candidate starts, in the steps of R102. -/
theorem startBreak_bound {i : ServiceIx} {ev : EventId} {e : BreakEntry} {b : Binding} {t : Stamp} {s u : State}
    (he : (s.service i).findEntry ev = some e) (hb : e.binding = some b)
    (hh : ∀ x, (s.service i).activeHead = some x → x.event ≠ ev)
    (hu : u = ((disarm (.brk i ev) (endActiveBreak i .chained t s)).modEntry i ev (BreakEntry.started t)).modService i
      fun v => { v with mode := .brk }) :
    startBreak i ev t s = offer (breakReport i ev .started .none (some t) ((e.startReturn t).map (·.stamp))
      (u.source b.source).reportedFill (some b.source)) u := by
  have hfound : ((disarm (.brk i ev) (endActiveBreak i .chained t s)).service i).findEntry ev = some e := by
    rw [disarm_service, endActiveBreak_findEntry hh, he]
  have hstarted : (u.service i).findEntry ev = some (e.started t) := by
    have hmod := findEntry_modEntry (started_event t) hfound
    rw [hu, modService_service_self]
    exact hmod
  have hevent : e.event = ev := findEntry_event he
  rw [startBreak, ← hu, offerStarted]
  simp only [hstarted, startedReport, hevent, BreakEntry.attachedSource, BreakEntry.started, hb, Option.map_some,
    Option.elim_some]

end Sys2Proof.Machine
end

