-- ==== Sys2Proof/Proofs/Consulted.lean ====
section
/-! PROOF. The Schedule Unit consulted at a lead start packet, its steps in order (R95, R97, R103). -/

namespace Sys2Proof.Machine

/-! ### What the steps leave alone -/

theorem localEndAt_ends (i : ServiceIx) (t : Stamp) (s : State) : Ends (· = i) s (localEndAt i t s).2 := by
  unfold localEndAt
  split
  · split
    · exact leaveSlot_ends ..
    · exact Ends.refl s
  · exact Ends.refl s

theorem attach_ends (P : ServiceIx → Prop) (k : SourceIx) (o : InsOwner) (s : State) : Ends P s (attach k o s).2 := by
  unfold attach
  split
  · exact Ends.modSource P (f := Source.attachTo o) s rfl rfl
  · exact Ends.refl s

theorem resolveSlot_ends (i : ServiceIx) (l : SlotLetter) (p : LocalProg) (s : State) :
    Ends (· = i) s (resolveSlot i l p s).2 := by
  unfold resolveSlot
  split
  · exact Ends.refl s
  · exact (Ends.disarm _ _ s).trans (attach_ends ..)

theorem modSlot_ends (i : ServiceIx) (l : SlotLetter) (f : LocalProg → LocalProg) (s : State) :
    Ends (· = i) s (s.modSlot i l f) := Ends.modService s (setSlot_core ..)

theorem startSlot_ends (i : ServiceIx) (l : SlotLetter) (p : LocalProg) (t : Stamp) (s : State) :
    Ends (· = i) s (startSlot i l p t s) :=
  ((endActiveBreak_ends ..).trans (Ends.disarm ..)).trans ((modSlot_ends ..).trans
    ((Ends.modService (f := fun v => { v with mode := .loc }) _ rfl).trans (Ends.offer ..)))

theorem examineSlot_ends (i : ServiceIx) (t : Stamp) (s : State) : Ends (· = i) s (examineSlot i t s).2 := by
  unfold examineSlot
  dsimp only
  split
  · exact Ends.refl s
  next p _ =>
    have hresolve := resolveSlot_ends i (s.service i).current p s
    split
    · split
      · exact leaveSlot_ends ..
      · split
        next hr =>
          rw [hr] at hresolve
          exact hresolve.trans (leaveSlot_ends ..)
        next hr =>
          rw [hr] at hresolve
          exact hresolve.trans (startSlot_ends ..)
    · exact Ends.refl s

theorem localStartAt_ends (i : ServiceIx) (t : Stamp) (s : State) : Ends (· = i) s (localStartAt i t s).2 := by
  have hfirst := examineSlot_ends i t s
  cases h : examineSlot i t s with
  | mk exam u =>
    rw [h] at hfirst
    cases exam with
    | waits => rw [localStartAt_waits h]; exact hfirst
    | started => rw [localStartAt_started h]; exact hfirst
    | missed => rw [localStartAt_missed h]; exact hfirst.trans (examineSlot_ends ..)

theorem breakReturnAt_ends (i : ServiceIx) (t : Stamp) (s : State) : Ends (· = i) s (breakReturnAt i t s).2 := by
  unfold breakReturnAt
  split
  · exact Ends.refl s
  · split
    · exact Ends.refl s
    · split
      · exact leaveBreak_ends ..
      · exact Ends.refl s

theorem supersede_ends (i : ServiceIx) (t : Stamp) (evs : List EventId) (s : State) :
    Ends (· = i) s (supersede i t evs s) := by
  induction evs generalizing s with
  | nil => exact Ends.refl s
  | cons ev evs ih => exact (leaveBreak_ends i ev _ s).trans (ih _)

theorem modEntry_ends (i : ServiceIx) (ev : EventId) (f : BreakEntry → BreakEntry) (s : State) :
    Ends (· = i) s (s.modEntry i ev f) := Ends.modService s rfl

theorem resolveEntry_ends (i : ServiceIx) (e : BreakEntry) (s : State) : Ends (· = i) s (resolveEntry i e s).2 := by
  unfold resolveEntry
  split
  · exact Ends.refl s
  next b _ =>
    have hattach := attach_ends (· = i) b.source (.brk i e.event) s
    split
    next h =>
      rw [h] at hattach
      exact hattach.trans (modEntry_ends ..)
    next h =>
      rw [h] at hattach
      exact hattach

theorem settleSource_ends (i : ServiceIx) (e : BreakEntry) (s : State) : Ends (· = i) s (settleSource i e s).2 := by
  unfold settleSource
  split
  · exact Ends.refl s
  · exact (Ends.disarm _ _ s).trans (resolveEntry_ends ..)

theorem startBreak_ends (i : ServiceIx) (ev : EventId) (t : Stamp) (s : State) : Ends (· = i) s (startBreak i ev t s) := by
  have hstart : Ends (· = i) s (((disarm (.brk i ev) (endActiveBreak i .chained t s)).modEntry i ev
      (BreakEntry.started t)).modService i fun v => { v with mode := .brk }) :=
    ((endActiveBreak_ends ..).trans (Ends.disarm ..)).trans ((modEntry_ends ..).trans (Ends.modService _ rfl))
  unfold startBreak offerStarted
  dsimp only
  split
  · exact hstart.trans (Ends.offer ..)
  · exact hstart

theorem examineCandidate_ends (i : ServiceIx) (e : BreakEntry) (t : Stamp) (s : State) :
    Ends (· = i) s (examineCandidate i e t s).2 := by
  have hsettle := settleSource_ends i e s
  unfold examineCandidate
  split
  · exact leaveBreak_ends ..
  · split
    next h =>
      rw [h] at hsettle
      exact hsettle.trans (leaveBreak_ends ..)
    next h =>
      rw [h] at hsettle
      split
      · exact hsettle.trans (leaveBreak_ends ..)
      · exact hsettle.trans (startBreak_ends ..)

theorem breakStartAt_ends (i : ServiceIx) (t : Stamp) (s : State) : Ends (· = i) s (breakStartAt i t s).2 := by
  unfold breakStartAt
  dsimp only
  split
  · exact Ends.refl s
  · split
    · exact (supersede_ends ..).trans (examineCandidate_ends ..)
    · exact supersede_ends ..

theorem consult_ends (i : ServiceIx) (t : Stamp) (s : State) : Ends (· = i) s (consult i t s).2 :=
  ((localEndAt_ends ..).trans (localStartAt_ends ..)).trans ((breakReturnAt_ends ..).trans (breakStartAt_ends ..))

theorem Ends.mode {P : ServiceIx → Prop} {s t : State} (h : Ends P s t) : t.mode = s.mode :=
  congrArg ModeControl.mode h.stands.modeControl

/-! ### The steps in order (R97) -/

theorem consult_of_steps {i : ServiceIx} {t : Stamp} {s u v w x : State} {a b c d : Bool}
    (h1 : localEndAt i t s = (a, u)) (h2 : localStartAt i t u = (b, v)) (h3 : breakReturnAt i t v = (c, w))
    (h4 : breakStartAt i t w = (d, x)) : consult i t s = (a || b || c || d, x) := by
  simp only [consult, localSteps, h1, h2, h3, h4]

/-- What a packet is decided after the Schedule Unit was consulted: in ACTIVE by the state it left (R95). -/
def decidedAfter (r : ReadInfo) (slot : List Byte) (s t : State) : Verdict × State :=
  if s.mode = .active then decidePacket r slot t else (plainVerdict .pass, t)

theorem classifyPacket_lead {r : ReadInfo} {slot : List Byte} {s : State}
    (hl : (s.service r.service).leadStart slot = true) (hm : s.mode ≠ .passive) :
    classifyPacket r slot s = ((consult r.service (slotStamp slot) s).1,
      decidedAfter r slot s (consult r.service (slotStamp slot) s).2) := by
  have hconsult : ((s.service r.service).leadStart slot && s.mode != .passive) = true := by
    rw [hl, Bool.true_and]
    exact bne_iff_ne.mpr hm
  have hmode := (consult_ends r.service (slotStamp slot) s).mode
  simp only [classifyPacket, hconsult, if_true, decidedAfter]
  generalize consult r.service (slotStamp slot) s = c at hmode ⊢
  rw [hmode]
  by_cases hactive : s.mode = .active
  · rw [if_pos (beq_iff_eq.mpr hactive), if_pos hactive]
  · rw [if_neg (mt beq_iff_eq.mp hactive), if_neg hactive]

theorem classify_lead {x : EntryIx} {e : RttEntry} {i : ServiceIx} {slot : List Byte} {s : State}
    (hw : (s.service i).window ≠ none) (he : e.stale = false) (hg : goodSync slot = true)
    (hl : (s.service i).leadStart slot = true) (hm : s.mode ≠ .passive) :
    classify x e i slot s = enterRewriteOrder x i e slot (consult i (slotStamp slot) s).1
      (decidedAfter (e.readInfo i) slot s (consult i (slotStamp slot) s).2).1
      (decidedAfter (e.readInfo i) slot s (consult i (slotStamp slot) s).2).2 := by
  rw [classify_live hw he, classifySlot_goodSync hg, classifyPacket_lead (r := e.readInfo i) hl hm]
  rfl

/-! ### Entries that wait (R99) -/

/-- An entry waits at a stamp: it is not ACTIVE, and its splice stamp is later. -/
def BreakEntry.Waits (t : Stamp) (y : BreakEntry) : Prop := y.state ≠ .active ∧ later y.splice t = true

theorem activeHead_of_inactive {v : Service} (h : ∀ y ∈ v.schedule, y.state ≠ .active) : v.activeHead = none := by
  unfold Service.activeHead
  split
  next e l he =>
    have hne := h e (he ▸ List.mem_cons_self)
    exact if_neg (mt isActive_iff.mp hne)
  next => rfl

theorem dueEvents_of_waits {v : Service} {t : Stamp} (h : ∀ y ∈ v.schedule, y.Waits t) : v.dueEvents t = [] := by
  have hfilter : v.schedule.filter (BreakEntry.isDue t) = [] := by
    refine List.filter_eq_nil_iff.mpr fun y hy => ?_
    simp [BreakEntry.isDue, atOrBefore, (h y hy).2]
  rw [Service.dueEvents, hfilter, List.map_nil]

/-- The break's steps with no ACTIVE head and every entry waiting. -/
theorem breakSteps_of_waits {i : ServiceIx} {t : Stamp} {s : State} (h : ∀ y ∈ (s.service i).schedule, y.Waits t) :
    breakReturnAt i t s = (false, s) ∧ breakStartAt i t s = (false, s) := by
  have hactive : (s.service i).activeHead = none := activeHead_of_inactive fun y hy => (h y hy).1
  refine ⟨breakReturnAt_stays fun e r he => ?_, breakStartAt_none (dueEvents_of_waits h)⟩
  rw [hactive] at he
  exact absurd he (Option.some_ne_none e).symm

/-- The local steps with the current slot EMPTY. -/
theorem localSteps_of_empty {i : ServiceIx} {t : Stamp} {s : State}
    (h : (s.service i).slot (s.service i).current = none) :
    localEndAt i t s = (false, s) ∧ localStartAt i t s = (false, s) := by
  have hnone : ∀ p, (s.service i).slot (s.service i).current ≠ some p := fun p hp => by
    rw [h] at hp
    exact absurd hp (Option.some_ne_none p).symm
  exact ⟨localEndAt_runsOn fun p hp => absurd hp (hnone p),
    localStartAt_waits (examineSlot_waits fun p hp => absurd hp (hnone p))⟩

/-! ### In BYPASS (R103) -/

/-- In BYPASS the current slot waits or is MISSED. -/
theorem examineSlot_bypass {i : ServiceIx} (t : Stamp) {s : State} (hm : s.mode = .bypass) :
    examineSlot i t s = (.waits, s) ∨ ∃ l, examineSlot i t s = (.missed, leaveSlot i l (.missed .bypass t) s) := by
  cases hp : (s.service i).slot (s.service i).current with
  | none => exact .inl (examineSlot_waits fun p h => by rw [hp] at h; exact absurd h (Option.some_ne_none p).symm)
  | some p =>
    by_cases hdue : p.isDue t = true
    · have hmissed : slotMissedBefore (s.service i) p t s = some .bypass := by
        rw [slotMissedBefore, hm]
        rfl
      exact .inr ⟨_, examineSlot_missed ⟨rfl, hp, hdue⟩ hmissed⟩
    · exact .inl (by simp only [examineSlot, hp, hdue, Bool.false_eq_true, if_false])

/-- In BYPASS both slots are examined, and none starts. -/
theorem localStartAt_bypass {i : ServiceIx} (t : Stamp) {s : State} (hm : s.mode = .bypass) :
    localStartAt i t s = (false, (examineSlot i t (examineSlot i t s).2).2) := by
  obtain h | ⟨l, h⟩ := examineSlot_bypass (i := i) t hm
  · rw [localStartAt_waits h, h, h]
  · have hmode : (leaveSlot i l (.missed .bypass t) s).mode = .bypass := (leaveSlot_ends ..).mode.trans hm
    rw [localStartAt_missed h]
    obtain h' | ⟨_, h'⟩ := examineSlot_bypass (i := i) t hmode <;> rw [h, h'] <;> rfl

theorem examineSlot_bypass_schedule {i : ServiceIx} (t : Stamp) {s : State} (hm : s.mode = .bypass) :
    ((examineSlot i t s).2.service i).schedule = (s.service i).schedule := by
  obtain h | ⟨l, h⟩ := examineSlot_bypass (i := i) t hm
  · rw [h]
  · rw [h]
    cases hp : (s.service i).slot l with
    | none => rw [leaveSlot_of_none hp]
    | some p => rw [leaveSlot_service hp, afterSlot_schedule]

/-- In BYPASS the last due entry is MISSED BYPASS, those before it SUPERSEDED. -/
theorem breakStartAt_bypass {i : ServiceIx} (t : Stamp) {s : State} (hm : s.mode = .bypass) :
    breakStartAt i t s = (false, ((s.service i).dueEvents t).getLast?.elim
      (supersede i t ((s.service i).dueEvents t).dropLast s)
      fun ev => leaveBreak i ev (.missed .bypass t) (supersede i t ((s.service i).dueEvents t).dropLast s)) := by
  obtain h | ⟨evs, ev, h⟩ := List.eq_nil_or_concat' ((s.service i).dueEvents t)
  · rw [breakStartAt_none h, h]
    rfl
  · rw [breakStartAt_last h, h, List.getLast?_concat, List.dropLast_concat, Option.elim_some]
    have hmode : (supersede i t evs s).mode = .bypass := (supersede_ends ..).mode.trans hm
    cases he : ((supersede i t evs s).service i).findEntry ev with
    | none => rw [Option.elim_none, leaveBreak_of_none he]
    | some e =>
      have hmissed : missedBefore i e t (supersede i t evs s) = some .bypass := by
        rw [missedBefore, hmode]
        rfl
      rw [Option.elim_some, examineCandidate_missed hmissed, findEntry_event he]

/-- The Schedule Unit consulted in BYPASS with nothing of the service on the air. -/
theorem consult_bypass {i : ServiceIx} (t : Stamp) {s : State} (hm : s.mode = .bypass)
    (hr : (s.service i).running = none) (ha : (s.service i).activeHead = none) :
    consult i t s = (false, (((s.service i).dueEvents t).getLast?.elim
      (supersede i t ((s.service i).dueEvents t).dropLast (examineSlot i t (examineSlot i t s).2).2)
      fun ev => leaveBreak i ev (.missed .bypass t)
        (supersede i t ((s.service i).dueEvents t).dropLast (examineSlot i t (examineSlot i t s).2).2))) := by
  have hmode : (examineSlot i t s).2.mode = .bypass := (examineSlot_ends ..).mode.trans hm
  have hmode' : (examineSlot i t (examineSlot i t s).2).2.mode = .bypass := (examineSlot_ends ..).mode.trans hmode
  have hschedule : ((examineSlot i t (examineSlot i t s).2).2.service i).schedule = (s.service i).schedule :=
    (examineSlot_bypass_schedule t hmode).trans (examineSlot_bypass_schedule t hm)
  have hback : breakReturnAt i t (examineSlot i t (examineSlot i t s).2).2
      = (false, (examineSlot i t (examineSlot i t s).2).2) := by
    refine breakReturnAt_stays fun e r he => ?_
    rw [activeHead_congr hschedule, ha] at he
    exact absurd he (Option.some_ne_none e).symm
  rw [consult_of_steps (localEndAt_of_none hr) (localStartAt_bypass t hm) hback (breakStartAt_bypass t hmode')]
  simp only [Service.dueEvents, hschedule, Bool.or_self]

end Sys2Proof.Machine
end

