-- ==== Sys2Proof/Proofs/LeadPackets.lean ====
section
/-! PROOF. What starts and ends at a lead start packet in ACTIVE, and what its entry records (R98, R102, R121, R123). -/

namespace Sys2Proof.Machine

/-! ### The missed causes (R100, R122) -/

theorem slotMissedBefore_eq (v : Service) (p : LocalProg) (t : Stamp) (s : State) :
    slotMissedBefore v p t s = if s.mode = .bypass then some .bypass
      else if v.held ≠ none then some .held
      else if later t (p.start + msTicks v.lateWindow) = true ∨ atOrAfter t p.stop = true then some .late
      else none := by
  simp only [slotMissedBefore, beq_iff_eq, Option.isSome_iff_ne_none, Bool.or_eq_true]

theorem slotMissedBefore_bypass {v : Service} {p : LocalProg} {t : Stamp} {s : State} (hm : s.mode = .bypass) :
    slotMissedBefore v p t s = some .bypass := by
  rw [slotMissedBefore_eq, if_pos hm]

theorem missedBefore_eq (i : ServiceIx) (e : BreakEntry) (t : Stamp) (s : State) :
    missedBefore i e t s = if s.mode = .bypass then some .bypass
      else if (s.service i).held ≠ none then some .held
      else if (s.service i).mode = .loc then some .loc
      else if s.preempting i = true then some .alert
      else if later t (e.splice + msTicks (s.service i).lateWindow) = true then some .late
      else if e.returnsBy t = true then some .zeroLength
      else none := by
  simp only [missedBefore, beq_iff_eq, Option.isSome_iff_ne_none]

theorem slotMissedBefore_none {v : Service} {p : LocalProg} {t : Stamp} {s : State} (hm : s.mode ≠ .bypass)
    (hheld : v.held = none) (hlate : later t (p.start + msTicks v.lateWindow) = false)
    (hstop : atOrAfter t p.stop = false) : slotMissedBefore v p t s = none := by
  have hlive : ¬(later t (p.start + msTicks v.lateWindow) = true ∨ atOrAfter t p.stop = true) := by
    rw [hlate, hstop]
    decide
  rw [slotMissedBefore_eq, if_neg hm, if_neg (not_not_intro hheld), if_neg hlive]

theorem missedBefore_none {i : ServiceIx} {e : BreakEntry} {t : Stamp} {s : State} (hm : s.mode ≠ .bypass)
    (hheld : (s.service i).held = none) (hmode : (s.service i).mode ≠ .loc) (hpre : s.preempting i = false)
    (hlate : later t (e.splice + msTicks (s.service i).lateWindow) = false) (hret : e.returnsBy t = false) :
    missedBefore i e t s = none := by
  rw [missedBefore_eq, if_neg hm, if_neg (not_not_intro hheld), if_neg hmode, if_neg (by rw [hpre]; decide),
    if_neg (by rw [hlate]; decide), if_neg (by rw [hret]; decide)]

/-! ### What the placing of an entry leaves alone (R33) -/

theorem enterRewriteOrder_frame {α : Type} (g : State → α) (hg : ∀ r t, g (handRead r t) = g t) (x : EntryIx)
    (i : ServiceIx) (e : RttEntry) (slot : List Byte) (boundary : Bool) (d : Verdict) (s : State) :
    g (enterRewriteOrder x i e slot boundary d s) = g { s with
      rtt := vset s.rtt x (some (e.classified slot boundary d (takenSet (s.service i).comps) (some (vget s.sequence i))))
      services := vset s.services i { s.service i with classified := (s.service i).classified + 1 }
      sequence := vset s.sequence i (vget s.sequence i + 1)
      rewriteOrder := vset s.rewriteOrder i (vget s.rewriteOrder i ++ [x]) } := by
  cases hr : d.reserved with
  | none =>
    rw [enterRewriteOrder_plain hr, RttEntry.classified, hr]
    rfl
  | some w =>
    rw [enterRewriteOrder_fetch hr, hg, RttEntry.classified, hr]
    rfl

theorem enterRewriteOrder_services (x : EntryIx) (i : ServiceIx) (e : RttEntry) (slot : List Byte) (boundary : Bool)
    (d : Verdict) (s : State) : (enterRewriteOrder x i e slot boundary d s).services
      = vset s.services i { s.service i with classified := (s.service i).classified + 1 } :=
  enterRewriteOrder_frame State.services handRead_services ..

theorem enterRewriteOrder_service_self (x : EntryIx) (i : ServiceIx) (e : RttEntry) (slot : List Byte)
    (boundary : Bool) (d : Verdict) (s : State) : (enterRewriteOrder x i e slot boundary d s).service i
      = { s.service i with classified := (s.service i).classified + 1 } := by
  rw [State.service, enterRewriteOrder_services, vget_vset_self]

theorem enterRewriteOrder_service_ne (x : EntryIx) {i j : ServiceIx} (e : RttEntry) (slot : List Byte)
    (boundary : Bool) (d : Verdict) (s : State) (h : j ≠ i) :
    (enterRewriteOrder x i e slot boundary d s).service j = s.service j := by
  rw [State.service, enterRewriteOrder_services, vget_vset_ne _ _ h]
  rfl

theorem enterRewriteOrder_sources (x : EntryIx) (i : ServiceIx) (e : RttEntry) (slot : List Byte) (boundary : Bool)
    (d : Verdict) (s : State) : (enterRewriteOrder x i e slot boundary d s).sources = s.sources :=
  enterRewriteOrder_frame State.sources handRead_sources ..

theorem enterRewriteOrder_bank (x : EntryIx) (i : ServiceIx) (e : RttEntry) (slot : List Byte) (boundary : Bool)
    (d : Verdict) (s : State) : (enterRewriteOrder x i e slot boundary d s).bank = s.bank :=
  enterRewriteOrder_frame State.bank handRead_bank ..

theorem enterRewriteOrder_sameAlerts (x : EntryIx) (i : ServiceIx) (e : RttEntry) (slot : List Byte) (boundary : Bool)
    (d : Verdict) (s : State) : SameAlerts s (enterRewriteOrder x i e slot boundary d s) :=
  ⟨enterRewriteOrder_frame State.groups handRead_groups .., enterRewriteOrder_frame State.alerts handRead_alerts ..,
    enterRewriteOrder_frame State.activations handRead_activations ..,
    enterRewriteOrder_frame State.link handRead_link ..⟩

theorem enterRewriteOrder_sameFixed (x : EntryIx) (i : ServiceIx) (e : RttEntry) (slot : List Byte) (boundary : Bool)
    (d : Verdict) (s : State) : SameFixed s (enterRewriteOrder x i e slot boundary d s) :=
  ⟨enterRewriteOrder_frame State.pending handRead_pending ..,
    enterRewriteOrder_frame State.freeIndex handRead_freeIndex ..,
    enterRewriteOrder_frame State.straps handRead_straps .., enterRewriteOrder_frame State.roles handRead_roles ..⟩

theorem enterRewriteOrder_entry (x : EntryIx) (i : ServiceIx) (e : RttEntry) (slot : List Byte) (boundary : Bool)
    (d : Verdict) (s : State) : (enterRewriteOrder x i e slot boundary d s).entry x
      = some (e.classified slot boundary d (takenSet (s.service i).comps) (some (vget s.sequence i))) := by
  rw [State.entry, enterRewriteOrder_frame State.rtt handRead_rtt, vget_vset_self]

/-! ### A break starts (R102) -/

theorem mem_singleton_dueEvents {v : Service} {t : Stamp} {b : BreakEntry} (hs : v.schedule = [b])
    (hb : b.state ≠ .active) (hl : later b.splice t = false) : v.dueEvents t = [b.event] := by
  have hdue : BreakEntry.isDue t b = true := by simp [BreakEntry.isDue, BreakEntry.isActive, atOrBefore, hb, hl]
  rw [Service.dueEvents, hs, List.filter_cons_of_pos hdue]
  rfl

/-- The state in which a READY break has started, before its report. -/
def State.breakStarted (s : State) (i : ServiceIx) (ev : EventId) (t : Stamp) : State :=
  ((disarm (.brk i ev) s).modEntry i ev (BreakEntry.started t)).modService i fun v => { v with mode := .brk }

theorem breakStarted_service {i : ServiceIx} {b : BreakEntry} {t : Stamp} {s : State}
    (hs : (s.service i).schedule = [b]) :
    (s.breakStarted i b.event t).service i = { s.service i with schedule := [b.started t], mode := .brk } := by
  have hmap : mapEntry b.event (BreakEntry.started t) (s.service i).schedule = [b.started t] := by
    rw [hs, mapEntry, List.map_singleton, if_pos (beq_iff_eq.mpr rfl)]
  rw [State.breakStarted, modService_service_self, State.modEntry, modService_service_self, disarm_service, hmap]

/-- A service on which a READY break is the only entry, due, with a source that can give a slot. -/
structure State.Due (s : State) (i : ServiceIx) (t : Stamp) (b : BreakEntry) (d : Binding) : Prop where
  mode : s.mode = .active
  schedule : (s.service i).schedule = [b]
  ready : b.state = .ready
  binding : b.binding = some d
  due : later b.splice t = false
  candidate : missedBefore i b t s = none
  full : (s.source d.source).isEmpty = false
  slotA : (s.service i).slotA = none
  slotB : (s.service i).slotB = none

theorem consult_startsBreak {i : ServiceIx} {t : Stamp} {b : BreakEntry} {d : Binding} {s : State} (h : s.Due i t b d) :
    ∃ r : Report, consult i t s = (true, offer r (s.breakStarted i b.event t)) := by
  have hinactive : b.state ≠ .active := by rw [h.ready]; decide
  have hhead : (s.service i).activeHead = none := activeHead_of_inactive fun y hy => by
    rw [h.schedule, List.mem_singleton] at hy
    exact hy ▸ hinactive
  have hnohead {P : BreakEntry → Prop} : ∀ x, (s.service i).activeHead = some x → P x := fun x hx => by
    rw [hhead] at hx
    exact absurd hx (Option.some_ne_none x).symm
  have hfind : (s.service i).findEntry b.event = some b := by
    rw [Service.findEntry, h.schedule, List.find?_cons_of_pos (by simp)]
  obtain ⟨hend, hstart⟩ := localSteps_of_empty (t := t) (slot_of_free h.slotA h.slotB (s.service i).current)
  have hback : breakReturnAt i t s = (false, s) := breakReturnAt_stays fun e r he =>
    hnohead (P := fun e => e.ret = some r → atOrAfter t r.stamp = false) e he
  have hbreak := startBreak_bound (t := t) hfind h.binding hnohead rfl
  rw [endActiveBreak_none hhead] at hbreak
  have hcandidate := breakStartAt_last (evs := []) (mem_singleton_dueEvents h.schedule hinactive h.due)
  rw [supersede, List.foldl_nil, hfind, Option.elim_some, examineCandidate_settled h.candidate (settleSource_ready h.ready),
    entryEmpty_bound hfind h.binding, h.full, if_neg Bool.false_ne_true, hbreak] at hcandidate
  exact ⟨_, consult_of_steps hend hstart hback hcandidate⟩

theorem reserve_of_full {k : SourceIx} {s : State} (hd : (s.source k).defined = true) (he : (s.source k).isEmpty = false) :
    ∃ a f, reserve k s = (some a, s.modSource k f) := by
  obtain ⟨⟨m, w⟩, hc⟩ := Option.isSome_iff_exists.mp hd
  cases m with
  | loop => exact ⟨_, _, reserve_loop hc⟩
  | stream =>
    have hfill : (s.source k).fill ≠ 0 := by simpa [Source.isEmpty, Source.isStream, hc] using he
    exact ⟨_, _, reserve_stream hc hfill⟩

theorem modEntry_self {i : ServiceIx} {ev : EventId} {e : BreakEntry} {f : BreakEntry → BreakEntry} {s : State}
    (hs : (s.service i).schedule = [e]) (hf : f e = e) : s.modEntry i ev f = s := by
  have hmap : mapEntry ev f (s.service i).schedule = (s.service i).schedule := by
    rw [hs, mapEntry, List.map_singleton, hf, ite_self]
  exact modService_self (congrArg (fun l => { s.service i with schedule := l }) hmap)

theorem modSource_id (s : State) (k : SourceIx) : s.modSource k id = s :=
  congrArg (fun v => { s with sources := v }) (vset_vget s.sources k)

/-- The first packet of a break that has just started is drawn for it, or passes outside its replace set. -/
theorem decidePacket_firstOfBreak {r : ReadInfo} {slot : List Byte} {n : Nat} {c : Component} {e : BreakEntry}
    {d : Binding} {s : State} (hi : compIndex (packetPid slot) (s.service r.service).comps = some n)
    (hc : (s.service r.service).comp n = some c) (ha : c.alert = .none) (hm : (s.service r.service).mode = .brk)
    (hs : (s.service r.service).schedule = [e]) (he : e.state = .active) (hb : e.binding = some d)
    (hu : e.underruns = 0) (hd : (s.source d.source).defined = true) (hf : (s.source d.source).isEmpty = false) :
    ∃ (o : Verdict) (f : Source → Source), decidePacket r slot s = (o, s.modSource d.source f)
      ∧ o.decision = (if d.replaceSet.getLsbD n then .substituteBreak else .pass)
      ∧ (d.replaceSet.getLsbD n = true → o.insRef = some e.ref) := by
  have hhead : (s.service r.service).activeHead = some e := by
    simp only [Service.activeHead, hs, isActive_iff.mpr he, if_true]
  have hrule : decidePacket r slot s
      = if d.replaceSet.getLsbD n then drawBreak r e d s else (plainVerdict .pass, s) := by
    rw [decidePacket_managed hi, decideManaged_scheduled hc (by simp [ha]) (by simp [ha]),
      decideScheduled_break hm hhead hb]
  by_cases hin : d.replaceSet.getLsbD n = true
  · obtain ⟨a, f, hreserve⟩ := reserve_of_full hd hf
    have hself : ((s.modSource d.source f).modEntry r.service e.event fun x => { x with underruns := 0 })
        = s.modSource d.source f :=
      modEntry_self (e := e) (by rw [modSource_service, hs]) (by rw [← hu])
    rw [if_pos hin, drawBreak_drawn hreserve, hself] at hrule
    exact ⟨_, f, hrule, (if_pos hin).symm, fun _ => rfl⟩
  · rw [if_neg hin] at hrule
    exact ⟨_, id, hrule.trans (congrArg (Prod.mk _) (modSource_id s d.source).symm), (if_neg hin).symm,
      fun h => absurd h hin⟩

/-! ### What ends (R98, R121) -/

theorem consult_returnsBreak {i : ServiceIx} {t : Stamp} {b : BreakEntry} {more : List BreakEntry} {r : ReturnStamp}
    {s : State} (ha : (s.service i).slotA = none) (hb : (s.service i).slotB = none)
    (hs : (s.service i).schedule = b :: more) (hactive : b.state = .active) (hr : b.ret = some r)
    (ht : atOrAfter t r.stamp = true) (hmore : ∀ y ∈ more, y.Waits t) :
    consult i t s = (true, leaveBreak i b.event (.ended r.origin.cause t) s)
      ∧ ((leaveBreak i b.event (.ended r.origin.cause t) s).service i).mode = .network
      ∧ ((leaveBreak i b.event (.ended r.origin.cause t) s).service i).comps = (s.service i).comps := by
  have hhead : (s.service i).activeHead = some b := by
    simp only [Service.activeHead, hs, isActive_iff.mpr hactive, if_true]
  have hservice := leaveBreak_service (findEntry_activeHead hhead) (.ended r.origin.cause t)
  obtain ⟨hend, hstart⟩ := localSteps_of_empty (t := t) (slot_of_free ha hb (s.service i).current)
  have hwaits : ∀ y ∈ ((leaveBreak i b.event (.ended r.origin.cause t) s).service i).schedule, y.Waits t := by
    intro y hy
    rw [hservice, Service.afterBreak, hs, List.filter_cons_of_neg (by simp)] at hy
    exact hmore y (List.mem_of_mem_filter hy)
  refine ⟨consult_of_steps hend hstart (breakReturnAt_returned hhead hr ht) (breakSteps_of_waits hwaits).2, ?_, ?_⟩
  · rw [hservice]
    exact if_pos (isActive_iff.mpr hactive)
  · rw [hservice]
    rfl

theorem setSlot_comps (v : Service) (l : SlotLetter) (p : Option LocalProg) : (v.setSlot l p).comps = v.comps := by
  cases l <;> rfl

theorem consult_endsLocal {i : ServiceIx} {t : Stamp} {l : SlotLetter} {p : LocalProg} {s : State}
    (hc : (s.service i).current = l) (hp : (s.service i).slot l = some p) (hr : p.state = .running)
    (ho : (s.service i).slot (otherLetter l) = none) (ht : atOrAfter t p.stop = true)
    (hw : ∀ y ∈ (s.service i).schedule, y.Waits t) :
    consult i t s = (true, leaveSlot i l (.ended .endStamp t) s)
      ∧ ((leaveSlot i l (.ended .endStamp t) s).service i).mode = .network
      ∧ ((leaveSlot i l (.ended .endStamp t) s).service i).comps = (s.service i).comps := by
  have hservice := leaveSlot_service hp (.ended .endStamp t)
  have hcurrent : ((leaveSlot i l (.ended .endStamp t) s).service i).slot
      ((leaveSlot i l (.ended .endStamp t) s).service i).current = none := by
    have hpointer : ((s.service i).afterSlot l p).current = otherLetter l := if_pos (beq_iff_eq.mpr hc)
    rw [hservice, hpointer, afterSlot_slot_other, ho]
  have hwaits : ∀ y ∈ ((leaveSlot i l (.ended .endStamp t) s).service i).schedule, y.Waits t := by
    rw [hservice, afterSlot_schedule]
    exact hw
  obtain ⟨hback, hstart⟩ := breakSteps_of_waits hwaits
  refine ⟨consult_of_steps (localEndAt_ended (running_of_current hc hp hr) ht) (localSteps_of_empty hcurrent).2 hback
    hstart, ?_, ?_⟩
  · rw [hservice]
    exact if_pos (isRunning_iff.mpr hr)
  · rw [hservice]
    exact setSlot_comps ..

/-! ### A programme starts (R123) -/

/-- A programme that starts at a packet (R123). -/
def LocalProg.started (p : LocalProg) (t : Stamp) : LocalProg :=
  { p with state := .running, actualStart := some t, underruns := 0, pcrOffset := none }

/-- The state in which a programme runs, before its report. -/
def State.localStarted (s : State) (i : ServiceIx) (l : SlotLetter) (p : LocalProg) (t : Stamp) : State :=
  (disarm (.loc i l) s).modService i fun w => { w.setSlot l (some (p.started t)) with mode := .loc }

theorem localStarted_service (s : State) (i : ServiceIx) (l : SlotLetter) (p : LocalProg) (t : Stamp) :
    (s.localStarted i l p t).service i = { (s.service i).setSlot l (some (p.started t)) with mode := .loc } := by
  rw [State.localStarted, modService_service_self, disarm_service]

theorem startSlot_unopposed {i : ServiceIx} {l : SlotLetter} {p : LocalProg} {t : Stamp} {s : State}
    (hp : (s.service i).slot l = some p) (hh : (s.service i).activeHead = none) :
    startSlot i l p t s = offer (slotStartedReport i l p t s) (s.localStarted i l p t) := by
  have hstate : (((disarm (.loc i l) s).modSlot i l fun x =>
      { x with state := .running, actualStart := some t, underruns := 0, pcrOffset := none }).modService i
      fun v => { v with mode := .loc }) = s.localStarted i l p t := by
    rw [State.modSlot, modService_modService]
    refine modService_congr ?_
    rw [disarm_service, hp]
    rfl
  simp only [startSlot, endActiveBreak_none hh, hstate]
  rfl

theorem consult_startsLocal {i : ServiceIx} {t : Stamp} {l : SlotLetter} {p : LocalProg} {s : State}
    (hc : (s.service i).current = l) (hp : (s.service i).slot l = some p) (hr : p.state = .ready)
    (hd : later p.start t = false) (hm : slotMissedBefore (s.service i) p t s = none)
    (hw : ∀ y ∈ (s.service i).schedule, y.Waits t) :
    consult i t s = (true, offer (slotStartedReport i l p t s) (s.localStarted i l p t)) := by
  have hidle : p.state ≠ .running := by rw [hr]; decide
  have hend : localEndAt i t s = (false, s) := localEndAt_runsOn fun q hq hrunning => by
    rw [hc, hp, Option.some.injEq] at hq
    exact absurd (hq ▸ hrunning) hidle
  have hdue : s.DueSlot i t l p := ⟨hc, hp, isDue_iff.mpr ⟨hidle, hd⟩⟩
  have hhead : (s.service i).activeHead = none := activeHead_of_inactive fun y hy => (hw y hy).1
  have hstart := localStartAt_started (examineSlot_started hdue hm (resolveSlot_ready hr))
  rw [startSlot_unopposed hp hhead] at hstart
  have hwaits : ∀ y ∈ ((offer (slotStartedReport i l p t s) (s.localStarted i l p t)).service i).schedule, y.Waits t := by
    rw [offer_service, localStarted_service]
    simpa only [setSlot_schedule] using hw
  obtain ⟨hback, hbreak⟩ := breakSteps_of_waits hwaits
  exact consult_of_steps hend hstart hback hbreak

theorem modSlot_self {i : ServiceIx} {l : SlotLetter} {p : LocalProg} {f : LocalProg → LocalProg} {s : State}
    (hp : (s.service i).slot l = some p) (hf : f p = p) : s.modSlot i l f = s := by
  refine modService_self ?_
  rw [hp, Option.map_some, hf, ← hp]
  cases l <;> rfl

/-- The first packet of a programme that has just started is drawn for it. -/
theorem decidePacket_firstOfLocal {r : ReadInfo} {slot : List Byte} {n : Nat} {c : Component} {l : SlotLetter}
    {p : LocalProg} {w : Window} {s : State} (hi : compIndex (packetPid slot) (s.service r.service).comps = some n)
    (hc : (s.service r.service).comp n = some c) (ha : c.alert = .none) (hm : (s.service r.service).mode = .loc)
    (hp : (s.service r.service).running = some (l, p)) (hu : p.underruns = 0)
    (hs : (s.source p.source).config = some { mode := .stream, window := w }) (hf : (s.source p.source).fill ≠ 0) :
    decidePacket r slot s = (localVerdict l p (w.slotAddr (s.source p.source).readIx),
      s.modSource p.source (Source.taken w.slots)) := by
  have hself : ((s.modSource p.source (Source.taken w.slots)).modSlot r.service l fun x => { x with underruns := 0 })
      = s.modSource p.source (Source.taken w.slots) :=
    modSlot_self (p := p) (by rw [modSource_service]; exact (slot_running hp).1) (by rw [← hu])
  rw [decidePacket_managed hi, decideManaged_scheduled hc (by simp [ha]) (by simp [ha]), decideScheduled_local hm hp,
    drawLocal_drawn (reserve_stream hs hf), hself]

end Sys2Proof.Machine
end

