-- ==== Sys2Proof/Proofs/LeadStartPacket.lean ====
section
/-! PROOF. The lead start packet (R95 to R103, R121 to R123). -/

namespace Sys2Proof.Machine

/-- The head that is ACTIVE after entries are changed by a function that keeps event IDs and states. -/
theorem activeHead_modEntry {i : ServiceIx} {ev : EventId} {f : BreakEntry → BreakEntry} {s : State} {x : BreakEntry}
    (hf : ∀ y, (f y).event = y.event ∧ (f y).state = y.state) (hx : ((s.modEntry i ev f).service i).activeHead = some x) :
    ∃ y, (s.service i).activeHead = some y ∧ y.event = x.event := by
  have hschedule : ((s.modEntry i ev f).service i).schedule = mapEntry ev f (s.service i).schedule := by
    rw [State.modEntry, modService_service_self]
  cases hs : (s.service i).schedule with
  | nil =>
    rw [hs] at hschedule
    rw [activeHead_of_nil hschedule] at hx
    exact absurd hx (Option.some_ne_none x).symm
  | cons y l =>
    rw [hs, mapEntry, List.map_cons] at hschedule
    have hkeeps : (if y.event == ev then f y else y).event = y.event
        ∧ (if y.event == ev then f y else y).state = y.state := by
      split
      · exact hf y
      · exact ⟨rfl, rfl⟩
    simp only [Service.activeHead, hschedule, BreakEntry.isActive, hkeeps.2] at hx
    simp only [Service.activeHead, hs, BreakEntry.isActive]
    by_cases hy : (y.state == .active) = true
    · rw [if_pos hy, Option.some.injEq] at hx
      exact ⟨y, if_pos hy, hx ▸ hkeeps.1.symm⟩
    · rw [if_neg hy] at hx
      exact absurd hx (Option.some_ne_none x).symm

/-- Settles O23, by the steps of the consultation and what each leaves. -/
theorem dueBreakStartsAtLeadStartPacket : Obligations.DueBreakStartsAtLeadStartPacket := by
  unfold Obligations.DueBreakStartsAtLeadStartPacket
  refine ⟨?packet, ?steps⟩
  case packet =>
    intro now data o rest x e i s h ho he hk hs slot at_ v u waits hw hgood hlead passing
    rw [exec_classification h ho he hk]
    refine ⟨fun hm => ?order, fun hm hact hrun => ?bypass, fun n c hm hi hc hca => ?active⟩
    case order =>
      have hpassive : u.mode ≠ .passive := fun hp => by
        obtain hm | hm := hm <;> exact absurd (hm.symm.trans hp) (by decide)
      rw [classify_lead (s := u) hw hs hgood hlead hpassive]
      rfl
    case bypass =>
      intro missLocal due superseded
      have hmiss {w : State} (hw : w.mode = .bypass) : missLocal w = (examineSlot i at_ w).2 := by
        cases hp : (w.service i).slot (w.service i).current with
        | none => simp only [missLocal, examineSlot, hp]
        | some p =>
          by_cases hdue : p.isDue at_ = true
          · have hwhen : (p.state != .running && !later p.start at_) = true := hdue
            rw [examineSlot_missed ⟨rfl, hp, hdue⟩ (slotMissedBefore_bypass hw)]
            simp only [missLocal, hp, hwhen, if_true]
          · have hwhen : ¬(p.state != .running && !later p.start at_) = true := hdue
            simp only [missLocal, examineSlot, hp, hdue, hwhen, Bool.false_eq_true, if_false]
      have hmissed : missLocal (missLocal u) = (examineSlot i at_ (examineSlot i at_ u).2).2 := by
        have hmode : (examineSlot i at_ u).2.mode = .bypass := (examineSlot_ends ..).mode.trans hm
        rw [hmiss (w := u) hm, hmiss hmode]
      have hdecided (t : State) : decidedAfter (e.readInfo i) slot u t = (plainVerdict .pass, t) :=
        if_neg fun hactive => absurd (hm.symm.trans hactive) (by decide)
      have hpassive : u.mode ≠ .passive := fun hp => absurd (hm.symm.trans hp) (by decide)
      rw [classify_lead (s := u) hw hs hgood hlead hpassive, consult_bypass (s := u) at_ hm hrun hact, ← hmissed, hdecided]
      refine congrArg (fun t => Host.Outcome.next (settle (enterRewriteOrder x i e slot false passing t))) ?_
      have hsuperseded : superseded = supersede i at_ due.dropLast (missLocal (missLocal u)) := rfl
      rw [hsuperseded]
      show due.getLast?.elim _ _ = _
      cases due.getLast? <;> rfl
    case active =>
      have hpassive : u.mode ≠ .passive := fun hp => absurd (hm.symm.trans hp) (by decide)
      have hnotBypass : u.mode ≠ .bypass := fun hp => absurd (hm.symm.trans hp) (by decide)
      have hplaced {b : Bool} {t t' : State} {o : Verdict} (hc : consult i at_ u = (b, t))
          (hd : decidePacket (e.readInfo i) slot t = (o, t')) :
          classify x e i slot u = enterRewriteOrder x i e slot b o t' := by
        have hdecided : decidedAfter (e.readInfo i) slot u t = (o, t') := (if_pos hm).trans hd
        rw [classify_lead (s := u) hw hs hgood hlead hpassive, hc, hdecided]
      refine ⟨fun b d hd hcalm hheld hmode hpre ha hb hsch hready hbind hfull hdef hdue hlate hret => ?starts,
        fun b more r ha hb hsch hactive hret ht hmore => ?returns, fun l p hcur hp hr ho ht hwait => ?endsLocal,
        fun l p win hcur hp hr hheld hd hlate hstop hwait hconf hfill => ?startsLocal⟩
      case starts =>
        intro started
        have hstarted : b.started at_ = started := by
          cases hdur : b.duration <;> cases hr : b.ret <;>
            simp only [BreakEntry.started, BreakEntry.startReturn, started, hdur, hr]
        have hcandidate : missedBefore i b at_ u = none :=
          missedBefore_none hnotBypass hheld (fun hloc => absurd (hmode.symm.trans hloc) (by decide)) hpre hlate hret
        obtain ⟨r, hcons⟩ := consult_startsBreak (s := u) (t := at_)
          ⟨hm, hsch, hready, hbind, hdue, hcandidate, hfull, ha, hb⟩
        obtain ⟨w, hwas⟩ : ∃ w, w = offer r (u.breakStarted i b.event at_) := ⟨_, rfl⟩
        rw [← hwas] at hcons
        have hservice : w.service i = { v with schedule := [started], mode := .brk } := by
          rw [hwas, offer_service, breakStarted_service (s := u) hsch, hstarted]
          rfl
        have hsources : w.sources = s.sources := by
          rw [hwas, offer_sources]
          rfl
        have hsource : w.source d.source = s.source d.source := congrArg (fun t => vget t d.source) hsources
        have hcomps : (w.service i).comps = v.comps := by rw [hservice]
        have hbreak : (w.service i).mode = .brk := by rw [hservice]
        have hschedule : (w.service i).schedule = [started] := by rw [hservice]
        obtain ⟨o, f, hdraw, hdecision, href⟩ := decidePacket_firstOfBreak (r := e.readInfo i) (s := w) (e := started)
          ((congrArg _ hcomps).trans hi) ((congrArg (fun cs : List Component => cs[n]?) hcomps).trans hc) hca
          hbreak hschedule rfl hbind rfl
          ((congrArg Source.defined hsource).trans hdef) ((congrArg Source.isEmpty hsource).trans hfull)
        have hcalmed : (w.modSource d.source f).deferred = [] := by
          rw [modSource_deferred, hwas, offer_deferred (s := u.breakStarted i b.event at_) r hcalm]
          exact hd
        refine ⟨enterRewriteOrder x i e slot true o (w.modSource d.source f), ?runs, ?mode, ?schedule, ?classified,
          ?bank, ⟨_, enterRewriteOrder_entry .., rfl, rfl, congrArg some hdecision, href⟩, ?services, ?sources, ?alerts,
          ?fixed⟩
        case runs => rw [hplaced hcons hdraw, settle_enterRewriteOrder hcalmed]
        case mode => rw [enterRewriteOrder_service_self, modSource_service, hservice]
        case schedule => rw [enterRewriteOrder_service_self, modSource_service, hservice]
        case classified => rw [enterRewriteOrder_service_self, modSource_service, hservice]
        case bank =>
          intro ch hch
          rw [enterRewriteOrder_bank, modSource_bank, hwas, offer_bank] at hch
          exact of_decide_eq_true (by simpa using (List.mem_filter.mp hch).2)
        case services =>
          intro j hj
          rw [enterRewriteOrder_service_ne _ _ _ _ _ _ hj, modSource_service, hwas, offer_service]
          exact (modService_service_ne _ _ hj).trans (modService_service_ne _ _ hj)
        case sources =>
          intro j hj
          rw [State.source, enterRewriteOrder_sources]
          exact (modSource_source_ne w f hj).trans (congrArg (fun t => vget t j) hsources)
        case alerts =>
          obtain ⟨hgroups, halerts, hactivations, hlink⟩ := enterRewriteOrder_sameAlerts x i e slot true o
            (w.modSource d.source f)
          rw [hwas] at hgroups halerts hactivations hlink ⊢
          exact ⟨hgroups.trans (offer_groups ..), halerts.trans (offer_alerts ..),
            hactivations.trans (offer_activations ..), hlink.trans (offer_link ..)⟩
        case fixed =>
          obtain ⟨hpending, hfree, hstraps, hroles⟩ := enterRewriteOrder_sameFixed x i e slot true o
            (w.modSource d.source f)
          rw [hwas] at hpending hfree hstraps hroles ⊢
          exact ⟨hpending.trans (offer_pending ..), hfree.trans (offer_freeIndex ..), hstraps.trans (offer_straps ..),
            hroles.trans (offer_roles ..)⟩
      case returns =>
        obtain ⟨hcons, hnetwork, hcomps⟩ := consult_returnsBreak (s := u) ha hb hsch hactive hret ht
          fun y hy => (hmore y hy).1
        have hpass := decidePacket_pass (r := e.readInfo i) (slot := slot)
          (s := leaveBreak i b.event (.ended r.origin.cause at_) u)
          (.inr ⟨n, c, (congrArg _ hcomps).trans hi, (congrArg (fun cs : List Component => cs[n]?) hcomps).trans hc,
            hca, hnetwork⟩)
        rw [hplaced hcons hpass]
        rfl
      case endsLocal =>
        obtain ⟨hcons, hnetwork, hcomps⟩ := consult_endsLocal (s := u) hcur hp hr ho ht hwait
        have hpass := decidePacket_pass (r := e.readInfo i) (slot := slot)
          (s := leaveSlot i l (.ended .endStamp at_) u)
          (.inr ⟨n, c, (congrArg _ hcomps).trans hi, (congrArg (fun cs : List Component => cs[n]?) hcomps).trans hc,
            hca, hnetwork⟩)
        rw [hplaced hcons hpass]
        rfl
      case startsLocal =>
        intro begun running
        have hmissed : slotMissedBefore (u.service i) p at_ u = none := slotMissedBefore_none hnotBypass hheld hlate hstop
        have hcons : consult i at_ u = (true, running) := consult_startsLocal (s := u) hcur hp hr hd hmissed hwait
        have hservice : running.service i = { v.setSlot l (some begun) with mode := .loc } :=
          (offer_service ..).trans (localStarted_service ..)
        have hcomps : (running.service i).comps = v.comps := by
          rw [hservice]
          exact setSlot_comps ..
        have hrunning : (running.service i).running = some (l, begun) := by
          rw [hservice]
          refine running_of_current ?_ ?_ rfl
          · cases l <;> exact hcur
          · cases l <;> rfl
        have hsource : running.source p.source = s.source p.source :=
          congrArg (fun t => vget t p.source) (offer_sources ..)
        have hdraw := decidePacket_firstOfLocal (r := e.readInfo i) (slot := slot) (s := running)
          ((congrArg _ hcomps).trans hi) ((congrArg (fun cs : List Component => cs[n]?) hcomps).trans hc) hca
          (congrArg Service.mode hservice) hrunning rfl ((congrArg Source.config hsource).trans hconf)
          (fun h => hfill ((congrArg Source.fill hsource).symm.trans h))
        rw [hplaced hcons hdraw, show (running.source begun.source).readIx = (s.source p.source).readIx from
          congrArg Source.readIx hsource]
        rfl
  case steps =>
    intro i t s v window endHead startSlot_ slotCause cause returns startBreak_ due
    have hslotCause (p : LocalProg) : slotMissedBefore v p t s = slotCause p := slotMissedBefore_eq v p t s
    have hcause (c : BreakEntry) : missedBefore i c t s = cause c := (missedBefore_eq i c t s).trans rfl
    have hreturns (y : BreakEntry) : y.startReturn t = returns y := by
      cases hd : y.duration <;> cases hr : y.ret <;> simp only [BreakEntry.startReturn, returns, hd, hr]
    have hstarted : BreakEntry.started t = fun y =>
        { y with state := .active, actualOut := some t, ret := returns y, underruns := 0, pcrOffset := none } := by
      funext y
      rw [BreakEntry.started, hreturns]
    have hstart {c e : BreakEntry} {d : Binding} {w : State} (he : (w.service i).findEntry c.event = some e)
        (hb : e.binding = some d) (hr : e.startReturn t = c.startReturn t)
        (hh : ∀ x, (w.service i).activeHead = some x → x.event ≠ c.event) :
        startBreak i c.event t w = startBreak_ c d w := by
      have hbound := startBreak_bound (t := t) he hb hh rfl
      rw [hstarted, hr, hreturns] at hbound
      exact hbound
    refine ⟨fun l p hc hp hr ht => localEndAt_ended (running_of_current hc hp hr) ht, localEndAt_runsOn,
      examineSlot_waits, fun l p hc hp hr hl => ?due, fun w h => localStartAt_started h, fun w h => localStartAt_waits h,
      fun w h => localStartAt_missed h, fun h r hh hr ht => ?returned, breakReturnAt_stays, breakStartAt_none,
      fun evs ev c hd => ?candidate, fun c k hk => examineCandidate_missed ((hcause c).trans hk),
      fun c hc hf hh => ?settled⟩
    case due =>
      have hdue : s.DueSlot i t l p := ⟨hc, hp, isDue_iff.mpr ⟨hr, hl⟩⟩
      intro src tied
      refine ⟨fun k hk => examineSlot_missed hdue ((hslotCause p).trans hk), fun hn hready => ?ready,
        fun hn hready hm => ⟨fun hd => ?noSource, fun q hd hq hne => ?busy, fun hd hq => ?attached⟩⟩
      case ready =>
        exact examineSlot_started hdue ((hslotCause p).trans hn) (resolveSlot_ready hready)
      case noSource =>
        exact examineSlot_refused (cause := .noSource) hdue ((hslotCause p).trans hn) hready ⟨hm, hd⟩
      case busy =>
        exact examineSlot_refused (cause := .sourceBusy) hdue ((hslotCause p).trans hn) hready ⟨hm, hd, q, hq, hne⟩
      case attached =>
        exact examineSlot_started hdue ((hslotCause p).trans hn) (resolveSlot_attached hready hm hd hq)
    case returned =>
      have horigin : r.origin.cause = if r.origin = .cueIn then .cueIn else .returned := by cases r.origin <;> rfl
      rw [breakReturnAt_returned hh hr ht, horigin]
    case candidate =>
      intro w hf
      rw [breakStartAt_last hd]
      exact congrArg (fun o : Option BreakEntry => o.elim (false, w) fun e => examineCandidate i e t w) hf
    case settled =>
      have hmissed : missedBefore i c t s = none := (hcause c).trans hc
      intro missed
      refine ⟨fun d hready hb => ?ready, fun hready hm hb => ?unbound, fun d hready hm hb => ?bound⟩
      case ready =>
        have hcandidate := examineCandidate_settled hmissed (settleSource_ready hready)
        rw [entryEmpty_bound hf hb, hstart hf hb rfl hh] at hcandidate
        exact ⟨fun he => hcandidate.trans (if_pos he), fun he => hcandidate.trans (if_neg (by simp [he]))⟩
      case unbound => exact examineCandidate_unsettled hmissed hf (settleSource_unbound hready hb)
      case bound =>
        intro own src tied
        refine ⟨fun hd => ?noSource, fun q hd hq hne => ?busy, fun hd hq => ?attached⟩
        case noSource =>
          exact examineCandidate_unsettled hmissed hf (settleSource_refused (cause := .noSource) hready hb ⟨hm, hd⟩)
        case busy =>
          exact examineCandidate_unsettled hmissed hf
            (settleSource_refused (cause := .sourceBusy) hready hb ⟨hm, hd, q, hq, hne⟩)
        case attached =>
          have hfound : (tied.service i).findEntry c.event = some { c with binding := some d } :=
            findEntry_modEntry (fun _ => rfl) hf
          have hempty : (tied.source d.source).isEmpty = src.isEmpty :=
            (congrArg Source.isEmpty (attachedTo_source (disarm own s) d.source own)).trans (attachTo_isEmpty ..)
          have hhead : ∀ y, (tied.service i).activeHead = some y → y.event ≠ c.event := fun y hy => by
            obtain ⟨z, hz, hev⟩ := activeHead_modEntry (f := fun y => { y with binding := some d })
              (s := (disarm own s).attachedTo d.source own) (fun _ => ⟨rfl, rfl⟩) hy
            exact hev ▸ hh z hz
          have hsettle : settleSource i c s = (none, tied) := settleSource_attached hready hb hm hd hq
          have hcandidate := examineCandidate_settled hmissed hsettle
          rw [entryEmpty_bound (s := tied) hfound rfl, hempty, hstart hfound rfl rfl hhead] at hcandidate
          exact ⟨fun he => hcandidate.trans (if_pos he), fun he => hcandidate.trans (if_neg (by simp [he]))⟩

end Sys2Proof.Machine
end
